-- ==== Sys2Proof/Word.lean ====
section
/-! DEFINITION. The word types of the Nurak and the field types of its instruction words:
register files, mask clauses, rounding modes, scopes, formats (02 R33-R53, 03 R59-R66). -/

namespace Sys2Proof

/-- A byte. -/
abbrev Byte := BitVec 8
/-- A 64-bit word: the width of x and f registers and of every CSR. -/
abbrev Word := BitVec 64
/-- A register number of the x or f file. -/
abbrev Reg := BitVec 5
/-- The bits of one vector register in element order. The architectural bits are those below the
hart's VLEN (01 R23); the type has the largest VLEN. -/
abbrev VBits := BitVec 16384
/-- A queue number (18 R382). -/
abbrev QNum := BitVec 12
/-- A continuation identifier (17 R375). -/
abbrev ContId := BitVec 32
/-- A die number (00 R13). -/
abbrev DieNo := BitVec 3

/-- Sign-extend to a 64-bit word. -/
abbrev sext64 {w : Nat} (b : BitVec w) : Word := b.signExtend 64
/-- Zero-extend to a 64-bit word. -/
abbrev zext64 {w : Nat} (b : BitVec w) : Word := b.zeroExtend 64

/-- Field [hi:lo] of a word as a number (00 R7). -/
abbrev fieldOf {w : Nat} (b : BitVec w) (hi lo : Nat) : Nat := (b.extractLsb' lo (hi - lo + 1)).toNat

/-- `b` with field [hi:lo] replaced by the low bits of `x`. -/
def setField {w : Nat} (b : BitVec w) (hi lo : Nat) (x : Nat) : BitVec w :=
  let m : BitVec w := ((BitVec.allOnes (hi - lo + 1)).zeroExtend w) <<< lo
  (b &&& ~~~m) ||| (((BitVec.ofNat (hi - lo + 1) x).zeroExtend w) <<< lo)

/-- The register file an operand field names (02 Table 2.5). -/
inductive File where
  | v | w | b | none_
  deriving DecidableEq, Repr

/-- An operand field of a block word: file code and index (02 Table 2.3). -/
structure Opnd where
  file : File
  ix : BitVec 5
  deriving DecidableEq, Repr

/-- Source B of a block word, which FORM selects (02 R38). -/
inductive BSrc where
  | reg (o : Opnd)
  | k (n : BitVec 3)
  | imm (i : BitVec 7)
  deriving DecidableEq, Repr

/-- The mask clause of a block word (02 Table 2.3, R53). -/
inductive Msk where
  | none_ | v0 | notV0 | ms | v0ms
  deriving DecidableEq, Repr

/-- A rounding mode field (02 Table 2.3). -/
inductive Rm where
  | rne | rtz | rdn | rup | rmm | dyn
  deriving DecidableEq, Repr

/-- The operand and option fields of a block word that has no layout of its own (02 Table 2.3). The
opcode and FN are those of the instruction that holds it. -/
structure VOp where
  d : Opnd
  a : Opnd
  b : BSrc
  c : Opnd
  msk : Msk
  rm : Rm
  imm16 : BitVec 16
  deriving DecidableEq, Repr

/-- A scope (02 Table 2.9, 16 Table 16.1). -/
inductive Scope where
  | hart | gang | cluster | die | package | system
  deriving DecidableEq, Repr

/-- An access width of XLDA and XSTL (03 Table 3.2). -/
inductive AccW where
  | b | h | w | d
  deriving DecidableEq, Repr

/-- Scalar loads, integer and floating point (02 R31, 03 Table 3.7). -/
inductive LoadKind where
  | lb | lh | lw | ld | lbu | lhu | lwu | flw | fld
  deriving DecidableEq, Repr

/-- Scalar stores. -/
inductive StoreKind where
  | sb | sh | sw | sd | fsw | fsd
  deriving DecidableEq, Repr

/-- The AMO operations of the A extension. -/
inductive AmoOp where
  | swap | add | xor | and | or | min | max | minu | maxu
  deriving DecidableEq, Repr

/-- Register-register integer operations of RV64I, M, Zba and Zbb. -/
inductive RrOp where
  | add | sub | sll | slt | sltu | xor | srl | sra | or | and
  | addw | subw | sllw | srlw | sraw
  | mul | mulh | mulhsu | mulhu | div | divu | rem | remu
  | mulw | divw | divuw | remw | remuw
  | sh1add | sh2add | sh3add | addUw | sh1addUw | sh2addUw | sh3addUw
  | andn | orn | xnor | max | maxu | min | minu | rol | ror | rolw | rorw
  deriving DecidableEq, Repr

/-- Register-immediate integer operations with a 12-bit immediate. -/
inductive RiOp where
  | addi | slti | sltiu | xori | ori | andi | addiw
  deriving DecidableEq, Repr

/-- Register-immediate shifts with a 6-bit amount. -/
inductive ShOp where
  | slli | srli | srai | rori | slliUw
  deriving DecidableEq, Repr

/-- Register-immediate word shifts with a 5-bit amount. -/
inductive ShwOp where
  | slliw | srliw | sraiw | roriw
  deriving DecidableEq, Repr

/-- One-source integer operations of Zbb. -/
inductive UnOp where
  | clz | ctz | cpop | clzw | ctzw | cpopw | sextb | sexth | zexth | orcb | rev8
  deriving DecidableEq, Repr

/-- An integer instruction of the standard opcodes OP-IMM, OP, OP-IMM-32, OP-32, LUI and AUIPC
(03 Table 3.7). -/
inductive IntForm where
  | rr (op : RrOp) (rd rs1 rs2 : Reg)
  | ri (op : RiOp) (rd rs1 : Reg) (imm : BitVec 12)
  | sh (op : ShOp) (rd rs1 : Reg) (sh : BitVec 6)
  | shw (op : ShwOp) (rd rs1 : Reg) (sh : BitVec 5)
  | un (op : UnOp) (rd rs1 : Reg)
  | lui (rd : Reg) (imm : BitVec 20)
  | auipc (rd : Reg) (imm : BitVec 20)
  deriving DecidableEq, Repr

/-- Scalar float width: F or D. -/
inductive FW where
  | s | d
  deriving DecidableEq, Repr

/-- Two-source rounding operations of F and D. -/
inductive FArith where
  | add | sub | mul | div
  deriving DecidableEq, Repr

/-- Fused multiply-add operations of F and D. -/
inductive FMulAdd where
  | madd | msub | nmsub | nmadd
  deriving DecidableEq, Repr

/-- Sign injection, minimum and maximum. -/
inductive FSelect where
  | sgnj | sgnjn | sgnjx | min | max
  deriving DecidableEq, Repr

/-- Float comparisons. -/
inductive FCmp where
  | eq | lt | le
  deriving DecidableEq, Repr

/-- Integer widths of the float conversions. -/
inductive CvtInt where
  | w | wu | l | lu
  deriving DecidableEq, Repr

/-- A scalar F or D computation. A rounding mode field is a raw 3-bit field (101 and 110 reserved). -/
inductive FpForm where
  | arith (op : FArith) (fw : FW) (rd rs1 rs2 : Reg) (rm : BitVec 3)
  | sqrt (fw : FW) (rd rs1 : Reg) (rm : BitVec 3)
  | fma (op : FMulAdd) (fw : FW) (rd rs1 rs2 rs3 : Reg) (rm : BitVec 3)
  | select (op : FSelect) (fw : FW) (rd rs1 rs2 : Reg)
  | cmp (op : FCmp) (fw : FW) (rd rs1 rs2 : Reg)
  | class_ (fw : FW) (rd rs1 : Reg)
  | toInt (i : CvtInt) (fw : FW) (rd rs1 : Reg) (rm : BitVec 3)
  | ofInt (i : CvtInt) (fw : FW) (rd rs1 : Reg) (rm : BitVec 3)
  | toFloat (fw : FW) (rd rs1 : Reg) (rm : BitVec 3)   -- fcvt.s.d (fw = s), fcvt.d.s (fw = d)
  | mvToX (fw : FW) (rd rs1 : Reg)
  | mvToF (fw : FW) (rd rs1 : Reg)
  deriving DecidableEq, Repr

/-- Branch conditions. -/
inductive BrOp where
  | eq | ne | lt | ge | ltu | geu
  deriving DecidableEq, Repr

/-- Control transfer (03 Table 3.7). Offsets are held without their zero bit 0. -/
inductive JumpForm where
  | br (op : BrOp) (rs1 rs2 : Reg) (off : BitVec 12)
  | jal (rd : Reg) (off : BitVec 20)
  | jalr (rd rs1 : Reg) (off : BitVec 12)
  deriving DecidableEq, Repr

/-- CSR instructions of Zicsr. -/
inductive CsrOp where
  | rw | rs | rc | rwi | rsi | rci
  deriving DecidableEq, Repr

/-- Integer compare conditions of VCMP (03 Table 3.1). -/
inductive VCc where
  | eq | ne | lt | ltu | le | leu | gt | gtu
  deriving DecidableEq, Repr

/-- Operand signs of VDOT (09 R212). -/
inductive DotOp where
  | ss | uu | su | us
  deriving DecidableEq, Repr

/-- Operations of VFMINMAX (10 R222). -/
inductive MinMaxOp where
  | min | max | minnum | maxnum
  deriving DecidableEq, Repr

/-- Compare conditions of VFCMP (10 R223). -/
inductive FCc where
  | eq | lt | le | unord
  deriving DecidableEq, Repr

/-- Members of VFCVT (10 Table 10.5). -/
inductive FCvt where
  | fwid | fnar | ftoi | fton | itof | ntof | fnars
  deriving DecidableEq, Repr

/-- Operations of VRED (11 Table 11.2). -/
inductive RedOp where
  | sum | and | or | xor | min | max | minu | maxu
  deriving DecidableEq, Repr

/-- Operations of VMLOG (11 R245). -/
inductive MlogOp where
  | and | or | xor | andn | not
  deriving DecidableEq, Repr

/-- Operations of VAMO (08 Table 8.2). -/
inductive VAmoOp where
  | add | and | or | xor | min | max | minu | maxu | swap | cas
  deriving DecidableEq, Repr

/-- Members of VTEXQ (12 R253). -/
inductive TexqOp where
  | size | lod
  deriving DecidableEq, Repr

/-- Culling of VRQTRI (12 R254). -/
inductive TriCull where
  | none_ | back | front
  deriving DecidableEq, Repr

/-- What VBIND binds a register to (06 Table 6.4). -/
inductive BindSrc where
  | streamIn (k : BitVec 3)
  | streamOut (k : BitVec 3)
  | chan
  | frag
  deriving DecidableEq, Repr

/-- Shape of a pinned group: n x n accumulators, n = 1, 2 or 4 (14 R296). -/
inductive PinShape where
  | s1 | s2 | s4
  deriving DecidableEq, Repr

/-- The TDISP states of a partition's TDI (21 R443). -/
inductive TdiState where
  | unlocked | locked | run | error
  deriving DecidableEq, Repr

/-- One place of a member hart on a core: the slot number is the hart slot (01 R23). -/
structure Place where
  die : DieNo
  cluster : BitVec 4
  core : BitVec 4
  slot : BitVec 3
  deriving DecidableEq, Repr

end Sys2Proof
end

