-- ==== Sys2Proof/Syntax.lean ====
section
/-! DEFINITION. The steps of the Nurak: one constructor for each row of the opcode table, in the
table's order. Rows with an instruction word carry its fields; rows of events carry what the agent
that starts the event supplies. Meaning is given under Machine/ alone. -/

namespace Sys2Proof

inductive Instr where
  -- custom-0 (03 Table 3.2)
  | vsetl (rd rs1 : Reg) (cfg : BitVec 8)
  | vsetli (rd : Reg) (n : BitVec 5) (cfg : BitVec 8)
  | vfetchPcrel (imm : BitVec 12)
  | vfetchReg (rs1 : Reg) (imm : BitVec 12)
  | vget (rd : Reg) (j : BitVec 2)
  | vwait
  | vfenceSv
  | vfenceVs
  | vfenceVv
  | xfence (sc : Scope)
  | xlda (sc : Scope) (wd : AccW) (rd rs1 : Reg)
  | xstl (sc : Scope) (wd : AccW) (rs1 rs2 : Reg)
  | xlook (rd rs1 : Reg)
  -- custom-1 (03 Table 3.3)
  | psetvl (rd rs1 : Reg) (cfg : BitVec 8)
  | gbar
  | gbara (rd : Reg)
  | gbarw (rs1 : Reg)
  | gbarx (rs1 : Reg)
  | hcont (rd : Reg) (y : BitVec 2)
  | hsend (rs1 rs2 : Reg)
  | hsendb (rs1 rs2 : Reg)
  | hwait (rd : Reg) (y : BitVec 2)
  | uiret
  | park
  -- custom-2 (03 Tables 3.4, 3.5)
  | mcfg (rs1 rs2 : Reg)
  | msync
  | mldt (t : BitVec 3) (rs1 rs2 : Reg)
  | mstt (t : BitVec 3) (rs1 rs2 : Reg)
  | mlda (t : BitVec 4) (rs1 rs2 : Reg)
  | msta (t : BitVec 4) (rs1 rs2 : Reg)
  | mzero (t : BitVec 4)
  | mma (d : BitVec 4) (a b : BitVec 3)
  | mmas (d : BitVec 4) (a b : BitVec 3)
  | mma64 (d : BitVec 4) (a b : BitVec 3)
  | mmal (d : BitVec 4) (a : BitVec 3) (rs2 : Reg)
  | mcvt (fmt : BitVec 4) (rm : Rm) (d : BitVec 3) (s : BitVec 4)
  | maccv (d : BitVec 5) (s : BitVec 4) (rs2 : Reg)
  | mvtile (d : BitVec 3) (s : BitVec 5)
  | mpin (o : BitVec 4) (g : PinShape) (rs1 : Reg)
  | munpin (o : BitVec 4)
  | mgdr (o : BitVec 4) (k : BitVec 5) (rs1 : Reg)
  | mgdrq (o : BitVec 4) (k : BitVec 5) (rs1 : Reg) (d : BitVec 5)
  | mqry (o : BitVec 4) (q : BitVec 5) (d : BitVec 5)
  | mspill (o : BitVec 4)
  | mfill (o : BitVec 4) (rs1 : Reg)
  | matrixEntryExecute
  -- custom-3 (03 Table 3.6)
  | ecpy (rd rs1 rs2 : Reg)
  | ecpys (rd rs1 rs2 : Reg)
  | egath (rd rs1 rs2 : Reg)
  | escat (rd rs1 rs2 : Reg)
  | ered (rd rs1 rs2 : Reg)
  | egcm (rd rs1 rs2 : Reg)
  | ewaitk (rd : Reg)
  | ctxsave (portable : Bool) (rs1 : Reg)
  | ctxload (portable : Bool) (rs1 : Reg)
  | pwflush (rs1 : Reg)
  -- standard scalar opcodes (03 Table 3.7)
  | scalarLoad (k : LoadKind) (rd rs1 : Reg) (imm : BitVec 12)
  | scalarStore (k : StoreKind) (rs1 rs2 : Reg) (imm : BitVec 12)
  | fence (fm pred succ : BitVec 4) (rs1 rd : Reg)
  | fenceTso (rs1 rd : Reg)
  | fenceI (imm : BitVec 12) (rs1 rd : Reg)
  | lr (dbl aq rl : Bool) (rd rs1 : Reg)
  | sc (dbl aq rl : Bool) (rd rs1 rs2 : Reg)
  | amo (op : AmoOp) (dbl aq rl : Bool) (rd rs1 rs2 : Reg)
  | amocasW (aq rl : Bool) (rd rs1 rs2 : Reg)
  | amocasD (aq rl : Bool) (rd rs1 rs2 : Reg)
  | amocasQ (aq rl : Bool) (rd rs1 rs2 : Reg)
  | integerOp (f : IntForm)
  | fpOp (f : FpForm)
  | branchJump (f : JumpForm)
  | ecall
  | ebreak
  | sret
  | mret
  | wfi
  | sfenceVma (rs1 rs2 : Reg)
  | csrInstruction (op : CsrOp) (csr : BitVec 12) (rd : Reg) (src : BitVec 5)
  | fcsrAccess (op : CsrOp) (csr : BitVec 12) (rd : Reg) (src : BitVec 5)
  | vlutAccess (op : CsrOp) (csr : BitVec 12) (rd : Reg) (src : BitVec 5)
  -- block words: memory (08)
  | vle (o : VOp)
  | vse (o : VOp)
  | vlse (o : VOp)
  | vsse (o : VOp)
  | vlxe (o : VOp)
  | vsxe (o : VOp)
  | vlseg (o : VOp)
  | vsseg (o : VOp)
  | vlff (o : VOp)
  | vlwr (o : VOp)
  | vswr (o : VOp)
  | vpref (o : VOp)
  | vamo (op : VAmoOp) (o : VOp)
  /-- A pager's fault reply with payload `p` reaches the context that `target` names (04 R84). -/
  | faultReply (target : ContId) (p : Word)
  -- block words: integer (09)
  | vadd (o : VOp)
  | vsub (o : VOp)
  | vrsub (o : VOp)
  | vmul (o : VOp)
  | vmulh (o : VOp)
  | vmulhu (o : VOp)
  | vmulhsu (o : VOp)
  | vmacc (o : VOp)
  | vnmsac (o : VOp)
  | vmadd (o : VOp)
  | vdiv (o : VOp)
  | vdivu (o : VOp)
  | vrem (o : VOp)
  | vremu (o : VOp)
  | vmin (o : VOp)
  | vmax (o : VOp)
  | vminu (o : VOp)
  | vmaxu (o : VOp)
  | vand (o : VOp)
  | vor (o : VOp)
  | vxor (o : VOp)
  | vandn (o : VOp)
  | vsll (o : VOp)
  | vsrl (o : VOp)
  | vsra (o : VOp)
  | vsadd (o : VOp)
  | vsaddu (o : VOp)
  | vssub (o : VOp)
  | vssubu (o : VOp)
  | vavg (o : VOp)
  | vavgu (o : VOp)
  | vabsd (o : VOp)
  | vwadd (o : VOp)
  | vwaddu (o : VOp)
  | vwsub (o : VOp)
  | vwmul (o : VOp)
  | vwmulu (o : VOp)
  | vwmacc (o : VOp)
  | vnsrl (o : VOp)
  | vnclip (o : VOp)
  | vnclipu (o : VOp)
  | vsext (o : VOp)
  | vzext (o : VOp)
  | vcmp (cc : VCc) (o : VOp)
  | vmerge (o : VOp)
  | vmv (o : VOp)
  | vclz (o : VOp)
  | vctz (o : VOp)
  | vpopc (o : VOp)
  | vdot (op : DotOp) (o : VOp)
  | vlut4 (o : VOp)
  -- block words: floating point (10)
  | vfadd (o : VOp)
  | vfsub (o : VOp)
  | vfmul (o : VOp)
  | vfdiv (o : VOp)
  | vfsqrt (o : VOp)
  | vfmadd (o : VOp)
  | vfmsub (o : VOp)
  | vfnmadd (o : VOp)
  | vfnmsub (o : VOp)
  | vfmin (o : VOp)
  | vfmax (o : VOp)
  | vfminmax (op : MinMaxOp) (o : VOp)
  | vfcmp (cc : FCc) (o : VOp)
  | vfclass (o : VOp)
  | vfsgnj (o : VOp)
  | vfsgnjn (o : VOp)
  | vfsgnjx (o : VOp)
  | vfcvt (op : FCvt) (o : VOp)
  | vfrcp (o : VOp)
  | vfrsqrt (o : VOp)
  | vfdot2 (o : VOp)
  | vfwma (o : VOp)
  | vfrnd (o : VOp)
  -- block words: permutes, reductions, masks (11)
  | vslideup (o : VOp)
  | vslidedn (o : VOp)
  | vslide1up (o : VOp)
  | vslide1dn (o : VOp)
  | vperm (o : VOp)
  | vcompress (o : VOp)
  | viota (o : VOp)
  | vid (o : VOp)
  | vred (op : RedOp) (o : VOp)
  | vfredsum (o : VOp)
  | vfredosum (o : VOp)
  | vfredmin (o : VOp)
  | vfredmax (o : VOp)
  | vxget (o : VOp)
  | vmlog (op : MlogOp) (o : VOp)
  | vmpopc (o : VOp)
  | vmfirst (o : VOp)
  | vmsbf (o : VOp)
  | vmsif (o : VOp)
  | vmsof (o : VOp)
  | vmspush (o : VOp)
  | vmselse (o : VOp)
  | vmspop (o : VOp)
  | vmsbrk (o : VOp)
  | vmsany (o : VOp)
  -- block words: texture, ray, export (12, 15)
  | vtexs (o : VOp)
  | vtexl (o : VOp)
  | vtexd (o : VOp)
  | vtexf (o : VOp)
  | vtexg4 (ch : BitVec 2) (o : VOp)
  | vtexq (op : TexqOp) (o : VOp)
  | vrqbox (o : VOp)
  | vrqtri (op : TriCull) (o : VOp)
  | vexport (o : VOp)
  -- block words: bind, sync, block control (06, 16, 17)
  | vbind (d : BitVec 2) (src : BindSrc)
  | vunbind (d : BitVec 2)
  | vlsync
  | vstop
  -- events of a hart
  /-- A waiting channel push or pop of the current hart proceeds (06 R145). -/
  | channelRingTransfer
  /-- The current hart takes a trap with this cause, trap value and subcode (19 R409). -/
  | trapEntry (cause : BitVec 8) (tval : Word) (sub : BitVec 16)
  | uiPost (target : ContId) (code : BitVec 8) (info : BitVec 32)
  | uiEntry
  | shapeChangeNotice (target : ContId) (window : BitVec 32)
  | noticeWindowExpiry (target : ContId)
  /-- A message from `sender` reaches the register that `target` (the sender's x[rs1]) names;
  `blk` says that an HSENDB sent it (17 R378). -/
  | messageDelivery (sender : ContId) (target : Word) (blk : Bool) (payload : BitVec 512)
  | messageDivert (sender : ContId) (target : Word) (blk : Bool) (payload : BitVec 512)
  | inboxDelivery (target : ContId)
  | hartRetire (target : ContId)
  | pinnedRefill (o : BitVec 4)
  | pinnedEvict (target : ContId) (o : BitVec 4)
  | scratchpadEvict (target : ContId)
  | scratchpadStreamIn (target : ContId)
  | apertureRetry
  | corePowerGate (core : BitVec 11)
  -- events of the fabric
  | shadowEntryWrite (i : BitVec 8) (second : Bool) (v : Word)
  | swap
  | swapBroadcastArrival (die : DieNo)
  | dieAcknowledge (die : DieNo)
  /-- The `i`-th request in flight reaches a die (04 R75). -/
  | routedRequestArrival (i : BitVec 16) (die : DieNo)
  | windowTableWrite (p : BitVec 7) (i : BitVec 4) (w0 w1 : Word)
  | circuitSetUp (i : BitVec 8) (w0 : Word)
  | circuitTearDown (i : BitVec 8)
  | circuitUp (i : BitVec 8)
  | circuitDown (i : BitVec 8)
  | kick (engine : BitVec 9) (payload : Word)
  | kickRecordFill (engine : BitVec 9)
  | microcodeLoad (engine : BitVec 9) (verified : Bool) (image : List (BitVec 8))
  | registerWrite (pa : BitVec 52) (v : Word)
  -- queues (18)
  | queueCreate (q : QNum) (create : Bool) (desc : List Word)
  | notify (q : QNum) (v : Word)
  | reportQueueNotify (q : QNum) (v : Word)
  | dispatch (q : QNum)
  | streamjob (q : QNum)
  | waitsig (q : QNum)
  | setsig (q : QNum)
  | indirect (q : QNum)
  | copy (q : QNum)
  | copyComplete (q : QNum) (pktix : Word)
  | drainMode0 (q : QNum)
  | drainMode1 (q : QNum)
  | drainMode2 (q : QNum)
  | drainComplete (q : QNum)
  | destroyMode0 (q : QNum)
  | destroyMode1 (q : QNum)
  | destroyComplete (q : QNum)
  | resetpart (q : QNum)
  | timerset (q : QNum)
  | reportWrite (q : QNum)
  /-- Ferryman picks for a partition; `spread` says how many gangs of each candidate would be placed on each
  die (18 R398). -/
  | jobPick (part : BitVec 7) (spread : List (QNum × DieNo × BitVec 32))
  /-- The cluster supervisor places gang `gang` of job `job` at these places (17 R361, 18 R400). -/
  | gangPlace (job : BitVec 32) (gang : BitVec 32) (places : List Place)
  | jobComplete (job : BitVec 32)
  | energyWindowStart (die : DieNo)
  | watchdogExpiry (q : QNum) (pktix : Word)
  | clockChange (die : DieNo) (mhz : BitVec 12)
  -- graphics agents (15)
  | beginpass (q : QNum)
  | state (q : QNum)
  | draw (q : QNum)
  | drawmesh (q : QNum)
  | drawind (q : QNum)
  | endpass (q : QNum)
  | geometryGangLaunch (die : DieNo) (ctx : BitVec 4) (places : List Place)
  | batchClose (die : DieNo) (ctx : BitVec 4) (draw batch : BitVec 32)
  | primitiveLand (die : DieNo) (ctx : BitVec 4) (ticket : Word)
  /-- The rasteriser emits the next quad of its oldest released primitive; `member` is the fragment
  hart that receives it (15 R335, R338). -/
  | fragmentEmit (die : DieNo) (ctx : BitVec 4) (member : ContId)
  | fragmentGangLaunch (die : DieNo) (ctx : BitVec 4) (draw : BitVec 32) (tx ty : BitVec 16)
      (places : List Place)
  | fragmentStreamEnd (member : ContId)
  | blendApply (die : DieNo) (ctx : BitVec 4) (tx ty : BitVec 16) (i : BitVec 16)
  | renderContextSave (die : DieNo) (ctx : BitVec 4)
  | renderContextRestore (die : DieNo) (ctx : BitVec 4)
  -- memory, package, boot, host (04, 21)
  | patrolScrub (granule : BitVec 46) (correctable : Bool)
  | poisonListFree (granules : List (BitVec 46))
  | cxlPortDown (port : BitVec 2)
  | peerFrameReceive (port : BitVec 3) (entry : BitVec 8) (seq : BitVec 32) (crcOk : Bool)
      (payload : List (BitVec 8))
  | peerLinkFail (port : BitVec 3)
  /-- Cold reset: what the boot ROM finds of the image in flash (21 R438). -/
  | coldReset (ecdsaOk lmsOk versionOk : Bool)
  | recoveryImageWrite (ecdsaOk lmsOk versionOk : Bool)
  /-- Training of the dies: ports that trained, cache dies that passed, and what firmware measured of
  the package for the capability table (21 R440, R441). -/
  | dieTraining (ports caches : BitVec 8) (farMode : BitVec 8) (farGib : List (BitVec 32))
      (powerReq powerLo powerHi : BitVec 32) (timeHz : Word) (ebudget : List (BitVec 32))
      (peers hostW hostGt : BitVec 8) (fwVer : BitVec 32)
  | getMeasurements (ix : BitVec 8)
  | setkey (part : BitVec 7) (slot : BitVec 6) (key : BitVec 256) (txfix rxfix : BitVec 32)
  | tdispStateChange (part : BitVec 7) (st : TdiState)
  | tdiError (part : BitVec 7)
  | flitReplay (stream : BitVec 4) (seq : BitVec 16)
  | kSetStop (stream : BitVec 4) (set : Bool)
  | thermalThrottle (die : BitVec 4) (sensor : BitVec 4) (temp : BitVec 16) (mhz : BitVec 12)
  | thermalTrip (die : BitVec 4) (sensor : BitVec 4)
  /-- An access of the host port: `write` is the doubleword of a posted write, or none for a read;
  `tdi` is the partition whose assigned TDI issued it (16 R359). -/
  | hostPortAccess (pa : BitVec 52) (write : Option Word) (tdi : Option (BitVec 7))
  | corePowerRestore (core : BitVec 11)
  deriving DecidableEq, Repr

end Sys2Proof
end

