-- ==== Sys2Proof/WellFormed.lean ====
section
/-! DEFINITION. Which instructions have a word: the encoding rules of R35 to R41, R58 to R65 and of
each entry that can be judged from the word alone (the first check of R42). A word that breaks one of
them is refused by the decoder and raises illegal-instruction when it is executed. -/

namespace Sys2Proof

/-- What an operand field of a block word may hold, as the entry's table gives it. -/
inductive Role where
  /-- File code 11 with index 0. -/
  | absent
  /-- A v, w or b register. -/
  | any
  /-- A v register. -/
  | v
  /-- A v, w or b register, or absent. -/
  | anyOpt
  /-- A v register, or absent. -/
  | vOpt
  /-- A return slot: DF = 11, DIX[4:2] = 000 (R40, R60). -/
  | ret
  deriving DecidableEq, Repr

/-- Which mask clauses an entry permits. -/
inductive MskRule where
  | free | unmasked | v0Only
  deriving DecidableEq, Repr

/-- The static limits of one row of Tables 8.1, 9.1, 10.1, 11.1, 12.1 and R328. -/
structure VShape where
  reg : Bool := false
  k : Bool := false
  imm : Bool := false
  d : Role := .any
  a : Role := .any
  b : Role := .any
  c : Role := .absent
  rnd : Bool := false
  msk : MskRule := .free
  /-- A masked word may write a group that holds v0 (R40). -/
  v0ok : Bool := false

/-- An operand is a register that exists (Table 2.5). -/
def Opnd.isReg (o : Opnd) : Bool :=
  match o.file with
  | .v => true
  | .w => decide (o.ix.toNat < 8)
  | .b => decide (o.ix.toNat < 4)
  | .none_ => false

/-- The absent operand. -/
def Opnd.absent : Opnd := ⟨.none_, 0⟩

/-- An operand fits its role (R37, R40, R60). -/
def Role.ok (r : Role) (o : Opnd) : Bool :=
  match r with
  | .absent => decide (o = Opnd.absent)
  | .any => o.isReg
  | .v => decide (o.file = .v)
  | .anyOpt => o.isReg || decide (o = Opnd.absent)
  | .vOpt => decide (o.file = .v) || decide (o = Opnd.absent)
  | .ret => decide (o.file = .none_) && decide (o.ix.toNat < 4)

/-- Source B has a form that the row lists, with its operand (R38, R59). -/
def VShape.bOk (s : VShape) (b : BSrc) : Bool :=
  match b with
  | .reg o => s.reg && s.b.ok o
  | .k _ => s.k
  | .imm _ => s.imm

/-- The operand and option fields obey the row. -/
def VShape.ok (s : VShape) (o : VOp) : Bool :=
  s.d.ok o.d && s.a.ok o.a && s.bOk o.b && s.c.ok o.c
    && (s.rnd || decide (o.rm = .rne))
    && (match s.msk with
        | .free => true
        | .unmasked => decide (o.msk = .none_)
        | .v0Only => decide (o.msk = .v0))
    && (s.v0ok || decide (o.msk = .none_) || !decide (o.d = ⟨.v, 0⟩))

/-- A memory format code of Table 2.10. -/
abbrev fmtOk (imm : BitVec 16) : Bool := decide (fieldOf imm 3 0 ≤ 8)

/-- A format whose memory element may be a fraction of a byte whatever the SEW (R173, R174). -/
abbrev fmtSubByte (imm : BitVec 16) : Bool :=
  decide (5 ≤ fieldOf imm 3 0) && decide (fieldOf imm 3 0 ≤ 7)

/-- RM of a store: a store with FMT native does not round (R178). -/
abbrev storeRmOk (o : VOp) : Bool := decide (o.rm = .rne) || decide (fieldOf o.imm16 3 0 ≠ 0)

/-- g of VLWR and VSWR (Table 8.1). -/
abbrev wholeG (imm : BitVec 16) : Nat := 2 ^ fieldOf imm 1 0

namespace VShape
def vv : VShape := { reg := true }
def vs : VShape := { k := true }
def vvvs : VShape := { reg := true, k := true }
def vvvsvi : VShape := { reg := true, k := true, imm := true }
def mac : VShape := { vvvs with c := .any }
def un : VShape := { vv with b := .absent }
def load : VShape := { vs with a := .absent }
def store : VShape := { vs with d := .absent, rnd := true }
def ray : VShape := { k := true, d := .v, a := .v, c := .v }
def tex (c : Role) : VShape := { k := true, d := .v, a := .v, c := c }
end VShape

/-- The ranges of two operand groups share a register. -/
abbrev rangesMeet (a n b m : Nat) : Bool := decide (a < b + m) && decide (b < a + n)

/-- Ray operands: 8 ray registers, one index register, `n` results, all below v32, with no result
register a source (R254, R255). -/
def rayOk (n : Nat) (o : VOp) : Bool :=
  let d := o.d.ix.toNat
  let a := o.a.ix.toNat
  let c := o.c.ix.toNat
  decide (d + n ≤ 32) && decide (a + 8 ≤ 32) && !rangesMeet d n a 8 && !rangesMeet d n c 1
    && decide (o.imm16 = 0)

/-- IMM16 of a texture word (Table 12.1): bit 3 and bits [15:10] are 0. -/
def texImmOk (imm : BitVec 16) : Bool :=
  decide (fieldOf imm 3 3 = 0) && decide (fieldOf imm 15 10 = 0)

/-- VEXPORT's kinds and register ranges (R328, R329). -/
def exportOk (o : VOp) : Bool :=
  let kind := fieldOf o.imm16 1 0
  let n := fieldOf o.imm16 3 2 + 1
  let a := o.a.ix.toNat
  decide (fieldOf o.imm16 15 4 = 0) &&
  (match kind with
   | 0 => decide (n = 1) && decide (o.b = .reg Opnd.absent) && decide (a + 9 ≤ 32)
   | 1 => decide (o.b = .reg Opnd.absent) && decide (a + 4 * n ≤ 32)
   | 2 => (match o.b with
           | .reg r => decide (r.file = .v)
           | .k _ | .imm _ => false) && decide (a + 4 * n ≤ 32)
   | _ => false)

/-- A rounding mode field of a scalar float word: 101 and 110 are reserved. -/
abbrev frmFieldOk (rm : BitVec 3) : Bool := decide (rm ≠ 5) && decide (rm ≠ 6)

/-- The rounding mode field of a scalar float word, where it has one, is not reserved. -/
def FpForm.wf : FpForm → Bool
  | .arith _ _ _ _ _ rm => frmFieldOk rm
  | .sqrt _ _ _ rm => frmFieldOk rm
  | .fma _ _ _ _ _ _ rm => frmFieldOk rm
  | .toInt _ _ _ _ rm => frmFieldOk rm
  | .ofInt _ _ _ _ rm => frmFieldOk rm
  | .toFloat _ _ _ rm => frmFieldOk rm
  | .select .. | .cmp .. | .class_ .. | .mvToX .. | .mvToF .. => true

/-- CSR addresses whose accesses wait for the hart's blocks because they hold the rounding mode, the
flags or the compatibility modes (R168, R169). -/
abbrev isFcsrAddr (a : BitVec 12) : Bool :=
  decide (a = 0x001) || decide (a = 0x002) || decide (a = 0x003) || decide (a = 0x5C2)

/-- The CSR addresses of the legacy table (R213). -/
abbrev isVlutAddr (a : BitVec 12) : Bool := decide (a = 0x8C1) || decide (a = 0x8C2)

abbrev isOdd (r : Reg) : Bool := decide (r.toNat % 2 = 1)

/-- The tiles of a pinned group (R64, R296). -/
def PinShape.side : PinShape → Nat
  | .s1 => 1 | .s2 => 2 | .s4 => 4

/-- The instruction has a word: every limit that the word alone decides holds. Events have no word and
are well formed whatever their arguments. -/
def Instr.wf : Instr → Bool
  | .vfetchReg rs1 _ => decide (rs1 ≠ 0)
  | .mcvt fmt _ _ _ => decide (1 ≤ fmt.toNat) && decide (fmt.toNat ≤ 7)
  | .mpin o g _ => decide (o.toNat % (g.side * g.side) = 0)
  | .fence fm pred succ _ _ => !(decide (fm = 8) && decide (pred = 3) && decide (succ = 3))
  | .amocasQ _ _ rd _ rs2 => !isOdd rd && !isOdd rs2
  | .fpOp f => f.wf
  | .csrInstruction _ csr _ _ => !isFcsrAddr csr && !isVlutAddr csr
  | .fcsrAccess _ csr _ _ => isFcsrAddr csr
  | .vlutAccess _ csr _ _ => isVlutAddr csr
  -- memory (Table 8.1, R172, R173)
  | .vle o => VShape.load.ok o && fmtOk o.imm16 && decide (fieldOf o.imm16 15 4 = 0)
  | .vse o => VShape.store.ok o && storeRmOk o && fmtOk o.imm16 && decide (fieldOf o.imm16 15 4 = 0)
  | .vlse o => VShape.load.ok o && fmtOk o.imm16 && !fmtSubByte o.imm16
      && decide (fieldOf o.imm16 15 7 = 0)
  | .vsse o => VShape.store.ok o && storeRmOk o && fmtOk o.imm16 && !fmtSubByte o.imm16
      && decide (fieldOf o.imm16 15 7 = 0)
  | .vlxe o => ({ VShape.vs with a := .v } : VShape).ok o && fmtOk o.imm16 && !fmtSubByte o.imm16
      && decide (fieldOf o.imm16 15 4 = 0)
  | .vsxe o => ({ VShape.store with c := .v } : VShape).ok o && storeRmOk o && fmtOk o.imm16
      && !fmtSubByte o.imm16 && decide (fieldOf o.imm16 15 4 = 0)
  | .vlseg o => ({ VShape.load with d := .v } : VShape).ok o && fmtOk o.imm16 && !fmtSubByte o.imm16
      && decide (fieldOf o.imm16 6 4 ≠ 0) && decide (fieldOf o.imm16 15 7 = 0)
  | .vsseg o => ({ VShape.store with a := .v } : VShape).ok o && storeRmOk o && fmtOk o.imm16
      && !fmtSubByte o.imm16 && decide (fieldOf o.imm16 6 4 ≠ 0) && decide (fieldOf o.imm16 15 7 = 0)
  | .vlff o => VShape.load.ok o && fmtOk o.imm16 && decide (fieldOf o.imm16 15 6 = 0)
  | .vlwr o => ({ VShape.load with d := .v, msk := .unmasked } : VShape).ok o
      && decide (fieldOf o.imm16 15 2 = 0) && decide (o.d.ix.toNat % wholeG o.imm16 = 0)
  | .vswr o => ({ VShape.vs with d := .absent, a := .v, msk := .unmasked } : VShape).ok o
      && decide (fieldOf o.imm16 15 2 = 0) && decide (o.a.ix.toNat % wholeG o.imm16 = 0)
  | .vpref o => ({ VShape.vs with d := .absent, a := .absent } : VShape).ok o && fmtOk o.imm16
      && decide (fieldOf o.imm16 15 5 = 0)
  | .vamo op o => ({ VShape.vs with d := .anyOpt, a := .v, c := .any } : VShape).ok o
      && decide (o.imm16.toNat < 6) && (decide (op ≠ .cas) || decide (o.d ≠ Opnd.absent))
  -- integer (Table 9.1)
  | .vadd o => VShape.vvvsvi.ok o && decide (o.imm16 = 0)
  | .vsub o => VShape.vvvs.ok o && decide (o.imm16 = 0)
  | .vrsub o => ({ k := true, imm := true } : VShape).ok o && decide (o.imm16 = 0)
  | .vmul o => VShape.vvvs.ok o && decide (o.imm16 = 0)
  | .vmulh o => VShape.vvvs.ok o && decide (o.imm16 = 0)
  | .vmulhu o => VShape.vvvs.ok o && decide (o.imm16 = 0)
  | .vmulhsu o => VShape.vvvs.ok o && decide (o.imm16 = 0)
  | .vmacc o => VShape.mac.ok o && decide (o.imm16 = 0)
  | .vnmsac o => VShape.mac.ok o && decide (o.imm16 = 0)
  | .vmadd o => VShape.mac.ok o && decide (o.imm16 = 0)
  | .vdiv o => VShape.vvvs.ok o && decide (o.imm16 = 0)
  | .vdivu o => VShape.vvvs.ok o && decide (o.imm16 = 0)
  | .vrem o => VShape.vvvs.ok o && decide (o.imm16 = 0)
  | .vremu o => VShape.vvvs.ok o && decide (o.imm16 = 0)
  | .vmin o => VShape.vvvsvi.ok o && decide (o.imm16 = 0)
  | .vmax o => VShape.vvvsvi.ok o && decide (o.imm16 = 0)
  | .vminu o => VShape.vvvsvi.ok o && decide (o.imm16 = 0)
  | .vmaxu o => VShape.vvvsvi.ok o && decide (o.imm16 = 0)
  | .vand o => VShape.vvvsvi.ok o && decide (o.imm16 = 0)
  | .vor o => VShape.vvvsvi.ok o && decide (o.imm16 = 0)
  | .vxor o => VShape.vvvsvi.ok o && decide (o.imm16 = 0)
  | .vandn o => VShape.vvvsvi.ok o && decide (o.imm16 = 0)
  | .vsll o => VShape.vvvsvi.ok o && decide (o.imm16 = 0)
  | .vsrl o => VShape.vvvsvi.ok o && decide (o.imm16 = 0)
  | .vsra o => VShape.vvvsvi.ok o && decide (o.imm16 = 0)
  | .vsadd o => VShape.vvvsvi.ok o && decide (o.imm16 = 0)
  | .vsaddu o => VShape.vvvsvi.ok o && decide (o.imm16 = 0)
  | .vssub o => VShape.vvvsvi.ok o && decide (o.imm16 = 0)
  | .vssubu o => VShape.vvvsvi.ok o && decide (o.imm16 = 0)
  | .vavg o => ({ VShape.vvvs with rnd := true } : VShape).ok o && decide (o.imm16 = 0)
  | .vavgu o => ({ VShape.vvvs with rnd := true } : VShape).ok o && decide (o.imm16 = 0)
  | .vabsd o => VShape.vvvs.ok o && decide (o.imm16 = 0)
  | .vwadd o => ({ VShape.vvvs with d := .v } : VShape).ok o && decide (o.imm16 = 0)
  | .vwaddu o => ({ VShape.vvvs with d := .v } : VShape).ok o && decide (o.imm16 = 0)
  | .vwsub o => ({ VShape.vvvs with d := .v } : VShape).ok o && decide (o.imm16 = 0)
  | .vwmul o => ({ VShape.vvvs with d := .v } : VShape).ok o && decide (o.imm16 = 0)
  | .vwmulu o => ({ VShape.vvvs with d := .v } : VShape).ok o && decide (o.imm16 = 0)
  | .vwmacc o => ({ VShape.vvvs with d := .v, c := .v } : VShape).ok o && decide (o.imm16 = 0)
  | .vnsrl o => ({ VShape.vvvsvi with a := .v } : VShape).ok o && decide (o.imm16 = 0)
  | .vnclip o => ({ VShape.vvvsvi with a := .v, rnd := true } : VShape).ok o && decide (o.imm16 = 0)
  | .vnclipu o => ({ VShape.vvvsvi with a := .v, rnd := true } : VShape).ok o && decide (o.imm16 = 0)
  | .vsext o => VShape.un.ok o && decide (1 ≤ o.imm16.toNat) && decide (o.imm16.toNat ≤ 3)
  | .vzext o => VShape.un.ok o && decide (1 ≤ o.imm16.toNat) && decide (o.imm16.toNat ≤ 3)
  | .vcmp _ o => ({ VShape.vvvsvi with v0ok := true } : VShape).ok o && decide (o.imm16 = 0)
  | .vmerge o => ({ VShape.vvvsvi with msk := .v0Only } : VShape).ok o && decide (o.imm16 = 0)
  | .vmv o => ({ VShape.vvvsvi with a := .absent } : VShape).ok o && decide (o.imm16 = 0)
  | .vclz o => VShape.un.ok o && decide (o.imm16 = 0)
  | .vctz o => VShape.un.ok o && decide (o.imm16 = 0)
  | .vpopc o => VShape.un.ok o && decide (o.imm16 = 0)
  | .vdot _ o => ({ VShape.vv with c := .any } : VShape).ok o && decide (o.imm16.toNat < 3)
  | .vlut4 o => VShape.un.ok o && decide (o.imm16 = 0)
  -- floating point (Tables 10.1, 10.5)
  | .vfadd o => ({ VShape.vvvs with rnd := true } : VShape).ok o && decide (o.imm16 = 0)
  | .vfsub o => ({ VShape.vvvs with rnd := true } : VShape).ok o && decide (o.imm16 = 0)
  | .vfmul o => ({ VShape.vvvs with rnd := true } : VShape).ok o && decide (o.imm16 = 0)
  | .vfdiv o => ({ VShape.vvvs with rnd := true } : VShape).ok o && decide (o.imm16 = 0)
  | .vfsqrt o => ({ VShape.un with rnd := true } : VShape).ok o && decide (o.imm16 = 0)
  | .vfmadd o => ({ VShape.mac with rnd := true } : VShape).ok o && decide (o.imm16 = 0)
  | .vfmsub o => ({ VShape.mac with rnd := true } : VShape).ok o && decide (o.imm16 = 0)
  | .vfnmadd o => ({ VShape.mac with rnd := true } : VShape).ok o && decide (o.imm16 = 0)
  | .vfnmsub o => ({ VShape.mac with rnd := true } : VShape).ok o && decide (o.imm16 = 0)
  | .vfmin o => VShape.vvvs.ok o && decide (o.imm16 = 0)
  | .vfmax o => VShape.vvvs.ok o && decide (o.imm16 = 0)
  | .vfminmax _ o => VShape.vvvs.ok o && decide (o.imm16 = 0)
  | .vfcmp _ o => ({ VShape.vvvs with v0ok := true } : VShape).ok o && decide (o.imm16 = 0)
  | .vfclass o => VShape.un.ok o && decide (o.imm16 = 0)
  | .vfsgnj o => VShape.vvvs.ok o && decide (o.imm16 = 0)
  | .vfsgnjn o => VShape.vvvs.ok o && decide (o.imm16 = 0)
  | .vfsgnjx o => VShape.vvvs.ok o && decide (o.imm16 = 0)
  | .vfcvt .fwid o => VShape.un.ok o && decide (o.imm16 = 0)
  | .vfcvt .fnar o => ({ VShape.un with a := .v, rnd := true } : VShape).ok o && decide (o.imm16 = 0)
  | .vfcvt .fnars o => ({ VShape.un with a := .v, rnd := true } : VShape).ok o && decide (o.imm16 = 0)
  | .vfcvt .ftoi o => ({ VShape.un with rnd := true } : VShape).ok o && decide (o.imm16.toNat < 6)
  | .vfcvt .fton o => ({ VShape.un with rnd := true } : VShape).ok o && decide (o.imm16.toNat < 6)
  | .vfcvt .itof o => ({ VShape.un with rnd := true } : VShape).ok o && decide (o.imm16.toNat < 6)
  | .vfcvt .ntof o => ({ VShape.un with rnd := true } : VShape).ok o && decide (o.imm16.toNat < 6)
  | .vfrcp o => ({ VShape.un with rnd := true } : VShape).ok o && decide (o.imm16 = 0)
  | .vfrsqrt o => ({ VShape.un with rnd := true } : VShape).ok o && decide (o.imm16 = 0)
  | .vfdot2 o => ({ VShape.mac with rnd := true } : VShape).ok o && decide (o.imm16 = 0)
  | .vfwma o => ({ VShape.mac with d := .v, c := .v, rnd := true } : VShape).ok o
      && decide (o.imm16 = 0)
  | .vfrnd o => ({ VShape.un with rnd := true } : VShape).ok o && decide (o.imm16 = 0)
  -- permutes and reductions (Table 11.1)
  | .vslideup o => ({ k := true, imm := true } : VShape).ok o && decide (o.imm16 = 0)
  | .vslidedn o => ({ k := true, imm := true } : VShape).ok o && decide (o.imm16 = 0)
  | .vslide1up o => VShape.vs.ok o && decide (o.imm16 = 0)
  | .vslide1dn o => VShape.vs.ok o && decide (o.imm16 = 0)
  | .vperm o => VShape.vv.ok o && decide (o.imm16 = 0)
  | .vcompress o => ({ VShape.vv with msk := .unmasked } : VShape).ok o && decide (o.imm16 = 0)
  | .viota o => VShape.un.ok o && decide (o.imm16 = 0)
  | .vid o => ({ VShape.un with a := .absent } : VShape).ok o && decide (o.imm16 = 0)
  | .vred _ o => VShape.vv.ok o && decide (o.imm16 = 0)
  | .vfredsum o => ({ VShape.vv with rnd := true } : VShape).ok o && decide (o.imm16 = 0)
  | .vfredosum o => ({ VShape.vv with rnd := true } : VShape).ok o && decide (o.imm16 = 0)
  | .vfredmin o => VShape.vv.ok o && decide (o.imm16 = 0)
  | .vfredmax o => VShape.vv.ok o && decide (o.imm16 = 0)
  | .vxget o => ({ k := true, imm := true, d := .ret, msk := .unmasked } : VShape).ok o
      && decide (o.imm16 = 0)
  -- masks (Table 11.1)
  | .vmlog .not o => ({ VShape.un with msk := .unmasked, v0ok := true } : VShape).ok o
      && decide (o.imm16 = 0)
  | .vmlog .and o => ({ VShape.vv with msk := .unmasked, v0ok := true } : VShape).ok o
      && decide (o.imm16 = 0)
  | .vmlog .or o => ({ VShape.vv with msk := .unmasked, v0ok := true } : VShape).ok o
      && decide (o.imm16 = 0)
  | .vmlog .xor o => ({ VShape.vv with msk := .unmasked, v0ok := true } : VShape).ok o
      && decide (o.imm16 = 0)
  | .vmlog .andn o => ({ VShape.vv with msk := .unmasked, v0ok := true } : VShape).ok o
      && decide (o.imm16 = 0)
  | .vmpopc o => ({ VShape.un with d := .ret } : VShape).ok o && decide (o.imm16 = 0)
  | .vmfirst o => ({ VShape.un with d := .ret } : VShape).ok o && decide (o.imm16 = 0)
  | .vmsbf o => ({ VShape.un with v0ok := true } : VShape).ok o && decide (o.d ≠ o.a)
      && decide (o.imm16 = 0)
  | .vmsif o => ({ VShape.un with v0ok := true } : VShape).ok o && decide (o.d ≠ o.a)
      && decide (o.imm16 = 0)
  | .vmsof o => ({ VShape.un with v0ok := true } : VShape).ok o && decide (o.d ≠ o.a)
      && decide (o.imm16 = 0)
  | .vmspush o => ({ VShape.un with d := .absent, msk := .unmasked } : VShape).ok o
      && decide (o.imm16 = 0)
  | .vmselse o => ({ VShape.un with d := .absent, a := .absent, msk := .unmasked } : VShape).ok o
      && decide (o.imm16 = 0)
  | .vmspop o => ({ VShape.un with d := .absent, a := .absent, msk := .unmasked } : VShape).ok o
      && decide (o.imm16 = 0)
  | .vmsbrk o => ({ VShape.un with d := .absent, msk := .unmasked } : VShape).ok o
      && decide (1 ≤ o.imm16.toNat) && decide (o.imm16.toNat ≤ 16)
  | .vmsany o => ({ VShape.un with d := .ret, a := .absent, msk := .unmasked } : VShape).ok o
      && decide (o.imm16 = 0)
  -- texture, ray, export (Tables 12.1, 12.6, R254, R328)
  | .vtexs o => (VShape.tex .vOpt).ok o && texImmOk o.imm16 && decide (fieldOf o.imm16 9 8 = 0)
  | .vtexl o => (VShape.tex .v).ok o && texImmOk o.imm16 && decide (fieldOf o.imm16 9 8 = 0)
  | .vtexd o => (VShape.tex .v).ok o && texImmOk o.imm16
  | .vtexf o => (VShape.tex .v).ok o && texImmOk o.imm16 && decide (fieldOf o.imm16 9 8 = 0)
      && decide (fieldOf o.imm16 2 0 = 0)
  | .vtexg4 _ o => (VShape.tex .absent).ok o && texImmOk o.imm16 && decide (fieldOf o.imm16 9 8 = 0)
      && decide (fieldOf o.imm16 5 4 = 3)
  | .vtexq .size o => (VShape.tex .absent).ok o && texImmOk o.imm16
      && decide (fieldOf o.imm16 9 6 = 0) && decide (fieldOf o.imm16 2 0 = 0)
  | .vtexq .lod o => (VShape.tex .absent).ok o && texImmOk o.imm16
      && decide (fieldOf o.imm16 9 8 = 0) && decide (fieldOf o.imm16 5 4 = 1)
  | .vrqbox o => VShape.ray.ok o && rayOk 4 o
  | .vrqtri _ o => VShape.ray.ok o && rayOk 3 o
  | .vexport o => ({ VShape.vv with d := .absent, a := .v, b := .vOpt, c := .v } : VShape).ok o
      && exportOk o
  -- every field value of these is legal
  | .vsetl .. | .vsetli .. | .vfetchPcrel .. | .vget .. | .vwait | .vfenceSv | .vfenceVs | .vfenceVv
  | .xfence .. | .xlda .. | .xstl .. | .xlook .. | .psetvl .. | .gbar | .gbara .. | .gbarw ..
  | .gbarx .. | .hcont .. | .hsend .. | .hsendb .. | .hwait .. | .uiret | .park | .mcfg .. | .msync
  | .mldt .. | .mstt .. | .mlda .. | .msta .. | .mzero .. | .mma .. | .mmas .. | .mma64 ..
  | .mmal .. | .maccv .. | .mvtile .. | .munpin .. | .mgdr .. | .mgdrq .. | .mqry .. | .mspill ..
  | .mfill .. | .ecpy .. | .ecpys .. | .egath .. | .escat .. | .ered .. | .egcm .. | .ewaitk ..
  | .ctxsave .. | .ctxload .. | .pwflush .. | .scalarLoad .. | .scalarStore .. | .fenceTso ..
  | .fenceI .. | .lr .. | .sc .. | .amo .. | .amocasW .. | .amocasD .. | .integerOp ..
  | .branchJump .. | .ecall | .ebreak | .sret | .mret | .wfi | .sfenceVma .. | .vbind .. | .vunbind ..
  | .vlsync | .vstop => true
  -- events
  | .matrixEntryExecute | .faultReply .. | .channelRingTransfer | .trapEntry .. | .uiPost .. | .uiEntry
  | .shapeChangeNotice .. | .noticeWindowExpiry .. | .messageDelivery .. | .messageDivert ..
  | .inboxDelivery .. | .hartRetire .. | .pinnedRefill .. | .pinnedEvict .. | .scratchpadEvict ..
  | .scratchpadStreamIn .. | .apertureRetry | .corePowerGate .. | .shadowEntryWrite .. | .swap
  | .swapBroadcastArrival .. | .dieAcknowledge .. | .routedRequestArrival .. | .windowTableWrite ..
  | .circuitSetUp .. | .circuitTearDown .. | .circuitUp .. | .circuitDown .. | .kick ..
  | .kickRecordFill .. | .microcodeLoad .. | .registerWrite .. | .queueCreate .. | .notify ..
  | .reportQueueNotify .. | .dispatch .. | .streamjob .. | .waitsig .. | .setsig .. | .indirect ..
  | .copy .. | .copyComplete .. | .drainMode0 .. | .drainMode1 .. | .drainMode2 ..
  | .drainComplete .. | .destroyMode0 .. | .destroyMode1 .. | .destroyComplete .. | .resetpart ..
  | .timerset .. | .reportWrite .. | .jobPick .. | .gangPlace .. | .jobComplete ..
  | .energyWindowStart .. | .watchdogExpiry .. | .clockChange .. | .beginpass .. | .state .. | .draw ..
  | .drawmesh .. | .drawind .. | .endpass .. | .geometryGangLaunch .. | .batchClose ..
  | .primitiveLand .. | .fragmentEmit .. | .fragmentGangLaunch .. | .fragmentStreamEnd ..
  | .blendApply .. | .renderContextSave .. | .renderContextRestore .. | .patrolScrub ..
  | .poisonListFree .. | .cxlPortDown .. | .peerFrameReceive .. | .peerLinkFail .. | .coldReset ..
  | .recoveryImageWrite .. | .dieTraining .. | .getMeasurements .. | .setkey ..
  | .tdispStateChange .. | .tdiError .. | .flitReplay .. | .kSetStop .. | .thermalThrottle ..
  | .thermalTrip .. | .hostPortAccess .. | .corePowerRestore .. => true

end Sys2Proof
end

