-- ==== Sys2Proof/Decode.lean ====
section
/-! DEFINITION. The decoder from instruction words to `Instr`, written from Tables 2.1 to 2.5 and 3.1
to 3.7 and the RISC-V encodings of R31, and the encoder written from the same tables. The decoder is
total; a word that no table assigns, or that breaks a rule of R35 to R41 or R62, is refused. -/

namespace Sys2Proof

/-- The fields of a 32-bit word (Table 2.2). -/
structure Fields where
  f7 : BitVec 7
  rs2 : Reg
  rs1 : Reg
  f3 : BitVec 3
  rd : Reg
  opc : BitVec 7
  deriving DecidableEq, Repr

def Fields.pack (f : Fields) : BitVec 32 := f.f7 ++ f.rs2 ++ f.rs1 ++ f.f3 ++ f.rd ++ f.opc

def Fields.unpack (w : BitVec 32) : Fields :=
  { f7 := w.extractLsb' 25 7, rs2 := w.extractLsb' 20 5, rs1 := w.extractLsb' 15 5,
    f3 := w.extractLsb' 12 3, rd := w.extractLsb' 7 5, opc := w.extractLsb' 0 7 }

/-- The fields of a block word (Table 2.3). -/
structure BFields where
  imm16 : BitVec 16
  fn : BitVec 4
  rm : BitVec 3
  msk : BitVec 3
  cix : BitVec 5
  cf : BitVec 2
  bix : BitVec 5
  bf : BitVec 2
  aix : BitVec 5
  af : BitVec 2
  dix : BitVec 5
  df : BitVec 2
  form : BitVec 2
  opc : BitVec 8
  deriving DecidableEq, Repr

def BFields.pack (f : BFields) : BitVec 64 :=
  f.imm16 ++ f.fn ++ f.rm ++ f.msk ++ f.cix ++ f.cf ++ f.bix ++ f.bf ++ f.aix ++ f.af ++ f.dix ++ f.df
    ++ f.form ++ f.opc

def BFields.unpack (w : BitVec 64) : BFields :=
  { imm16 := w.extractLsb' 48 16, fn := w.extractLsb' 44 4, rm := w.extractLsb' 41 3,
    msk := w.extractLsb' 38 3, cix := w.extractLsb' 33 5, cf := w.extractLsb' 31 2,
    bix := w.extractLsb' 26 5, bf := w.extractLsb' 24 2, aix := w.extractLsb' 19 5,
    af := w.extractLsb' 17 2, dix := w.extractLsb' 12 5, df := w.extractLsb' 10 2,
    form := w.extractLsb' 8 2, opc := w.extractLsb' 0 8 }

/-! ## Field codes -/

def File.code : File → BitVec 2
  | .v => 0 | .w => 1 | .b => 2 | .none_ => 3

def File.ofCode (c : BitVec 2) : File :=
  if c = 0 then .v else if c = 1 then .w else if c = 2 then .b else .none_

def Msk.code : Msk → BitVec 3
  | .none_ => 0 | .v0 => 1 | .notV0 => 2 | .ms => 3 | .v0ms => 4

def Msk.ofCode (c : BitVec 3) : Option Msk :=
  if c = 0 then some .none_ else if c = 1 then some .v0 else if c = 2 then some .notV0
  else if c = 3 then some .ms else if c = 4 then some .v0ms else none

def Rm.code : Rm → BitVec 3
  | .rne => 0 | .rtz => 1 | .rdn => 2 | .rup => 3 | .rmm => 4 | .dyn => 7

def Rm.ofCode (c : BitVec 3) : Option Rm :=
  if c = 0 then some .rne else if c = 1 then some .rtz else if c = 2 then some .rdn
  else if c = 3 then some .rup else if c = 4 then some .rmm else if c = 7 then some .dyn else none

def Scope.code : Scope → BitVec 3
  | .hart => 0 | .gang => 1 | .cluster => 2 | .die => 3 | .package => 4 | .system => 5

def Scope.ofCode (c : BitVec 3) : Option Scope :=
  if c = 0 then some .hart else if c = 1 then some .gang else if c = 2 then some .cluster
  else if c = 3 then some .die else if c = 4 then some .package else if c = 5 then some .system
  else none

def AccW.code : AccW → BitVec 2
  | .b => 0 | .h => 1 | .w => 2 | .d => 3

def AccW.ofCode (c : BitVec 2) : AccW :=
  if c = 0 then .b else if c = 1 then .h else if c = 2 then .w else .d

def LoadKind.f3 : LoadKind → BitVec 3
  | .lb => 0 | .lh => 1 | .lw => 2 | .ld => 3 | .lbu => 4 | .lhu => 5 | .lwu => 6 | .flw => 2 | .fld => 3

def StoreKind.f3 : StoreKind → BitVec 3
  | .sb => 0 | .sh => 1 | .sw => 2 | .sd => 3 | .fsw => 2 | .fsd => 3

def AmoOp.code : AmoOp → BitVec 5
  | .add => 0x00 | .swap => 0x01 | .xor => 0x04 | .or => 0x08 | .and => 0x0C | .min => 0x10 | .max => 0x14
  | .minu => 0x18 | .maxu => 0x1C

def AmoOp.ofCode (c : BitVec 5) : Option AmoOp :=
  if c = 0x00 then some .add else if c = 0x01 then some .swap else if c = 0x04 then some .xor
  else if c = 0x08 then some .or else if c = 0x0C then some .and else if c = 0x10 then some .min
  else if c = 0x14 then some .max else if c = 0x18 then some .minu else if c = 0x1C then some .maxu
  else none

/-- funct7, funct3 and whether the opcode is OP-32. -/
def RrOp.code : RrOp → BitVec 7 × BitVec 3 × Bool
  | .add => (0x00, 0, false) | .sll => (0x00, 1, false) | .slt => (0x00, 2, false)
  | .sltu => (0x00, 3, false) | .xor => (0x00, 4, false) | .srl => (0x00, 5, false)
  | .or => (0x00, 6, false) | .and => (0x00, 7, false)
  | .sub => (0x20, 0, false) | .xnor => (0x20, 4, false) | .sra => (0x20, 5, false)
  | .orn => (0x20, 6, false) | .andn => (0x20, 7, false)
  | .mul => (0x01, 0, false) | .mulh => (0x01, 1, false) | .mulhsu => (0x01, 2, false)
  | .mulhu => (0x01, 3, false) | .div => (0x01, 4, false) | .divu => (0x01, 5, false)
  | .rem => (0x01, 6, false) | .remu => (0x01, 7, false)
  | .sh1add => (0x10, 2, false) | .sh2add => (0x10, 4, false) | .sh3add => (0x10, 6, false)
  | .min => (0x05, 4, false) | .minu => (0x05, 5, false) | .max => (0x05, 6, false)
  | .maxu => (0x05, 7, false) | .rol => (0x30, 1, false) | .ror => (0x30, 5, false)
  | .addw => (0x00, 0, true) | .sllw => (0x00, 1, true) | .srlw => (0x00, 5, true)
  | .subw => (0x20, 0, true) | .sraw => (0x20, 5, true)
  | .mulw => (0x01, 0, true) | .divw => (0x01, 4, true) | .divuw => (0x01, 5, true)
  | .remw => (0x01, 6, true) | .remuw => (0x01, 7, true)
  | .addUw => (0x04, 0, true) | .sh1addUw => (0x10, 2, true) | .sh2addUw => (0x10, 4, true)
  | .sh3addUw => (0x10, 6, true) | .rolw => (0x30, 1, true) | .rorw => (0x30, 5, true)

/-- Every register-register operation. -/
def RrOp.list : List RrOp :=
  [.add, .sub, .sll, .slt, .sltu, .xor, .srl, .sra, .or, .and, .addw, .subw, .sllw, .srlw, .sraw,
   .mul, .mulh, .mulhsu, .mulhu, .div, .divu, .rem, .remu, .mulw, .divw, .divuw, .remw, .remuw,
   .sh1add, .sh2add, .sh3add, .addUw, .sh1addUw, .sh2addUw, .sh3addUw,
   .andn, .orn, .xnor, .max, .maxu, .min, .minu, .rol, .ror, .rolw, .rorw]

/-- The operation with this funct7, funct3 and opcode: the row of the table that has them. -/
def RrOp.ofCode (f7 : BitVec 7) (f3 : BitVec 3) (w : Bool) : Option RrOp :=
  RrOp.list.find? (fun op => decide (op.code = (f7, f3, w)))

/-- funct7, rs2, funct3 and opcode of a one-source operation. -/
def UnOp.code : UnOp → BitVec 7 × BitVec 5 × BitVec 3 × BitVec 7
  | .clz => (0x30, 0, 1, 0x13) | .ctz => (0x30, 1, 1, 0x13) | .cpop => (0x30, 2, 1, 0x13)
  | .sextb => (0x30, 4, 1, 0x13) | .sexth => (0x30, 5, 1, 0x13)
  | .orcb => (0x14, 7, 5, 0x13) | .rev8 => (0x35, 24, 5, 0x13)
  | .clzw => (0x30, 0, 1, 0x1B) | .ctzw => (0x30, 1, 1, 0x1B) | .cpopw => (0x30, 2, 1, 0x1B)
  | .zexth => (0x04, 0, 4, 0x3B)

def UnOp.list : List UnOp :=
  [.clz, .ctz, .cpop, .clzw, .ctzw, .cpopw, .sextb, .sexth, .zexth, .orcb, .rev8]

def UnOp.ofCode (f7 : BitVec 7) (rs2 : BitVec 5) (f3 : BitVec 3) (opc : BitVec 7) : Option UnOp :=
  UnOp.list.find? (fun op => decide (op.code = (f7, rs2, f3, opc)))

def RiOp.code : RiOp → BitVec 3 × BitVec 7
  | .addi => (0, 0x13) | .slti => (2, 0x13) | .sltiu => (3, 0x13) | .xori => (4, 0x13)
  | .ori => (6, 0x13) | .andi => (7, 0x13) | .addiw => (0, 0x1B)

/-- Bits [31:26], funct3 and opcode of a shift with a 6-bit amount. -/
def ShOp.code : ShOp → BitVec 6 × BitVec 3 × BitVec 7
  | .slli => (0x00, 1, 0x13) | .srli => (0x00, 5, 0x13) | .srai => (0x10, 5, 0x13)
  | .rori => (0x18, 5, 0x13) | .slliUw => (0x02, 1, 0x1B)

def ShwOp.code : ShwOp → BitVec 7 × BitVec 3
  | .slliw => (0x00, 1) | .srliw => (0x00, 5) | .sraiw => (0x20, 5) | .roriw => (0x30, 5)

def BrOp.f3 : BrOp → BitVec 3
  | .eq => 0 | .ne => 1 | .lt => 4 | .ge => 5 | .ltu => 6 | .geu => 7

def CsrOp.f3 : CsrOp → BitVec 3
  | .rw => 1 | .rs => 2 | .rc => 3 | .rwi => 5 | .rsi => 6 | .rci => 7

/-- fmt of OP-FP: 00 single, 01 double. -/
def FW.code : FW → BitVec 2
  | .s => 0 | .d => 1

def FArith.f5 : FArith → BitVec 5
  | .add => 0 | .sub => 1 | .mul => 2 | .div => 3

def FMulAdd.opc : FMulAdd → BitVec 7
  | .madd => 0x43 | .msub => 0x47 | .nmsub => 0x4B | .nmadd => 0x4F

def FSelect.code : FSelect → BitVec 5 × BitVec 3
  | .sgnj => (0x04, 0) | .sgnjn => (0x04, 1) | .sgnjx => (0x04, 2) | .min => (0x05, 0) | .max => (0x05, 1)

def FCmp.f3 : FCmp → BitVec 3
  | .le => 0 | .lt => 1 | .eq => 2

def CvtInt.code : CvtInt → BitVec 5
  | .w => 0 | .wu => 1 | .l => 2 | .lu => 3

def VAmoOp.code : VAmoOp → BitVec 4
  | .add => 0 | .and => 1 | .or => 2 | .xor => 3 | .min => 4 | .max => 5 | .minu => 6 | .maxu => 7
  | .swap => 8 | .cas => 9

def VCc.code : VCc → BitVec 4
  | .eq => 0 | .ne => 1 | .lt => 2 | .ltu => 3 | .le => 4 | .leu => 5 | .gt => 6 | .gtu => 7

def DotOp.code : DotOp → BitVec 4
  | .ss => 0 | .uu => 1 | .su => 2 | .us => 3

def MinMaxOp.code : MinMaxOp → BitVec 4
  | .min => 0 | .max => 1 | .minnum => 2 | .maxnum => 3

def FCc.code : FCc → BitVec 4
  | .eq => 0 | .lt => 1 | .le => 2 | .unord => 3

def FCvt.code : FCvt → BitVec 4
  | .fwid => 0 | .fnar => 1 | .ftoi => 2 | .fton => 3 | .itof => 4 | .ntof => 5 | .fnars => 6

def RedOp.code : RedOp → BitVec 4
  | .sum => 0 | .and => 1 | .or => 2 | .xor => 3 | .min => 4 | .max => 5 | .minu => 6 | .maxu => 7

def MlogOp.code : MlogOp → BitVec 4
  | .and => 0 | .or => 1 | .xor => 2 | .andn => 3 | .not => 4

def TexqOp.code : TexqOp → BitVec 4
  | .size => 0 | .lod => 1

def TriCull.code : TriCull → BitVec 4
  | .none_ => 0 | .back => 1 | .front => 2

def PinShape.code : PinShape → BitVec 2
  | .s1 => 0 | .s2 => 1 | .s4 => 2

/-! ## The scalar stream -/

/-- I-type immediate. -/
abbrev Fields.immI (f : Fields) : BitVec 12 := f.f7 ++ f.rs2
/-- S-type immediate. -/
abbrev Fields.immS (f : Fields) : BitVec 12 := f.f7 ++ f.rd
/-- Bits [31:12]. -/
abbrev Fields.immU (f : Fields) : BitVec 20 := f.f7 ++ f.rs2 ++ f.rs1 ++ f.f3

def decodeCustom0 (f : Fields) : Option Instr :=
  if f.f3 = 0 then
    if f.f7.extractLsb' 3 4 = 0 then some (.vsetl f.rd f.rs1 (f.f7.extractLsb' 0 3 ++ f.rs2)) else none
  else if f.f3 = 1 then
    if f.f7.extractLsb' 3 4 = 0 then some (.vsetli f.rd f.rs1 (f.f7.extractLsb' 0 3 ++ f.rs2)) else none
  else if f.f3 = 2 then
    if f.rd ≠ 0 then none
    else if f.rs1 = 0 then some (.vfetchPcrel f.immI) else some (.vfetchReg f.rs1 f.immI)
  else if f.f3 = 3 then
    if f.rs2 ≠ 0 then none
    else if f.f7 = 0 then
      if f.rs1.extractLsb' 2 3 = 0 then some (.vget f.rd (f.rs1.extractLsb' 0 2)) else none
    else if f.f7 = 1 then if f.rd = 0 ∧ f.rs1 = 0 then some .vwait else none
    else none
  else if f.f3 = 4 then
    if f.rd ≠ 0 ∨ f.rs1 ≠ 0 then none
    else if f.f7 = 3 then (Scope.ofCode (f.rs2.extractLsb' 0 3)).bind (fun sc =>
      if f.rs2.extractLsb' 3 2 = 0 then some (.xfence sc) else none)
    else if f.rs2 ≠ 0 then none
    else if f.f7 = 0 then some .vfenceSv
    else if f.f7 = 1 then some .vfenceVs
    else if f.f7 = 2 then some .vfenceVv
    else none
  else if f.f3 = 5 then
    if f.f7.extractLsb' 5 2 = 0 ∧ f.rs2 = 0 then
      (Scope.ofCode (f.f7.extractLsb' 2 3)).map (fun sc =>
        .xlda sc (AccW.ofCode (f.f7.extractLsb' 0 2)) f.rd f.rs1)
    else none
  else if f.f3 = 6 then
    if f.f7.extractLsb' 5 2 = 0 ∧ f.rd = 0 then
      (Scope.ofCode (f.f7.extractLsb' 2 3)).map (fun sc =>
        .xstl sc (AccW.ofCode (f.f7.extractLsb' 0 2)) f.rs1 f.rs2)
    else none
  else if f.f7 = 0 ∧ f.rs2 = 0 then some (.xlook f.rd f.rs1) else none

def decodeCustom1 (f : Fields) : Option Instr :=
  if f.f3 = 0 then
    if f.f7.extractLsb' 3 4 = 0 then some (.psetvl f.rd f.rs1 (f.f7.extractLsb' 0 3 ++ f.rs2)) else none
  else if f.f3 = 1 then
    if f.rs2 ≠ 0 then none
    else if f.f7 = 0 then if f.rd = 0 ∧ f.rs1 = 0 then some .gbar else none
    else if f.f7 = 1 then if f.rs1 = 0 then some (.gbara f.rd) else none
    else if f.f7 = 2 then if f.rd = 0 then some (.gbarw f.rs1) else none
    else if f.f7 = 3 then if f.rd = 0 then some (.gbarx f.rs1) else none
    else none
  else if f.f3 = 2 then
    if f.f7 = 0 then
      if f.rs1.extractLsb' 2 3 = 0 ∧ f.rs2 = 0 then some (.hcont f.rd (f.rs1.extractLsb' 0 2)) else none
    else if f.f7 = 1 then if f.rd = 0 then some (.hsend f.rs1 f.rs2) else none
    else if f.f7 = 2 then if f.rd = 0 then some (.hsendb f.rs1 f.rs2) else none
    else if f.f7 = 3 then
      if f.rs1.extractLsb' 2 3 = 0 ∧ f.rs2 = 0 then some (.hwait f.rd (f.rs1.extractLsb' 0 2)) else none
    else none
  else if f.f3 = 3 then
    if f.rd ≠ 0 ∨ f.rs1 ≠ 0 ∨ f.rs2 ≠ 0 then none
    else if f.f7 = 0 then some .uiret
    else if f.f7 = 1 then some .park
    else none
  else none

def decodePinned (f : Fields) : Option Instr :=
  let o := f.f7.extractLsb' 0 4
  let ooo := f.f7.extractLsb' 4 3
  if ooo = 0 then
    if f.rd = 0 ∧ f.rs2.extractLsb' 2 3 = 0 then
      if f.rs2.extractLsb' 0 2 = 0 then some (.mpin o .s1 f.rs1)
      else if f.rs2.extractLsb' 0 2 = 1 then some (.mpin o .s2 f.rs1)
      else if f.rs2.extractLsb' 0 2 = 2 then some (.mpin o .s4 f.rs1)
      else none
    else none
  else if ooo = 1 then if f.rd = 0 ∧ f.rs1 = 0 ∧ f.rs2 = 0 then some (.munpin o) else none
  else if ooo = 2 then if f.rd = 0 then some (.mgdr o f.rs2 f.rs1) else none
  else if ooo = 3 then some (.mgdrq o f.rs2 f.rs1 f.rd)
  else if ooo = 4 then if f.rs1 = 0 then some (.mqry o f.rs2 f.rd) else none
  else if ooo = 5 then if f.rd = 0 ∧ f.rs1 = 0 ∧ f.rs2 = 0 then some (.mspill o) else none
  else if ooo = 6 then if f.rd = 0 ∧ f.rs2 = 0 then some (.mfill o f.rs1) else none
  else none

def decodeCustom2 (f : Fields) : Option Instr :=
  if f.f3 = 0 then
    if f.f7 = 0 then if f.rd = 0 then some (.mcfg f.rs1 f.rs2) else none
    else if f.f7 = 1 then if f.rd = 0 ∧ f.rs1 = 0 ∧ f.rs2 = 0 then some .msync else none
    else none
  else if f.f3 = 1 then
    if f.f7 = 0 then
      if f.rd.extractLsb' 3 2 = 0 then some (.mldt (f.rd.extractLsb' 0 3) f.rs1 f.rs2) else none
    else if f.f7 = 1 then
      if f.rd.extractLsb' 3 2 = 0 then some (.mstt (f.rd.extractLsb' 0 3) f.rs1 f.rs2) else none
    else if f.f7 = 2 then
      if f.rd.extractLsb' 4 1 = 0 then some (.mlda (f.rd.extractLsb' 0 4) f.rs1 f.rs2) else none
    else if f.f7 = 3 then
      if f.rd.extractLsb' 4 1 = 0 then some (.msta (f.rd.extractLsb' 0 4) f.rs1 f.rs2) else none
    else if f.f7 = 4 then
      if f.rd.extractLsb' 4 1 = 0 ∧ f.rs1 = 0 ∧ f.rs2 = 0 then some (.mzero (f.rd.extractLsb' 0 4))
      else none
    else none
  else if f.f3 = 2 then
    if f.rd.extractLsb' 4 1 ≠ 0 ∨ f.rs1.extractLsb' 3 2 ≠ 0 then none
    else
      let d := f.rd.extractLsb' 0 4
      let a := f.rs1.extractLsb' 0 3
      if f.f7 = 3 then some (.mmal d a f.rs2)
      else if f.rs2.extractLsb' 3 2 ≠ 0 then none
      else if f.f7 = 0 then some (.mma d a (f.rs2.extractLsb' 0 3))
      else if f.f7 = 1 then some (.mmas d a (f.rs2.extractLsb' 0 3))
      else if f.f7 = 2 then some (.mma64 d a (f.rs2.extractLsb' 0 3))
      else none
  else if f.f3 = 3 then
    if f.f7.extractLsb' 0 3 = 0 then
      if f.rd.extractLsb' 3 2 = 0 ∧ f.rs1.extractLsb' 4 1 = 0 ∧ f.rs2.extractLsb' 3 2 = 0 then
        (Rm.ofCode (f.rs2.extractLsb' 0 3)).map (fun rm =>
          .mcvt (f.f7.extractLsb' 3 4) rm (f.rd.extractLsb' 0 3) (f.rs1.extractLsb' 0 4))
      else none
    else if f.f7 = 1 then
      if f.rs1.extractLsb' 4 1 = 0 then some (.maccv f.rd (f.rs1.extractLsb' 0 4) f.rs2) else none
    else if f.f7 = 2 then
      if f.rd.extractLsb' 3 2 = 0 ∧ f.rs2 = 0 then some (.mvtile (f.rd.extractLsb' 0 3) f.rs1) else none
    else none
  else if f.f3 = 4 then decodePinned f
  else none

def decodeCustom3 (f : Fields) : Option Instr :=
  if f.f3 = 0 then
    if f.f7 = 0 then some (.ecpy f.rd f.rs1 f.rs2)
    else if f.f7 = 1 then some (.ecpys f.rd f.rs1 f.rs2)
    else if f.f7 = 2 then some (.egath f.rd f.rs1 f.rs2)
    else if f.f7 = 3 then some (.escat f.rd f.rs1 f.rs2)
    else if f.f7 = 4 then some (.ered f.rd f.rs1 f.rs2)
    else if f.f7 = 5 then some (.egcm f.rd f.rs1 f.rs2)
    else if f.f7 = 6 then if f.rs1 = 0 ∧ f.rs2 = 0 then some (.ewaitk f.rd) else none
    else none
  else if f.f3 = 1 then
    if f.rd ≠ 0 then none
    else if f.f7 = 0 then
      if f.rs2 = 0 then some (.ctxsave false f.rs1) else if f.rs2 = 1 then some (.ctxsave true f.rs1)
      else none
    else if f.f7 = 1 then
      if f.rs2 = 0 then some (.ctxload false f.rs1) else if f.rs2 = 1 then some (.ctxload true f.rs1)
      else none
    else if f.f7 = 2 then if f.rs2 = 0 then some (.pwflush f.rs1) else none
    else none
  else none

def decodeLoad (f : Fields) : Option Instr :=
  let k : Option LoadKind :=
    if f.f3 = 0 then some .lb else if f.f3 = 1 then some .lh else if f.f3 = 2 then some .lw
    else if f.f3 = 3 then some .ld else if f.f3 = 4 then some .lbu else if f.f3 = 5 then some .lhu
    else if f.f3 = 6 then some .lwu else none
  k.map (fun k => .scalarLoad k f.rd f.rs1 f.immI)

def decodeLoadFp (f : Fields) : Option Instr :=
  if f.f3 = 2 then some (.scalarLoad .flw f.rd f.rs1 f.immI)
  else if f.f3 = 3 then some (.scalarLoad .fld f.rd f.rs1 f.immI)
  else none

def decodeStore (f : Fields) : Option Instr :=
  if f.f3 = 0 then some (.scalarStore .sb f.rs1 f.rs2 f.immS)
  else if f.f3 = 1 then some (.scalarStore .sh f.rs1 f.rs2 f.immS)
  else if f.f3 = 2 then some (.scalarStore .sw f.rs1 f.rs2 f.immS)
  else if f.f3 = 3 then some (.scalarStore .sd f.rs1 f.rs2 f.immS)
  else none

def decodeStoreFp (f : Fields) : Option Instr :=
  if f.f3 = 2 then some (.scalarStore .fsw f.rs1 f.rs2 f.immS)
  else if f.f3 = 3 then some (.scalarStore .fsd f.rs1 f.rs2 f.immS)
  else none

def decodeMiscMem (f : Fields) : Option Instr :=
  if f.f3 = 0 then
    let fm := f.f7.extractLsb' 3 4
    let pred : BitVec 4 := f.f7.extractLsb' 0 3 ++ f.rs2.extractLsb' 4 1
    let succ := f.rs2.extractLsb' 0 4
    if fm = 8 ∧ pred = 3 ∧ succ = 3 then some (.fenceTso f.rs1 f.rd)
    else some (.fence fm pred succ f.rs1 f.rd)
  else if f.f3 = 1 then some (.fenceI f.immI f.rs1 f.rd)
  else none

def decodeAmo (f : Fields) : Option Instr :=
  let f5 := f.f7.extractLsb' 2 5
  let aq := f.f7.getLsbD 1
  let rl := f.f7.getLsbD 0
  if f.f3 = 2 ∨ f.f3 = 3 then
    let dbl := decide (f.f3 = 3)
    if f5 = 2 then if f.rs2 = 0 then some (.lr dbl aq rl f.rd f.rs1) else none
    else if f5 = 3 then some (.sc dbl aq rl f.rd f.rs1 f.rs2)
    else if f5 = 5 then
      if dbl then some (.amocasD aq rl f.rd f.rs1 f.rs2) else some (.amocasW aq rl f.rd f.rs1 f.rs2)
    else (AmoOp.ofCode f5).map (fun op => .amo op dbl aq rl f.rd f.rs1 f.rs2)
  else if f.f3 = 4 ∧ f5 = 5 then some (.amocasQ aq rl f.rd f.rs1 f.rs2)
  else none

def decodeOpImm (f : Fields) : Option Instr :=
  let hi := f.f7.extractLsb' 1 6
  let sh : BitVec 6 := f.f7.extractLsb' 0 1 ++ f.rs2
  let un := (UnOp.ofCode f.f7 f.rs2 f.f3 0x13).map (fun op => Instr.integerOp (.un op f.rd f.rs1))
  if f.f3 = 0 then some (.integerOp (.ri .addi f.rd f.rs1 f.immI))
  else if f.f3 = 2 then some (.integerOp (.ri .slti f.rd f.rs1 f.immI))
  else if f.f3 = 3 then some (.integerOp (.ri .sltiu f.rd f.rs1 f.immI))
  else if f.f3 = 4 then some (.integerOp (.ri .xori f.rd f.rs1 f.immI))
  else if f.f3 = 6 then some (.integerOp (.ri .ori f.rd f.rs1 f.immI))
  else if f.f3 = 7 then some (.integerOp (.ri .andi f.rd f.rs1 f.immI))
  else if f.f3 = 1 then if hi = 0 then some (.integerOp (.sh .slli f.rd f.rs1 sh)) else un
  else if hi = 0 then some (.integerOp (.sh .srli f.rd f.rs1 sh))
  else if hi = 0x10 then some (.integerOp (.sh .srai f.rd f.rs1 sh))
  else if hi = 0x18 then some (.integerOp (.sh .rori f.rd f.rs1 sh))
  else un

def decodeOpImm32 (f : Fields) : Option Instr :=
  let sh : BitVec 6 := f.f7.extractLsb' 0 1 ++ f.rs2
  if f.f3 = 0 then some (.integerOp (.ri .addiw f.rd f.rs1 f.immI))
  else if f.f3 = 1 then
    if f.f7 = 0 then some (.integerOp (.shw .slliw f.rd f.rs1 f.rs2))
    else if f.f7.extractLsb' 1 6 = 2 then some (.integerOp (.sh .slliUw f.rd f.rs1 sh))
    else (UnOp.ofCode f.f7 f.rs2 f.f3 0x1B).map (fun op => .integerOp (.un op f.rd f.rs1))
  else if f.f3 = 5 then
    if f.f7 = 0 then some (.integerOp (.shw .srliw f.rd f.rs1 f.rs2))
    else if f.f7 = 0x20 then some (.integerOp (.shw .sraiw f.rd f.rs1 f.rs2))
    else if f.f7 = 0x30 then some (.integerOp (.shw .roriw f.rd f.rs1 f.rs2))
    else none
  else none

def decodeOp (f : Fields) : Option Instr :=
  (RrOp.ofCode f.f7 f.f3 false).map (fun op => .integerOp (.rr op f.rd f.rs1 f.rs2))

def decodeOp32 (f : Fields) : Option Instr :=
  match RrOp.ofCode f.f7 f.f3 true with
  | some op => some (.integerOp (.rr op f.rd f.rs1 f.rs2))
  | none => (UnOp.ofCode f.f7 f.rs2 f.f3 0x3B).map (fun op => .integerOp (.un op f.rd f.rs1))

def decodeBranch (f : Fields) : Option Instr :=
  let off : BitVec 12 :=
    f.f7.extractLsb' 6 1 ++ f.rd.extractLsb' 0 1 ++ f.f7.extractLsb' 0 6 ++ f.rd.extractLsb' 1 4
  let op : Option BrOp :=
    if f.f3 = 0 then some .eq else if f.f3 = 1 then some .ne else if f.f3 = 4 then some .lt
    else if f.f3 = 5 then some .ge else if f.f3 = 6 then some .ltu else if f.f3 = 7 then some .geu
    else none
  op.map (fun op => .branchJump (.br op f.rs1 f.rs2 off))

def decodeJal (f : Fields) : Option Instr :=
  let u := f.immU
  let off : BitVec 20 :=
    u.extractLsb' 19 1 ++ u.extractLsb' 0 8 ++ u.extractLsb' 8 1 ++ u.extractLsb' 9 10
  some (.branchJump (.jal f.rd off))

def decodeFwOf (c : BitVec 2) : Option FW :=
  if c = 0 then some .s else if c = 1 then some .d else none

def decodeCvtInt (c : BitVec 5) : Option CvtInt :=
  if c = 0 then some .w else if c = 1 then some .wu else if c = 2 then some .l
  else if c = 3 then some .lu else none

def decodeFpForm (f : Fields) (fw : FW) : Option FpForm :=
  let f5 := f.f7.extractLsb' 2 5
  if f5 = 0 then some (.arith .add fw f.rd f.rs1 f.rs2 f.f3)
  else if f5 = 1 then some (.arith .sub fw f.rd f.rs1 f.rs2 f.f3)
  else if f5 = 2 then some (.arith .mul fw f.rd f.rs1 f.rs2 f.f3)
  else if f5 = 3 then some (.arith .div fw f.rd f.rs1 f.rs2 f.f3)
  else if f5 = 0x0B then if f.rs2 = 0 then some (.sqrt fw f.rd f.rs1 f.f3) else none
  else if f5 = 4 then
    if f.f3 = 0 then some (.select .sgnj fw f.rd f.rs1 f.rs2)
    else if f.f3 = 1 then some (.select .sgnjn fw f.rd f.rs1 f.rs2)
    else if f.f3 = 2 then some (.select .sgnjx fw f.rd f.rs1 f.rs2)
    else none
  else if f5 = 5 then
    if f.f3 = 0 then some (.select .min fw f.rd f.rs1 f.rs2)
    else if f.f3 = 1 then some (.select .max fw f.rd f.rs1 f.rs2)
    else none
  else if f5 = 0x14 then
    if f.f3 = 0 then some (.cmp .le fw f.rd f.rs1 f.rs2)
    else if f.f3 = 1 then some (.cmp .lt fw f.rd f.rs1 f.rs2)
    else if f.f3 = 2 then some (.cmp .eq fw f.rd f.rs1 f.rs2)
    else none
  else if f5 = 0x18 then (decodeCvtInt f.rs2).map (fun i => .toInt i fw f.rd f.rs1 f.f3)
  else if f5 = 0x1A then (decodeCvtInt f.rs2).map (fun i => .ofInt i fw f.rd f.rs1 f.f3)
  else if f5 = 8 then
    match fw with
    | .s => if f.rs2 = 1 then some (.toFloat .s f.rd f.rs1 f.f3) else none
    | .d => if f.rs2 = 0 then some (.toFloat .d f.rd f.rs1 f.f3) else none
  else if f5 = 0x1C then
    if f.rs2 ≠ 0 then none
    else if f.f3 = 0 then some (.mvToX fw f.rd f.rs1)
    else if f.f3 = 1 then some (.class_ fw f.rd f.rs1)
    else none
  else if f5 = 0x1E then
    if f.rs2 = 0 ∧ f.f3 = 0 then some (.mvToF fw f.rd f.rs1) else none
  else none

def decodeOpFp (f : Fields) : Option Instr :=
  (decodeFwOf (f.f7.extractLsb' 0 2)).bind (fun fw => (decodeFpForm f fw).map .fpOp)

def decodeFma (op : FMulAdd) (f : Fields) : Option Instr :=
  (decodeFwOf (f.f7.extractLsb' 0 2)).map (fun fw =>
    .fpOp (.fma op fw f.rd f.rs1 f.rs2 (f.f7.extractLsb' 2 5) f.f3))

def decodeSystem (f : Fields) : Option Instr :=
  let csr := f.immI
  let access (op : CsrOp) : Option Instr :=
    if isFcsrAddr csr then some (.fcsrAccess op csr f.rd f.rs1)
    else if isVlutAddr csr then some (.vlutAccess op csr f.rd f.rs1)
    else some (.csrInstruction op csr f.rd f.rs1)
  if f.f3 = 0 then
    if f.rd ≠ 0 then none
    else if f.f7 = 0x09 then some (.sfenceVma f.rs1 f.rs2)
    else if f.rs1 ≠ 0 then none
    else if f.f7 = 0 then
      if f.rs2 = 0 then some .ecall else if f.rs2 = 1 then some .ebreak else none
    else if f.f7 = 0x08 then
      if f.rs2 = 2 then some .sret else if f.rs2 = 5 then some .wfi else none
    else if f.f7 = 0x18 then if f.rs2 = 2 then some .mret else none
    else none
  else if f.f3 = 1 then access .rw
  else if f.f3 = 2 then access .rs
  else if f.f3 = 3 then access .rc
  else if f.f3 = 5 then access .rwi
  else if f.f3 = 6 then access .rsi
  else if f.f3 = 7 then access .rci
  else none

/-- The instruction of a word's fields, before the checks of `Instr.wf` (Tables 2.1, 3.2 to 3.7). -/
def decodeFields (f : Fields) : Option Instr :=
  if f.opc = 0x0B then decodeCustom0 f
  else if f.opc = 0x2B then decodeCustom1 f
  else if f.opc = 0x5B then decodeCustom2 f
  else if f.opc = 0x7B then decodeCustom3 f
  else if f.opc = 0x03 then decodeLoad f
  else if f.opc = 0x07 then decodeLoadFp f
  else if f.opc = 0x23 then decodeStore f
  else if f.opc = 0x27 then decodeStoreFp f
  else if f.opc = 0x0F then decodeMiscMem f
  else if f.opc = 0x2F then decodeAmo f
  else if f.opc = 0x13 then decodeOpImm f
  else if f.opc = 0x1B then decodeOpImm32 f
  else if f.opc = 0x33 then decodeOp f
  else if f.opc = 0x3B then decodeOp32 f
  else if f.opc = 0x37 then some (.integerOp (.lui f.rd f.immU))
  else if f.opc = 0x17 then some (.integerOp (.auipc f.rd f.immU))
  else if f.opc = 0x63 then decodeBranch f
  else if f.opc = 0x6F then decodeJal f
  else if f.opc = 0x67 then
    if f.f3 = 0 then some (.branchJump (.jalr f.rd f.rs1 f.immI)) else none
  else if f.opc = 0x53 then decodeOpFp f
  else if f.opc = 0x43 then decodeFma .madd f
  else if f.opc = 0x47 then decodeFma .msub f
  else if f.opc = 0x4B then decodeFma .nmsub f
  else if f.opc = 0x4F then decodeFma .nmadd f
  else if f.opc = 0x73 then decodeSystem f
  else none

/-- The instruction of a 32-bit word of the scalar stream; `none` is a word that raises
illegal-instruction wherever it is executed (R31, R32, R34, R62, R66). -/
def decodeScalar (w : BitVec 32) : Option Instr :=
  (decodeFields (Fields.unpack w)).filter Instr.wf

/-! ## The block stream -/

/-- The opcodes whose FORM is 11 (Table 3.1). -/
def isSpecialOpc (opc : BitVec 8) : Bool :=
  decide (opc = 0x03) || decide (opc = 0x04) || (decide (0x80 ≤ opc.toNat) && decide (opc.toNat ≤ 0x88))
    || decide (opc = 0x90) || decide (opc = 0x91)

def BFields.opndD (f : BFields) : Opnd := ⟨File.ofCode f.df, f.dix⟩
def BFields.opndA (f : BFields) : Opnd := ⟨File.ofCode f.af, f.aix⟩
def BFields.opndB (f : BFields) : Opnd := ⟨File.ofCode f.bf, f.bix⟩
def BFields.opndC (f : BFields) : Opnd := ⟨File.ofCode f.cf, f.cix⟩

/-- Source B from FORM, BF and BIX (R38). -/
def BFields.srcB (f : BFields) : Option BSrc :=
  let k : Option BSrc :=
    if f.bf = 0 ∧ f.bix.extractLsb' 3 2 = 0 then some (.k (f.bix.extractLsb' 0 3)) else none
  if isSpecialOpc f.opc then
    if f.form ≠ 3 then none
    else if f.opc = 0x88 then some (.reg f.opndB)
    else k
  else if f.form = 0 then some (.reg f.opndB)
  else if f.form = 1 then k
  else if f.form = 2 then some (.imm (f.bix ++ f.bf))
  else none

/-- The operand and option fields of a block word. -/
def BFields.vop (f : BFields) : Option VOp :=
  f.srcB.bind (fun b => (Msk.ofCode f.msk).bind (fun m => (Rm.ofCode f.rm).map (fun rm =>
    { d := f.opndD, a := f.opndA, b := b, c := f.opndC, msk := m, rm := rm, imm16 := f.imm16 })))

/-- One row of Table 3.1: the instruction that an OPC and an FN name. -/
structure BRow where
  opc : BitVec 8
  fn : BitVec 4
  make : VOp → Instr

/-- Class 0x0 of Table 3.1. -/
def rowsMem : List BRow :=
  [⟨0x01, 0, .vle⟩, ⟨0x02, 0, .vse⟩, ⟨0x03, 0, .vlse⟩, ⟨0x04, 0, .vsse⟩, ⟨0x05, 0, .vlxe⟩,
   ⟨0x06, 0, .vsxe⟩, ⟨0x07, 0, .vlseg⟩, ⟨0x08, 0, .vsseg⟩, ⟨0x09, 0, .vlff⟩, ⟨0x0A, 0, .vlwr⟩,
   ⟨0x0B, 0, .vswr⟩, ⟨0x0C, 0, .vpref⟩, ⟨0x0D, 0, .vamo .add⟩, ⟨0x0D, 1, .vamo .and⟩,
   ⟨0x0D, 2, .vamo .or⟩, ⟨0x0D, 3, .vamo .xor⟩, ⟨0x0D, 4, .vamo .min⟩, ⟨0x0D, 5, .vamo .max⟩,
   ⟨0x0D, 6, .vamo .minu⟩, ⟨0x0D, 7, .vamo .maxu⟩, ⟨0x0D, 8, .vamo .swap⟩, ⟨0x0D, 9, .vamo .cas⟩]

/-- Class 0x2 of Table 3.1. -/
def rowsInt2 : List BRow :=
  [⟨0x20, 0, .vadd⟩, ⟨0x21, 0, .vsub⟩, ⟨0x22, 0, .vrsub⟩, ⟨0x23, 0, .vmul⟩, ⟨0x24, 0, .vmulh⟩,
   ⟨0x24, 1, .vmulhu⟩, ⟨0x24, 2, .vmulhsu⟩, ⟨0x25, 0, .vmacc⟩, ⟨0x26, 0, .vnmsac⟩, ⟨0x27, 0, .vmadd⟩,
   ⟨0x28, 0, .vdiv⟩, ⟨0x28, 1, .vdivu⟩, ⟨0x28, 2, .vrem⟩, ⟨0x28, 3, .vremu⟩, ⟨0x29, 0, .vmin⟩,
   ⟨0x29, 1, .vmax⟩, ⟨0x29, 2, .vminu⟩, ⟨0x29, 3, .vmaxu⟩, ⟨0x2A, 0, .vand⟩, ⟨0x2A, 1, .vor⟩,
   ⟨0x2A, 2, .vxor⟩, ⟨0x2A, 3, .vandn⟩, ⟨0x2B, 0, .vsll⟩, ⟨0x2B, 1, .vsrl⟩, ⟨0x2B, 2, .vsra⟩,
   ⟨0x2C, 0, .vsadd⟩, ⟨0x2C, 1, .vsaddu⟩, ⟨0x2C, 2, .vssub⟩, ⟨0x2C, 3, .vssubu⟩, ⟨0x2D, 0, .vavg⟩,
   ⟨0x2D, 1, .vavgu⟩, ⟨0x2D, 2, .vabsd⟩, ⟨0x2E, 0, .vwadd⟩, ⟨0x2E, 1, .vwaddu⟩, ⟨0x2E, 2, .vwsub⟩,
   ⟨0x2F, 0, .vwmul⟩, ⟨0x2F, 1, .vwmulu⟩, ⟨0x2F, 2, .vwmacc⟩]

/-- Class 0x3 of Table 3.1. -/
def rowsInt3 : List BRow :=
  [⟨0x30, 0, .vnsrl⟩, ⟨0x30, 1, .vnclip⟩, ⟨0x30, 2, .vnclipu⟩, ⟨0x31, 0, .vsext⟩, ⟨0x31, 1, .vzext⟩,
   ⟨0x32, 0, .vcmp .eq⟩, ⟨0x32, 1, .vcmp .ne⟩, ⟨0x32, 2, .vcmp .lt⟩, ⟨0x32, 3, .vcmp .ltu⟩,
   ⟨0x32, 4, .vcmp .le⟩, ⟨0x32, 5, .vcmp .leu⟩, ⟨0x32, 6, .vcmp .gt⟩, ⟨0x32, 7, .vcmp .gtu⟩,
   ⟨0x33, 0, .vmerge⟩, ⟨0x34, 0, .vmv⟩, ⟨0x35, 0, .vclz⟩, ⟨0x35, 1, .vctz⟩, ⟨0x35, 2, .vpopc⟩,
   ⟨0x36, 0, .vdot .ss⟩, ⟨0x36, 1, .vdot .uu⟩, ⟨0x36, 2, .vdot .su⟩, ⟨0x36, 3, .vdot .us⟩,
   ⟨0x37, 0, .vlut4⟩]

/-- Classes 0x4 and 0x5 of Table 3.1. -/
def rowsFloat : List BRow :=
  [⟨0x40, 0, .vfadd⟩, ⟨0x41, 0, .vfsub⟩, ⟨0x42, 0, .vfmul⟩, ⟨0x43, 0, .vfdiv⟩, ⟨0x44, 0, .vfsqrt⟩,
   ⟨0x45, 0, .vfmadd⟩, ⟨0x46, 0, .vfmsub⟩, ⟨0x47, 0, .vfnmadd⟩, ⟨0x48, 0, .vfnmsub⟩, ⟨0x49, 0, .vfmin⟩,
   ⟨0x4A, 0, .vfmax⟩, ⟨0x4B, 0, .vfminmax .min⟩, ⟨0x4B, 1, .vfminmax .max⟩,
   ⟨0x4B, 2, .vfminmax .minnum⟩, ⟨0x4B, 3, .vfminmax .maxnum⟩, ⟨0x4C, 0, .vfcmp .eq⟩,
   ⟨0x4C, 1, .vfcmp .lt⟩, ⟨0x4C, 2, .vfcmp .le⟩, ⟨0x4C, 3, .vfcmp .unord⟩, ⟨0x4D, 0, .vfclass⟩,
   ⟨0x4E, 0, .vfsgnj⟩, ⟨0x4E, 1, .vfsgnjn⟩, ⟨0x4E, 2, .vfsgnjx⟩, ⟨0x4F, 0, .vfcvt .fwid⟩,
   ⟨0x4F, 1, .vfcvt .fnar⟩, ⟨0x4F, 2, .vfcvt .ftoi⟩, ⟨0x4F, 3, .vfcvt .fton⟩, ⟨0x4F, 4, .vfcvt .itof⟩,
   ⟨0x4F, 5, .vfcvt .ntof⟩, ⟨0x4F, 6, .vfcvt .fnars⟩, ⟨0x50, 0, .vfrcp⟩, ⟨0x51, 0, .vfrsqrt⟩,
   ⟨0x52, 0, .vfdot2⟩, ⟨0x53, 0, .vfwma⟩, ⟨0x54, 0, .vfrnd⟩]

/-- Class 0x6 of Table 3.1. -/
def rowsPerm : List BRow :=
  [⟨0x60, 0, .vslideup⟩, ⟨0x61, 0, .vslidedn⟩, ⟨0x62, 0, .vslide1up⟩, ⟨0x63, 0, .vslide1dn⟩,
   ⟨0x64, 0, .vperm⟩, ⟨0x65, 0, .vcompress⟩, ⟨0x66, 0, .viota⟩, ⟨0x67, 0, .vid⟩,
   ⟨0x68, 0, .vred .sum⟩, ⟨0x68, 1, .vred .and⟩, ⟨0x68, 2, .vred .or⟩, ⟨0x68, 3, .vred .xor⟩,
   ⟨0x68, 4, .vred .min⟩, ⟨0x68, 5, .vred .max⟩, ⟨0x68, 6, .vred .minu⟩, ⟨0x68, 7, .vred .maxu⟩,
   ⟨0x69, 0, .vfredsum⟩, ⟨0x6A, 0, .vfredosum⟩, ⟨0x6B, 0, .vfredmin⟩, ⟨0x6C, 0, .vfredmax⟩,
   ⟨0x6D, 0, .vxget⟩]

/-- Class 0x7 of Table 3.1. -/
def rowsMask : List BRow :=
  [⟨0x70, 0, .vmlog .and⟩, ⟨0x70, 1, .vmlog .or⟩, ⟨0x70, 2, .vmlog .xor⟩, ⟨0x70, 3, .vmlog .andn⟩,
   ⟨0x70, 4, .vmlog .not⟩, ⟨0x71, 0, .vmpopc⟩, ⟨0x72, 0, .vmfirst⟩, ⟨0x73, 0, .vmsbf⟩,
   ⟨0x74, 0, .vmsif⟩, ⟨0x75, 0, .vmsof⟩, ⟨0x76, 0, .vmspush⟩, ⟨0x77, 0, .vmselse⟩, ⟨0x78, 0, .vmspop⟩,
   ⟨0x79, 0, .vmsbrk⟩, ⟨0x7A, 0, .vmsany⟩]

/-- Class 0x8 of Table 3.1. -/
def rowsTex : List BRow :=
  [⟨0x80, 0, .vtexs⟩, ⟨0x81, 0, .vtexl⟩, ⟨0x82, 0, .vtexd⟩, ⟨0x83, 0, .vtexf⟩, ⟨0x84, 0, .vtexg4 0⟩,
   ⟨0x84, 1, .vtexg4 1⟩, ⟨0x84, 2, .vtexg4 2⟩, ⟨0x84, 3, .vtexg4 3⟩, ⟨0x85, 0, .vtexq .size⟩,
   ⟨0x85, 1, .vtexq .lod⟩, ⟨0x86, 0, .vrqbox⟩, ⟨0x87, 0, .vrqtri .none_⟩, ⟨0x87, 1, .vrqtri .back⟩,
   ⟨0x87, 2, .vrqtri .front⟩, ⟨0x88, 0, .vexport⟩]

/-- The rows of a class (OPC[7:4], Table 2.4). -/
def rowsOf (opc : BitVec 8) : List BRow :=
  let c := opc.extractLsb' 4 4
  if c = 0x0 then rowsMem
  else if c = 0x2 then rowsInt2
  else if c = 0x3 then rowsInt3
  else if c = 0x4 ∨ c = 0x5 then rowsFloat
  else if c = 0x6 then rowsPerm
  else if c = 0x7 then rowsMask
  else if c = 0x8 then rowsTex
  else []

/-- The row of Table 3.1 that an OPC and FN select. -/
def rowOf (opc : BitVec 8) (fn : BitVec 4) : Option BRow :=
  (rowsOf opc).find? (fun r => decide (r.opc = opc) && decide (r.fn = fn))

/-- Class 0x9: VBIND, VUNBIND, VLSYNC and VSTOP, whose layouts are their own (R140, R149, R351, R41). -/
def decodeClass9 (f : BFields) : Option Instr :=
  let d : BitVec 2 := f.dix.extractLsb' 0 2
  let dOk : Bool := decide (f.df = 0) && decide (f.dix.extractLsb' 2 3 = 7)
  let acOff : Bool := decide (f.opndA = Opnd.absent) && decide (f.opndC = Opnd.absent)
  let zero : Bool := decide (f.msk = 0) && decide (f.rm = 0) && decide (f.fn = 0)
  let bK : Bool := decide (f.bf = 0) && decide (f.bix.extractLsb' 3 2 = 0)
  let bOff : Bool := decide (f.opndB = Opnd.absent)
  let n := f.bix.extractLsb' 0 3
  if f.opc = 0x90 then
    if f.form = 3 && dOk && acOff && zero then
      if f.imm16 = 0 then if bK then some (.vbind d (.streamIn n)) else none
      else if f.imm16 = 1 then if bK then some (.vbind d (.streamOut n)) else none
      else if f.imm16 = 2 then if bOff then some (.vbind d .chan) else none
      else if f.imm16 = 3 then if bOff then some (.vbind d .frag) else none
      else none
    else none
  else if f.opc = 0x91 then
    if f.form = 3 && dOk && acOff && bOff && zero && decide (f.imm16 = 0) then some (.vunbind d) else none
  else if f.opc = 0x92 then
    if f.form = 0 && decide (f.opndD = Opnd.absent) && acOff && bOff && zero && decide (f.imm16 = 0)
    then some .vlsync else none
  else if f.opc = 0x9F then
    if f = { (BFields.unpack 0) with opc := 0x9F } then some .vstop else none
  else none

/-- The instruction of a block word's fields, before the checks of `Instr.wf`. -/
def decodeBFields (f : BFields) : Option Instr :=
  if f.opc.extractLsb' 4 4 = 9 then decodeClass9 f
  else (rowOf f.opc f.fn).bind (fun r => f.vop.map r.make)

/-- The instruction of a 64-bit block word; `none` is a word that breaks an encoding rule that needs no
configuration (R42 step 1) and raises illegal-instruction. -/
def decodeBlock (w : BitVec 64) : Option Instr :=
  (decodeBFields (BFields.unpack w)).filter Instr.wf

/-! ## The encoder -/

/-- R-type word. -/
abbrev rType (opc : BitVec 7) (f3 : BitVec 3) (f7 : BitVec 7) (rd rs1 rs2 : Reg) : Fields :=
  ⟨f7, rs2, rs1, f3, rd, opc⟩

/-- I-type word. -/
abbrev iType (opc : BitVec 7) (f3 : BitVec 3) (rd rs1 : Reg) (imm : BitVec 12) : Fields :=
  ⟨imm.extractLsb' 5 7, imm.extractLsb' 0 5, rs1, f3, rd, opc⟩

/-- S-type word. -/
abbrev sType (opc : BitVec 7) (f3 : BitVec 3) (rs1 rs2 : Reg) (imm : BitVec 12) : Fields :=
  ⟨imm.extractLsb' 5 7, rs2, rs1, f3, imm.extractLsb' 0 5, opc⟩

/-- U-type word. -/
abbrev uType (opc : BitVec 7) (rd : Reg) (imm : BitVec 20) : Fields :=
  ⟨imm.extractLsb' 13 7, imm.extractLsb' 8 5, imm.extractLsb' 3 5, imm.extractLsb' 0 3, rd, opc⟩

def IntForm.fields : IntForm → Fields
  | .rr op rd rs1 rs2 => rType (if op.code.2.2 then 0x3B else 0x33) op.code.2.1 op.code.1 rd rs1 rs2
  | .ri op rd rs1 imm => iType op.code.2 op.code.1 rd rs1 imm
  | .sh op rd rs1 amt =>
      rType op.code.2.2 op.code.2.1 (op.code.1 ++ amt.extractLsb' 5 1) rd rs1 (amt.extractLsb' 0 5)
  | .shw op rd rs1 amt => rType 0x1B op.code.2 op.code.1 rd rs1 amt
  | .un op rd rs1 => rType op.code.2.2.2 op.code.2.2.1 op.code.1 rd rs1 op.code.2.1
  | .lui rd imm => uType 0x37 rd imm
  | .auipc rd imm => uType 0x17 rd imm

def FpForm.fields : FpForm → Fields
  | .arith op fw rd rs1 rs2 rm => rType 0x53 rm (op.f5 ++ fw.code) rd rs1 rs2
  | .sqrt fw rd rs1 rm => rType 0x53 rm ((0x0B : BitVec 5) ++ fw.code) rd rs1 0
  | .fma op fw rd rs1 rs2 rs3 rm => rType op.opc rm (rs3 ++ fw.code) rd rs1 rs2
  | .select op fw rd rs1 rs2 => rType 0x53 op.code.2 (op.code.1 ++ fw.code) rd rs1 rs2
  | .cmp op fw rd rs1 rs2 => rType 0x53 op.f3 ((0x14 : BitVec 5) ++ fw.code) rd rs1 rs2
  | .class_ fw rd rs1 => rType 0x53 1 ((0x1C : BitVec 5) ++ fw.code) rd rs1 0
  | .toInt i fw rd rs1 rm => rType 0x53 rm ((0x18 : BitVec 5) ++ fw.code) rd rs1 i.code
  | .ofInt i fw rd rs1 rm => rType 0x53 rm ((0x1A : BitVec 5) ++ fw.code) rd rs1 i.code
  | .toFloat .s rd rs1 rm => rType 0x53 rm 0x20 rd rs1 1
  | .toFloat .d rd rs1 rm => rType 0x53 rm 0x21 rd rs1 0
  | .mvToX fw rd rs1 => rType 0x53 0 ((0x1C : BitVec 5) ++ fw.code) rd rs1 0
  | .mvToF fw rd rs1 => rType 0x53 0 ((0x1E : BitVec 5) ++ fw.code) rd rs1 0

def JumpForm.fields : JumpForm → Fields
  | .br op rs1 rs2 off =>
      rType 0x63 op.f3 (off.extractLsb' 11 1 ++ off.extractLsb' 4 6)
        (off.extractLsb' 0 4 ++ off.extractLsb' 10 1) rs1 rs2
  | .jal rd off =>
      uType 0x6F rd (off.extractLsb' 19 1 ++ off.extractLsb' 0 10 ++ off.extractLsb' 10 1
        ++ off.extractLsb' 11 8)
  | .jalr rd rs1 off => iType 0x67 0 rd rs1 off

/-- imm[11:0] of VSETL, VSETLI and PSETVL: 0000 above the cfg (Table 3.2). -/
abbrev cfgImm (cfg : BitVec 8) : BitVec 12 := (0 : BitVec 4) ++ cfg

/-- The fields of a 32-bit instruction's word; `none` for block instructions and events. -/
def scalarFields : Instr → Option Fields
  | .vsetl rd rs1 cfg => some (iType 0x0B 0 rd rs1 (cfgImm cfg))
  | .vsetli rd n cfg => some (iType 0x0B 1 rd n (cfgImm cfg))
  | .vfetchPcrel imm => some (iType 0x0B 2 0 0 imm)
  | .vfetchReg rs1 imm => some (iType 0x0B 2 0 rs1 imm)
  | .vget rd j => some (rType 0x0B 3 0 rd ((0 : BitVec 3) ++ j) 0)
  | .vwait => some (rType 0x0B 3 1 0 0 0)
  | .vfenceSv => some (rType 0x0B 4 0 0 0 0)
  | .vfenceVs => some (rType 0x0B 4 1 0 0 0)
  | .vfenceVv => some (rType 0x0B 4 2 0 0 0)
  | .xfence sc => some (rType 0x0B 4 3 0 0 ((0 : BitVec 2) ++ sc.code))
  | .xlda sc wd rd rs1 => some (rType 0x0B 5 ((0 : BitVec 2) ++ sc.code ++ wd.code) rd rs1 0)
  | .xstl sc wd rs1 rs2 => some (rType 0x0B 6 ((0 : BitVec 2) ++ sc.code ++ wd.code) 0 rs1 rs2)
  | .xlook rd rs1 => some (rType 0x0B 7 0 rd rs1 0)
  | .psetvl rd rs1 cfg => some (iType 0x2B 0 rd rs1 (cfgImm cfg))
  | .gbar => some (rType 0x2B 1 0 0 0 0)
  | .gbara rd => some (rType 0x2B 1 1 rd 0 0)
  | .gbarw rs1 => some (rType 0x2B 1 2 0 rs1 0)
  | .gbarx rs1 => some (rType 0x2B 1 3 0 rs1 0)
  | .hcont rd y => some (rType 0x2B 2 0 rd ((0 : BitVec 3) ++ y) 0)
  | .hsend rs1 rs2 => some (rType 0x2B 2 1 0 rs1 rs2)
  | .hsendb rs1 rs2 => some (rType 0x2B 2 2 0 rs1 rs2)
  | .hwait rd y => some (rType 0x2B 2 3 rd ((0 : BitVec 3) ++ y) 0)
  | .uiret => some (rType 0x2B 3 0 0 0 0)
  | .park => some (rType 0x2B 3 1 0 0 0)
  | .mcfg rs1 rs2 => some (rType 0x5B 0 0 0 rs1 rs2)
  | .msync => some (rType 0x5B 0 1 0 0 0)
  | .mldt t rs1 rs2 => some (rType 0x5B 1 0 ((0 : BitVec 2) ++ t) rs1 rs2)
  | .mstt t rs1 rs2 => some (rType 0x5B 1 1 ((0 : BitVec 2) ++ t) rs1 rs2)
  | .mlda t rs1 rs2 => some (rType 0x5B 1 2 ((0 : BitVec 1) ++ t) rs1 rs2)
  | .msta t rs1 rs2 => some (rType 0x5B 1 3 ((0 : BitVec 1) ++ t) rs1 rs2)
  | .mzero t => some (rType 0x5B 1 4 ((0 : BitVec 1) ++ t) 0 0)
  | .mma d a b => some (rType 0x5B 2 0 ((0 : BitVec 1) ++ d) ((0 : BitVec 2) ++ a) ((0 : BitVec 2) ++ b))
  | .mmas d a b => some (rType 0x5B 2 1 ((0 : BitVec 1) ++ d) ((0 : BitVec 2) ++ a) ((0 : BitVec 2) ++ b))
  | .mma64 d a b => some (rType 0x5B 2 2 ((0 : BitVec 1) ++ d) ((0 : BitVec 2) ++ a) ((0 : BitVec 2) ++ b))
  | .mmal d a rs2 => some (rType 0x5B 2 3 ((0 : BitVec 1) ++ d) ((0 : BitVec 2) ++ a) rs2)
  | .mcvt fmt rm d s =>
      some (rType 0x5B 3 (fmt ++ (0 : BitVec 3)) ((0 : BitVec 2) ++ d) ((0 : BitVec 1) ++ s)
        ((0 : BitVec 2) ++ rm.code))
  | .maccv d s rs2 => some (rType 0x5B 3 1 d ((0 : BitVec 1) ++ s) rs2)
  | .mvtile d s => some (rType 0x5B 3 2 ((0 : BitVec 2) ++ d) s 0)
  | .mpin o g rs1 => some (rType 0x5B 4 ((0 : BitVec 3) ++ o) 0 rs1 ((0 : BitVec 3) ++ g.code))
  | .munpin o => some (rType 0x5B 4 ((1 : BitVec 3) ++ o) 0 0 0)
  | .mgdr o k rs1 => some (rType 0x5B 4 ((2 : BitVec 3) ++ o) 0 rs1 k)
  | .mgdrq o k rs1 d => some (rType 0x5B 4 ((3 : BitVec 3) ++ o) d rs1 k)
  | .mqry o q d => some (rType 0x5B 4 ((4 : BitVec 3) ++ o) d 0 q)
  | .mspill o => some (rType 0x5B 4 ((5 : BitVec 3) ++ o) 0 0 0)
  | .mfill o rs1 => some (rType 0x5B 4 ((6 : BitVec 3) ++ o) 0 rs1 0)
  | .ecpy rd rs1 rs2 => some (rType 0x7B 0 0 rd rs1 rs2)
  | .ecpys rd rs1 rs2 => some (rType 0x7B 0 1 rd rs1 rs2)
  | .egath rd rs1 rs2 => some (rType 0x7B 0 2 rd rs1 rs2)
  | .escat rd rs1 rs2 => some (rType 0x7B 0 3 rd rs1 rs2)
  | .ered rd rs1 rs2 => some (rType 0x7B 0 4 rd rs1 rs2)
  | .egcm rd rs1 rs2 => some (rType 0x7B 0 5 rd rs1 rs2)
  | .ewaitk rd => some (rType 0x7B 0 6 rd 0 0)
  | .ctxsave m rs1 => some (rType 0x7B 1 0 0 rs1 (if m then 1 else 0))
  | .ctxload m rs1 => some (rType 0x7B 1 1 0 rs1 (if m then 1 else 0))
  | .pwflush rs1 => some (rType 0x7B 1 2 0 rs1 0)
  | .scalarLoad .flw rd rs1 imm => some (iType 0x07 2 rd rs1 imm)
  | .scalarLoad .fld rd rs1 imm => some (iType 0x07 3 rd rs1 imm)
  | .scalarLoad k rd rs1 imm => some (iType 0x03 k.f3 rd rs1 imm)
  | .scalarStore .fsw rs1 rs2 imm => some (sType 0x27 2 rs1 rs2 imm)
  | .scalarStore .fsd rs1 rs2 imm => some (sType 0x27 3 rs1 rs2 imm)
  | .scalarStore k rs1 rs2 imm => some (sType 0x23 k.f3 rs1 rs2 imm)
  | .fence fm pred succ rs1 rd =>
      some (rType 0x0F 0 (fm ++ pred.extractLsb' 1 3) rd rs1 (pred.extractLsb' 0 1 ++ succ))
  | .fenceTso rs1 rd => some (rType 0x0F 0 0x41 rd rs1 0x13)
  | .fenceI imm rs1 rd => some (iType 0x0F 1 rd rs1 imm)
  | .lr dbl aq rl rd rs1 =>
      some (rType 0x2F (if dbl then 3 else 2) ((2 : BitVec 5) ++ BitVec.ofBool aq ++ BitVec.ofBool rl)
        rd rs1 0)
  | .sc dbl aq rl rd rs1 rs2 =>
      some (rType 0x2F (if dbl then 3 else 2) ((3 : BitVec 5) ++ BitVec.ofBool aq ++ BitVec.ofBool rl)
        rd rs1 rs2)
  | .amo op dbl aq rl rd rs1 rs2 =>
      some (rType 0x2F (if dbl then 3 else 2) (op.code ++ BitVec.ofBool aq ++ BitVec.ofBool rl)
        rd rs1 rs2)
  | .amocasW aq rl rd rs1 rs2 =>
      some (rType 0x2F 2 ((5 : BitVec 5) ++ BitVec.ofBool aq ++ BitVec.ofBool rl) rd rs1 rs2)
  | .amocasD aq rl rd rs1 rs2 =>
      some (rType 0x2F 3 ((5 : BitVec 5) ++ BitVec.ofBool aq ++ BitVec.ofBool rl) rd rs1 rs2)
  | .amocasQ aq rl rd rs1 rs2 =>
      some (rType 0x2F 4 ((5 : BitVec 5) ++ BitVec.ofBool aq ++ BitVec.ofBool rl) rd rs1 rs2)
  | .integerOp f => some f.fields
  | .fpOp f => some f.fields
  | .branchJump f => some f.fields
  | .ecall => some (rType 0x73 0 0 0 0 0)
  | .ebreak => some (rType 0x73 0 0 0 0 1)
  | .sret => some (rType 0x73 0 0x08 0 0 2)
  | .mret => some (rType 0x73 0 0x18 0 0 2)
  | .wfi => some (rType 0x73 0 0x08 0 0 5)
  | .sfenceVma rs1 rs2 => some (rType 0x73 0 0x09 0 rs1 rs2)
  | .csrInstruction op csr rd src => some (iType 0x73 op.f3 rd src csr)
  | .fcsrAccess op csr rd src => some (iType 0x73 op.f3 rd src csr)
  | .vlutAccess op csr rd src => some (iType 0x73 op.f3 rd src csr)
  | _ => none

/-- OPC, FN and the operand fields of a block instruction of classes 0x0 to 0x8 (Table 3.1). -/
def blockParts : Instr → Option (BitVec 8 × BitVec 4 × VOp)
  | .vle o => some (0x01, 0, o) | .vse o => some (0x02, 0, o) | .vlse o => some (0x03, 0, o)
  | .vsse o => some (0x04, 0, o) | .vlxe o => some (0x05, 0, o) | .vsxe o => some (0x06, 0, o)
  | .vlseg o => some (0x07, 0, o) | .vsseg o => some (0x08, 0, o) | .vlff o => some (0x09, 0, o)
  | .vlwr o => some (0x0A, 0, o) | .vswr o => some (0x0B, 0, o) | .vpref o => some (0x0C, 0, o)
  | .vamo op o => some (0x0D, op.code, o)
  | .vadd o => some (0x20, 0, o) | .vsub o => some (0x21, 0, o) | .vrsub o => some (0x22, 0, o)
  | .vmul o => some (0x23, 0, o) | .vmulh o => some (0x24, 0, o) | .vmulhu o => some (0x24, 1, o)
  | .vmulhsu o => some (0x24, 2, o) | .vmacc o => some (0x25, 0, o) | .vnmsac o => some (0x26, 0, o)
  | .vmadd o => some (0x27, 0, o) | .vdiv o => some (0x28, 0, o) | .vdivu o => some (0x28, 1, o)
  | .vrem o => some (0x28, 2, o) | .vremu o => some (0x28, 3, o) | .vmin o => some (0x29, 0, o)
  | .vmax o => some (0x29, 1, o) | .vminu o => some (0x29, 2, o) | .vmaxu o => some (0x29, 3, o)
  | .vand o => some (0x2A, 0, o) | .vor o => some (0x2A, 1, o) | .vxor o => some (0x2A, 2, o)
  | .vandn o => some (0x2A, 3, o) | .vsll o => some (0x2B, 0, o) | .vsrl o => some (0x2B, 1, o)
  | .vsra o => some (0x2B, 2, o) | .vsadd o => some (0x2C, 0, o) | .vsaddu o => some (0x2C, 1, o)
  | .vssub o => some (0x2C, 2, o) | .vssubu o => some (0x2C, 3, o) | .vavg o => some (0x2D, 0, o)
  | .vavgu o => some (0x2D, 1, o) | .vabsd o => some (0x2D, 2, o) | .vwadd o => some (0x2E, 0, o)
  | .vwaddu o => some (0x2E, 1, o) | .vwsub o => some (0x2E, 2, o) | .vwmul o => some (0x2F, 0, o)
  | .vwmulu o => some (0x2F, 1, o) | .vwmacc o => some (0x2F, 2, o) | .vnsrl o => some (0x30, 0, o)
  | .vnclip o => some (0x30, 1, o) | .vnclipu o => some (0x30, 2, o) | .vsext o => some (0x31, 0, o)
  | .vzext o => some (0x31, 1, o) | .vcmp cc o => some (0x32, cc.code, o) | .vmerge o => some (0x33, 0, o)
  | .vmv o => some (0x34, 0, o) | .vclz o => some (0x35, 0, o) | .vctz o => some (0x35, 1, o)
  | .vpopc o => some (0x35, 2, o) | .vdot op o => some (0x36, op.code, o) | .vlut4 o => some (0x37, 0, o)
  | .vfadd o => some (0x40, 0, o) | .vfsub o => some (0x41, 0, o) | .vfmul o => some (0x42, 0, o)
  | .vfdiv o => some (0x43, 0, o) | .vfsqrt o => some (0x44, 0, o) | .vfmadd o => some (0x45, 0, o)
  | .vfmsub o => some (0x46, 0, o) | .vfnmadd o => some (0x47, 0, o) | .vfnmsub o => some (0x48, 0, o)
  | .vfmin o => some (0x49, 0, o) | .vfmax o => some (0x4A, 0, o)
  | .vfminmax op o => some (0x4B, op.code, o) | .vfcmp cc o => some (0x4C, cc.code, o)
  | .vfclass o => some (0x4D, 0, o) | .vfsgnj o => some (0x4E, 0, o) | .vfsgnjn o => some (0x4E, 1, o)
  | .vfsgnjx o => some (0x4E, 2, o) | .vfcvt op o => some (0x4F, op.code, o)
  | .vfrcp o => some (0x50, 0, o) | .vfrsqrt o => some (0x51, 0, o) | .vfdot2 o => some (0x52, 0, o)
  | .vfwma o => some (0x53, 0, o) | .vfrnd o => some (0x54, 0, o)
  | .vslideup o => some (0x60, 0, o) | .vslidedn o => some (0x61, 0, o)
  | .vslide1up o => some (0x62, 0, o) | .vslide1dn o => some (0x63, 0, o) | .vperm o => some (0x64, 0, o)
  | .vcompress o => some (0x65, 0, o) | .viota o => some (0x66, 0, o) | .vid o => some (0x67, 0, o)
  | .vred op o => some (0x68, op.code, o) | .vfredsum o => some (0x69, 0, o)
  | .vfredosum o => some (0x6A, 0, o) | .vfredmin o => some (0x6B, 0, o)
  | .vfredmax o => some (0x6C, 0, o) | .vxget o => some (0x6D, 0, o)
  | .vmlog op o => some (0x70, op.code, o) | .vmpopc o => some (0x71, 0, o)
  | .vmfirst o => some (0x72, 0, o) | .vmsbf o => some (0x73, 0, o) | .vmsif o => some (0x74, 0, o)
  | .vmsof o => some (0x75, 0, o) | .vmspush o => some (0x76, 0, o) | .vmselse o => some (0x77, 0, o)
  | .vmspop o => some (0x78, 0, o) | .vmsbrk o => some (0x79, 0, o) | .vmsany o => some (0x7A, 0, o)
  | .vtexs o => some (0x80, 0, o) | .vtexl o => some (0x81, 0, o) | .vtexd o => some (0x82, 0, o)
  | .vtexf o => some (0x83, 0, o) | .vtexg4 ch o => some (0x84, (0 : BitVec 2) ++ ch, o)
  | .vtexq op o => some (0x85, op.code, o) | .vrqbox o => some (0x86, 0, o)
  | .vrqtri op o => some (0x87, op.code, o) | .vexport o => some (0x88, 0, o)
  | _ => none

/-- FORM, BF and BIX of source B (R38). -/
def bsrcFields (opc : BitVec 8) : BSrc → BitVec 2 × BitVec 2 × BitVec 5
  | .reg r => (if isSpecialOpc opc then 3 else 0, r.file.code, r.ix)
  | .k n => (if isSpecialOpc opc then 3 else 1, 0, (0 : BitVec 2) ++ n)
  | .imm i => (2, i.extractLsb' 0 2, i.extractLsb' 2 5)

def vopFields (opc : BitVec 8) (fn : BitVec 4) (o : VOp) : BFields :=
  let b := bsrcFields opc o.b
  { imm16 := o.imm16, fn := fn, rm := o.rm.code, msk := o.msk.code, cix := o.c.ix, cf := o.c.file.code,
    bix := b.2.2, bf := b.2.1, aix := o.a.ix, af := o.a.file.code, dix := o.d.ix, df := o.d.file.code,
    form := b.1, opc := opc }

/-- VBIND's and VUNBIND's fields: every operand absent but D, and B as given. -/
def bindFields (opc : BitVec 8) (d : BitVec 2) (bf : BitVec 2) (bix : BitVec 5) (imm16 : BitVec 16) :
    BFields :=
  { imm16 := imm16, fn := 0, rm := 0, msk := 0, cix := 0, cf := 3, bix := bix, bf := bf, aix := 0,
    af := 3, dix := (7 : BitVec 3) ++ d, df := 0, form := 3, opc := opc }

/-- The fields of a block instruction's word; `none` for scalar instructions and events. -/
def blockFields : Instr → Option BFields
  | .vbind d (.streamIn n) => some (bindFields 0x90 d 0 ((0 : BitVec 2) ++ n) 0)
  | .vbind d (.streamOut n) => some (bindFields 0x90 d 0 ((0 : BitVec 2) ++ n) 1)
  | .vbind d .chan => some (bindFields 0x90 d 3 0 2)
  | .vbind d .frag => some (bindFields 0x90 d 3 0 3)
  | .vunbind d => some (bindFields 0x91 d 3 0 0)
  | .vlsync => some { imm16 := 0, fn := 0, rm := 0, msk := 0, cix := 0, cf := 3, bix := 0, bf := 3, aix := 0, af := 3, dix := 0, df := 3, form := 0, opc := 0x92 }
  | .vstop => some { imm16 := 0, fn := 0, rm := 0, msk := 0, cix := 0, cf := 0, bix := 0, bf := 0, aix := 0, af := 0, dix := 0, df := 0, form := 0, opc := 0x9F }
  | i => (blockParts i).map (fun p => vopFields p.1 p.2.1 p.2.2)

/-- A word of one of the two streams (02, introduction). -/
inductive CodeWord where
  | scalar (w : BitVec 32)
  | block (w : BitVec 64)
  deriving DecidableEq, Repr

/-- The word of an instruction; `none` for an event, which has none. -/
def encode (i : Instr) : Option CodeWord :=
  match scalarFields i with
  | some f => some (.scalar f.pack)
  | none => (blockFields i).map (fun f => .block f.pack)

/-- The instruction of a word of either stream. -/
def decode : CodeWord → Option Instr
  | .scalar w => decodeScalar w
  | .block w => decodeBlock w

/-- The word as the trap value register receives it (R42); 0 for an event. -/
def Instr.word (i : Instr) : Word :=
  match encode i with
  | some (.scalar w) => w.zeroExtend 64
  | some (.block w) => w
  | none => 0

/-! ## The opcode table's view -/

/-- The bytes of an opcode-table word, in memory order (R7). -/
def tableBytes : Nat → Nat → List Byte
  | 0, _ => []
  | n + 1, w => BitVec.ofNat 8 w :: tableBytes n (w / 256)

/-- A little-endian list of bytes as a number (R7). -/
def leNat : List Byte → Nat
  | [] => 0
  | b :: bs => b.toNat + 256 * leNat bs

/-- The instruction that the decoder reads from a word of the opcode table: a scalar word for a row of
at most 32 bits and a block word for a longer one. -/
def decodeTableWord (nbits w : Nat) : Option Instr :=
  if nbits ≤ 32 then decodeScalar (BitVec.ofNat 32 (leNat (tableBytes 4 (w % 2 ^ nbits))))
  else decodeBlock (BitVec.ofNat 64 (leNat (tableBytes 8 (w % 2 ^ nbits))))

end Sys2Proof
end

