-- ==== Sys2Proof/Config.lean ====
section
/-! DEFINITION. What the spec leaves open: free values and the published texture decoders it names but
does not define. None has a body, so nothing can be proved about the value. -/

namespace Sys2Proof

/-- Undefined bits (00 R10): the value that the `slot`-th open point of the step numbered `tick` takes.
UNVERIFIED by design: assumption 5. -/
opaque Config.free (tick slot w : Nat) : BitVec w

/-- The choice between "keeps its old value" and "has every bit set" that agnostic elements leave to the
device (08 R177), one bit for each element: assumption 6. -/
opaque Config.agnostic (tick : Nat) : VBits

/-- A decoded texel of a BC6H, BC7 or ASTC block, whose published definitions the spec names without
giving them (12 R260): layout code, whether the type is signed, the block's 16 bytes and the texel's
place in it; four channels, low channel first. Assumption 16. -/
opaque Config.blockTexel (layout : Nat) (signed : Bool) (block : BitVec 128) (x y : Nat) : BitVec 128

end Sys2Proof
end

