-- ==== Sys2Proof/Machine/Types.lean ====
section
/-! DEFINITION. The records that State is made of: registers, hart contexts, gangs, jobs, render contexts
and the package's own pieces. All of it is plain data. -/

namespace Sys2Proof.Machine

/-- A sparse map from addresses to words of one width. The canonical form is strictly rising addresses
with no entry equal to 0, which is what an unlisted address reads as. -/
abbrev SMap (w : Nat) := List (Nat × BitVec w)

/-- Privilege modes (19 R404). -/
inductive Priv where
  | u | s | m
  deriving DecidableEq, Repr

/-- What a hart is (01 R20, R23; 19 R404). `service` is a context that runs at S on a steward core. -/
inductive HartKind where
  | vector | supervisor | pager | engine | ferryman | service
  deriving DecidableEq, Repr

/-- A v, w or b register: element-order bits, one poison bit per hart lane group, high-water mark in bytes
(06 R131, R136). -/
structure VReg where
  bits : VBits
  pois : BitVec 8
  hwm : Nat
  deriving DecidableEq, Repr

/-- A return slot (06 R131, 11 R247). -/
structure JSlot where
  val : Word
  pois : Bool
  deriving DecidableEq, Repr

/-- A reply register (17 R376): contents, count of unread doublewords, whether an HSENDB delivered it. -/
structure YReg where
  val : BitVec 512
  unread : Nat
  blk : Bool
  deriving DecidableEq, Repr

/-- A mask-stack entry (11 R248). -/
structure MsEntry where
  m : VBits
  r : VBits
  mPois : BitVec 8
  rPois : BitVec 8
  deriving DecidableEq, Repr

/-- A stream descriptor (06 Table 6.5). -/
structure StreamDesc where
  base : Word
  str0 : Word
  str1 : Word
  str2 : Word
  str3 : Word
  cnt0 : BitVec 32
  cnt1 : BitVec 32
  cnt2 : BitVec 32
  cnt3 : BitVec 32
  fmt : BitVec 8
  deriving DecidableEq, Repr

/-- What a bound register is bound to (06 Table 6.4, 19 R418). -/
inductive Binding where
  | streamIn (ssew : BitVec 3) (desc : StreamDesc) (pos : Nat)
  | streamOut (ssew : BitVec 3) (desc : StreamDesc) (pos : Nat)
  | chan (ssew : BitVec 3)
  | frag (ssew : BitVec 3) (pos : Nat) (ended : Bool)
  deriving DecidableEq, Repr

/-- A fetched block and what its VFETCH captured (17 R368). -/
structure Block where
  base : Word
  k : Vector Word 8
  vcfg : Word
  vl : Word
  frm : BitVec 3
  fcompat : Word
  vlut0 : Word
  vlut1 : Word
  deriving DecidableEq, Repr

/-- A matrix-queue entry (13 R276, 19 Table 19.5); `bpos` counts the hart's present blocks that were
fetched before the word committed. `priv` is the privilege that its accesses take, that of the hart at
commit (assumption 34). -/
structure MqEntry where
  word : BitVec 32
  pc : Word
  xa : Word
  xb : Word
  mcfg : Word
  mtscale : BitVec 32
  frm : BitVec 3
  vcfg : Word
  vl : Word
  bpos : Nat
  priv : Priv
  deriving DecidableEq, Repr

/-- An exception to be taken: cause, trap value, subcode (19 Table 19.1). -/
structure Exc where
  cause : BitVec 8
  tval : Word
  sub : BitVec 16
  deriving DecidableEq, Repr

/-- Kinds of memory access. -/
inductive AKind where
  | fetch | load | store | amo
  deriving DecidableEq, Repr

/-- Why an instruction stops where it stands: an exception, or a page fault that is first offered to a
pager (04 R83); `ad` says that A or D was clear. -/
inductive Stop where
  | exc (e : Exc)
  | page (cause : BitVec 8) (va : Word) (ad : Bool)
  /-- A scratchpad grant that is not resident answers with retry, and the access is sent again (06 R128). -/
  | retry
  deriving DecidableEq, Repr

/-- Where an access goes: a physical memory address (`nc`: its window is not cached in L1), a scratchpad
byte at core × 2^19 + offset, or a device register. -/
inductive Loc where
  | mem (pa : Nat) (nc : Bool)
  | spad (a : Nat)
  | dev (pa : Nat)
  deriving DecidableEq, Repr

/-- A matrix tile and the poison of its rows (13 R270, R274). -/
structure Tile where
  bits : BitVec 16384
  pois : BitVec 32
  deriving DecidableEq, Repr

/-- An accumulator tile and the poison of its rows. -/
structure Acc where
  bits : BitVec 32768
  pois : BitVec 32
  deriving DecidableEq, Repr

/-- A state of a pinned group in the hart's list (14 R312, 19 Table 19.4). -/
inductive PinState where
  | resident | spilled
  deriving DecidableEq, Repr

/-- An entry of the pinned-group list (14 R312, 19 Table 19.4 PINLIST). -/
structure PinEntry where
  origin : BitVec 4
  side : Nat
  handle : BitVec 32
  gen : BitVec 16
  state : PinState
  core : Nat
  deriving DecidableEq, Repr

/-- A cached translation: virtual page, its size in bytes as an exponent of 2, the frame and the leaf
PTE's bits [7:0] (04 R80). -/
structure TlbEntry where
  vpage : Nat
  lg : Nat
  frame : Nat
  flags : BitVec 8
  deriving DecidableEq, Repr

/-- A user-interrupt post (17 R379). -/
structure Post where
  code : BitVec 8
  info : BitVec 32
  deriving DecidableEq, Repr

/-- A reserved line: of memory by physical address, or of a scratchpad (03 Table 3.7, 06 R125). -/
inductive Resv where
  | mem (line : Nat)
  | spad (line : Nat)
  deriving DecidableEq, Repr

/-- A page fault that waits for its pager (04 R83, Table 4.6). -/
structure FaultWait where
  seq : BitVec 16
  cause : BitVec 8
  va : Word
  /-- The fault is a matrix entry's, offered at a synchronising point (13 R293). -/
  mq : Bool
  deriving DecidableEq, Repr

/-- What a context is doing (17 R361 to R381, 19 R407, R416). -/
inductive Run where
  /-- No context in this record. -/
  | empty
  /-- Created and not yet placed. -/
  | created
  | running
  /-- Waiting for a fault reply. -/
  | faultWait (w : FaultWait)
  /-- Stopped at a PARK that found a notice, and about to be saved (17 R381). -/
  | parked (portable : Bool)
  /-- Switched out: its state is in its save area, with the fault wait that it was in. -/
  | saved (w : Option FaultWait)
  /-- Held by a nested emulation fault (19 R407). -/
  | held
  | retired
  deriving DecidableEq, Repr

/-- Scalar registers and control of a hart. -/
structure Scalar where
  x : Vector Word 32
  f : Vector Word 32
  shadow : Vector Word 4
  pc : Word
  priv : Priv
  depth : Nat
  frm : BitVec 3
  fflags : BitVec 5
  resv : Option Resv
  cycle : Word
  instret : Word
  deriving DecidableEq, Repr

/-- The Nurak's own CSRs of a hart (02 Table 2.7). uistatus.PEND is the number of queued posts; vlenb
and vprogN are derived; mcfg and mtscale lie with the matrix state. -/
structure Csrs where
  vcfg : Word
  vl : Word
  vgoff : Word
  vgshare : Word
  vstat : Word
  vlut0 : Word
  vlut1 : Word
  uivec : Word
  uiepc : Word
  uicause : Word
  uie : Bool
  uiActive : Bool
  vtrec : Word
  fcompat : Word
  aotbase : Word
  ctxarea : Word
  deriving DecidableEq, Repr

/-- Supervisor CSRs (19 R404, R462). -/
structure SCsrs where
  satp : Word
  sstatus : Word
  sepc : Word
  scause : Word
  stval : Word
  stvec : Word
  sscratch : Word
  scounteren : Word
  deriving DecidableEq, Repr

/-- Machine CSRs of a steward or Ferryman hart (02 R31, 19 R404). -/
structure MCsrs where
  mstatus : Word
  mtvec : Word
  mscratch : Word
  mepc : Word
  mcause : Word
  mtval : Word
  mie : Word
  mip : Word
  mcounteren : Word
  medeleg : Word
  mideleg : Word
  deriving DecidableEq, Repr

/-- The vector side of a hart. -/
structure Vec where
  v : Vector VReg 32
  w : Vector VReg 8
  b : Vector VReg 4
  j : Vector JSlot 4
  /-- Mask stack, top entry first. -/
  ms : List MsEntry
  /-- Bindings of v28 to v31. -/
  bind : Vector (Option Binding) 4
  /-- Fetched, unfinished blocks, oldest first. -/
  blocks : List Block
  /-- Index of the oldest block's next word. -/
  wix : Nat
  /-- Progress counts, one list of 8 for each started instruction, oldest first (19 R410). -/
  prog : List (List Nat)
  /-- The trap level at which the unit was stopped; 0 when it runs. -/
  halt : Nat
  /-- The oldest word waits on a channel ring (06 R145). -/
  ringWait : Bool
  deriving DecidableEq, Repr

/-- The matrix side of a hart (13, 14). -/
structure Mat where
  mt : Vector Tile 8
  ma : Vector Acc 16
  mcfg : Word
  mtscale : BitVec 32
  queue : List MqEntry
  /-- Why the queue has stopped at its oldest entry (13 R292); `retry` says that the entry executes again
  from its start at the next synchronising point. -/
  fault : Option Stop
  pins : List PinEntry
  deriving DecidableEq, Repr

/-- Who and where a hart context is (17 R375, 01 R23). -/
structure Ident where
  kind : HartKind
  die : Nat
  cluster : Nat
  core : Nat
  slot : Nat
  tag : Nat
  part : Nat
  /-- The context's gang in the gang list, and its number in it. -/
  gang : Option Nat
  member : Nat
  /-- Core shape n of the context (01 R23); 8 for native harts, which have no shape. -/
  shape : Nat
  /-- Grants (17 R361): scratchpad KiB and its byte offset in the core, operand tiles, accumulators. -/
  spadKib : Nat
  spadOff : Nat
  /-- Core (0 to 1,279) that holds the resident scratchpad grant; none once it is saved (06 R127). -/
  spadCore : Option Nat
  mtN : Nat
  maN : Nat
  deriving DecidableEq, Repr

/-- An engine hart's kick records (05 R101 to R105). -/
structure Engine where
  /-- Records filled and not yet consumed, by number, oldest first. -/
  filled : List Nat
  /-- The record that the latest EWAITK returned. -/
  cur : Option Nat
  /-- Next record to fill. -/
  nextRec : Nat
  /-- Kicks held at the register while all records are full: payload, kicker, partition, privilege,
  satp. -/
  held : List (Word × ContId × Nat × Nat × Word)
  deriving DecidableEq, Repr

/-- The fragment stream of a fragment-gang member (15 R338): record offsets not yet popped, how many were ever
given, and whether the stream has ended. -/
structure FragStream where
  queue : List Nat
  got : Nat
  ended : Bool
  deriving DecidableEq, Repr

/-- A hart context, or the empty record of a hart. -/
structure Hart where
  id : Ident
  run : Run
  s : Scalar
  c : Csrs
  sc : SCsrs
  mc : MCsrs
  vu : Vec
  mat : Mat
  y : Vector YReg 4
  posts : List Post
  /-- Posts held in order at the Pontoon die (17 R379). -/
  heldPosts : List Post
  fseq : BitVec 16
  tlb : List TlbEntry
  /-- Texel lines cached by the sampler for the hart (12 R266): line address and its 128 bytes. -/
  texels : List (Nat × BitVec 1024)
  eng : Engine
  /-- The stream of a member of a fragment gang. -/
  frag : Option FragStream
  deriving DecidableEq, Repr

/-- One channel ring's queued group: 16L bytes and lane-group poison (06 R145). -/
structure RingGroup where
  bits : VBits
  pois : BitVec 8
  deriving DecidableEq, Repr

/-- The ring into a gang member. -/
structure Ring where
  groups : List RingGroup
  recvOpen : Bool
  recvClosed : Bool
  sendClosed : Bool
  deriving DecidableEq, Repr

/-- A pass on one of its dies: die, render context, agent queue, and ring index of its BEGINPASS (15 R318). -/
structure PassRef where
  die : Nat
  ctx : Nat
  queue : Nat
  pktix : Word
  deriving DecidableEq, Repr

/-- What a gang is for (15 R325, R338). -/
inductive GangKind where
  | compute
  /-- A vertex or mesh gang: its pass, draw, batch, first index and count. -/
  | geometry (pass : PassRef) (draw batch first count : Nat)
  /-- A fragment gang: its pass, draw and tile. -/
  | fragment (pass : PassRef) (draw tx ty : Nat)
  deriving DecidableEq, Repr

/-- A gang with its barrier register (17 R372) and channel rings. -/
structure Gang where
  gid : Nat
  /-- The job, and the gang's index in it. -/
  job : Option Nat
  ix : Nat
  part : Nat
  size : Nat
  /-- Context tags of the members, by member number. -/
  tags : List Nat
  kind : GangKind
  arrived : List Nat
  phase : Bool
  pend : Nat
  retired : List Nat
  rings : List Ring
  /-- Primitive indices already exported (15 R330). -/
  exported : List Nat
  live : Bool
  deriving DecidableEq, Repr

/-- A job (18 R388 to R390). -/
structure Job where
  jid : Nat
  queue : Nat
  pktix : Word
  /-- TAG of its packet (R385). -/
  tag : BitVec 32
  part : Nat
  entry : Word
  args : Word
  ngang : Nat
  gangSize : Nat
  shape : Nat
  eclass : Nat
  spad : Nat
  mt : Nat
  ma : Nat
  lentag : Nat
  cores : Bool
  compsig : Word
  compval : Word
  satp : Word
  /-- The bindings of a STREAMJOB's members, four for each member of each gang (R389). -/
  binds : List (Option Binding)
  /-- Gangs placed so far, gangs retired, and whether the job was cut short (R390). -/
  placed : Nat
  retired : Nat
  cut : Bool
  startUs : Nat
  /-- The watchdog limit last reported (R402). -/
  wdReported : Nat
  done : Bool
  deriving DecidableEq, Repr

/-- A REPORT to be written (18 Table 18.9). -/
structure Report where
  cause : Nat
  queue : Nat
  part : Nat
  tag : BitVec 32
  pktix : Word
  boff : Nat
  lcnt : BitVec 48
  d0 : Word
  d1 : Word
  deriving DecidableEq, Repr

/-- A COPY that has started and not completed (18 R394). -/
structure CopyItem where
  queue : Nat
  pktix : Word
  tag : BitVec 32
  mbox : Word
  startUs : Nat
  wdReported : Nat
  deriving DecidableEq, Repr

/-- What a queue holds beside its descriptor (18 R384 to R402). -/
structure QueueState where
  q : Nat
  /-- The packet at RDIX as Ferryman read it, once it has (R384). -/
  packet : Option (BitVec 512)
  /-- An INDIRECT in progress: address, count, next inner packet (R393). -/
  indirect : Option (Word × Nat × Nat)
  /-- Starts left of the queue at the weight pointer; the skips of the packet at RDIX, and at the eighth the
  dies that it reserves with its gangs on each; and whether it has been picked (R398). -/
  runLeft : Nat
  skips : Nat
  resv : List (Nat × Nat)
  picked : Bool
  /-- When the packet at RDIX became that, and the watchdog limit last reported of it (R402). -/
  headAt : Nat
  wdReported : Nat
  /-- Control packets that have started and not completed, oldest first: index and packet (R395). -/
  pending : List (Word × BitVec 512)
  /-- Reporting into this report queue has stalled since its last delivery (R397). -/
  stalled : Bool
  deriving DecidableEq, Repr

/-- Queues, jobs and reports. -/
structure Sched where
  queues : List QueueState
  jobs : List Job
  copies : List CopyItem
  reports : List Report
  /-- Partition and priority level to the queue at the weight pointer. -/
  pointers : List (Nat × Nat × Nat)
  nextJob : Nat
  nextGang : Nat
  /-- Shapes of cores that are set: core 0 to 1,279 and n. -/
  shapes : List (Nat × Nat)
  /-- What firmware has granted to partitions: clusters (die × 10 + cluster), engines, and render contexts
  (die × 16 + context), each to its partition (01 Table 1.1, 18 R394, 15 R318; assumption 33). -/
  clusters : List (Nat × Nat)
  engines : List (Nat × Nat)
  renders : List (Nat × Nat)
  /-- Partition runtimes: partition, exit address and trap entry that a context starts with (17 R363;
  assumption 33). -/
  runtimes : List (Nat × Word × Word)
  /-- Cores that are power-gated (14 R315). -/
  gated : List Nat
  deriving DecidableEq, Repr

/-- A request in flight across the fabric, with the routing generation of its origin (04 R75). -/
structure InFlight where
  origin : Nat
  addr : Nat
  gen : BitVec 16
  store : Option Word
  deriving DecidableEq, Repr

/-- The Pontoon die's own state that is not memory mapped. -/
structure Fabric where
  lcnt : Vector (BitVec 48) 9
  /-- Routing generation of each die (04 R74). -/
  dieGen : Vector (BitVec 16) 8
  /-- Dies that have acknowledged the drain. -/
  flights : List InFlight
  /-- Bytes arrived on a peer circuit and not yet consumed: connection-table entry and bytes
  (05 R114). -/
  streams : List (Nat × List Byte)
  deriving DecidableEq, Repr

/-- A key slot (05 R116). -/
structure KeySlot where
  slot : Nat
  key : BitVec 256
  owner : Nat
  txfix : BitVec 32
  txctr : Word
  rxfix : BitVec 32
  rxhi : Word
  deriving DecidableEq, Repr

/-- Memory of every kind. -/
structure MemSys where
  /-- Bytes of near, far and host memory by physical address. -/
  mem : SMap 8
  /-- Poisoned granules by number, rising (04 R87). -/
  pois : List Nat
  /-- Granules whose poison is held locked in their L2 slice (R87). -/
  locked : List Nat
  /-- Near-tier granules that their channel's poison list holds (R87). -/
  plist : List Nat
  /-- Scratchpad bytes at core × 2^19 + offset (06 R123). -/
  spad : SMap 8
  spadPois : List Nat
  /-- Doublewords of the device registers by physical address (04 Table 4.1). -/
  dev : SMap 64
  /-- The window tables in effect: the copies that cores hold (04 R78). -/
  win : SMap 64
  /-- L1 copies: core, line number and its 128 bytes (06 R121). -/
  l1 : List (Nat × Nat × BitVec 1024)
  deriving DecidableEq, Repr

/-- A kernel descriptor (18 Table 18.5). -/
structure Kernel where
  entry : Word
  gang : Nat
  shape : Nat
  eclass : Nat
  spad : Nat
  mt : Nat
  ma : Nat
  lentag : Nat
  deriving DecidableEq, Repr

/-- The state that a STATE packet sets and a draw captures (15 Table 15.3). -/
structure DrawState where
  cull : Nat
  front : Nat
  zmode : Nat
  depthFn : Nat
  dsflags : BitVec 8
  sfunc : Nat
  sref : BitVec 8
  smask : BitVec 8
  swmask : BitVec 8
  sops : BitVec 16
  blend : Vector (BitVec 32) 4
  /-- FRAGKD, and the kernel that it names. -/
  fragkd : Word
  frag : Kernel
  fragargs : Word
  deriving DecidableEq, Repr

/-- A draw of an open pass (15 R318, R325). -/
structure Draw where
  seq : Nat
  mesh : Bool
  /-- Primitives of a DRAW; gangs of a DRAWMESH. -/
  count : Nat
  batch : Nat
  kern : Kernel
  args : Word
  st : DrawState
  /-- Batches launched so far, and batches closed. -/
  launched : Nat
  closed : List Nat
  deriving DecidableEq, Repr

/-- An exported primitive (15 R328): ticket and x, y, z of three vertices as FP32 bits. -/
structure Prim where
  ticket : Nat
  xyz : Vector (BitVec 32) 9
  deriving DecidableEq, Repr

/-- What became of a fragment (15 R330). -/
inductive FragResult where
  | pending
  /-- Exported: colour targets supplied, 4 channels each as bits; shader depth; poison. -/
  | exported (colors : List (BitVec 32)) (z : Option (BitVec 32)) (pois : Bool)
  deriving DecidableEq, Repr

/-- An emitted fragment in its tile's order buffer (15 R335). -/
structure Frag where
  ticket : Nat
  x : Nat
  y : Nat
  cover : BitVec 8
  helper : Bool
  /-- Member that holds its record, and the record's byte offset in that member's grant. -/
  tag : Nat
  off : Nat
  prim : Prim
  result : FragResult
  deriving DecidableEq, Repr

/-- A render context of a die that holds a pass (15 R318). -/
structure RenderCtx where
  die : Nat
  ctx : Nat
  queue : Nat
  part : Nat
  /-- The BEGINPASS: ring index and TAG. -/
  pktix : Word
  tag : BitVec 32
  dieSlot : Nat
  k : Nat
  satp : Word
  samples : Nat
  nrt : Nat
  width : Nat
  height : Nat
  /-- Base and format of targets 0 to 5 (R321). -/
  targets : List (Word × BitVec 16)
  /-- The ownership table of OWNMODE 1. -/
  own : Option (List Nat)
  work : Word
  cur : Option DrawState
  draws : List Draw
  nextSeq : Nat
  /-- Primitives exported on this die and not yet ferried (R331). -/
  ring : List Prim
  /-- Primitives landed and not yet emitted, the tickets of all that landed, and the closed ticket ranges
  [lo, hi) (R333). -/
  landing : List Prim
  landed : List Nat
  closures : List (Nat × Nat)
  /-- The next quad of the oldest released primitive (R335). -/
  quad : Nat
  frags : List Frag
  /-- A target access failure of the pass has been reported (R466). -/
  failed : Bool
  saved : Bool
  deriving DecidableEq, Repr

/-- Where an error strikes (04 R88; 06 R122, R126, R136; 14 R315): a core's L1 line, a scratchpad granule, a v,
w or b register of the current hart in a lane group, a row of an accumulator of it, or a granule of memory as
it is read. -/
inductive EccSite where
  | l1 (core line : Nat)
  | spad (granule : Nat)
  | reg (file : File) (ix group : Nat)
  | acc (t row : Nat)
  | mem (granule : Nat)
  deriving DecidableEq, Repr

/-- A posted RAS record (21 Table 21.4), as written or waiting in the ring. -/
structure RasRec where
  kind : Nat
  unit : Nat
  die : Nat
  addr : Nat
  lcnt : BitVec 48
  deriving DecidableEq, Repr

/-- A host IDE stream (21 R445): key set in use, whether the old set is retired, and flits sent and not
yet acknowledged with the key set each was first sent under. -/
structure IdeStream where
  stream : Nat
  set : Bool
  oldLive : Bool
  flits : List (BitVec 16 × Bool)
  deriving DecidableEq, Repr

/-- Package, trust and host state (21). -/
structure Pkg where
  /-- Enabled dies (R3, R440). -/
  dies : BitVec 8
  powered : Bool
  /-- Which measurement blocks have been extended, oldest first: block index and what was measured
  (R442). -/
  measured : List (Nat × List Word)
  tdi : List (Nat × TdiState)
  keys : List KeySlot
  ide : List IdeStream
  cxlDown : BitVec 4
  peerDown : BitVec 8
  /-- Next frame sequence of each peer circuit: connection-table entry and number (R447). -/
  peerSeq : List (Nat × BitVec 32)
  /-- RAS ring: host address of the base, entries as a power of 2, next index, lost records; none when
  the driver has given no ring (R448). -/
  rasRing : Option (Nat × Nat)
  rasIx : Nat
  rasOvf : BitVec 32
  /-- Answers to GET_MEASUREMENTS, newest first. -/
  answers : List (Nat × List (List Word))
  /-- Data returned to host reads, newest first (16 R359). -/
  hostReads : List (Nat × Option Word)
  /-- A thermal trip powered the package off (R450), and its record is still to be posted. -/
  tripped : Bool
  tripOwed : Bool
  /-- Entries of the RAS ring that the host has freed (R448). -/
  rasFree : Nat
  deriving DecidableEq, Repr

end Sys2Proof.Machine
end

