-- ==== Sys2Proof/Machine/State.lean ====
section
/-! DEFINITION. The machine's state, the reasons a step can stop, and the machine right after reset. -/

namespace Sys2Proof.Machine

/-- Reasons for which the machine stops. -/
inductive Fault where
  /-- A block instruction was executed while its hart holds no fetched block. Raised by every meaning
  of a block word; the step never runs one there. Safe: nothing is claimed of the next state. -/
  | noBlock
  deriving DecidableEq, Repr

/-- Reasons for which an instruction or event has no meaning in a state. -/
inductive Refusal where
  /-- No meaning is written for the instruction. Raised by exec alone. Safe. -/
  | notModelled (mnemonic : String)
  /-- The event cannot happen in this state: what it needs is absent. Raised by the events' meanings,
  which the outside world or another agent starts. Safe: nothing is claimed of a next state. -/
  | notEnabled (event : String)
  deriving DecidableEq, Repr

/-- Which agent moves next (assumption 2). -/
inductive Turn where
  /-- An event or instruction of an agent that has no program counter of its own. -/
  | event (i : Instr)
  /-- The current hart's scalar stream, vector unit or matrix stream. -/
  | scalar
  | vector
  | matrix
  /-- Another hart context becomes the current one: the `n`-th of the others. -/
  | hart (n : Nat)
  /-- The current hart's TLB keeps the translation of a virtual address (04 R80). -/
  | tlbFill (va : Word)
  /-- A core's L1 keeps a copy of a line of memory (06 R121), or drops it. -/
  | l1Fill (core line : Nat)
  | l1Drop (core line : Nat)
  /-- The sampler keeps the texels of a line for the current hart (12 R266). -/
  | texFill (line : Nat)
  /-- Time passes, in microseconds (18 R399, R402). -/
  | elapse (us : Nat)
  /-- Firmware grants a cluster, an engine or a render context of a die to a partition on driver command
  (assumption 33). -/
  | grantCluster (part cluster : Nat)
  | grantEngine (part engine : Nat)
  | grantRender (part render : Nat)
  /-- A partition's runtime is installed: its exit address and its trap entry (17 R363). -/
  | runtime (part : Nat) (exit trap : Word)
  /-- The supervisor sets the shape of a core on which no context is placed (01 R23). -/
  | setShape (core n : Nat)
  /-- The contexts of a gang of a job are created, before the gang is placed (17 R378, 19 R412). -/
  | createGang (job gang : Nat)
  /-- One whole vector of outside conditions of the Pontoon die: a message between holders of logical
  counters (05 R99). -/
  | message (src dst : Nat)
  /-- A request of an agent on die `origin` sets out for a near or far address, tagged with the routing
  generation of its die (04 R75); `store` is the doubleword of a store. -/
  | request (origin addr : Nat) (store : Option Word)
  /-- The line at an address moves from die `src` to die `dst` on behalf of a partition, or of firmware for 127
  (05 R95). -/
  | carry (src dst part addr : Nat)
  /-- An uncorrectable error is found where it strikes (04 R88; 06 R122, R126, R136; 14 R315). -/
  | ecc (site : EccSite)
  /-- The L2 writes a poisoned near-tier granule back to its channel (04 R87). -/
  | poisonWriteBack (granule : Nat)
  /-- The driver gives the RAS ring: base in host memory and log2 of its entries; the host has read entries of
  it (21 R448). -/
  | rasRing (base lg : Nat)
  | rasRead (n : Nat)
  /-- The host link: a flit is sent under the key set in use, is acknowledged, or the sender switches key sets
  (21 R445). -/
  | flitSend (stream : Nat) (seq : BitVec 16)
  | flitAck (stream : Nat) (seq : BitVec 16)
  | keySwitch (stream : Nat)
  /-- A sensor takes a reading in 1/16 °C (21 R449). -/
  | sense (die sensor : Nat) (temp : BitVec 16)
  deriving DecidableEq, Repr

/-- The machine. -/
structure State where
  /-- The hart whose stream is executing. -/
  h : Hart
  /-- Every other hart context that holds one. -/
  others : List Hart
  mem : MemSys
  gangs : List Gang
  sched : Sched
  gfx : List RenderCtx
  fab : Fabric
  pkg : Pkg
  /-- Page-fault messages sent to pager harts and not yet answered: pager's die, cluster and number, and
  the 64-byte message (04 R83; assumption 11). -/
  pagerMsgs : List (Nat × Nat × Nat × BitVec 512)
  /-- Microseconds since power-up (18 R399, R402). -/
  time : Nat
  /-- Counter of open points met: the model's own (assumption 5). -/
  tick : Nat
  /-- Which agent moves next: the model's own (assumption 2). -/
  agenda : List Turn
  deriving DecidableEq, Repr

/-- vcfg at reset: VILL = 1 (02 Table 2.8). -/
def vcfgVill : Word := 0x8000000000000000

/-- sstatus at reset (19 Table 19.8): FS = 11, UXL = 10, SD = 1. -/
def sstatusReset : Word := 0x8000000200006000

/-- An unbound register with no contents. -/
def VReg.zero : VReg := { bits := 0, pois := 0, hwm := 0 }

def Ident.none_ : Ident :=
  { kind := .vector, die := 0, cluster := 0, core := 0, slot := 0, tag := 0, part := 0, gang := none,
    member := 0, shape := 8, spadKib := 0, spadOff := 0, spadCore := none, mtN := 0, maN := 0 }

def Scalar.reset : Scalar :=
  { x := Vector.replicate 32 0, f := Vector.replicate 32 0, shadow := Vector.replicate 4 0, pc := 0,
    priv := .u, depth := 0, frm := 0, fflags := 0, resv := none, cycle := 0, instret := 0 }

def Csrs.reset : Csrs :=
  { vcfg := vcfgVill, vl := 0, vgoff := 0, vgshare := 0, vstat := 0, vlut0 := 0, vlut1 := 0, uivec := 0,
    uiepc := 0, uicause := 0, uie := false, uiActive := false, vtrec := 0, fcompat := 0, aotbase := 0,
    ctxarea := 0 }

def SCsrs.reset : SCsrs :=
  { satp := 0, sstatus := sstatusReset, sepc := 0, scause := 0, stval := 0, stvec := 0, sscratch := 0,
    scounteren := 7 }

def MCsrs.reset : MCsrs :=
  { mstatus := 0x8000000A00006000, mtvec := 0, mscratch := 0, mepc := 0, mcause := 0, mtval := 0,
    mie := 0, mip := 0, mcounteren := 7, medeleg := 0, mideleg := 0 }

def Vec.reset : Vec :=
  { v := Vector.replicate 32 VReg.zero, w := Vector.replicate 8 VReg.zero,
    b := Vector.replicate 4 VReg.zero, j := Vector.replicate 4 { val := 0, pois := false }, ms := [],
    bind := Vector.replicate 4 none, blocks := [], wix := 0, prog := [], halt := 0, ringWait := false }

def Mat.reset : Mat :=
  { mt := Vector.replicate 8 { bits := 0, pois := 0 }, ma := Vector.replicate 16 { bits := 0, pois := 0 },
    mcfg := 0x722, mtscale := 0x3F800000, queue := [], fault := none, pins := [] }

def Engine.reset : Engine := { filled := [], cur := none, nextRec := 0, held := [] }

/-- A hart record with no context in it. -/
def Hart.reset : Hart :=
  { id := Ident.none_, run := .empty, s := Scalar.reset, c := Csrs.reset, sc := SCsrs.reset,
    mc := MCsrs.reset, vu := Vec.reset, mat := Mat.reset,
    y := Vector.replicate 4 { val := 0, unread := 0, blk := false }, posts := [], heldPosts := [],
    fseq := 0, tlb := [], texels := [], eng := Engine.reset,
    frag := none }

/-- MHZ of every die's power registers resets to 1300 (18 Table 18.10); every other device register
resets to 0. -/
def devReset : SMap 64 :=
  [(0xF000000001018, 1300), (0xF000000001118, 1300), (0xF000000001218, 1300), (0xF000000001318, 1300),
   (0xF000000001418, 1300), (0xF000000001518, 1300), (0xF000000001618, 1300), (0xF000000001718, 1300)]

def MemSys.reset : MemSys :=
  { mem := [], pois := [], locked := [], plist := [], spad := [], spadPois := [], dev := devReset, win := [], l1 := [] }

def Sched.reset : Sched :=
  { queues := [], jobs := [], copies := [], reports := [], pointers := [], nextJob := 0, nextGang := 0,
    shapes := [], clusters := [], engines := [], renders := [], runtimes := [], gated := [] }

def Fabric.reset : Fabric :=
  { lcnt := Vector.replicate 9 0, dieGen := Vector.replicate 8 0, flights := [], streams := [] }

def Pkg.reset : Pkg :=
  { dies := 0xFF, powered := true, measured := [], tdi := [], keys := [], ide := [], cxlDown := 0,
    peerDown := 0, peerSeq := [], rasRing := none, rasIx := 0, rasOvf := 0, answers := [],
    hostReads := [], tripped := false, tripOwed := false, rasFree := 0 }

/-- The machine right after reset: no hart holds a context, nothing is placed, memory lists nothing. -/
def State.reset : State :=
  { h := Hart.reset, others := [], mem := MemSys.reset, gangs := [], sched := Sched.reset, gfx := [],
    fab := Fabric.reset, pkg := Pkg.reset, pagerMsgs := [], time := 0, tick := 0, agenda := [] }

end Sys2Proof.Machine
end

