-- ==== Sys2Proof/Machine/Ops.lean ====
section
/-! DEFINITION. The named operations over registers, memory, poison, harts and reports; taking an
exception and returning from one. -/

namespace Sys2Proof.Machine

/-! ## Sparse maps and sets of numbers -/

/-- The entry at `a`, or 0. -/
def mapGet {w : Nat} : SMap w → Nat → BitVec w
  | [], _ => 0
  | (b, v) :: t, a => if b = a then v else mapGet t a

/-- Write `v` at `a`, keeping the canonical form. -/
def mapSet {w : Nat} : SMap w → Nat → BitVec w → SMap w
  | [], a, v => if v = 0 then [] else [(a, v)]
  | (b, x) :: t, a, v =>
      if a < b then (if v = 0 then (b, x) :: t else (a, v) :: (b, x) :: t)
      else if a = b then (if v = 0 then t else (a, v) :: t)
      else (b, x) :: mapSet t a v

/-- Addresses rise strictly above `lo` and no entry is 0. -/
def mapWfFrom {w : Nat} : Nat → SMap w → Bool
  | _, [] => true
  | lo, (a, v) :: t => decide (lo ≤ a) && decide (v ≠ 0) && mapWfFrom (a + 1) t

/-- The canonical form of a sparse map. -/
abbrev mapWf {w : Nat} (m : SMap w) : Bool := mapWfFrom 0 m

/-- The canonical form of memory: near, far and host bytes, scratchpads, device registers and windows. -/
def Memory.wf (m : MemSys) : Bool :=
  mapWf m.mem && mapWf m.spad && mapWf m.dev && mapWf m.win

/-- Add a number to a rising list. -/
def setAdd : List Nat → Nat → List Nat
  | [], a => [a]
  | b :: t, a => if a < b then a :: b :: t else if a = b then b :: t else b :: setAdd t a

/-- Remove a number. -/
def setDel (l : List Nat) (a : Nat) : List Nat := l.filter (fun b => decide (b ≠ a))

/-- `n` bytes from `a`, little-endian (00 R7). -/
def readLe (m : SMap 8) : Nat → Nat → Nat
  | _, 0 => 0
  | a, n + 1 => (mapGet m a).toNat + 256 * readLe m (a + 1) n

/-- Field of `n` bytes at byte `o` of a record read as a little-endian number. -/
def descField (x o n : Nat) : Nat := x / 2 ^ (8 * o) % 2 ^ (8 * n)

/-- Write the low `n` bytes of `v` at `a`, little-endian. -/
def writeLe (m : SMap 8) : Nat → Nat → Nat → SMap 8
  | _, 0, _ => m
  | a, n + 1, v => writeLe (mapSet m a (BitVec.ofNat 8 v)) (a + 1) n (v / 256)

/-! ## Scalar registers -/

/-- A hart that has the vector core's shapes, apertures and trap rules (19 R404). -/
def Ident.isVector (i : Ident) : Bool := decide (i.kind = .vector)

/-- x[r]; x0 reads 0. -/
def Hart.xr (h : Hart) (r : Reg) : Word := if r = 0 then 0 else h.s.x[r.toNat]'(r.isLt)

/-- Write x[r]; a write to x0 is discarded. -/
def Hart.setX (h : Hart) (r : Reg) (v : Word) : Hart :=
  if r = 0 then h else { h with s := { h.s with x := h.s.x.set r.toNat v r.isLt } }

def Hart.fr (h : Hart) (r : Reg) : Word := h.s.f[r.toNat]'(r.isLt)

def Hart.setF (h : Hart) (r : Reg) (v : Word) : Hart :=
  { h with s := { h.s with f := h.s.f.set r.toNat v r.isLt } }

/-- sstatus: a vector hart's own register; on any other hart the S-level view of mstatus (19 R462,
RISC-V privileged). -/
def Hart.status (h : Hart) : Word := if h.id.isVector then h.sc.sstatus else h.mc.mstatus

def Hart.setStatus (h : Hart) (v : Word) : Hart :=
  if h.id.isVector then { h with sc := { h.sc with sstatus := v } }
  else { h with mc := { h.mc with mstatus := v } }

def Hart.setPc (h : Hart) (pc : Word) : Hart := { h with s := { h.s with pc := pc } }

/-- OR exception flags into fcsr.fflags (07 R168). -/
def Hart.addFlags (h : Hart) (fl : BitVec 5) : Hart :=
  { h with s := { h.s with fflags := h.s.fflags ||| fl } }

/-- A scalar instruction completes: the pc moves on and instret counts it (03 Table 3.7). -/
def Hart.retireTo (h : Hart) (pc : Word) : Hart :=
  { h with s := { h.s with pc := pc, instret := h.s.instret + 1 } }

/-- Complete and advance past a 32-bit word. -/
def Hart.advance (h : Hart) : Hart := h.retireTo (h.s.pc + 4)

def State.setH (s : State) (h : Hart) : State := { s with h := h }
def State.setMem (s : State) (m : MemSys) : State := { s with mem := m }
def State.setX (s : State) (r : Reg) (v : Word) : State := s.setH (s.h.setX r v)
def State.setPc (s : State) (pc : Word) : State := s.setH (s.h.setPc pc)
def State.advance (s : State) : State := s.setH s.h.advance

/-- Count an open point (assumption 5). -/
def State.tickUp (s : State) : State := { s with tick := s.tick + 1 }

/-! ## Harts and contexts -/

/-- Core number 0 to 1,279 (19 Table 19.4 SPCORE). -/
def coreNo (die cluster core : Nat) : Nat := (die * 10 + cluster) * 16 + core

/-- The core's number; steward and Ferryman cores, whose cluster field is above 9, are numbered apart from the
vector cores. -/
def Ident.coreNo (i : Ident) : Nat :=
  if i.cluster ≤ 9 then Machine.coreNo i.die i.cluster i.core
  else 1280 + (i.die * 16 + i.cluster) * 16 + i.core

/-- VLEN in bits (01 Table 1.1, R20). -/
def Ident.vlen (i : Ident) : Nat := if i.isVector then 16384 / i.shape else 512

/-- Lanes of the hart: 32 ÷ n on a vector core, 4 on a steward or Ferryman hart. -/
def Ident.lanes (i : Ident) : Nat := if i.isVector then 32 / i.shape else 4

/-- Lane groups of the hart (01 R23, R20). -/
def Ident.groups (i : Ident) : Nat := if i.isVector then 8 / i.shape else 1

/-- Continuation identifier with reply field 00 (17 R375). -/
def Ident.cont (i : Ident) : ContId :=
  BitVec.ofNat 32 (i.die * 2 ^ 29 + i.cluster * 2 ^ 25 + i.core * 2 ^ 21 + i.slot * 2 ^ 18 + i.tag * 4)

/-- Every hart record. -/
def State.harts (s : State) : List Hart := s.h :: s.others

/-- Change every record that satisfies `p`. -/
def State.mapHarts (s : State) (p : Hart → Bool) (f : Hart → Hart) : State :=
  { s with h := if p s.h then f s.h else s.h,
           others := s.others.map (fun h => if p h then f h else h) }

/-- The record holds a live context, running or not. -/
def Hart.live (h : Hart) : Bool := decide (h.run ≠ .empty) && decide (h.run ≠ .retired)

/-- A context is switched out for arriving messages, replies and posts (17 R378, 19 R407, R416). -/
def Hart.isOut (h : Hart) : Bool :=
  match h.run with
  | .saved _ | .held => true
  | .empty | .created | .running | .faultWait _ | .parked _ | .retired => false

/-- Context `tag` of partition `part`. -/
def Hart.isCtx (part tag : Nat) (h : Hart) : Bool :=
  decide (h.id.part = part) && decide (h.id.tag = tag) && decide (h.run ≠ .empty)
    && (decide (h.id.kind = .vector) || decide (h.id.kind = .service))

def State.findCtx (s : State) (part tag : Nat) : Option Hart := s.harts.find? (Hart.isCtx part tag)

/-- The context of any partition at a physical place with a tag: what a continuation identifier names. -/
def State.findCont (s : State) (c : ContId) : Option Hart :=
  s.harts.find? (fun h => decide (h.run ≠ .empty) && decide (h.id.cont = c &&& ~~~(3 : BitVec 32)))

/-- Make `h` current and put the present hart among the others in its place. -/
def State.swapHart (s : State) (n : Nat) : State :=
  match s.others[n]? with
  | none => s
  | some k => { s with h := k, others := s.others.set n s.h }

/-- Apply `f` to gang `g`. -/
def State.updGang (s : State) (g : Nat) (f : Gang → Gang) : State :=
  { s with gangs := s.gangs.map (fun x => if x.gid = g then f x else x) }

def State.findGang (s : State) (g : Nat) : Option Gang := s.gangs.find? (fun x => decide (x.gid = g))

/-- The current hart's gang. -/
def State.myGang (s : State) : Option Gang := s.h.id.gang.bind s.findGang

/-! ## Stops -/

/-- An exception with subcode 0. -/
def Stop.of (cause : BitVec 8) (tval : Word) : Stop := .exc { cause := cause, tval := tval, sub := 0 }

/-- illegal-instruction: the trap value is the word (02 R42). -/
def illegal (w : Word) : Stop := Stop.of 2 w

def AKind.accessFault : AKind → BitVec 8
  | .fetch => 1 | .load => 5 | .store => 7 | .amo => 7

def AKind.pageFault : AKind → BitVec 8
  | .fetch => 12 | .load => 13 | .store => 15 | .amo => 15

def AKind.misaligned : AKind → BitVec 8
  | .fetch => 0 | .load => 4 | .store => 6 | .amo => 6

/-! ## The physical map -/

def devBase : Nat := 0xF000000000000
def shadowBase : Nat := 0xF000000010000
def activeBase : Nat := 0xF000000020000
def connBase : Nat := 0xF000000030000
def windowBase : Nat := 0xF000000040000
def queueBase : Nat := 0xF000000100000
def notifyBase : Nat := 0xF000500000000
def kickBase : Nat := 0xF000300000000
def engineRamBase : Nat := 0xF000200000000
def capBase : Nat := 0xF000000008000
def cpoolBase : Nat := 0xF000000002000
def powerBase : Nat := 0xF000000001000
def lcntBase : Nat := 0xF000000000400
def rtctlAddr : Nat := 0xF000000000100
def ctstatAddr : Nat := 0xF000000000200
def bootstatAddr : Nat := 0xF000000000008

def State.devGet (s : State) (a : Nat) : Word := mapGet s.mem.dev a
def State.devSet (s : State) (a : Nat) (v : Word) : State :=
  s.setMem { s.mem with dev := mapSet s.mem.dev a v }

/-- A near or far address lies in the extent of a valid active region-table entry (04 R69, Table 4.2). -/
def regionCovered (dev : SMap 64) (pa : Nat) : Bool :=
  dev.any (fun e => decide (activeBase ≤ e.1) && decide (e.1 < activeBase + 4096)
    && decide (e.1 % 16 = 0) && e.2.getLsbD 0
    && decide (fieldOf e.2 37 16 ≤ pa / 2 ^ 30)
    && decide (pa / 2 ^ 30 < fieldOf e.2 37 16 + fieldOf e.2 52 38))

/-- What Table 4.1 has at a physical address. -/
def physLoc (dev : SMap 64) (pa : Nat) (nc : Bool) : Option Loc :=
  if pa < 0x10000000000 then (if regionCovered dev pa then some (.mem pa nc) else none)
  else if 0x100000000000 ≤ pa ∧ pa < 0x200000000000 then
    (if regionCovered dev pa then some (.mem pa nc) else none)
  else if 0x4000000000000 ≤ pa ∧ pa < 0x8000000000000 then some (.mem pa nc)
  else if devBase ≤ pa ∧ pa < 0x10000000000000 then some (.dev pa)
  else none

/-! ## Partition windows (04 R77, R78) -/

/-- Word 0 of window `i` of partition `p`, in a table of windows. -/
def winW0 (win : SMap 64) (p i : Nat) : Word := mapGet win (windowBase + 0x100 * p + 16 * i)
def winW1 (win : SMap 64) (p i : Nat) : Word := mapGet win (windowBase + 0x100 * p + 16 * i + 8)

/-- Window `i` of partition `p` is valid and holds partition address `a` (R78). -/
def winHit (win : SMap 64) (p a i : Nat) : Bool :=
  let w0 := winW0 win p i
  let w1 := winW1 win p i
  let pb := fieldOf w0 51 21
  w0.getLsbD 0 && decide (pb * 2 ^ 21 ≤ a) && decide (a < (pb + fieldOf w1 30 0) * 2 ^ 21)

/-- The permission that an access needs of its window. -/
def winPerm (w0 : Word) : AKind → Bool
  | .fetch => w0.getLsbD 3
  | .load => w0.getLsbD 1
  | .store => w0.getLsbD 2
  | .amo => w0.getLsbD 1 && w0.getLsbD 2

/-- Physical address and NC of partition address `a` under partition `p`'s windows in effect. -/
def windowPa (win : SMap 64) (p a : Nat) (k : AKind) : Option (Nat × Bool) :=
  match (List.range 16).find? (winHit win p a) with
  | none => none
  | some i =>
      let w0 := winW0 win p i
      if winPerm w0 k then
        some (fieldOf (winW1 win p i) 62 32 * 2 ^ 21 + (a - fieldOf w0 51 21 * 2 ^ 21), w0.getLsbD 4)
      else none

/-- Where a partition address goes; `none` is an access fault. -/
def partLoc (m : MemSys) (p a : Nat) (k : AKind) : Option Loc :=
  if 2 ^ 52 ≤ a then none
  else (windowPa m.win p a k).bind (fun r => physLoc m.dev r.1 r.2)

/-! ## Sv57 (04 R79) -/

/-- A leaf: the frame's partition address, the page size as an exponent, and PTE bits [7:0]. -/
structure Leaf where
  frame : Nat
  lg : Nat
  flags : BitVec 8
  deriving DecidableEq, Repr

/-- A walk fails on an access or on a page fault. -/
inductive WalkErr where
  | access
  | page (ad : Bool)
  deriving DecidableEq, Repr

/-- The walk at level `n - 1` in the table at partition address `base`. -/
def walk (m : MemSys) (part va : Nat) : Nat → Nat → Except WalkErr Leaf
  | 0, _ => .error (.page false)
  | n + 1, base =>
      match partLoc m part (base + (va / 2 ^ (12 + 9 * n)) % 512 * 8) .load with
      | some (.mem pa _) =>
          let pte : Word := BitVec.ofNat 64 (readLe m.mem pa 8)
          let ppn := fieldOf pte 53 10
          let v := pte.getLsbD 0
          let r := pte.getLsbD 1
          let w := pte.getLsbD 2
          let x := pte.getLsbD 3
          if !v || (!r && w) || decide (fieldOf pte 62 54 ≠ 0) || decide (2 ^ 40 ≤ ppn) then
            .error (.page false)
          else if r || x then
            let napot := pte.getLsbD 63
            if decide (n = 4) || (napot && (decide (n ≠ 0) || decide (ppn % 16 ≠ 8)))
                || decide (ppn % 2 ^ (9 * n) ≠ 0) then .error (.page false)
            else if napot then .ok { frame := ppn / 16 * 16 * 4096, lg := 16, flags := pte.extractLsb' 0 8 }
            else .ok { frame := ppn * 4096, lg := 12 + 9 * n, flags := pte.extractLsb' 0 8 }
          else if pte.getLsbD 63 || pte.getLsbD 4 || pte.getLsbD 6 || pte.getLsbD 7 then
            .error (.page false)
          else walk m part va n (ppn * 4096)
      | _ => .error .access

/-- The leaf permits the access at this privilege (R79); an error says whether only A or D was
missing. -/
def leafPermits (fl : BitVec 8) (priv : Priv) (sum mxr : Bool) (k : AKind) : Except WalkErr Unit :=
  let r := fl.getLsbD 1
  let w := fl.getLsbD 2
  let x := fl.getLsbD 3
  let u := fl.getLsbD 4
  let a := fl.getLsbD 6
  let d := fl.getLsbD 7
  let userOk : Bool :=
    match priv with
    | .u => u
    | _ => !u || (sum && decide (k ≠ .fetch))
  let permOk : Bool :=
    match k with
    | .fetch => x
    | .load => r || (mxr && x)
    | .store => w
    | .amo => r && w
  let needD : Bool := decide (k = .store) || decide (k = .amo)
  if !userOk || !permOk then .error (.page false)
  else if !a || (needD && !d) then .error (.page true)
  else .ok ()

/-- bits [63:57] all equal bit 56. -/
def canonicalVa (va : Word) : Bool :=
  decide (va.toNat / 2 ^ 56 = 0) || decide (va.toNat / 2 ^ 56 = 255)

/-- The partition address of a virtual address under an satp (R79): Bare or Sv57. -/
def toPartition (m : MemSys) (part : Nat) (satp : Word) (tlb : List TlbEntry) (priv : Priv)
    (sum mxr : Bool) (k : AKind) (va : Word) : Except WalkErr Nat :=
  if fieldOf satp 63 60 = 0 then .ok va.toNat
  else if !canonicalVa va then .error (.page false)
  else
    let leaf : Except WalkErr Leaf :=
      match tlb.find? (fun e => decide (va.toNat / 2 ^ e.lg = e.vpage)) with
      | some e => .ok { frame := e.frame, lg := e.lg, flags := e.flags }
      | none => walk m part (va.toNat % 2 ^ 57) 5 (fieldOf satp 43 0 * 4096)
    match leaf with
    | .error e => .error e
    | .ok l =>
        match leafPermits l.flags priv sum mxr k with
        | .error e => .error e
        | .ok _ => .ok (l.frame + va.toNat % 2 ^ l.lg)

/-! ## Scratchpad apertures (06 R124) -/

/-- The address lies in an aperture. -/
def inAperture (va : Word) : Bool := decide (0xFFFFFFFE00000000 ≤ va.toNat)

/-- The scratchpad byte of offset `o` in a context's grant; a grant that is not resident on the context's
core answers with retry (R127, R128). -/
def grantLoc (k : Hart) (o : Nat) : Except Stop Loc :=
  if k.id.spadCore = some k.id.coreNo then .ok (.spad (k.id.coreNo * 2 ^ 19 + k.id.spadOff + o))
  else .error .retry

/-- The scratchpad byte of an aperture address, for a vector hart with a grant (Table 6.1). -/
def apertureLoc (s : State) (h : Hart) (fault : Stop) (va : Word) : Except Stop Loc :=
  if !h.id.isVector || decide (h.id.spadKib = 0) then .error fault
  else if 0xFFFFFFFF00000000 ≤ va.toNat then
    let o := va.toNat - 0xFFFFFFFF00000000
    if o < h.id.spadKib * 1024 then grantLoc h o else .error fault
  else
    let r := va.toNat - 0xFFFFFFFE00000000
    let o := r % 0x80000
    match h.id.gang.bind s.findGang with
    | none => .error fault
    | some g =>
        match (g.tags[r / 0x80000]?).bind (s.findCtx h.id.part) with
        | none => .error fault
        | some k => if o < k.id.spadKib * 1024 then grantLoc k o else .error fault

/-! ## Addressing -/

/-- The privilege that an access of an M-mode hart takes: MPRV of mstatus (RISC-V privileged). -/
def Hart.accPriv (h : Hart) (k : AKind) : Priv :=
  if h.s.priv = .m ∧ k ≠ .fetch ∧ h.mc.mstatus.getLsbD 17 then
    (if fieldOf h.mc.mstatus 12 11 = 3 then .m else if fieldOf h.mc.mstatus 12 11 = 1 then .s else .u)
  else h.s.priv

def walkStop (k : AKind) (va : Word) : WalkErr → Stop
  | .access => Stop.of k.accessFault va
  | .page ad => .page k.pageFault va ad

/-- Where a virtual address of a hart goes, or why the access stops (04 introduction, R69, R78, R79;
06 R124). -/
def addrOf (s : State) (h : Hart) (k : AKind) (va : Word) : Except Stop Loc :=
  let fault : Except Stop Loc := .error (Stop.of k.accessFault va)
  let priv : Priv := h.accPriv k
  if priv = .m then
    if 2 ^ 52 ≤ va.toNat then fault
    else match physLoc s.mem.dev va.toNat false with
      | none => fault
      | some l => .ok l
  else if inAperture va then
    if k = .fetch then fault
    else apertureLoc s h (Stop.of k.accessFault va) va
  else
    match toPartition s.mem h.id.part h.sc.satp h.tlb priv (h.status.getLsbD 18)
        (h.status.getLsbD 19) k va with
    | .error e => .error (walkStop k va e)
    | .ok a =>
        match partLoc s.mem h.id.part a k with
        | none => fault
        | some l => .ok l

/-! ## Reading and writing bytes -/

/-- The L1 copy of a line that a core holds. -/
def l1Find (l : List (Nat × Nat × BitVec 1024)) (core line : Nat) : Option (BitVec 1024) :=
  (l.find? (fun e => decide (e.1 = core) && decide (e.2.1 = line))).map (fun e => e.2.2)

/-- `n` bytes of a line from byte `o`. -/
def lineBytes (l : BitVec 1024) (o n : Nat) : Nat := (l.toNat >>> (8 * o)) % 2 ^ (8 * n)

/-- `n` bytes at a place that lie in one line, as a core reads them (05 R98). -/
def loadLoc (m : MemSys) (core : Nat) (l : Loc) (n : Nat) : Nat :=
  match l with
  | .mem pa nc =>
      match (if nc then none else l1Find m.l1 core (pa / 128)) with
      | some c => lineBytes c (pa % 128) n
      | none => readLe m.mem pa n
  | .spad a => readLe m.spad a n
  | .dev pa => (mapGet m.dev (pa / 8 * 8)).toNat / 2 ^ (8 * (pa % 8)) % 2 ^ (8 * n)

/-- The granules of `n` bytes from `a`. -/
def granules (a n : Nat) : List Nat :=
  if n = 0 then [] else (List.range ((a + n - 1) / 64 - a / 64 + 1)).map (fun i => a / 64 + i)

/-- A far address whose CXL port is down (04 R68, 21 R446): contiguous ports in order, or ports
interleaved at 4 KiB. -/
def farPortDown (s : State) (pa : Nat) : Bool :=
  if s.pkg.cxlDown = 0 ∨ ¬ (0x100000000000 ≤ pa ∧ pa < 0x200000000000) then false
  else
    let cap := fun o n => (mapGet s.mem.dev (capBase + o / 8 * 8)).toNat / 2 ^ (8 * (o % 8)) % 2 ^ (8 * n)
    let gib := [cap 12 4, cap 16 4, cap 20 4, cap 24 4]
    let off := pa - 0x100000000000
    let mode := cap 11 1
    let port : Nat :=
      if mode = 0 then
        (if off < gib[0]! * 2 ^ 30 then 0 else if off < (gib[0]! + gib[1]!) * 2 ^ 30 then 1
         else if off < (gib[0]! + gib[1]! + gib[2]!) * 2 ^ 30 then 2 else 3)
      else
        let set := (List.range 4).filter (fun i => decide (gib[i]! ≠ 0))
        (set[off / 4096 % (2 * mode)]?).getD 0
    s.pkg.cxlDown.getLsbD port

/-- A read of `n` bytes at a place touches poison (04 R89). -/
def poisonedLoc (s : State) (l : Loc) (n : Nat) : Bool :=
  match l with
  | .mem pa _ => (granules pa n).any (fun g => s.mem.pois.contains g) || farPortDown s pa
  | .spad a => (granules a n).any (fun g => s.mem.spadPois.contains g)
  | .dev _ => false

/-- The granules wholly inside `n` bytes from `a`. -/
def wholeGranules (a n : Nat) : List Nat :=
  (granules a n).filter (fun g => decide (a ≤ g * 64) && decide (g * 64 + 64 ≤ a + n))

/-- Poison after a write of `n` bytes at `a`: a poisoned write poisons every granule it writes; an
unpoisoned one clears the granules it covers whole (04 R90). -/
def poisonAfter (pois : List Nat) (a n : Nat) (p : Bool) : List Nat :=
  if p then (granules a n).foldl setAdd pois else (wholeGranules a n).foldl setDel pois

/-- The reservation that an access to a place meets (03 Table 3.7, 06 R125). -/
def Loc.line : Loc → Option Resv
  | .mem pa _ => some (.mem (pa / 128))
  | .spad a => some (.spad (a / 128))
  | .dev _ => none

/-- Clear every other hart's reservation of the line that a write meets. -/
def State.dropResv (s : State) (l : Loc) : State :=
  { s with others := s.others.map (fun h =>
      if h.s.resv = l.line then { h with s := { h.s with resv := none } } else h) }

/-- `n` bytes replaced in the L1 copy that the core holds of the line (05 R98). -/
def l1Write (l : List (Nat × Nat × BitVec 1024)) (core pa n v : Nat) :
    List (Nat × Nat × BitVec 1024) :=
  l.map (fun e =>
    if e.1 = core ∧ e.2.1 = pa / 128 then
      (e.1, e.2.1, setField e.2.2 (8 * (pa % 128) + 8 * n - 1) (8 * (pa % 128)) v)
    else e)

/-- Write the low `n` bytes of `v` at a place, all in one line; `p` says that the write is poisoned. A
write to a far port that is down is lost (21 R446). -/
def writeLoc (s : State) (core : Nat) (l : Loc) (n v : Nat) (p : Bool) : State :=
  match l with
  | .mem pa _ =>
      if farPortDown s pa then s
      else
        (s.setMem { s.mem with
          mem := writeLe s.mem.mem pa n v, pois := poisonAfter s.mem.pois pa n p,
          locked := s.mem.locked.filter (fun g => decide (g ∈ poisonAfter s.mem.pois pa n p)),
          l1 := l1Write s.mem.l1 core pa n v }).dropResv l
  | .spad a =>
      (s.setMem { s.mem with
        spad := writeLe s.mem.spad a n v, spadPois := poisonAfter s.mem.spadPois a n p }).dropResv l
  | .dev pa => s.devSet (pa / 8 * 8) (BitVec.ofNat 64 v)

/-- The Nurak's own writes to physical memory (records, save areas, signals): every core's copies are left as
they are, and every reservation of the line is cleared. A write to a far port that is down is lost. -/
def State.writePa (s : State) (pa n v : Nat) : State :=
  if farPortDown s pa then s
  else
    (s.setMem { s.mem with mem := writeLe s.mem.mem pa n v, pois := poisonAfter s.mem.pois pa n false }).mapHarts
      (fun h => decide (h.s.resv = some (.mem (pa / 128)))) (fun h => { h with s := { h.s with resv := none } })

def State.readPa (s : State) (pa n : Nat) : Nat := readLe s.mem.mem pa n

/-- Read `n` bytes at a partition address, all in one window page. -/
def State.readPart (s : State) (part a n : Nat) : Option Nat :=
  match partLoc s.mem part a .load with
  | some (.mem pa _) => some (s.readPa pa n)
  | _ => none

/-- Write `n` bytes at a partition address. -/
def State.writePart (s : State) (part a n v : Nat) : Option State :=
  match partLoc s.mem part a .store with
  | some (.mem pa _) => some (s.writePa pa n v)
  | _ => none

/-- Both ends of a range of partition addresses, and every 2 MiB between, pass the windows. -/
def partRangeOk (m : MemSys) (part a n : Nat) (k : AKind) : Bool :=
  (List.range ((a + n - 1) / 2 ^ 21 - a / 2 ^ 21 + 1)).all (fun i =>
    match partLoc m part (max a ((a / 2 ^ 21 + i) * 2 ^ 21)) k with
    | some (.mem _ _) => true
    | _ => false)

/-- Invalidate every L1 copy of a core (06 R122). -/
def State.dropL1 (s : State) (core : Nat) : State :=
  s.setMem { s.mem with l1 := s.mem.l1.filter (fun e => decide (e.1 ≠ core)) }

/-- An acquire at a scope takes effect on the current hart: wider than core scope it invalidates its
core's L1 copies and the sampler's texels (16 R343, 06 R122, 12 R266). Hart scope alone is not wider. -/
def State.acquire (s : State) (sc : Scope) : State :=
  if sc = .hart then s
  else (s.dropL1 s.h.id.coreNo).setH { s.h with texels := [] }

/-! ## Logical counters (05 R99) -/

/-- later(a, b): b if (b - a) mod 2^48 lies in 1 .. 2^47 - 1. -/
def later (a b : BitVec 48) : BitVec 48 :=
  if 1 ≤ (b - a).toNat ∧ (b - a).toNat < 2 ^ 47 then b else a

/-- A message from one holder of a counter to another. -/
def State.message (s : State) (src dst : Nat) : State :=
  if h : src < 9 ∧ dst < 9 then
    let c := s.fab.lcnt[src] + 1
    let l1 := s.fab.lcnt.set src c
    { s with fab := { s.fab with lcnt := l1.set dst (later l1[dst] c + 1) } }
  else s

def State.lcntOf (s : State) (d : Nat) : BitVec 48 := if h : d < 9 then s.fab.lcnt[d] else 0

/-! ## Reports and RAS records -/

/-- The job of the current hart's gang. -/
def State.jobOf (s : State) (h : Hart) : Option Job :=
  (h.id.gang.bind s.findGang).bind (fun g =>
    g.job.bind (fun j => s.sched.jobs.find? (fun x => decide (x.jid = j))))

/-- Reports of a partition that are held. -/
def State.heldReports (s : State) (part : Nat) : Nat :=
  (s.sched.reports.filter (fun r => decide (r.part = part))).length

/-- Queue a REPORT (18 R397); the event REPORT_WRITE writes it into its ring. -/
def State.postReport (s : State) (r : Report) : State :=
  { s with sched := { s.sched with reports := s.sched.reports ++ [r] } }

/-- A REPORT about a hart: QUEUE and PKTIX name its job (18 Table 18.9, causes 9 and 10). -/
def State.reportHart (s : State) (h : Hart) (cause : Nat) (d0 d1 : Word) : State :=
  let j := s.jobOf h
  s.postReport { cause := cause, queue := (j.map (fun x => x.queue)).getD 0, part := h.id.part, tag := (j.map (fun x => x.tag)).getD 0,
                 pktix := (j.map (fun x => x.pktix)).getD 0, boff := 0, lcnt := s.lcntOf h.id.die,
                 d0 := d0, d1 := d1 }

/-- The 64 bytes of a RAS record as eight doublewords (21 Table 21.4). -/
def RasRec.words (r : RasRec) (ovf : BitVec 32) : List Word :=
  [BitVec.ofNat 64 (r.kind + r.unit * 256 + r.die * 65536 + ovf.toNat * 2 ^ 32), BitVec.ofNat 64 r.addr,
   r.lcnt.zeroExtend 64, 0, 0, 0, 0, 0]

/-- Append a RAS record to the host's ring, or count it lost when the ring is full (21 R448). With no
ring given nothing is written. -/
def State.ras (s : State) (kind unit die addr : Nat) : State :=
  match s.pkg.rasRing with
  | none => s
  | some (base, lg) =>
      if s.pkg.rasFree = 0 then { s with pkg := { s.pkg with rasOvf := s.pkg.rasOvf + 1 } }
      else
        let r : RasRec := { kind := kind, unit := unit, die := die, addr := addr, lcnt := s.lcntOf die }
        let a := base + 64 * (s.pkg.rasIx % 2 ^ lg)
        let s1 := ((r.words s.pkg.rasOvf).foldl (fun (st : State × Nat) w =>
          (st.1.writePa st.2 8 w.toNat, st.2 + 8)) (s, a)).1
        { s1 with pkg := { s1.pkg with rasIx := s1.pkg.rasIx + 1, rasFree := s1.pkg.rasFree - 1,
                                       rasOvf := 0 } }

/-! ## Stopping the vector unit (19 R409, R410) -/

/-- Lanes and groups: NEG element groups per register (06 R129). -/
def Ident.neg (i : Ident) : Nat := i.vlen / (128 * i.lanes)

/-- P of vcfg.VPASS (02 Table 2.8). -/
def vpassOf (vcfg : Word) : Nat := 2 ^ fieldOf vcfg 9 8
/-- LMUL of a legal vcfg. -/
def lmulOf (vcfg : Word) : Nat := 2 ^ fieldOf vcfg 5 3
/-- SEW in bits of a code of Table 2.8. -/
def sewOfCode (c : Nat) : Nat :=
  if c = 0 then 8 else if c = 1 then 16 else if c = 2 then 32 else if c = 3 then 64
  else if c = 4 then 2 else 4
def sewOf (vcfg : Word) : Nat := sewOfCode (fieldOf vcfg 2 0)

/-- Fetch a block word through the instruction path (02 R44, 04 R89, 17 R368). -/
def fetchBlockWord (s : State) (h : Hart) (va : Word) : Except Stop Word :=
  match addrOf s h .fetch va with
  | .error e => .error e
  | .ok (.mem pa nc) =>
      if poisonedLoc s (.mem pa nc) 8 then .error (Stop.of 1 va)
      else .ok (BitVec.ofNat 64 (readLe s.mem.mem pa 8))
  | .ok _ => .error (Stop.of 1 va)

def vstopWord : Word := 0x9F

/-- Address of word `i` of a block. -/
def Block.wordAt (b : Block) (i : Nat) : Word := b.base + BitVec.ofNat 64 (8 * i)

/-- The unfinished blocks and next word index after the VSTOP words at the front (19 R410: VSTOP words
are skipped). -/
def dropStops (s : State) (h : Hart) : List Block → Nat → List Block × Nat
  | [], _ => ([], 0)
  | b :: t, i =>
      match fetchBlockWord s h (b.wordAt i) with
      | .ok w => if w = vstopWord then dropStops s h t 0 else (b :: t, i)
      | .error _ => (b :: t, i)

/-- The progress group of the word that the oldest block stands at, for a word not yet started (19
R411). -/
def gpOfWord (b : Block) (w : Word) : Nat :=
  if w.toNat % 256 = 0x0A ∨ w.toNat % 256 = 0x0B then wholeG (w.extractLsb' 48 16)
  else if vpassOf b.vcfg ≠ 1 then vpassOf b.vcfg
  else if b.vcfg.getLsbD 63 then 1 else lmulOf b.vcfg

/-- The entries of a stop: the started instructions' counts, or one entry of zeros for an oldest
unfinished instruction that has not started. -/
def stopEntries (h : Hart) (blocks : List Block) : List (List Nat) :=
  if blocks = [] then [] else if h.vu.prog = [] then [List.replicate 8 0] else h.vu.prog.take 16

/-- Bytes of one record entry: eight 2-byte counts. -/
def entryNat (e : List Nat) : Nat :=
  (e.take 8).foldr (fun c acc => c % 65536 + 65536 * acc) 0

/-- The 512 bytes of a record as a number, little-endian (19 Table 19.2). -/
def recordNat (h : Hart) (epc : Word) (x : Exc) (level : Nat) (vec mq : Bool) (entries : List (List Nat))
    (sstat : Nat) (base : Word) (wix : Nat) (mpc : Word) (lcnt : BitVec 48) : Nat :=
  let kind := (if vec then 1 else 0) + (if mq then 2 else 0)
  let hd := epc.toNat + x.cause.toNat * 2 ^ 64 + x.tval.toNat * 2 ^ 128 + x.sub.toNat * 2 ^ 192
    + level * 2 ^ 208 + kind * 2 ^ 216 + entries.length * 2 ^ 224 + h.id.groups * 2 ^ 232
    + sstat * 2 ^ 240
  let mid := base.toNat * 2 ^ 256 + wix * 2 ^ 320 + mpc.toNat * 2 ^ 384 + lcnt.toNat * 2 ^ 448
  hd + mid + (entries.foldr (fun e acc => entryNat e + 2 ^ 128 * acc) 0) * 2 ^ 512

/-- Write `n` bytes at a partition address in 64-byte pieces. -/
def State.writePartLong (s : State) (part a : Nat) : Nat → Nat → Option State
  | 0, _ => some s
  | n + 1, v =>
      match s.writePart part a 64 (v % 2 ^ 512) with
      | none => none
      | some s' => s'.writePartLong part (a + 64) n (v / 2 ^ 512)

/-! ## Taking an exception -/

/-- Held by a nested emulation fault (19 R407). -/
def holdHart (s : State) : State :=
  let h := { s.h with run := .held }
  (s.setH h).reportHart h 10 (zext64 h.id.cont) h.s.pc

/-- The unfinished blocks once `bs` are left of them: every matrix entry that was to wait for `n` blocks waits for
as many fewer as have gone (13 R278). -/
def Hart.setBlocks (h : Hart) (bs : List Block) (wix : Nat) : Hart :=
  let gone := h.vu.blocks.length - bs.length
  { h with
    vu := { h.vu with blocks := bs, wix := wix },
    mat := { h.mat with queue := h.mat.queue.map (fun e => { e with bpos := e.bpos - gone }) } }

/-- vcfg, S-level CSRs and pc after a trap to S at a level (19 R404, R405, R462). -/
def sTrapHart (h : Hart) (x : Exc) (level : Nat) (blocks : List Block) (wix : Nat) (entries : List (List Nat)) :
    Hart :=
  let ss := setField (setField (setField h.status 8 8 (if h.s.priv = .s then 1 else 0)) 5 5
    (fieldOf h.status 1 1)) 1 1 0
  let h1 := (h.setBlocks blocks wix).setStatus ss
  { h1 with
    s := { h.s with priv := .s, depth := level, pc := h.sc.stvec &&& ~~~(3 : Word), resv := none },
    sc := { h1.sc with sepc := h.s.pc, scause := x.cause.zeroExtend 64, stval := x.tval },
    vu := { h1.vu with prog := entries, ringWait := false,
                       halt := if h.vu.halt = 0 ∧ entries ≠ [] then level else h.vu.halt } }

/-- A trap of a vector hart: the outcome by depth and cause, with its record (19 R405, R409, R410).
`mpc` is the pc of the failing custom-2 word, for a matrix fault. -/
def takeSTrap (s : State) (x : Exc) (mpc : Option Word) : State :=
  let h := s.h
  if h.s.depth = 2 ∨ (h.s.depth = 1 ∧ x.cause = 2) then holdHart s
  else
    let level := h.s.depth + 1
    let fresh := decide (h.vu.halt = 0)
    let p := if fresh then dropStops s h h.vu.blocks h.vu.wix else (h.vu.blocks, h.vu.wix)
    let entries := stopEntries h p.1
    let h' := sTrapHart h x level p.1 p.2 entries
    let base := (p.1.head?.map (fun b => b.base)).getD 0
    let sstat := (if h'.status.getLsbD 8 then 1 else 0) + (if h'.status.getLsbD 5 then 2 else 0)
    let r := recordNat h h.s.pc x level (decide (entries ≠ [])) mpc.isSome entries sstat base p.2
      (mpc.getD 0) (s.lcntOf h.id.die)
    match s.writePartLong h.id.part (h.c.vtrec.toNat + 512 * (level - 1)) 8 r with
    | none => holdHart s
    | some s' => s'.setH h'

/-- A trap of an M-mode or service hart: the RISC-V privileged specification's, to S where medeleg
delegates it and to M otherwise (19 R404; assumption 12). -/
def takeMTrap (s : State) (x : Exc) : State :=
  let h := s.h
  if h.s.priv ≠ .m ∧ h.mc.medeleg.getLsbD x.cause.toNat then
    s.setH { sTrapHart h x h.s.depth h.vu.blocks h.vu.wix h.vu.prog with vu := h.vu }
  else
    let mpp := if h.s.priv = .m then 3 else if h.s.priv = .s then 1 else 0
    let ms := setField (setField (setField h.mc.mstatus 12 11 mpp) 7 7 (fieldOf h.mc.mstatus 3 3)) 3 3 0
    s.setH { h with
      s := { h.s with priv := .m, pc := h.mc.mtvec &&& ~~~(3 : Word), resv := none },
      mc := { h.mc with mstatus := ms, mepc := h.s.pc, mcause := x.cause.zeroExtend 64,
                        mtval := x.tval } }

/-- Take an exception: the one operation that every meaning uses. -/
def takeTrap (s : State) (x : Exc) (mpc : Option Word) : State :=
  if s.h.id.isVector then takeSTrap s x mpc else takeMTrap s x

/-- What a page-fault message says beside the hart's own fields (04 Table 4.6, 13 R293). -/
structure FaultSite where
  vside : Bool
  pc : Word
  wix : Nat
  lgstop : Nat
  mq : Bool
  deriving DecidableEq, Repr

def Hart.scalarSite (h : Hart) : FaultSite :=
  { vside := false, pc := h.s.pc, wix := 0, lgstop := 0, mq := false }

def Hart.blockSite (h : Hart) (lgstop : Nat) : FaultSite :=
  { vside := true, pc := (h.vu.blocks.head?.map (fun b => b.base)).getD 0, wix := h.vu.wix,
    lgstop := lgstop, mq := false }

/-- The page-fault message as a 512-bit number. -/
def faultMessage (h : Hart) (seq : BitVec 16) (cause : BitVec 8) (va : Word) (ad : Bool) (f : FaultSite) :
    BitVec 512 :=
  let kind := (if f.vside then 1 else 0) + (if ad then 2 else 0)
  BitVec.ofNat 512 (h.id.cont.toNat + seq.toNat * 2 ^ 32 + cause.toNat * 2 ^ 48 + kind * 2 ^ 56
    + va.toNat * 2 ^ 64 + h.sc.satp.toNat * 2 ^ 128 + f.pc.toNat * 2 ^ 192 + f.wix * 2 ^ 256
    + f.lgstop * 2 ^ 272)

/-- Offer a page fault to the pager of the core's cluster and enter fault wait (04 R83). -/
def offerFault (s : State) (cause : BitVec 8) (va : Word) (ad : Bool) (f : FaultSite) : State :=
  let h := s.h
  let seq := h.fseq + 1
  let m := faultMessage h seq cause va ad f
  let s' := s.setH { h with
    fseq := seq, run := .faultWait { seq := seq, cause := cause, va := va, mq := f.mq } }
  { s' with pagerMsgs := s'.pagerMsgs ++ [(h.id.die, h.id.cluster, if h.id.core < 8 then 0 else 1, m)] }

/-- A scalar-side stop: an exception is taken; a vector hart's page fault goes to its pager. -/
def raise (st : Stop) (s : State) : State :=
  match st with
  | .exc x => takeTrap s x none
  | .page c va ad =>
      if s.h.id.isVector then offerFault s c va ad s.h.scalarSite
      else takeTrap s { cause := c, tval := va, sub := 0 } none
  | .retry => s

/-- A block-side stop; `lgstop` has a bit for each lane group that stopped (04 Table 4.6). -/
def raiseV (st : Stop) (lgstop : Nat) (s : State) : State :=
  match st with
  | .exc x => takeTrap s x none
  | .page c va ad =>
      if s.h.id.isVector then offerFault s c va ad (s.h.blockSite lgstop)
      else takeTrap s { cause := c, tval := va, sub := 0 } none
  | .retry => s

def State.setMatFault (s : State) (f : Option Stop) : State :=
  s.setH { s.h with mat := { s.h.mat with fault := f } }

/-- At a matrix-synchronising point with the queue stopped: the fault is taken there with the failing
word's pc, or offered to the pager, and the entry is to execute again; a queue that waits for that
restarts (13 R292 to R294). -/
def takeMatrixFault (s : State) (f : Stop) : State :=
  let pc := (s.h.mat.queue.head?.map (fun e => e.pc)).getD 0
  match f with
  | .retry => s.setMatFault none
  | .exc x => takeTrap (s.setMatFault (some .retry)) x (some pc)
  | .page c va ad =>
      offerFault s c va ad { vside := true, pc := pc, wix := 0, lgstop := 0, mq := true }

/-- What a matrix-synchronising instruction does before its own effect: take the fault at which the queue
stopped, or wait for the queue; none when there is nothing to wait for (13 R281). -/
def matrixSync (s : State) : Option State :=
  match s.h.mat.fault with
  | some f => some (takeMatrixFault s f)
  | none => if s.h.mat.queue = [] then none else some s

/-- The outcome of an instruction that a guard lets run, or stops. -/
def guarded (g : Option Stop) (s eff : State) : Host.Outcome State Fault Refusal :=
  match g with
  | some e => .next (raise e s)
  | none => .next eff

/-- The outcome of an instruction that completes in a state or stops. -/
def finish (r : Except Stop State) (s : State) : Host.Outcome State Fault Refusal :=
  match r with
  | .error e => .next (raise e s)
  | .ok t => .next t

/-- An event that is enabled, with its effect, or the refusal of one that cannot happen (assumption 15). -/
def event (name : String) (r : Option State) : Host.Outcome State Fault Refusal :=
  match r with
  | none => .refused (.notEnabled name)
  | some t => .next t.tickUp

/-! ## Returning from an exception -/

/-- Read the NENT entries of the level-1 record back (19 R411). -/
def readEntries (s : State) (part a : Nat) : Nat → Option (List (List Nat))
  | 0 => some []
  | n + 1 =>
      match s.readPart part a 16, readEntries s part (a + 16) n with
      | some v, some t => some ((List.range 8).map (fun i => v / 65536 ^ i % 65536) :: t)
      | _, _ => none

/-- A handler may leave an entry as written, or mark it done: every count at `full` (R411). -/
def entryOk (groups full : Nat) (old new : List Nat) : Bool :=
  decide (new = old) ||
    decide (new = (List.range 8).map (fun i => if i < groups then full else 0))

/-- The progress group of each entry's word, walking the blocks from the oldest unfinished word and
skipping VSTOPs. -/
def entryGps (s : State) (h : Hart) : Nat → List Block → Nat → List Nat
  | 0, _, _ => []
  | _, [], _ => []
  | n + 1, b :: t, i =>
      match fetchBlockWord s h (b.wordAt i) with
      | .error _ => gpOfWord b 0 :: entryGps s h n (b :: t) (i + 1)
      | .ok w =>
          if w = vstopWord then
            match t with
            | [] => []
            | b' :: t' =>
                match fetchBlockWord s h (b'.wordAt 0) with
                | .error _ => gpOfWord b' 0 :: entryGps s h n (b' :: t') 1
                | .ok w' => gpOfWord b' w' :: entryGps s h n (b' :: t') 1
          else gpOfWord b w :: entryGps s h n (b :: t) (i + 1)

/-- An entry with every lane group's count at the full count: the instruction is done. -/
def entryDone (groups full : Nat) (e : List Nat) : Bool :=
  decide (e = (List.range 8).map (fun i => if i < groups then full else 0))

/-- Skip finished words at the front of the unit: each drops its entry and its word. -/
def skipDone (s : State) (h : Hart) : List (List Nat) → List Nat → List Block → Nat →
    List (List Nat) × List Block × Nat
  | [], _, bs, i => ([], bs, i)
  | e :: es, gps, bs, i =>
      let p := dropStops s h bs i
      match p.1 with
      | [] => ([], [], 0)
      | b :: t =>
          let full := h.id.neg * gps.headD 1
          if entryDone h.id.groups full e then skipDone s h es gps.tail (b :: t) (p.2 + 1)
          else (e :: es, b :: t, p.2)

/-- The standard change of the S-level status at an SRET: SIE := SPIE, SPIE := 1, SPP := U. -/
def sretStatus (st : Word) : Word :=
  setField (setField (setField st 1 1 (fieldOf st 5 5)) 5 5 1) 8 8 0

/-- sstatus of a vector hart keeps SIE at 0 (19 Table 19.8). -/
def sretStatusV (st : Word) : Word := setField (setField st 5 5 1) 8 8 0

/-- Address of the level-1 record. -/
def recAddr (h : Hart) : Nat := h.c.vtrec.toNat

/-- The level-1 record's entries as they stand now. -/
def recEntries (s : State) : Option (List (List Nat)) :=
  readEntries s s.h.id.part (recAddr s.h + 64) s.h.vu.prog.length

/-- The record is read back through the partition's windows. -/
def recReadable (s : State) : Bool := partRangeOk s.mem s.h.id.part (recAddr s.h) 512 .load

/-- Full counts of the entries' instructions: NEG × gp (06 R132, 19 R411). -/
def entryFulls (s : State) : List Nat :=
  (entryGps s s.h s.h.vu.prog.length s.h.vu.blocks s.h.vu.wix).map (fun g => s.h.id.neg * g)

/-- Every entry is as written or marked done (R411). -/
def entriesOk (s : State) (new : List (List Nat)) : Bool :=
  (List.range s.h.vu.prog.length).all (fun i =>
    entryOk s.h.id.groups ((entryFulls s)[i]?.getD 0) (s.h.vu.prog[i]?.getD []) (new[i]?.getD []))

/-- Why an SRET of a vector hart stops (19 R406, R411). -/
def sretGuardV (s : State) (w : Word) : Option Stop :=
  if s.h.s.priv ≠ .s ∨ s.h.s.depth = 0 then some (illegal w)
  else if !recReadable s then some (Stop.of 5 (BitVec.ofNat 64 (recAddr s.h)))
  else if s.h.s.depth = 1 then
    match recEntries s with
    | none => some (Stop.of 5 (BitVec.ofNat 64 (recAddr s.h)))
    | some new => if entriesOk s new then none else some (illegal w)
  else none

/-- SRET of a vector hart from depth 1: to U, resuming the vector unit (R406, R411). -/
def sretToU (s : State) : State :=
  let h := s.h
  let new := (recEntries s).getD []
  let r := skipDone s h new (entryGps s h h.vu.prog.length h.vu.blocks h.vu.wix) h.vu.blocks h.vu.wix
  let h1 := h.setBlocks r.2.1 r.2.2
  s.setH { h1 with
    s := { h.s with priv := .u, depth := 0, pc := h.sc.sepc },
    sc := { h.sc with sstatus := sretStatusV h.sc.sstatus },
    vu := { h1.vu with prog := r.1, halt := 0 } }

/-- SRET of a vector hart from depth 2: to the level-1 handler, with the CSRs of the level-1 record
(R406). -/
def sretToLevel1 (s : State) : State :=
  let h := s.h
  let rd := fun o n => (s.readPart h.id.part (recAddr h + o) n).getD 0
  let sstat := rd 30 1
  s.setH { h with
    s := { h.s with priv := .s, depth := 1, pc := h.sc.sepc },
    sc := { h.sc with sepc := BitVec.ofNat 64 (rd 0 8), scause := BitVec.ofNat 64 (rd 8 8),
                      stval := BitVec.ofNat 64 (rd 16 8),
                      sstatus := setField (setField h.sc.sstatus 8 8 (sstat % 2)) 5 5 (sstat / 2 % 2) },
    vu := { h.vu with halt := if h.vu.halt = 2 then 0 else h.vu.halt } }

/-- SRET by the privileged specification, on a hart that is no vector hart (19 R404). -/
def sretStd (s : State) : State :=
  let h := s.h
  let priv := if h.status.getLsbD 8 then Priv.s else Priv.u
  let h' := (h.setStatus (setField (sretStatus h.status) 17 17 0)).setPc h.sc.sepc
  s.setH { h' with s := { h'.s with priv := priv } }

/-- MRET by the privileged specification (19 R404). -/
def mretStd (s : State) : State :=
  let h := s.h
  let ms := h.mc.mstatus
  let mpp := fieldOf ms 12 11
  let ms1 := setField (setField (setField ms 3 3 (fieldOf ms 7 7)) 7 7 1) 12 11 0
  let ms2 := if mpp = 3 then ms1 else setField ms1 17 17 0
  s.setH { h with
    s := { h.s with priv := if mpp = 3 then .m else if mpp = 1 then .s else .u, pc := h.mc.mepc },
    mc := { h.mc with mstatus := ms2 } }

end Sys2Proof.Machine
end

