-- ==== Sys2Proof/Machine/Queue.lean ====
section
/-! DEFINITION. Queue descriptors, notifies, and the reports that go into report queues (18 R382, R383,
R397). -/

namespace Sys2Proof.Machine

/-! ## Descriptor fields (Table 18.1) -/

/-- Doubleword `k` of queue `q`'s descriptor. -/
def State.qWord (s : State) (q k : Nat) : Word := s.devGet (queueBase + 64 * q + 8 * k)
def State.qSet (s : State) (q k : Nat) (v : Word) : State := s.devSet (queueBase + 64 * q + 8 * k) v

def State.qRing (s : State) (q : Nat) : Nat := (s.qWord q 0).toNat
def State.qSatp (s : State) (q : Nat) : Word := s.qWord q 1
def State.qLog2n (s : State) (q : Nat) : Nat := fieldOf (s.qWord q 2) 7 0
def State.qType (s : State) (q : Nat) : Nat := fieldOf (s.qWord q 2) 15 8
def State.qPrio (s : State) (q : Nat) : Nat := fieldOf (s.qWord q 2) 23 16
def State.qRev (s : State) (q : Nat) : Nat := fieldOf (s.qWord q 2) 31 24
def State.qWeight (s : State) (q : Nat) : Nat := fieldOf (s.qWord q 2) 47 32
def State.qPart (s : State) (q : Nat) : Nat := fieldOf (s.qWord q 2) 55 48
def State.qEclass (s : State) (q : Nat) : Nat := fieldOf (s.qWord q 2) 63 56
def State.qSib (s : State) (q : Nat) : Nat := fieldOf (s.qWord q 3) 15 0
def State.qState (s : State) (q : Nat) : Nat := fieldOf (s.qWord q 3) 23 16
def State.qOvf (s : State) (q : Nat) : Bool := (s.qWord q 3).getLsbD 24
def State.qWd (s : State) (q : Nat) : Nat := fieldOf (s.qWord q 3) 63 32
def State.qRdix (s : State) (q : Nat) : Word := s.qWord q 4
def State.qWrix (s : State) (q : Nat) : Word := s.qWord q 5

def State.qSetState (s : State) (q n : Nat) : State := s.qSet q 3 (setField (s.qWord q 3) 23 16 n)
def State.qSetOvf (s : State) (q : Nat) (b : Bool) : State :=
  s.qSet q 3 (setField (s.qWord q 3) 31 24 (if b then 1 else 0))
def State.qSetWd (s : State) (q n : Nat) : State := s.qSet q 3 (setField (s.qWord q 3) 63 32 n)
def State.qSetRdix (s : State) (q : Nat) (v : Word) : State := s.qSet q 4 v
def State.qSetWrix (s : State) (q : Nat) (v : Word) : State := s.qSet q 5 v

/-- Entries of the ring. -/
def State.qSize (s : State) (q : Nat) : Nat := 2 ^ s.qLog2n q

/-! ## What a queue holds beside its descriptor -/

def QueueState.new (q : Nat) : QueueState :=
  { q := q, packet := none, indirect := none, runLeft := 0, skips := 0, resv := [], picked := false,
    headAt := 0, wdReported := 0, pending := [], stalled := false }

def State.qs (s : State) (q : Nat) : QueueState :=
  (s.sched.queues.find? (fun x => decide (x.q = q))).getD (QueueState.new q)

/-- Keep the record of queue `q`, rising by number; one that holds nothing is left out. -/
def qsPut : List QueueState → QueueState → List QueueState
  | [], r => [r]
  | x :: t, r => if r.q < x.q then r :: x :: t else if r.q = x.q then r :: t else x :: qsPut t r

def State.setQs (s : State) (r : QueueState) : State :=
  { s with sched := { s.sched with queues := qsPut s.sched.queues r } }

def State.updQs (s : State) (q : Nat) (f : QueueState → QueueState) : State := s.setQs (f (s.qs q))

/-! ## Reports (R397) -/

/-- A report about the packet at RDIX of queue `q`. -/
def State.reportQueue (s : State) (q cause : Nat) (tag : BitVec 32) (pktix : Word) (boff : Nat)
    (d0 d1 : Word) : State :=
  s.postReport { cause := cause, queue := q, part := s.qPart q, tag := tag, pktix := pktix, boff := boff,
                 lcnt := s.lcntOf 8, d0 := d0, d1 := d1 }

/-- The 64 bytes of a REPORT, little-endian, with the revision of its report queue and the overflow mark
(Table 18.9). -/
def Report.toNat (r : Report) (rev : Nat) (ovf : Bool) : Nat :=
  0x20 + rev * 2 ^ 8 + (if ovf then 2 ^ 16 else 0) + r.tag.toNat * 2 ^ 32 + r.cause * 2 ^ 64
    + r.queue * 2 ^ 80 + r.part * 2 ^ 96 + r.pktix.toNat * 2 ^ 128 + r.boff * 2 ^ 192
    + r.lcnt.toNat * 2 ^ 208 + r.d0.toNat * 2 ^ 256 + r.d1.toNat * 2 ^ 320

/-- Drop the first report that goes into queue `q`. -/
def dropReport (s : State) (q : Nat) : List Report → List Report
  | [] => []
  | r :: t => if s.qSib r.queue = q then t else r :: dropReport s q t

/-- The first held report that goes into report queue `q`. -/
def State.nextReport (s : State) (q : Nat) : Option Report :=
  s.sched.reports.find? (fun r => decide (s.qSib r.queue = q))

/-- Try to write the oldest held report into report queue `q`: a full ring or a slot that cannot be
written stalls reporting and sets OVF. -/
def reportTry (s : State) (q : Nat) : State :=
  match s.nextReport q with
  | none => s
  | some r =>
      let stall := (s.qSetOvf q true).updQs q (fun x => { x with stalled := true })
      if (s.qWrix q - s.qRdix q).toNat = s.qSize q then stall
      else
        let a := s.qRing q + 64 * ((s.qWrix q).toNat % s.qSize q)
        match s.writePart (s.qPart q) a 64 (r.toNat (s.qRev q) (s.qs q).stalled) with
        | none => stall
        | some s1 =>
            let s2 := s1.qSetWrix q (s.qWrix q + 1)
            ({ s2 with sched := { s2.sched with reports := dropReport s q s.sched.reports } }).updQs q
              (fun x => { x with stalled := false })

/-! ## Notifies (R383) -/

/-- Add one to the second detail of the held cause 7 report of a queue. -/
def mergeReport (q : Nat) : List Report → List Report
  | [] => []
  | r :: t =>
      if r.cause = 7 ∧ r.queue = q then
        { r with d1 := if r.d1 = BitVec.allOnes 64 then r.d1 else r.d1 + 1 } :: t
      else r :: mergeReport q t

/-- An out-of-range notify: one report, or one more count in the report still held. -/
def notifyRange (s : State) (q : Nat) (w : Word) : State :=
  if s.sched.reports.any (fun r => decide (r.cause = 7) && decide (r.queue = q)) then
    { s with sched := { s.sched with reports := mergeReport q s.sched.reports } }
  else s.reportQueue q 7 0 0 0 w 0

/-- A notify of a queue that is no report queue. -/
def notifyQueue (s : State) (q : Nat) (w : Word) : State :=
  let rd := (s.qRdix q).toNat
  let wr := (s.qWrix q).toNat
  if wr ≤ w.toNat ∧ w.toNat ≤ rd + s.qSize q then
    (if rd = wr then s.updQs q (fun x => { x with headAt := s.time }) else s).qSetWrix q w
  else if rd ≤ w.toNat ∧ w.toNat < wr then s
  else notifyRange s q w

/-- A notify of a report queue: the consumer's index moves, OVF clears when the ring is empty, and a
stalled report is tried again. -/
def notifyReportQueue (s : State) (q : Nat) (w : Word) : State :=
  let ok := decide ((s.qRdix q).toNat ≤ w.toNat) && decide (w.toNat ≤ (s.qWrix q).toNat)
  let s1 := if ok then s.qSetRdix q w else s
  let s2 := if ok && decide (w = s.qWrix q) then s1.qSetOvf q false else s1
  if (s.qs q).stalled then reportTry s2 q else s2

/-- A notify with value `w` reaches queue `q`. A free queue takes none (assumption 26). -/
def doNotify (s : State) (q : Nat) (w : Word) : State :=
  if s.qState q = 0 then s
  else if s.qType q = 4 then notifyReportQueue s q w
  else notifyQueue s q w

end Sys2Proof.Machine
end

