-- ==== Sys2Proof/Machine/Device.lean ====
section
/-! DEFINITION. The device registers of the physical map (04 Table 4.1): which register an address is, who
may read or write it, and what a read answers and a write does. The rows of the opcode table that are
register writes use the same operations. -/

namespace Sys2Proof.Machine

/-- A doubleword of the device range. -/
inductive DevReg where
  | bootstat
  | rtctl
  | ctstat
  | lcnt (d : Nat)
  /-- Power register at byte offset `o` of die `d` (18 Table 18.10). -/
  | power (d o : Nat)
  | sensor (d i : Nat)
  | cpool (p : Nat)
  | cap (o : Nat)
  | shadow (i : Nat) (second : Bool)
  | active (i : Nat) (second : Bool)
  | conn (i : Nat) (second : Bool)
  | window (p i : Nat) (second : Bool)
  | queue (q k : Nat)
  | engineRam (n o : Nat)
  | kick (n : Nat)
  | aot (c t : Nat) (second : Bool)
  | notify (q : Nat)
  deriving DecidableEq, Repr

def aotBase : Nat := 0xF000400000000

/-- The register whose doubleword holds physical address `pa`. -/
def devReg (pa : Nat) : Option DevReg :=
  let a := pa / 8 * 8
  if a = bootstatAddr then some .bootstat
  else if a = rtctlAddr then some .rtctl
  else if a = ctstatAddr then some .ctstat
  else if lcntBase ≤ a ∧ a < lcntBase + 72 then some (.lcnt ((a - lcntBase) / 8))
  else if powerBase ≤ a ∧ a < powerBase + 0x900 then
    let d := (a - powerBase) / 0x100
    let o := (a - powerBase) % 0x100
    if 0x80 ≤ o then some (.sensor d ((o - 0x80) / 8))
    else if d < 8 ∧ (o ≤ 0x20 ∨ 0x40 ≤ o) then some (.power d o) else none
  else if cpoolBase ≤ a ∧ a < cpoolBase + 640 then some (.cpool ((a - cpoolBase) / 8))
  else if capBase ≤ a ∧ a < capBase + 4096 then some (.cap (a - capBase))
  else if shadowBase ≤ a ∧ a < shadowBase + 4096 then
    some (.shadow ((a - shadowBase) / 16) (decide (a % 16 = 8)))
  else if activeBase ≤ a ∧ a < activeBase + 4096 then
    some (.active ((a - activeBase) / 16) (decide (a % 16 = 8)))
  else if connBase ≤ a ∧ a < connBase + 4096 then
    some (.conn ((a - connBase) / 16) (decide (a % 16 = 8)))
  else if windowBase ≤ a ∧ a < windowBase + 0x100 * 80 then
    some (.window ((a - windowBase) / 0x100) ((a - windowBase) % 0x100 / 16) (decide (a % 16 = 8)))
  else if queueBase ≤ a ∧ a < queueBase + 64 * 4096 then
    some (.queue ((a - queueBase) / 64) ((a - queueBase) % 64 / 8))
  else if engineRamBase ≤ a ∧ a < engineRamBase + 0x10000 * 320 then
    (if (a - engineRamBase) % 0x10000 < 0xD000 then
      some (.engineRam ((a - engineRamBase) / 0x10000) ((a - engineRamBase) % 0x10000)) else none)
  else if kickBase ≤ a ∧ a < kickBase + 0x200000 * 320 then
    (if (a - kickBase) % 0x200000 = 0 then some (.kick ((a - kickBase) / 0x200000)) else none)
  else if aotBase ≤ a ∧ a < aotBase + 0x100 * 1280 then
    some (.aot ((a - aotBase) / 0x100) ((a - aotBase) % 0x100 / 16) (decide (a % 16 = 8)))
  else if notifyBase ≤ a ∧ a < notifyBase + 0x200000 * 4096 then
    (if (a - notifyBase) % 0x200000 = 0 then some (.notify ((a - notifyBase) / 0x200000)) else none)
  else none

/-! ## Dies, engines and places -/

/-- The holder of a hart's logical counter: its die, or the Pontoon die for a Ferryman hart (05 R99). -/
def Ident.holder (i : Ident) : Nat := if i.kind = .ferryman then 8 else i.die

def State.dieOn (s : State) (d : Nat) : Bool := decide (d < 8) && s.pkg.dies.getLsbD d

/-- Die of engine `n` (05 R101). -/
def engineDie (n : Nat) : Nat := n / 40

/-- Identity of engine `n`: cluster field 14, the cluster in the core field, slots 3 to 6 (17 R375). -/
def engineIdent (n : Nat) : Ident :=
  { Ident.none_ with
    kind := .engine, die := engineDie n, cluster := 14, core := n / 4 % 10, slot := 3 + n % 4,
    part := 127 }

/-- Number of an engine hart. -/
def Ident.engineNo (i : Ident) : Nat := (i.die * 10 + i.core) * 4 + (i.slot - 3)

/-- The record is engine `n`. -/
def Hart.isEngine (n : Nat) (h : Hart) : Bool :=
  decide (h.id.kind = .engine) && decide (h.id.engineNo = n)

/-- Engine `n` as it stands; one that no record lists is as it is after reset. -/
def State.engine (s : State) (n : Nat) : Hart :=
  (s.harts.find? (Hart.isEngine n)).getD
    { Hart.reset with id := engineIdent n, run := .running,
                      s := { Scalar.reset with priv := .m, pc := BitVec.ofNat 64 (engineRamBase + 0x10000 * n) } }

/-- Change the record of engine `n`, which is listed from then on. -/
def State.updEngine (s : State) (n : Nat) (f : Hart → Hart) : State :=
  if s.harts.any (Hart.isEngine n) then s.mapHarts (Hart.isEngine n) f
  else { s with others := s.others ++ [f (s.engine n)] }

/-- Partition `p` has a context placed on die `d`. -/
def State.partOnDie (s : State) (p d : Nat) : Bool :=
  s.harts.any (fun h => decide (h.id.part = p) && decide (h.id.die = d) && h.live && !h.isOut
    && decide (h.run ≠ .created))

/-- Partition `p` has a context placed on core `c`. -/
def State.partOnCore (s : State) (p c : Nat) : Bool :=
  s.harts.any (fun h => decide (h.id.part = p) && decide (h.id.coreNo = c) && h.id.isVector && h.live
    && !h.isOut && decide (h.run ≠ .created))

/-! ## Reads -/

/-- GEN of the active region table (Table 4.3). -/
def State.rtGen (s : State) : Nat := fieldOf (s.devGet rtctlAddr) 31 16
def State.rtBusy (s : State) : Bool := (s.devGet rtctlAddr).getLsbD 1

/-- Kick records of an engine in use (05 R103, R105). -/
def Engine.used (e : Engine) : Nat := e.filled.length + (if e.cur.isSome then 1 else 0)

/-- A privilege that may read a register (04 R70, R73, R77; 05 R93, R99, R101, R103; 14 R298; 18 R382,
R383, R403; 19 R412; 21 R439, R441, R449). -/
def devMayRead (s : State) (priv : Priv) (part : Nat) (r : DevReg) : Bool :=
  let m := decide (priv = .m)
  let sup := decide (priv = .s)
  match r with
  | .bootstat | .cap _ => m || sup
  | .lcnt _ => m || sup
  | .power d _ => m || (sup && s.partOnDie part d)
  | .sensor d _ => m || (sup && s.partOnDie part d)
  | .queue q _ => m || (sup && decide (s.qState q ≠ 0) && decide (s.qPart q = part))
  | .aot c _ _ => m || (sup && s.partOnCore part c)
  | .kick n => s.dieOn (engineDie n)
  | .notify _ => true
  | .engineRam n _ => m && s.dieOn (engineDie n)
  | .rtctl | .ctstat | .cpool _ | .shadow _ _ | .active _ _ | .conn _ _ | .window _ _ _ => m

/-- The doubleword that a read answers. -/
def devValue (s : State) (pa : Nat) (r : DevReg) : Word :=
  match r with
  | .lcnt d => (s.lcntOf d).zeroExtend 64
  | .active _ true => BitVec.ofNat 64 s.rtGen
  | .shadow _ true => BitVec.ofNat 64 ((s.rtGen + 1) % 65536)
  | .kick n => BitVec.ofNat 64 (64 - (s.engine n).eng.used)
  | .notify q => if s.qType q = 4 ∧ s.qState q ≠ 0 then s.qWrix q else s.qRdix q
  | _ => s.devGet (pa / 8 * 8)

/-- A load, as it reaches a device register. -/
inductive DevAcc where
  | plain | xlda
  deriving DecidableEq, Repr

/-- A read of `n` bytes at a device address. Kick and notify registers answer whole doublewords only, and
a kick register no XLDA (05 R103, 18 R383). -/
def devRead (s : State) (priv : Priv) (part pa n : Nat) (acc : DevAcc) : Option Nat :=
  match devReg pa with
  | none => none
  | some r =>
      let whole : Bool :=
        match r with
        | .kick _ => decide (n = 8) && decide (acc = .plain)
        | .notify _ => decide (n = 8)
        | _ => true
      if devMayRead s priv part r && whole then
        some ((devValue s pa r).toNat / 2 ^ (8 * (pa % 8)) % 2 ^ (8 * n))
      else none

/-! ## Writes by access code (00 R8, Table 0.2) -/

/-- The written bits of a doubleword: `n` bytes at byte `o`. -/
def byteMask (o n : Nat) : Word := BitVec.ofNat 64 ((2 ^ (8 * n) - 1) * 2 ^ (8 * o))

/-- RW bits take what is written; W1C bits written as 1 clear; every other bit keeps. -/
def regMerge (old w m rw w1c : Word) : Word :=
  ((old &&& ~~~(rw &&& m)) ||| (w &&& m &&& rw)) &&& ~~~(w &&& m &&& w1c)

/-- RW bits of a queue descriptor's doublewords (Table 18.1). -/
def queueRw (k : Nat) : Word :=
  if k < 3 then BitVec.allOnes 64 else if k = 3 then 0xFFFFFFFF0000FFFF else 0

/-- Extend a measurement block (21 R442). -/
def State.measure (s : State) (ix : Nat) (ws : List Word) : State :=
  { s with pkg := { s.pkg with measured := s.pkg.measured ++ [(ix, ws)] } }

/-! ## The region table (04 R71, R72, R74) -/

def rtWord (dev : SMap 64) (base i : Nat) : Word := mapGet dev (base + 16 * i)
def rtDies (w : Word) : Nat := fieldOf w 9 2
def rtDoff (w : Word) : Nat := fieldOf w 15 10
def rtFirst (w : Word) : Nat := fieldOf w 37 16
def rtCount (w : Word) : Nat := fieldOf w 52 38

/-- Bits set below `n`. -/
def bitsOf (x n : Nat) : List Nat := (List.range n).filter (fun i => x.testBit i)

/-- Valid words of a table. -/
def rtValid (dev : SMap 64) (base : Nat) : List Word :=
  ((List.range 256).map (rtWord dev base)).filter (fun w => w.getLsbD 0)

/-- The checks on one entry (R71). -/
def rtEntryOk (enabled : BitVec 8) (w : Word) : Bool :=
  let ds := rtDies w
  let k := (bitsOf ds 8).length
  let c := rtCount w
  decide (ds ≠ 0) && (bitsOf ds 8).all (fun d => enabled.getLsbD d) &&
    (if w.getLsbD 1 then
      decide (rtDoff w = 0) && decide (0x4000 ≤ rtFirst w) && decide (rtFirst w + c ≤ 0x8000)
     else
      decide (c % k = 0) && decide (rtDoff w + c / k ≤ 64) && decide (rtFirst w + c ≤ 1024))

/-- Two ranges [a, a + n) and [b, b + m) share a number. -/
def overlap (a n b m : Nat) : Bool := decide (a < b + m) && decide (b < a + n) && decide (n ≠ 0) && decide (m ≠ 0)

/-- Two valid entries may stand together (R71). -/
def rtPairOk (x y : Word) : Bool :=
  let kx := (bitsOf (rtDies x) 8).length
  let ky := (bitsOf (rtDies y) 8).length
  !overlap (rtFirst x) (rtCount x) (rtFirst y) (rtCount y) &&
    (x.getLsbD 1 || y.getLsbD 1 || (bitsOf (rtDies x) 8).all (fun d => !(bitsOf (rtDies y) 8).contains d)
      || !overlap (rtDoff x) (rtCount x / kx) (rtDoff y) (rtCount y / ky))

/-- No two of a list fail `p`. -/
def pairsOk {α : Type} (p : α → α → Bool) : List α → Bool
  | [] => true
  | x :: t => t.all (p x) && pairsOk p t

/-- The shadow table passes R71. -/
def shadowOk (s : State) : Bool :=
  let es := rtValid s.mem.dev shadowBase
  es.all (rtEntryOk s.pkg.dies) && pairsOk rtPairOk es

/-- 5-bit XOR fold of q (R72). -/
def dieHash (q : Nat) : Nat :=
  (q % 32) ^^^ (q / 32 % 32) ^^^ (q / 2 ^ 10 % 32) ^^^ (q / 2 ^ 15 % 32) ^^^ (q / 2 ^ 20 % 32)

/-- Owning die, die offset and home slice of an address in a valid entry's extent (R72). -/
def routeIn (w : Word) (a : Nat) : Nat × Nat × Nat :=
  let ds := bitsOf (rtDies w) 8
  let k := ds.length
  let off := a - rtFirst w * 2 ^ 30
  let g := off / 4096
  let q := g / k
  let die := (ds[(g % k + dieHash q) % k]?).getD 0
  let d := rtDoff w * 2 ^ 30 + q * 4096 + off % 4096
  (die, d, (d / 128 % 64) ^^^ (d / 8192 % 64))

/-- Owning die, die offset and home slice of a near or far address in a table. -/
def route (dev : SMap 64) (base a : Nat) : Option (Nat × Nat × Nat) :=
  ((rtValid dev base).find? (fun w => decide (rtFirst w ≤ a / 2 ^ 30)
    && decide (a / 2 ^ 30 < rtFirst w + rtCount w))).map (fun w => routeIn w a)

/-- The die that owns an address under the routing table of generation `g`: the active table, or while
a swap drains, the previous one, which the shadow table holds. -/
def ownerUnder (s : State) (g : BitVec 16) (a : Nat) : Option Nat :=
  let base := if g.toNat = s.rtGen then activeBase else shadowBase
  (route s.mem.dev base a).map (fun r => r.1)

/-- Set WERR (R74). -/
def rtWerr (s : State) : State := s.devSet rtctlAddr (s.devGet rtctlAddr ||| 4)

/-- A store to doubleword 0 of a shadow entry. The generation word is read-only. -/
def shadowWrite (s : State) (i : Nat) (second : Bool) (w m : Word) : State :=
  if s.rtBusy then rtWerr s
  else if second then s
  else s.devSet (shadowBase + 16 * i) (regMerge (rtWord s.mem.dev shadowBase i) w m 0x1FFFFFFFFFFFFF 0)

/-- Exchange entry `i` of the two tables. -/
def exchangeEntry (dev : SMap 64) (i : Nat) : SMap 64 :=
  mapSet (mapSet dev (activeBase + 16 * i) (rtWord dev shadowBase i)) (shadowBase + 16 * i)
    (rtWord dev activeBase i)

/-- The connection-table entries of an owner other than 127, which block 4 measures. -/
def measuredConns (s : State) : List Word :=
  ((List.range 256).map (fun i => s.devGet (connBase + 16 * i))).filter
    (fun w => w.getLsbD 0 && decide (fieldOf w 22 16 ≠ 127))

/-- A write of SWAP = 1 (R74): refused with WERR while BUSY, or with CERR by a failed check. -/
def doSwap (s : State) : State :=
  let ctl := s.devGet rtctlAddr
  if s.rtBusy then rtWerr s
  else if !shadowOk s then s.devSet rtctlAddr (ctl ||| 8)
  else
    let dev := (List.range 256).foldl exchangeEntry s.mem.dev
    let ctl' := setField (setField (setField ctl 1 1 1) 31 16 (s.rtGen + 1)) 39 32 0
    let s1 := (s.setMem { s.mem with dev := dev }).devSet rtctlAddr ctl'
    s1.measure 4 (rtValid dev activeBase ++ measuredConns s1)

/-- A write to RTCTL (Table 4.3). -/
def rtctlWrite (s : State) (w m : Word) : State :=
  let s1 := s.devSet rtctlAddr (regMerge (s.devGet rtctlAddr) w m 0 0xC)
  if (w &&& m).getLsbD 0 then doSwap s1 else s1

/-! ## The connection table (05 R92 to R94) -/

def connW0 (s : State) (i : Nat) : Word := s.devGet (connBase + 16 * i)
def connState (w : Word) : Nat := fieldOf w 2 1
def connSrc (w : Word) : Nat := fieldOf w 11 8
def connDst (w : Word) : Nat := fieldOf w 15 12
def connOwner (w : Word) : Nat := fieldOf w 22 16

/-- Byte `o` of the capability table. -/
def capByte (s : State) (o : Nat) : Nat := fieldOf (s.devGet (capBase + o / 8 * 8)) 63 0 / 2 ^ (8 * (o % 8)) % 256

/-- The endpoint exists and is up: an enabled die, or a trained peer port whose link has not failed. -/
def endpointOk (s : State) (e : Nat) : Bool :=
  if e < 8 then s.dieOn e else (capByte s 72).testBit (e - 8) && !s.pkg.peerDown.getLsbD (e - 8)

/-- Circuits that are not free and satisfy `p`. -/
def connCount (s : State) (p : Word → Bool) : Nat :=
  ((List.range 256).filter (fun i => decide (connState (connW0 s i) ≠ 0) && p (connW0 s i))).length

def endpointLimit (e : Nat) : Nat := if e < 8 then 30 else 2

/-- The checks of a set-up (Table 5.2, R92). -/
def connOk (s : State) (w : Word) : Bool :=
  let a := connSrc w
  let b := connDst w
  endpointOk s a && endpointOk s b && decide (a ≠ b) && !(decide (8 ≤ a) && decide (8 ≤ b))
    && (decide (connOwner w < 80) || decide (connOwner w = 127))
    && decide (connCount s (fun x => decide (connSrc x = a)) < endpointLimit a)
    && decide (connCount s (fun x => decide (connDst x = b)) < endpointLimit b)

/-- Record a refusal in CTSTAT: bit `b` and IDX. -/
def ctstatSet (s : State) (b i : Nat) : State :=
  s.devSet ctstatAddr (setField (setField (s.devGet ctstatAddr) b b 1) 15 8 i)

/-- A write to word 0 of entry `i` (Table 5.2). -/
def doConnWrite (s : State) (i : Nat) (w m : Word) : State :=
  let old := connW0 s i
  let st := connState old
  let w' := regMerge old w m 0x7FFF01 0
  if st = 1 ∨ st = 3 then ctstatSet s 1 i
  else if st = 0 then
    (if !w'.getLsbD 0 then s
     else if connOk s w' then
       let s1 := s.devSet (connBase + 16 * i) (setField w' 2 1 1)
       if connOwner w' = 127 then s1 else s1.measure 4 [w']
     else ctstatSet s 0 i)
  else if w'.getLsbD 0 then s
  else s.devSet (connBase + 16 * i) (setField old 2 1 3)

/-- An up circuit has carried `n` more 128-byte lines (05 R93). -/
def carryLines (s : State) (i n : Nat) : State :=
  if connState (connW0 s i) = 2 ∧ i < 256 then
    s.devSet (connBase + 16 * i + 8) (s.devGet (connBase + 16 * i + 8) + BitVec.ofNat 64 n)
  else s

/-- Up circuits from `a` to `b` of an owner, in entry order. -/
def upCircuits (s : State) (a b owner : Nat) : List Nat :=
  (List.range 256).filter (fun i =>
    let w := connW0 s i
    decide (connState w = 2) && decide (connSrc w = a) && decide (connDst w = b) && decide (connOwner w = owner))

/-- The circuit that line data from die `a` to die `b` takes for partition `p` at an address; none is the mesh
(05 R95). -/
def circuitFor (s : State) (a b p addr : Nat) : Option Nat :=
  let own := upCircuits s a b p
  let cs := if own = [] then upCircuits s a b 127 else own
  if cs = [] then none else cs[addr / 128 % cs.length]?

/-- A line crosses between two dies: a message, and a line of the circuit that it takes (05 R93, R95, R99). -/
def carryLine (s : State) (a b p addr : Nat) : State :=
  let s1 := s.message a b
  match circuitFor s a b p addr with
  | none => s1
  | some i => carryLines s1 i 1

/-! ## Kicks (05 R103 to R106) -/

/-- Physical address of kick record `r` of engine `n`. -/
def kickRecordAddr (n r : Nat) : Nat := engineRamBase + 0x10000 * n + 0xC000 + 64 * r

/-- The kicker's own part of a record: CONT, PART, PRIV, SATP. -/
structure Kicker where
  cont : ContId
  part : Nat
  priv : Nat
  satp : Word
  deriving DecidableEq, Repr

/-- The kicker that a hart is (R106). -/
def Hart.kicker (h : Hart) : Kicker :=
  if h.s.priv = .m then { cont := h.id.cont, part := 127, priv := 3, satp := 0 }
  else { cont := h.id.cont, part := h.id.part, priv := if h.s.priv = .s then 1 else 0, satp := h.sc.satp }

/-- Write the eight doublewords of a record (Table 5.3). -/
def writeRecord (s : State) (n r : Nat) (payload : Word) (k : Kicker) : State :=
  let a := kickRecordAddr n r
  let w1 := BitVec.ofNat 64 (k.cont.toNat + k.part * 2 ^ 32 + k.priv * 2 ^ 40)
  let w3 : Word := (s.lcntOf (engineDie n)).zeroExtend 64
  ((((((((s.devSet a payload).devSet (a + 8) w1).devSet (a + 16) k.satp).devSet (a + 24) w3).devSet
    (a + 32) 0).devSet (a + 40) 0).devSet (a + 48) 0).devSet (a + 56) 0)

/-- Fill the next record of engine `n`. -/
def fillRecord (s : State) (n : Nat) (payload : Word) (k : Kicker) : State :=
  let r := (s.engine n).eng.nextRec
  (writeRecord s n r payload k).updEngine n (fun h => { h with
    eng := { h.eng with filled := h.eng.filled ++ [r], nextRec := (r + 1) % 64 } })

/-- A kick reaches engine `n`'s register from holder `src`: it fills a record, or is held behind the
earlier ones while every record is in use. -/
def doKick (s : State) (n : Nat) (payload : Word) (k : Kicker) (src : Nat) : State :=
  let s1 := if src = engineDie n then s else s.message src (engineDie n)
  let e := (s1.engine n).eng
  if e.held = [] ∧ e.used < 64 then fillRecord s1 n payload k
  else s1.updEngine n (fun h => { h with
    eng := { h.eng with held := h.eng.held ++ [(payload, k.cont, k.part, k.priv, k.satp)] } })

/-- The oldest held kick of engine `n` fills a record that has freed. -/
def kickRecordTake (s : State) (n : Nat) : Option State :=
  let e := (s.engine n).eng
  match e.held with
  | [] => none
  | (p, c, pt, pv, sa) :: t =>
      if 64 ≤ e.used then none
      else
        some (fillRecord (s.updEngine n (fun h => { h with eng := { h.eng with held := t } })) n p
          { cont := c, part := pt, priv := pv, satp := sa })

/-! ## The write operation -/

/-- RW and W1C bits of a register without behaviour of its own. -/
def regBits (r : DevReg) : Word × Word :=
  match r with
  | .power _ 0 => (0xFFFFFFFF, 0)
  | .cpool _ => (0xFFFFFFFF00000, 0)
  | .ctstat => (0, 3)
  | .queue _ k => (queueRw k, 0)
  | .engineRam _ _ => (BitVec.allOnes 64, 0)
  | .window _ _ false => (0xFFFFFFFE0003F, 0)
  | .window _ _ true => (0x7FFFFFFF7FFFFFFF, 0)
  | _ => (0, 0)

/-- A register that a write may name at M, and whether S or U may write it. -/
def devMayWrite (s : State) (priv : Priv) (r : DevReg) (n : Nat) : Bool :=
  match r with
  | .kick e => decide (n = 8) && s.dieOn (engineDie e)
  | .notify _ => decide (n = 8)
  | .engineRam e _ => decide (priv = .m) && s.dieOn (engineDie e)
  | .rtctl | .ctstat | .cpool _ | .shadow _ _ | .conn _ _ | .window _ _ _ | .queue _ _ =>
      decide (priv = .m)
  | .power _ o => decide (priv = .m) && decide (o = 0)
  | .sensor _ _ => decide (priv = .m)
  | .bootstat | .lcnt _ | .cap _ | .active _ _ | .aot _ _ _ => false

/-- PEAK of a sensor clears whole when any 1 is written to it (21 Table 21.5). -/
def sensorWrite (s : State) (pa : Nat) (w m : Word) : State :=
  if fieldOf (w &&& m) 47 32 = 0 then s
  else s.devSet (pa / 8 * 8) (setField (s.devGet (pa / 8 * 8)) 47 32 0)

/-- What a permitted write does; `w` holds the bytes written in their places in the doubleword. -/
def devApply (s : State) (k : Kicker) (src pa : Nat) (r : DevReg) (w m : Word) : State :=
  match r with
  | .rtctl => rtctlWrite s w m
  | .shadow i second => shadowWrite s i second w m
  | .conn i false => doConnWrite s i w m
  | .conn _ true => s
  | .kick n => doKick s n w k src
  | .notify q => doNotify s q w
  | .sensor _ _ => sensorWrite s pa w m
  | .window p i second =>
      let s1 := s.devSet (pa / 8 * 8)
        (regMerge (s.devGet (pa / 8 * 8)) w m (regBits (.window p i second)).1 0)
      s1.measure (16 + p) [BitVec.ofNat 64 i, w]
  | r => s.devSet (pa / 8 * 8) (regMerge (s.devGet (pa / 8 * 8)) w m (regBits r).1 (regBits r).2)

/-- A write of `n` bytes at a device address by a kicker of privilege `priv`; none where the register
refuses it. -/
def devWrite (s : State) (priv : Priv) (k : Kicker) (src pa n v : Nat) : Option State :=
  match devReg pa with
  | none => none
  | some r =>
      if devMayWrite s priv r n then
        some (devApply s k src pa r (BitVec.ofNat 64 (v % 2 ^ (8 * n) * 2 ^ (8 * (pa % 8))))
          (byteMask (pa % 8) n))
      else none

end Sys2Proof.Machine
end

