-- ==== Sys2Proof/Machine/ScalarMem.lean ====
section
/-! DEFINITION. Scalar loads, stores, LR, SC, the AMOs and the scoped accesses, and the fences of the
scalar side (03 Table 3.7; 16 R351 to R356). -/

namespace Sys2Proof.Machine

/-! ## One access of the scalar side -/

/-- An aligned, permitted and unpoisoned place, or why the access stops: alignment, then translation and
windows, then poison (03 Table 3.7; 04 R78, R79, R89). -/
def scalarLoc (s : State) (k : AKind) (mis : BitVec 8) (va : Word) (n : Nat) : Except Stop Loc :=
  if va.toNat % n ≠ 0 then .error (Stop.of mis va)
  else addrOf s s.h k va

/-- `n` bytes read at a place by the current hart; `home` reads past the L1. -/
def readAt (s : State) (k : AKind) (acc : DevAcc) (home : Bool) (va : Word) (n : Nat) (l : Loc) :
    Except Stop Nat :=
  match l with
  | .dev pa =>
      match devRead s (s.h.accPriv k) s.h.id.part pa n acc with
      | none => .error (Stop.of k.accessFault va)
      | some v => .ok v
  | .mem pa nc =>
      if poisonedLoc s l n then .error (Stop.of 19 va)
      else .ok (loadLoc s.mem s.h.id.coreNo (.mem pa (nc || home)) n)
  | .spad a => if poisonedLoc s l n then .error (Stop.of 19 va) else .ok (readLe s.mem.spad a n)

/-- A scalar load of `n` bytes. -/
def scalarLoadBytes (s : State) (acc : DevAcc) (va : Word) (n : Nat) : Except Stop Nat :=
  match scalarLoc s .load 4 va n with
  | .error e => .error e
  | .ok l => readAt s .load acc false va n l

/-- The low `n` bytes of `v` written at a place by the current hart (04 R90; 05 R97, R98). -/
def writeAt (s : State) (k : AKind) (va : Word) (n v : Nat) (l : Loc) : Except Stop State :=
  match l with
  | .dev pa =>
      match devWrite s (s.h.accPriv k) s.h.kicker s.h.id.holder pa n v with
      | none => .error (Stop.of k.accessFault va)
      | some t => .ok t
  | _ => .ok (writeLoc s s.h.id.coreNo l n v false)

/-- A scalar store of `n` bytes. -/
def scalarStoreBytes (s : State) (va : Word) (n v : Nat) : Except Stop State :=
  match scalarLoc s .store 6 va n with
  | .error e => .error e
  | .ok l => writeAt s .store va n v l

/-! ## Loads and stores -/

def loadBytes : LoadKind → Nat
  | .lb | .lbu => 1
  | .lh | .lhu => 2
  | .lw | .lwu | .flw => 4
  | .ld | .fld => 8

def storeBytes : StoreKind → Nat
  | .sb => 1
  | .sh => 2
  | .sw | .fsw => 4
  | .sd | .fsd => 8

/-- Sign-extended low `n` bytes. -/
def sextBytes (n v : Nat) : Word :=
  if n = 1 then sext64 (BitVec.ofNat 8 v) else if n = 2 then sext64 (BitVec.ofNat 16 v)
  else if n = 4 then sext64 (BitVec.ofNat 32 v) else BitVec.ofNat 64 v

/-- A single-precision value in an f register has every upper bit set (RISC-V F and D). -/
def nanBox (v : BitVec 32) : Word := (BitVec.allOnes 32) ++ v

/-- Where a load puts what it read. -/
def loadInto (k : LoadKind) (rd : Reg) (v : Nat) (h : Hart) : Hart :=
  match k with
  | .lb | .lh | .lw | .ld => h.setX rd (sextBytes (loadBytes k) v)
  | .lbu | .lhu | .lwu => h.setX rd (BitVec.ofNat 64 v)
  | .flw => h.setF rd (nanBox (BitVec.ofNat 32 v))
  | .fld => h.setF rd (BitVec.ofNat 64 v)

/-- Address of a scalar load or store. -/
def memAddr (h : Hart) (rs1 : Reg) (imm : BitVec 12) : Word := h.xr rs1 + sext64 imm

def scalarLoadRun (k : LoadKind) (rd rs1 : Reg) (imm : BitVec 12) (s : State) : Except Stop State :=
  match scalarLoadBytes s .plain (memAddr s.h rs1 imm) (loadBytes k) with
  | .error e => .error e
  | .ok v => .ok (s.setH (loadInto k rd v s.h)).advance

def execScalarLoad (k : LoadKind) (rd rs1 : Reg) (imm : BitVec 12) (s : State) :
    Host.Outcome State Fault Refusal :=
  finish (scalarLoadRun k rd rs1 imm s) s

/-- What a store stores. -/
def storeValue (k : StoreKind) (rs2 : Reg) (h : Hart) : Nat :=
  match k with
  | .sb | .sh | .sw | .sd => (h.xr rs2).toNat
  | .fsw | .fsd => (h.fr rs2).toNat

def scalarStoreRun (k : StoreKind) (rs1 rs2 : Reg) (imm : BitVec 12) (s : State) : Except Stop State :=
  match scalarStoreBytes s (memAddr s.h rs1 imm) (storeBytes k) (storeValue k rs2 s.h % 2 ^ (8 * (storeBytes k))) with
  | .error e => .error e
  | .ok t => .ok t.advance

def execScalarStore (k : StoreKind) (rs1 rs2 : Reg) (imm : BitVec 12) (s : State) :
    Host.Outcome State Fault Refusal :=
  finish (scalarStoreRun k rs1 rs2 imm s) s

/-! ## LR and SC -/

/-- Bytes of a word or doubleword access. -/
def amoBytes (dbl : Bool) : Nat := if dbl then 8 else 4

/-- An acquire of the standard instructions is at system scope. -/
def acquireIf (aq : Bool) (s : State) : State := if aq then s.acquire .system else s

/-- A device register is no place for an LR, SC or AMO: only plain loads and stores are given for any
(05 R103; assumption 27). -/
def noDev (k : AKind) (va : Word) (l : Loc) : Except Stop Loc :=
  match l with
  | .dev _ => .error (Stop.of k.accessFault va)
  | _ => .ok l

/-- The place of an LR, SC or AMO. -/
def atomicLoc (s : State) (k : AKind) (mis : BitVec 8) (va : Word) (n : Nat) : Except Stop Loc :=
  match scalarLoc s k mis va n with
  | .error e => .error e
  | .ok l => noDev k va l

def Hart.setResv (h : Hart) (r : Option Resv) : Hart := { h with s := { h.s with resv := r } }

def lrRun (dbl aq : Bool) (rd rs1 : Reg) (s : State) : Except Stop State :=
  let va := s.h.xr rs1
  match atomicLoc s .load 4 va (amoBytes dbl) with
  | .error e => .error e
  | .ok l =>
      match readAt s .load .plain true va (amoBytes dbl) l with
      | .error e => .error e
      | .ok v =>
          .ok ((acquireIf aq (s.setH ((s.h.setX rd (sextBytes (amoBytes dbl) v)).setResv l.line))).advance)

/-- LR reserves the 128-byte line that holds its address; rl has nothing to order at a load. -/
def execLr (dbl aq _rl : Bool) (rd rs1 : Reg) (s : State) : Host.Outcome State Fault Refusal :=
  finish (lrRun dbl aq rd rs1 s) s

def scRun (dbl aq : Bool) (rd rs1 rs2 : Reg) (s : State) : Except Stop State :=
  let va := s.h.xr rs1
  match atomicLoc s .store 6 va (amoBytes dbl) with
  | .error e => .error e
  | .ok l =>
      let free := s.setH (s.h.setResv none)
      if s.h.s.resv = l.line ∧ s.h.s.resv ≠ none then
        let t := writeLoc free s.h.id.coreNo l (amoBytes dbl)
          ((s.h.xr rs2).toNat % 2 ^ (8 * amoBytes dbl)) false
        .ok ((acquireIf aq (t.setX rd 0)).advance)
      else .ok ((acquireIf aq (free.setX rd 1)).advance)

/-- SC succeeds or fails by its reservation alone and reads no data (04 R89). -/
def execSc (dbl aq _rl : Bool) (rd rs1 rs2 : Reg) (s : State) : Host.Outcome State Fault Refusal :=
  finish (scRun dbl aq rd rs1 rs2 s) s

/-! ## Atomic read-modify-writes -/

/-- The new value of an AMO on `w` bits. -/
def amoResult {w : Nat} (op : AmoOp) (m r : BitVec w) : BitVec w :=
  match op with
  | .swap => r
  | .add => m + r
  | .xor => m ^^^ r
  | .and => m &&& r
  | .or => m ||| r
  | .min => if m.slt r then m else r
  | .max => if m.slt r then r else m
  | .minu => if m.ult r then m else r
  | .maxu => if m.ult r then r else m

/-- The new value of an AMO of 4 or 8 bytes. -/
def amoNew (op : AmoOp) (dbl : Bool) (m r : Nat) : Nat :=
  if dbl then (amoResult op (BitVec.ofNat 64 m) (BitVec.ofNat 64 r)).toNat
  else (amoResult op (BitVec.ofNat 32 m) (BitVec.ofNat 32 r)).toNat

/-- Read `n` bytes at their home and let `f` give what is written there and the hart's registers after. -/
def rmwRun (s : State) (va : Word) (n : Nat) (aq : Bool) (new : Nat → Option Nat) (regs : Nat → Hart → Hart) :
    Except Stop State :=
  match atomicLoc s .amo 6 va n with
  | .error e => .error e
  | .ok l =>
      match readAt s .amo .plain true va n l with
      | .error e => .error e
      | .ok v =>
          let t := match new v with
            | none => s
            | some x => writeLoc s s.h.id.coreNo l n x false
          .ok ((acquireIf aq (t.setH (regs v t.h))).advance)

def execAmo (op : AmoOp) (dbl aq _rl : Bool) (rd rs1 rs2 : Reg) (s : State) :
    Host.Outcome State Fault Refusal :=
  finish (rmwRun s (s.h.xr rs1) (amoBytes dbl) aq
    (fun v => some (amoNew op dbl v (s.h.xr rs2).toNat))
    (fun v h => h.setX rd (sextBytes (amoBytes dbl) v))) s

def execAmocasW (aq _rl : Bool) (rd rs1 rs2 : Reg) (s : State) : Host.Outcome State Fault Refusal :=
  finish (rmwRun s (s.h.xr rs1) 4 aq
    (fun v => if v = (s.h.xr rd).toNat % 2 ^ 32 then some ((s.h.xr rs2).toNat % 2 ^ 32) else none)
    (fun v h => h.setX rd (sextBytes 4 v))) s

def execAmocasD (aq _rl : Bool) (rd rs1 rs2 : Reg) (s : State) : Host.Outcome State Fault Refusal :=
  finish (rmwRun s (s.h.xr rs1) 8 aq
    (fun v => if v = (s.h.xr rd).toNat then some (s.h.xr rs2).toNat else none)
    (fun v h => h.setX rd (sextBytes 8 v))) s

/-- A pair of registers as 128 bits; the pair of x0 reads 0 (RISC-V Zacas). -/
def Hart.pair (h : Hart) (r : Reg) : Nat :=
  if r = 0 then 0 else (h.xr r).toNat + (h.xr (r + 1)).toNat * 2 ^ 64

/-- Write a pair of registers; a write to the pair of x0 is discarded. -/
def Hart.setPair (h : Hart) (r : Reg) (v : Nat) : Hart :=
  if r = 0 then h else (h.setX r (BitVec.ofNat 64 v)).setX (r + 1) (BitVec.ofNat 64 (v / 2 ^ 64))

def execAmocasQ (aq _rl : Bool) (rd rs1 rs2 : Reg) (s : State) : Host.Outcome State Fault Refusal :=
  finish (rmwRun s (s.h.xr rs1) 16 aq
    (fun v => if v = s.h.pair rd then some (s.h.pair rs2) else none)
    (fun v h => h.setPair rd v)) s

/-! ## Scoped accesses (16 R355) -/

def accBytes : AccW → Nat
  | .b => 1 | .h => 2 | .w => 4 | .d => 8

def xldaRun (sc : Scope) (wd : AccW) (rd rs1 : Reg) (s : State) : Except Stop State :=
  match scalarLoadBytes s .xlda (s.h.xr rs1) (accBytes wd) with
  | .error e => .error e
  | .ok v => .ok ((s.setX rd (sextBytes (accBytes wd) v)).acquire sc).advance

def execXlda (sc : Scope) (wd : AccW) (rd rs1 : Reg) (s : State) : Host.Outcome State Fault Refusal :=
  finish (xldaRun sc wd rd rs1 s) s

/-- The release is performed with the store, since every earlier access has been performed
(assumption 3). -/
def xstlRun (wd : AccW) (rs1 rs2 : Reg) (s : State) : Except Stop State :=
  match scalarStoreBytes s (s.h.xr rs1) (accBytes wd) ((s.h.xr rs2).toNat % 2 ^ (8 * (accBytes wd))) with
  | .error e => .error e
  | .ok t => .ok t.advance

def execXstl (_sc : Scope) (wd : AccW) (rs1 rs2 : Reg) (s : State) : Host.Outcome State Fault Refusal :=
  finish (xstlRun wd rs1 rs2 s) s

/-! ## Scalar fences (16 R353, R354; 02 R44) -/

/-- XFENCE: earlier loads become acquires at its scope, so it invalidates as R343 gives. -/
def execXfence (sc : Scope) (s : State) : Host.Outcome State Fault Refusal :=
  .next (s.acquire sc).advance

/-- FENCE acts as XFENCE at system scope; earlier loads are acquires only if pred includes r. -/
def execFence (_fm pred _succ : BitVec 4) (_rs1 _rd : Reg) (s : State) :
    Host.Outcome State Fault Refusal :=
  .next (if pred.getLsbD 1 then s.acquire .system else s).advance

/-- FENCE.TSO acts as FENCE rw,rw. -/
def execFenceTso (_rs1 _rd : Reg) (s : State) : Host.Outcome State Fault Refusal :=
  .next (s.acquire .system).advance

/-- FENCE.I: a later fetch reads memory as it stands, which the model's every fetch does. -/
def execFenceI (_imm : BitVec 12) (_rs1 _rd : Reg) (s : State) : Host.Outcome State Fault Refusal :=
  .next s.advance

end Sys2Proof.Machine
end

