-- ==== Sys2Proof/Machine/Csr.lean ====
section
/-! DEFINITION. The CSR instructions: which CSRs a hart has, what a read returns, and what a write does
(02 R31, R46 to R48; 00 R8; 06 R135; 07 R163, R164, R169; 09 R213; 13 R275; 14 R300; 17 R367, R379; 19
R462, R464; RISC-V privileged). -/

namespace Sys2Proof.Machine

def Priv.rank : Priv → Nat
  | .u => 0
  | .s => 1
  | .m => 3

/-- The vector unit has an unfinished block instruction that is not stopped: what VWAIT and the CSR
accesses of R169 wait for. -/
def Hart.vecBusy (h : Hart) : Bool := decide (h.vu.blocks ≠ []) && decide (h.vu.halt = 0)

/-! ## Reads -/

/-- vprogN (06 Table 6.3). -/
def vprogValue (h : Hart) (n : Nat) : Word :=
  if h.id.groups ≤ n then 0
  else
    let busy := decide (h.vu.blocks ≠ [])
    let prog := if busy then (h.vu.prog.headD [])[n]?.getD 0 else 0
    let bits := fun (l : List VReg) =>
      l.foldr (fun r acc => (if r.pois.getLsbD n then 1 else 0) + 2 * acc) 0
    BitVec.ofNat 64 (prog % 65536 + (if busy then 2 ^ 16 else 0) + bits h.vu.v.toList * 2 ^ 20
      + bits h.vu.w.toList * 2 ^ 52 + bits h.vu.b.toList * 2 ^ 60)

/-- fcsr. -/
def Hart.fcsr (h : Hart) : Word := zext64 (h.s.frm ++ h.s.fflags)

/-- uistatus (17 Table 17.6). -/
def Hart.uistatus (h : Hart) : Word :=
  BitVec.ofNat 64 ((if h.c.uie then 1 else 0) + (if h.c.uiActive then 2 else 0) + h.posts.length * 4)

/-- The time CSR: microseconds at the capability table's rate (03 Table 3.7, 21 Table 21.2; assumption 20). -/
def State.timeCsr (s : State) : Word :=
  BitVec.ofNat 64 (s.time * (s.devGet (capBase + 32)).toNat / 1000000)

/-- The fields of mstatus that sstatus shows (RISC-V privileged). -/
def sstatusMask : Word := 0x80000003000DE762

/-- misa: RV64 with A, D, F, I, M, S and U. -/
def misaValue : Word := 0x8000000000141129

/-- The counter at bit `b` of the counter-enable registers may be read (RISC-V privileged). -/
def counterOk (h : Hart) (b : Nat) : Bool :=
  (decide (h.s.priv = .m) || h.id.isVector || h.mc.mcounteren.getLsbD b)
    && (decide (h.s.priv ≠ .u) || h.sc.scounteren.getLsbD b)

/-- A machine CSR of a steward or Ferryman hart. -/
def mCsrGet (h : Hart) (a : Nat) : Option Word :=
  if h.id.isVector then none
  else if a = 0x300 then some h.mc.mstatus
  else if a = 0x301 then some misaValue
  else if a = 0x302 then some h.mc.medeleg
  else if a = 0x303 then some h.mc.mideleg
  else if a = 0x304 then some h.mc.mie
  else if a = 0x305 then some h.mc.mtvec
  else if a = 0x306 then some h.mc.mcounteren
  else if a = 0x30A then some 0
  else if a = 0x340 then some h.mc.mscratch
  else if a = 0x341 then some h.mc.mepc
  else if a = 0x342 then some h.mc.mcause
  else if a = 0x343 then some h.mc.mtval
  else if a = 0x344 then some h.mc.mip
  else if a = 0xB00 then some h.s.cycle
  else if a = 0xB02 then some h.s.instret
  else if a = 0xF11 ∨ a = 0xF12 ∨ a = 0xF13 ∨ a = 0xF15 then some 0
  else if a = 0xF14 then some (zext64 h.id.cont)
  else if a = 0x104 then some (h.mc.mie &&& h.mc.mideleg)
  else if a = 0x144 then some (h.mc.mip &&& h.mc.mideleg)
  else none

/-- A standard CSR that every hart has. -/
def sCsrGet (s : State) (a : Nat) : Option Word :=
  let h := s.h
  if a = 0x100 then some (if h.id.isVector then h.sc.sstatus else h.mc.mstatus &&& sstatusMask)
  else if a = 0x105 then some h.sc.stvec
  else if a = 0x106 then some h.sc.scounteren
  else if a = 0x10A then some 0
  else if a = 0x140 then some h.sc.sscratch
  else if a = 0x141 then some h.sc.sepc
  else if a = 0x142 then some h.sc.scause
  else if a = 0x143 then some h.sc.stval
  else if a = 0x180 then some h.sc.satp
  else if a = 0xC00 then (if counterOk h 0 then some h.s.cycle else none)
  else if a = 0xC01 then (if counterOk h 1 then some s.timeCsr else none)
  else if a = 0xC02 then (if counterOk h 2 then some h.s.instret else none)
  else if a = 0x001 then some (zext64 h.s.fflags)
  else if a = 0x002 then some (zext64 h.s.frm)
  else if a = 0x003 then some h.fcsr
  else none

/-- One of the Nurak's own CSRs (02 Table 2.7). -/
def ownCsrGet (h : Hart) (a : Nat) : Option Word :=
  if a = 0xCC0 then some h.c.vl
  else if a = 0xCC1 ∨ a = 0x5C0 then some h.c.vcfg
  else if a = 0xCC2 then some (BitVec.ofNat 64 (h.id.vlen / 8))
  else if a = 0xCC3 then some h.c.vgoff
  else if a = 0xCC4 then some h.c.vgshare
  else if a = 0xCC5 then some h.mat.mcfg
  else if a = 0xCC6 then some (zext64 h.mat.mtscale)
  else if 0xCC8 ≤ a ∧ a ≤ 0xCCF then some (vprogValue h (a - 0xCC8))
  else if a = 0x8C0 then some h.c.vstat
  else if a = 0x8C1 then some h.c.vlut0
  else if a = 0x8C2 then some h.c.vlut1
  else if a = 0x8C4 then some h.c.uivec
  else if a = 0x8C5 then some h.c.uiepc
  else if a = 0x8C6 then some h.c.uicause
  else if a = 0x8C7 then some h.uistatus
  else if a = 0x5C1 then some h.c.vtrec
  else if a = 0x5C2 then some h.c.fcompat
  else if a = 0x5C3 then some h.c.aotbase
  else if a = 0x5C4 then some h.c.ctxarea
  else none

/-- What a CSR instruction reads; none where the hart has no such CSR. -/
def csrGet (s : State) (a : Nat) : Option Word :=
  match ownCsrGet s.h a with
  | some v => some v
  | none =>
      match sCsrGet s a with
      | some v => some v
      | none => mCsrGet s.h a

/-! ## Writes -/

/-- vcfg after a write to vcfgs (02 R48). -/
def vcfgsValue (v : Word) : Word :=
  if 6 ≤ fieldOf v 2 0 ∨ 4 ≤ fieldOf v 5 3 ∨ fieldOf v 62 10 ≠ 0 ∨ v.getLsbD 63 then vcfgVill else v

/-- A value that fcompat may hold (07 R164). -/
def fcompatOk (v : Word) : Bool :=
  decide (fieldOf v 7 6 < 2) && decide (fieldOf v 9 8 < 3) && decide (fieldOf v 63 13 = 0)

/-- sstatus of a vector hart after a write: SPIE, SPP, SUM and MXR (19 Table 19.8). -/
def sstatusWrite (old v : Word) : Word := (old &&& ~~~(0xC0120 : Word)) ||| (v &&& 0xC0120)

/-- mstatus after a write of the fields in a mask; MPP keeps its value where 10 is written. -/
def mstatusWrite (mask old v : Word) : Word :=
  let n := (old &&& ~~~mask) ||| (v &&& mask)
  if fieldOf n 12 11 = 2 then setField n 12 11 (fieldOf old 12 11) else n

/-- satp after a write: a MODE other than Bare and Sv57 has no effect (04 R79, RISC-V privileged). -/
def satpWrite (old v : Word) : Word :=
  if fieldOf v 63 60 = 0 ∨ fieldOf v 63 60 = 10 then v else old

/-- A write to a machine CSR. -/
def mCsrPut (h : Hart) (a : Nat) (v : Word) : Option Hart :=
  if h.id.isVector then none
  else if a = 0x300 then
    some { h with mc := { h.mc with mstatus := mstatusWrite 0x7E19AA h.mc.mstatus v } }
  else if a = 0x301 ∨ a = 0x30A then some h
  else if a = 0x302 then some { h with mc := { h.mc with medeleg := v &&& ~~~(0x800 : Word) } }
  else if a = 0x303 then some { h with mc := { h.mc with mideleg := v &&& 0x222 } }
  else if a = 0x304 then some { h with mc := { h.mc with mie := v &&& 0xAAA } }
  else if a = 0x305 then some { h with mc := { h.mc with mtvec := v &&& ~~~(3 : Word) } }
  else if a = 0x306 then some { h with mc := { h.mc with mcounteren := v &&& 7 } }
  else if a = 0x340 then some { h with mc := { h.mc with mscratch := v } }
  else if a = 0x341 then some { h with mc := { h.mc with mepc := v &&& ~~~(3 : Word) } }
  else if a = 0x342 then some { h with mc := { h.mc with mcause := v } }
  else if a = 0x343 then some { h with mc := { h.mc with mtval := v } }
  else if a = 0x344 then
    some { h with mc := { h.mc with mip := (h.mc.mip &&& ~~~(0x222 : Word)) ||| (v &&& 0x222) } }
  else if a = 0xB00 then some { h with s := { h.s with cycle := v } }
  else if a = 0xB02 then some { h with s := { h.s with instret := v - 1 } }
  else if a = 0x104 then
    some { h with mc := { h.mc with
      mie := (h.mc.mie &&& ~~~h.mc.mideleg) ||| (v &&& h.mc.mideleg) } }
  else if a = 0x144 then
    some { h with mc := { h.mc with
      mip := (h.mc.mip &&& ~~~(h.mc.mideleg &&& 2)) ||| (v &&& h.mc.mideleg &&& 2) } }
  else none

/-- A write to a standard CSR. -/
def sCsrPut (h : Hart) (a : Nat) (v : Word) : Option Hart :=
  if a = 0x100 then
    some (if h.id.isVector then { h with sc := { h.sc with sstatus := sstatusWrite h.sc.sstatus v } }
          else { h with mc := { h.mc with mstatus := mstatusWrite 0xC0122 h.mc.mstatus v } })
  else if a = 0x105 then some { h with sc := { h.sc with stvec := v &&& ~~~(3 : Word) } }
  else if a = 0x106 then some { h with sc := { h.sc with scounteren := v &&& 7 } }
  else if a = 0x10A then some h
  else if a = 0x140 then some { h with sc := { h.sc with sscratch := v } }
  else if a = 0x141 then some { h with sc := { h.sc with sepc := v &&& ~~~(3 : Word) } }
  else if a = 0x142 then some { h with sc := { h.sc with scause := v } }
  else if a = 0x143 then some { h with sc := { h.sc with stval := v } }
  else if a = 0x180 then some { h with sc := { h.sc with satp := satpWrite h.sc.satp v } }
  else if a = 0x001 then some { h with s := { h.s with fflags := v.truncate 5 } }
  else if a = 0x002 then some { h with s := { h.s with frm := v.truncate 3 } }
  else if a = 0x003 then
    some { h with s := { h.s with fflags := v.truncate 5, frm := v.extractLsb' 5 3 } }
  else none

/-- A write to one of the Nurak's own CSRs; none where it raises illegal-instruction (00 R8, 07 R164). -/
def ownCsrPut (h : Hart) (a : Nat) (v : Word) : Option Hart :=
  if a = 0x5C0 then some { h with c := { h.c with vcfg := vcfgsValue v } }
  else if a = 0x8C0 then some { h with c := { h.c with vstat := h.c.vstat &&& ~~~(v &&& 4) } }
  else if a = 0x8C1 then some { h with c := { h.c with vlut0 := v } }
  else if a = 0x8C2 then some { h with c := { h.c with vlut1 := v } }
  else if a = 0x8C4 then some { h with c := { h.c with uivec := v &&& ~~~(3 : Word) } }
  else if a = 0x8C5 then some { h with c := { h.c with uiepc := v &&& ~~~(3 : Word) } }
  else if a = 0x8C7 then some { h with c := { h.c with uie := v.getLsbD 0 } }
  else if a = 0x5C1 then some { h with c := { h.c with vtrec := v &&& 0xFFFFFFFFFFE00 } }
  else if a = 0x5C2 then (if fcompatOk v then some { h with c := { h.c with fcompat := v } } else none)
  else if a = 0x5C3 then some { h with c := { h.c with aotbase := v &&& ~~~(0x3F : Word) } }
  else if a = 0x5C4 then some { h with c := { h.c with ctxarea := v &&& 0xFFFFFFFFFF000 } }
  else none

def csrPut (h : Hart) (a : Nat) (v : Word) : Option Hart :=
  match ownCsrPut h a v with
  | some h' => some h'
  | none =>
      match sCsrPut h a v with
      | some h' => some h'
      | none => mCsrPut h a v

/-! ## The instructions -/

/-- The instruction writes (RISC-V Zicsr). -/
def csrWrites (op : CsrOp) (src : BitVec 5) : Bool :=
  match op with
  | .rw | .rwi => true
  | .rs | .rc | .rsi | .rci => decide (src ≠ 0)

/-- The value written. -/
def csrNew (op : CsrOp) (old x : Word) : Word :=
  match op with
  | .rw | .rwi => x
  | .rs | .rsi => old ||| x
  | .rc | .rci => old &&& ~~~x

/-- The source operand: a register or an immediate. -/
def csrSrc (op : CsrOp) (h : Hart) (src : BitVec 5) : Word :=
  match op with
  | .rw | .rs | .rc => h.xr src
  | .rwi | .rsi | .rci => zext64 src

/-- The privilege of the address admits the access, and TVM does not trap an S access of satp. -/
def csrPrivOk (h : Hart) (a : BitVec 12) : Bool :=
  decide (fieldOf a 9 8 ≤ h.s.priv.rank)
    && !(decide (a = 0x180) && decide (h.s.priv = .s) && !h.id.isVector && h.mc.mstatus.getLsbD 20)

/-- A CSR instruction's effect, or illegal-instruction with nothing changed (02 R46). -/
def csrRun (i : Instr) (op : CsrOp) (csr : BitVec 12) (rd : Reg) (src : BitVec 5) (s : State) :
    Except Stop State :=
  match csrGet s csr.toNat with
  | none => .error (illegal i.word)
  | some old =>
      if !csrPrivOk s.h csr then .error (illegal i.word)
      else if !csrWrites op src then .ok (s.setX rd old).advance
      else if fieldOf csr 11 10 = 3 then .error (illegal i.word)
      else
        match csrPut s.h csr.toNat (csrNew op old (csrSrc op s.h src)) with
        | none => .error (illegal i.word)
        | some h' => .ok ((s.setH h').setX rd old).advance

def execCsrInstruction (op : CsrOp) (csr : BitVec 12) (rd : Reg) (src : BitVec 5) (s : State) :
    Host.Outcome State Fault Refusal :=
  finish (csrRun (.csrInstruction op csr rd src) op csr rd src s) s

/-- An access below the privilege of the address raises at once; any other waits for the earlier blocks
to complete or stop (07 R169, 09 R213). -/
def csrWaitRun (i : Instr) (op : CsrOp) (csr : BitVec 12) (rd : Reg) (src : BitVec 5) (s : State) :
    Except Stop State :=
  if csrPrivOk s.h csr && s.h.vecBusy then .ok s else csrRun i op csr rd src s

def execFcsrAccess (op : CsrOp) (csr : BitVec 12) (rd : Reg) (src : BitVec 5) (s : State) :
    Host.Outcome State Fault Refusal :=
  finish (csrWaitRun (.fcsrAccess op csr rd src) op csr rd src s) s

def execVlutAccess (op : CsrOp) (csr : BitVec 12) (rd : Reg) (src : BitVec 5) (s : State) :
    Host.Outcome State Fault Refusal :=
  finish (csrWaitRun (.vlutAccess op csr rd src) op csr rd src s) s

end Sys2Proof.Machine
end

