-- ==== Sys2Proof/Machine/System.lean ====
section
/-! DEFINITION. The SYSTEM instructions other than the CSR instructions (03 Table 3.7; 19 R404 to R411),
the trap-entry event, and the start and return of user-level interrupts (17 R380). -/

namespace Sys2Proof.Machine

/-- instret counts an instruction that sets the pc itself. -/
def State.countInstret (s : State) : State :=
  s.setH { s.h with s := { s.h.s with instret := s.h.s.instret + 1 } }

/-- Cause of an ECALL by privilege (19 Table 19.1). -/
def ecallCause : Priv → BitVec 8
  | .u => 8
  | .s => 9
  | .m => 11

/-- ECALL, after the matrix queue has completed or its fault is taken (13 R281). -/
def execEcall (s : State) : Host.Outcome State Fault Refusal :=
  match matrixSync s with
  | some t => .next t
  | none => .next (raise (Stop.of (ecallCause s.h.s.priv) 0) s)

/-- EBREAK: breakpoint, with the pc as trap value. -/
def execEbreak (s : State) : Host.Outcome State Fault Refusal :=
  .next (raise (Stop.of 3 s.h.s.pc) s)

/-- Why an SRET stops: below S, under TSR, or by the record's rules on a vector hart. -/
def sretGuard (s : State) : Option Stop :=
  let w := Instr.sret.word
  if s.h.id.isVector then sretGuardV s w
  else if s.h.s.priv = .u ∨ (s.h.s.priv = .s ∧ s.h.mc.mstatus.getLsbD 22) then some (illegal w)
  else none

def sretEffect (s : State) : State :=
  (if s.h.id.isVector then (if s.h.s.depth = 2 then sretToLevel1 s else sretToU s)
   else sretStd s).countInstret

def execSret (s : State) : Host.Outcome State Fault Refusal := guarded (sretGuard s) s (sretEffect s)

/-- MRET runs at M only. -/
def execMret (s : State) : Host.Outcome State Fault Refusal :=
  guarded (if s.h.s.priv = .m then none else some (illegal Instr.mret.word)) s (mretStd s).countInstret

/-- WFI: illegal at U, and at S under TW on a hart that has mstatus; it ends at once otherwise. -/
def wfiGuard (h : Hart) : Option Stop :=
  if h.s.priv = .u ∨ (h.s.priv = .s ∧ !h.id.isVector ∧ h.mc.mstatus.getLsbD 21) then
    some (illegal Instr.wfi.word)
  else none

def execWfi (s : State) : Host.Outcome State Fault Refusal := guarded (wfiGuard s.h) s s.advance

/-- SFENCE.VMA: illegal at U, and at S under TVM on a hart that has mstatus. -/
def sfenceGuard (i : Instr) (h : Hart) : Option Stop :=
  if h.s.priv = .u ∨ (h.s.priv = .s ∧ !h.id.isVector ∧ h.mc.mstatus.getLsbD 20) then
    some (illegal i.word)
  else none

/-- It removes every translation that the hart context could use (04 R80). -/
def sfenceEffect (s : State) : State := (s.setH { s.h with tlb := [] }).advance

def execSfenceVma (rs1 rs2 : Reg) (s : State) : Host.Outcome State Fault Refusal :=
  guarded (sfenceGuard (.sfenceVma rs1 rs2) s.h) s (sfenceEffect s)

/-- A cause that a vector hart's scause may take (19 Table 19.1). -/
def causeListed (c : Nat) : Bool :=
  decide (c ≤ 9) || [12, 13, 15, 19, 35, 36, 37].contains c || (decide (24 ≤ c) && decide (c ≤ 33))

/-- A trap of the current hart that its block instructions or its streams raise (19 R409). -/
def execTrapEntry (cause : BitVec 8) (tval : Word) (sub : BitVec 16) (s : State) :
    Host.Outcome State Fault Refusal :=
  event "TRAP_ENTRY"
    (if s.h.run = .running ∧ (causeListed cause.toNat ∨ !s.h.id.isVector) then some (takeTrap s { cause := cause, tval := tval, sub := sub } none)
     else none)

/-! ## User-level interrupts (17 R379, R380) -/

/-- A user-level interrupt is due at this boundary. -/
def uiDue (s : State) : Bool :=
  decide (s.h.s.priv = .u) && s.h.c.uie && !s.h.c.uiActive && decide (s.h.posts ≠ [])
    && decide (s.h.run = .running)

/-- Entry: the pc and x28 to x31 are kept, the oldest post leaves the queue, and the pc goes to uivec; a
post held at the Pontoon die takes the free entry. -/
def uiEnter (h : Hart) (p : Post) (t : List Post) : Hart :=
  { h with
    posts := t ++ h.heldPosts.take 1, heldPosts := h.heldPosts.drop 1,
    c := { h.c with uiepc := h.s.pc, uicause := zext64 p.code ||| (zext64 p.info <<< 32),
                    uiActive := true },
    s := { h.s with shadow := #v[h.xr 28, h.xr 29, h.xr 30, h.xr 31], pc := h.c.uivec } }

def uiEntryRun (s : State) : Option State :=
  match s.h.posts with
  | [] => none
  | p :: t => if uiDue s then some (s.setH (uiEnter s.h p t)) else none

def execUiEntry (s : State) : Host.Outcome State Fault Refusal := event "UI_ENTRY" (uiEntryRun s)

/-- UIRET outside a handler is illegal. -/
def uiretGuard (s : State) : Option Stop :=
  if s.h.c.uiActive then none else some (illegal Instr.uiret.word)

def uiretHart (h : Hart) : Hart :=
  let h1 := (((h.setX 28 h.s.shadow[0]).setX 29 h.s.shadow[1]).setX 30 h.s.shadow[2]).setX 31 h.s.shadow[3]
  { h1 with c := { h1.c with uiActive := false }, s := { h1.s with pc := h1.c.uiepc } }

def uiretEffect (s : State) : State := (s.setH (uiretHart s.h)).countInstret

def execUiret (s : State) : Host.Outcome State Fault Refusal := guarded (uiretGuard s) s (uiretEffect s)

/-- A post reaches a context: it joins the queue of 16, or is held in order behind it; a post for a context
that is switched out is held until the context is loaded (19 R416; assumption 29). -/
def Hart.post (h : Hart) (p : Post) : Hart :=
  if h.posts.length < 16 ∧ h.heldPosts = [] ∧ !h.isOut then { h with posts := h.posts ++ [p] }
  else { h with heldPosts := h.heldPosts ++ [p] }

/-- Post to the context that a continuation identifier names; one that names none has no effect. -/
def State.postTo (s : State) (c : ContId) (p : Post) : State :=
  let c0 := c &&& ~~~(3 : ContId)
  s.mapHarts (fun h => decide (h.id.cont = c0) && h.live) (fun h => h.post p)

/-- A post of a command's completion or of a notice; only codes 1 and 2 exist (17 Table 17.6). -/
def uiPostRun (target : ContId) (code : BitVec 8) (info : BitVec 32) (s : State) : Option State :=
  if (code = 1 ∨ code = 2) ∧ (s.findCont target).isSome then
    some (s.postTo target { code := code, info := info })
  else none

def execUiPost (target : ContId) (code : BitVec 8) (info : BitVec 32) (s : State) :
    Host.Outcome State Fault Refusal :=
  event "UI_POST" (uiPostRun target code info s)

end Sys2Proof.Machine
end

