-- ==== Sys2Proof/Machine/Control.lean ====
section
/-! DEFINITION. Setting the length, handing blocks to the vector unit, the waits and directional fences of
the scalar stream, and XLOOK (17 R365 to R371; 03 R63; 16 R352; 20 R433). -/

namespace Sys2Proof.Machine

/-! ## Lengths (17 R365, R366) -/

/-- cfg names a reserved SEW or LMUL (02 Table 2.8). -/
def cfgReserved (cfg : BitVec 8) : Bool := decide (6 ≤ fieldOf cfg 2 0) || decide (4 ≤ fieldOf cfg 5 3)

/-- vcfg after a length instruction: VPASS is kept. -/
def vcfgOf (old : Word) (cfg : BitVec 8) : Word :=
  if cfgReserved cfg then setField vcfgVill 9 8 (fieldOf old 9 8)
  else setField (zext64 cfg) 9 8 (fieldOf old 9 8)

/-- VLMAX of a legal cfg. -/
def vlmaxOf (vlen : Nat) (vcfg : Word) : Nat := lmulOf vcfg * vlen / sewOf vcfg

/-- vstat with VSTALE cleared. -/
def clearStale (v : Word) : Word := v &&& ~~~(1 : Word)

/-- The hart after VSETL or VSETLI with a requested length. -/
def setLength (h : Hart) (avl : Nat) (cfg : BitVec 8) : Hart :=
  let vc := vcfgOf h.c.vcfg cfg
  let vl := if cfgReserved cfg then 0 else min avl (vlmaxOf h.id.vlen vc)
  { h with c := { h.c with vcfg := vc, vl := BitVec.ofNat 64 vl, vstat := clearStale h.c.vstat } }

/-- x[rs1] as a requested length; x0 requests the largest. -/
def avlOf (h : Hart) (rs1 : Reg) : Nat := if rs1 = 0 then 2 ^ 64 - 1 else (h.xr rs1).toNat

def vsetEffect (s : State) (avl : Nat) (rd : Reg) (cfg : BitVec 8) : State :=
  let h := setLength s.h avl cfg
  (s.setH (h.setX rd h.c.vl)).advance

def execVsetl (rd rs1 : Reg) (cfg : BitVec 8) (s : State) : Host.Outcome State Fault Refusal :=
  .next (vsetEffect s (avlOf s.h rs1) rd cfg)

def execVsetli (rd : Reg) (n : BitVec 5) (cfg : BitVec 8) (s : State) :
    Host.Outcome State Fault Refusal :=
  .next (vsetEffect s n.toNat rd cfg)

/-- Gang size and member number of a hart; a hart of no gang counts as a gang of one (R360). -/
def State.gangShare (s : State) : Nat × Nat :=
  match s.myGang with
  | none => (1, 0)
  | some g => (g.size, s.h.id.member)

/-- Offset and share of member `m` of `n`, in a length divided by whole element groups of `ege`. -/
def psetShare (avl ege n m : Nat) : Nat × Nat :=
  let q := (avl + ege - 1) / ege
  let b := q / n
  let x := q % n
  let g := b + (if m < x then 1 else 0)
  let o := min (ege * (m * b + min m x)) avl
  (o, min (ege * g) (avl - o))

/-- Elements of an element group at a SEW (06 R129). -/
def egeOf (i : Ident) (sew : Nat) : Nat := i.lanes * 128 / sew

def psetEffect (s : State) (avl : Nat) (rd : Reg) (cfg : BitVec 8) : State :=
  let vc := vcfgOf s.h.c.vcfg cfg
  let r := cfgReserved cfg
  let p := psetShare avl (egeOf s.h.id (sewOf vc)) s.gangShare.1 s.gangShare.2
  let o := if r then 0 else p.1
  let sh := if r then 0 else p.2
  let vl := if r then 0 else min sh (vlmaxOf s.h.id.vlen vc)
  let h := { s.h with c := { s.h.c with
    vcfg := vc, vl := BitVec.ofNat 64 vl, vgoff := BitVec.ofNat 64 o, vgshare := BitVec.ofNat 64 sh,
    vstat := clearStale s.h.c.vstat } }
  (s.setH (h.setX rd h.c.vl)).advance

def execPsetvl (rd rs1 : Reg) (cfg : BitVec 8) (s : State) : Host.Outcome State Fault Refusal :=
  .next (psetEffect s (avlOf s.h rs1) rd cfg)

/-! ## Fetching blocks (17 R368, 03 R63) -/

/-- The block that a VFETCH at address `a` makes: a0 to a7 and the configuration in force. -/
def newBlock (h : Hart) (a : Word) : Block :=
  { base := a, k := #v[h.xr 10, h.xr 11, h.xr 12, h.xr 13, h.xr 14, h.xr 15, h.xr 16, h.xr 17],
    vcfg := h.c.vcfg, vl := h.c.vl, frm := h.s.frm, fcompat := h.c.fcompat, vlut0 := h.c.vlut0,
    vlut1 := h.c.vlut1 }

/-- Queue a block behind the hart's earlier ones, or wait while four are unfinished. -/
def vfetchEffect (s : State) (a : Word) : State :=
  if 4 ≤ s.h.vu.blocks.length then s
  else
    (s.setH { s.h with vu := { s.h.vu with blocks := s.h.vu.blocks ++ [newBlock s.h a] } }).advance

/-- VFETCH is illegal while a level-1 record lists stopped block instructions (19 R409); a target that is
no multiple of 8 raises instruction-address-misaligned. -/
def vfetchGuard (i : Instr) (h : Hart) (a : Word) : Option Stop :=
  if h.vu.halt = 1 then some (illegal i.word)
  else if a.toNat % 8 ≠ 0 then some (Stop.of 0 a)
  else none

/-- pc with bits [2:0] cleared, plus a word offset. -/
def pcrelAddr (h : Hart) (imm : BitVec 12) : Word :=
  (h.s.pc &&& ~~~(7 : Word)) + (sext64 imm <<< 3)

def regrelAddr (h : Hart) (rs1 : Reg) (imm : BitVec 12) : Word := h.xr rs1 + (sext64 imm <<< 3)

def execVfetchPcrel (imm : BitVec 12) (s : State) : Host.Outcome State Fault Refusal :=
  let a := pcrelAddr s.h imm
  guarded (vfetchGuard (.vfetchPcrel imm) s.h a) s (vfetchEffect s a)

def execVfetchReg (rs1 : Reg) (imm : BitVec 12) (s : State) : Host.Outcome State Fault Refusal :=
  let a := regrelAddr s.h rs1 imm
  guarded (vfetchGuard (.vfetchReg rs1 imm) s.h a) s (vfetchEffect s a)

/-! ## Waits (17 R370, R371) -/

/-- Stay at the instruction while block instructions are running. -/
def execVwait (s : State) : Host.Outcome State Fault Refusal :=
  .next (if s.h.vecBusy then s else s.advance)

def vgetSlot (h : Hart) (j : BitVec 2) : JSlot := h.vu.j[j.toNat]'(j.isLt)

/-- VGET of a poisoned slot raises vector poison consumption, once the blocks are done. -/
def vgetGuard (h : Hart) (j : BitVec 2) : Option Stop :=
  if !h.vecBusy && (vgetSlot h j).pois then some (Stop.of 24 0) else none

def vgetEffect (s : State) (rd : Reg) (j : BitVec 2) : State :=
  if s.h.vecBusy then s else (s.setX rd (vgetSlot s.h j).val).advance

def execVget (rd : Reg) (j : BitVec 2) (s : State) : Host.Outcome State Fault Refusal :=
  guarded (vgetGuard s.h j) s (vgetEffect s rd j)

/-! ## Directional fences (16 R352) -/

/-- VFENCE.SV never waits: every earlier scalar access has been performed (assumption 3). -/
def execVfenceSv (s : State) : Host.Outcome State Fault Refusal := .next s.advance

/-- VFENCE.VS waits for every earlier block instruction and matrix entry; a fault of the queue is taken
there. -/
def execVfenceVs (s : State) : Host.Outcome State Fault Refusal :=
  match matrixSync s with
  | some t => .next t
  | none => .next (if s.h.vu.blocks = [] then s.advance else s)

/-- VFENCE.VV waits for the matrix queue; earlier blocks are ordered, not awaited. The sampler's texels
for the hart are discarded (12 R266). -/
def execVfenceVv (s : State) : Host.Outcome State Fault Refusal :=
  match matrixSync s with
  | some t => .next t
  | none => .next (s.setH { s.h with texels := [] }).advance

/-! ## XLOOK (20 R433) -/

def mapVa : Word := 0xFFFFFFFD00000000

/-- Address of the bucket of a virtual pc in a map of 2^lg buckets. -/
def bucketVa (v : Word) (lg : Nat) : Word :=
  mapVa + 128 + BitVec.ofNat 64 (128 * (((v >>> 2) ^^^ (v >>> 18)).toNat % 2 ^ lg))

/-- Search the entries left of a bucket: the target, or 0. -/
def xlookEntries (s : State) (v : Word) (g : Nat) : Nat → Word → Except Stop Word
  | 0, _ => .ok 0
  | n + 1, e =>
      match scalarLoadBytes s .plain (e + 16) 8 with
      | .error x => .error x
      | .ok m =>
          if m / 2 ^ 32 % 2 = 1 ∧ m % 2 ^ 32 = g then
            match scalarLoadBytes s .plain e 8 with
            | .error x => .error x
            | .ok p =>
                if p = v.toNat then
                  if m / 2 ^ 33 % 2 = 1 then .error (Stop.of 33 v)
                  else
                    match scalarLoadBytes s .plain (e + 8) 8 with
                    | .error x => .error x
                    | .ok t => .ok (BitVec.ofNat 64 t)
                else xlookEntries s v g n (e + 32)
          else xlookEntries s v g n (e + 32)

/-- The header is one that XLOOK reads on from: MAGIC, VERSION and LOG2B. -/
def mapHeaderOk (w : Nat) : Bool :=
  decide (w % 2 ^ 32 = 0x4B524D50) && decide (w / 2 ^ 32 % 2 ^ 16 = 1)
    && decide (4 ≤ w / 2 ^ 48 % 256) && decide (w / 2 ^ 48 % 256 ≤ 20)

/-- The looked-up value; its reads are made after the acquire of the header's GEN. -/
def xlookValue (s : State) (v : Word) : Except Stop Word :=
  match scalarLoadBytes s .plain (mapVa + 8) 4 with
  | .error x => .error x
  | .ok g =>
      let s1 := s.acquire .system
      match scalarLoadBytes s1 .plain mapVa 8 with
      | .error x => .error x
      | .ok w =>
          if v.toNat % 4 ≠ 0 ∨ !mapHeaderOk w then .ok 0
          else xlookEntries s1 v g 4 (bucketVa v (w / 2 ^ 48 % 256))

def xlookRun (rd rs1 : Reg) (s : State) : Except Stop State :=
  match xlookValue s (s.h.xr rs1) with
  | .error x => .error x
  | .ok r => .ok ((s.acquire .system).setX rd r).advance

def execXlook (rd rs1 : Reg) (s : State) : Host.Outcome State Fault Refusal :=
  finish (xlookRun rd rs1 s) s

end Sys2Proof.Machine
end

