-- ==== Sys2Proof/Machine/Gang.lean ====
section
/-! DEFINITION. The gang barrier, the retirement of a hart and of its gang, and the accumulator ownership
table entries that a retirement clears (17 R360 to R363, R372, R373; 06 R145; 14 R298, R304; 18 R390, R399). -/

namespace Sys2Proof.Machine

/-! ## The barrier register (17 R372) -/

/-- Every member that has not retired has arrived and no byte is pending. -/
def Gang.phaseDone (g : Gang) : Bool :=
  decide (g.pend = 0) &&
    (List.range g.size).all (fun m => g.arrived.contains m || g.retired.contains m)

/-- A phase that is done completes: P toggles and the arrival set empties. -/
def Gang.settle (g : Gang) : Gang :=
  if g.phaseDone && g.live then { g with phase := !g.phase, arrived := [] } else g

def Gang.arrive (g : Gang) (m : Nat) : Gang := ({ g with arrived := setAdd g.arrived m }).settle

/-- A gang of one for a hart that no gang record names (R360). -/
def soloGang (gid : Nat) (h : Hart) : Gang :=
  { gid := gid, job := none, ix := 0, part := h.id.part, size := 1, tags := [h.id.tag], kind := .compute,
    arrived := [], phase := false, pend := 0, retired := [],
    rings := [{ groups := [], recvOpen := false, recvClosed := false, sendClosed := false }],
    exported := [], live := true }

/-- The state in which the current hart's gang has a record. -/
def State.withGang (s : State) : State :=
  match s.myGang with
  | some _ => s
  | none =>
      { (s.setH { s.h with id := { s.h.id with gang := some s.sched.nextGang } }) with
        gangs := s.gangs ++ [soloGang s.sched.nextGang s.h],
        sched := { s.sched with nextGang := s.sched.nextGang + 1 } }

/-- Change the current hart's gang. -/
def State.updMyGang (s : State) (f : Gang → Gang) : State :=
  match s.h.id.gang with
  | none => s
  | some g => s.updGang g f

/-- P of the current hart's gang. -/
def State.phase (s : State) : Bool := (s.myGang.map (fun g => g.phase)).getD false

def State.setVstat (s : State) (v : Word) : State := s.setH { s.h with c := { s.h.c with vstat := v } }

/-! ## Barrier instructions (17 R373) -/

/-- The arrival of a GBAR that has not arrived yet: GBPH and GBWAIT are set. -/
def gbarArrive (s : State) : State :=
  let s0 := s.withGang
  if s0.h.c.vstat.getLsbD 3 then s0
  else
    (s0.updMyGang (fun g => g.arrive s0.h.id.member)).setVstat
      (setField (setField s0.h.c.vstat 4 4 (if s0.phase then 1 else 0)) 3 3 1)

/-- Arrive unless already waiting, then wait until the phase differs from GBPH. -/
def gbarEffect (s : State) : State :=
  let t := gbarArrive s
  if t.phase = t.h.c.vstat.getLsbD 4 then t
  else ((t.setVstat (setField t.h.c.vstat 3 3 0)).acquire .system).advance

def execGbar (s : State) : Host.Outcome State Fault Refusal := .next (gbarEffect s)

def gbaraEffect (rd : Reg) (s : State) : State :=
  let s0 := s.withGang
  ((s0.updMyGang (fun g => g.arrive s0.h.id.member)).setX rd (if s0.phase then 1 else 0)).advance

def execGbara (rd : Reg) (s : State) : Host.Outcome State Fault Refusal := .next (gbaraEffect rd s)

def gbarwEffect (rs1 : Reg) (s : State) : State :=
  let s0 := s.withGang
  if s0.phase = (s0.h.xr rs1).getLsbD 0 then s0 else (s0.acquire .system).advance

def execGbarw (rs1 : Reg) (s : State) : Host.Outcome State Fault Refusal := .next (gbarwEffect rs1 s)

/-- The pending-byte counter takes an addition that keeps it below 2^40. -/
def gbarxFits (g : Option Gang) (x : Word) : Bool :=
  decide (x.toNat < 2 ^ 40) && decide ((g.map (fun g => g.pend)).getD 0 + x.toNat < 2 ^ 40)

def gbarxEffect (rs1 : Reg) (s : State) : State :=
  let s0 := s.withGang
  let x := s0.h.xr rs1
  if gbarxFits s0.myGang x then
    (s0.updMyGang (fun g => ({ g with pend := g.pend + x.toNat }).settle)).advance
  else (s0.setVstat (setField s0.h.c.vstat 2 2 1)).advance

def execGbarx (rs1 : Reg) (s : State) : Host.Outcome State Fault Refusal := .next (gbarxEffect rs1 s)

/-! ## The accumulator ownership table (14 R298) -/

def aotAddr (c t : Nat) : Nat := 0xF000400000000 + 0x100 * c + 16 * t

/-- Physical accumulator of the hart's accumulator `o` (13 R270). -/
def Ident.physAcc (i : Ident) (o : Nat) : Nat := i.slot * (16 / i.shape) + o

/-- Write both words of entries `t` to `t + n - 1` of core `c`. -/
def State.aotPut (s : State) (c t : Nat) (w0 w1 : Word) : Nat → State
  | 0 => s
  | n + 1 => ((s.devSet (aotAddr c t) w0).devSet (aotAddr c t + 8) w1).aotPut c (t + 1) w0 w1 n

/-- Clear the entries of a resident group of a hart. -/
def State.aotClear (s : State) (i : Ident) (p : PinEntry) : State :=
  match p.state with
  | .resident => s.aotPut p.core (i.physAcc p.origin.toNat) 0 0 (p.side * p.side)
  | .spilled => s

/-- Release every group of a hart: its entries are cleared and no record is written (R304). -/
def State.releasePins (s : State) (h : Hart) : State :=
  h.mat.pins.foldl (fun st p => st.aotClear h.id p) s

/-! ## Retirement (17 R363, 06 R145) -/

/-- Change ring `m` of a gang. -/
def Gang.updRing (g : Gang) (m : Nat) (f : Ring → Ring) : Gang :=
  { g with rings := g.rings.zipIdx.map (fun r => if r.2 = m then f r.1 else r.1) }

/-- Member `m` closes its receiving and its sending end. -/
def Gang.closeEnds (g : Gang) (m : Nat) : Gang :=
  (g.updRing m (fun r => { r with recvClosed := true })).updRing ((m + 1) % g.size)
    (fun r => { r with sendClosed := true })

/-- Member `m` retires: it counts as arrived from then on; the gang ends with its last member. -/
def Gang.retire (g : Gang) (m : Nat) : Gang :=
  let g1 := { g.closeEnds m with retired := setAdd g.retired m }
  if g1.retired.length = g1.size then { g1 with live := false } else g1.settle

/-- Address of ECLSc of die `d` (18 Table 18.10). -/
def eclsAddr (d c : Nat) : Nat := powerBase + 0x100 * d + 0x40 + 8 * c

/-- The moving average after a measurement, in whole µJ (18 R399). -/
def eclsNext (old e : Nat) : Nat := (((old : Int) + ((e : Int) - old) / 8).toNat) % 2 ^ 32

/-- The energy that a gang's members used on die `d`, as measured: an open value (assumption 23). -/
def measuredEnergy (s : State) (d : Nat) : Nat := (Config.free s.tick (100 + d) 32).toNat

/-- One retirement of class `c` on each of the dies. -/
def State.eclsUpdate (s : State) (c : Nat) (dies : List Nat) : State :=
  (dies.foldl (fun st d => st.devSet (eclsAddr d c) (BitVec.ofNat 64
    (eclsNext (fieldOf (st.devGet (eclsAddr d c)) 31 0) (measuredEnergy s d)))) s).tickUp

/-- Dies on which a gang's members stand. -/
def State.gangDies (s : State) (g : Gang) : List Nat :=
  (s.harts.filter (fun h => decide (h.id.gang = some g.gid))).foldl (fun l h => setAdd l h.id.die) []

/-- A gang has ended: its groups are released, and its job counts it (R363, 14 R304, 18 R390, R399). -/
def gangEnd (s : State) (g : Gang) : State :=
  let ms := s.harts.filter (fun h => decide (h.id.gang = some g.gid))
  let s1 := ms.foldl (fun st h => st.releasePins h) s
  let s2 := s1.mapHarts (fun h => decide (h.id.gang = some g.gid))
    (fun h => { h with mat := { h.mat with pins := [] } })
  match g.job with
  | none => s2
  | some j =>
      let c := ((s2.sched.jobs.find? (fun x => decide (x.jid = j))).map (fun x => x.eclass)).getD 0
      ({ s2 with sched := { s2.sched with jobs := s2.sched.jobs.map (fun (x : Job) =>
          if x.jid = j then { x with retired := x.retired + 1 } else x) } }).eclsUpdate c (s.gangDies g)

/-- A hart may retire: it answers the exit call, with every block instruction and matrix entry complete. -/
def mayRetire (h : Hart) : Bool :=
  decide (h.run = .running) && decide (h.s.priv = .s) && decide (h.sc.scause = 8) && decide (h.xr 17 = 0)
    && decide (h.vu.blocks = []) && decide (h.mat.queue = [])

/-- Fragments whose record the context holds and has not exported are discarded (15 R335, R338). -/
def State.dropFrags (s : State) (part tag : Nat) : State :=
  { s with gfx := s.gfx.map (fun c =>
      if c.part = part then
        { c with frags := c.frags.filter (fun f => !(decide (f.tag = tag) && decide (f.result = .pending))) }
      else c) }

/-- The hart whose identifier is `c` retires. -/
def retireHart (s : State) (c : ContId) : Option State :=
  match s.findCont c with
  | none => none
  | some h =>
      if !mayRetire h then none
      else
        let s1 := (s.mapHarts (fun k => decide (k.id.cont = h.id.cont) && decide (k.run ≠ .empty))
          (fun k => { k with run := .retired, frag := none })).dropFrags h.id.part h.id.tag
        match h.id.gang with
        | none => some s1
        | some g =>
            let s2 := s1.updGang g (fun x => x.retire h.id.member)
            match s2.findGang g with
            | none => some s2
            | some x => some (if x.live then s2 else gangEnd s2 x)

def execHartRetire (target : ContId) (s : State) : Host.Outcome State Fault Refusal :=
  event "HART_RETIRE" (retireHart s target)

end Sys2Proof.Machine
end

