-- ==== Sys2Proof/Machine/SoftFloat.lean ====
section
/-! DEFINITION. Floating-point formats and arithmetic: every result is formed exactly and rounded once (07
R154 to R168; 10 R218). A value is a sign, a natural number and a power of two; a quotient or a square root
carries one sticky bit below its last exact bit, which no rounding can confuse with a tie. -/

namespace Sys2Proof.Machine

/-- How a format spends its top encodings (Table 7.2). -/
inductive FSpec where
  /-- Infinities and NaNs at E all ones. -/
  | ieee
  /-- NaN at 0x7F and 0xFF alone. -/
  | e4m3
  /-- Every encoding is finite. -/
  | finite
  deriving DecidableEq, Repr

/-- A float format: exponent bits, significand bits, and its top encodings. The bias is 2^(eb-1) - 1. -/
structure FFmt where
  eb : Nat
  mb : Nat
  spec : FSpec
  deriving DecidableEq, Repr

def fp64 : FFmt := ⟨11, 52, .ieee⟩
def fp32 : FFmt := ⟨8, 23, .ieee⟩
def fp16 : FFmt := ⟨5, 10, .ieee⟩
def bf16 : FFmt := ⟨8, 7, .ieee⟩
def e4m3 : FFmt := ⟨4, 3, .e4m3⟩
def e5m2 : FFmt := ⟨5, 2, .ieee⟩
def e2m3 : FFmt := ⟨2, 3, .finite⟩
def e3m2 : FFmt := ⟨3, 2, .finite⟩
def e2m1 : FFmt := ⟨2, 1, .finite⟩

def FFmt.width (f : FFmt) : Nat := 1 + f.eb + f.mb
def FFmt.bias (f : FFmt) : Int := 2 ^ (f.eb - 1) - 1
/-- Exponent of the smallest normal. -/
def FFmt.emin (f : FFmt) : Int := 1 - f.bias
/-- Exponent of the smallest subnormal. -/
def FFmt.qmin (f : FFmt) : Int := f.emin - f.mb

/-- Encoding of the largest finite magnitude. -/
def FFmt.maxCode (f : FFmt) : Nat :=
  match f.spec with
  | .ieee => (2 ^ f.eb - 1) * 2 ^ f.mb - 1
  | .e4m3 => 2 ^ (f.eb + f.mb) - 2
  | .finite => 2 ^ (f.eb + f.mb) - 1

/-- Encoding of infinity, where there is one. -/
def FFmt.infCode (f : FFmt) : Nat := (2 ^ f.eb - 1) * 2 ^ f.mb

/-- Default NaN (Table 7.4); 0 in a format that has none. -/
def FFmt.nan (f : FFmt) : Nat :=
  match f.spec with
  | .ieee => (2 ^ f.eb - 1) * 2 ^ f.mb + 2 ^ (f.mb - 1)
  | .e4m3 => 2 ^ (f.eb + f.mb) - 1
  | .finite => 0

/-- An encoding with its sign. -/
def FFmt.signed (f : FFmt) (neg : Bool) (code : Nat) : Nat :=
  if neg then 2 ^ (f.eb + f.mb) + code else code

/-! ## Values -/

/-- What an encoding stands for. -/
inductive FVal where
  /-- `frac` is the significand field. -/
  | nan (neg : Bool) (frac : Nat) (signalling : Bool)
  | inf (neg : Bool)
  /-- (-1)^neg × m × 2^e; m is 0 for a zero. -/
  | fin (neg : Bool) (m : Nat) (e : Int)
  deriving DecidableEq, Repr

/-- The value of the low bits of `x` (07 R154, R155). -/
def FFmt.unpack (f : FFmt) (x : Nat) : FVal :=
  let neg := x.testBit (f.eb + f.mb)
  let ex := x / 2 ^ f.mb % 2 ^ f.eb
  let fr := x % 2 ^ f.mb
  if f.spec = .ieee ∧ ex = 2 ^ f.eb - 1 then
    (if fr = 0 then .inf neg else .nan neg fr (!fr.testBit (f.mb - 1)))
  else if f.spec = .e4m3 ∧ ex = 2 ^ f.eb - 1 ∧ fr = 2 ^ f.mb - 1 then .nan neg fr false
  else if ex = 0 then .fin neg fr f.qmin
  else .fin neg (2 ^ f.mb + fr) (f.qmin + (ex : Int) - 1)

def FVal.isNan : FVal → Bool
  | .nan _ _ _ => true
  | .inf _ | .fin _ _ _ => false

def FVal.isSnan : FVal → Bool
  | .nan _ _ s => s
  | .inf _ | .fin _ _ _ => false

def FVal.isInf : FVal → Bool
  | .inf _ => true
  | .nan _ _ _ | .fin _ _ _ => false

def FVal.isZero : FVal → Bool
  | .fin _ m _ => decide (m = 0)
  | .nan _ _ _ | .inf _ => false

def FVal.neg : FVal → Bool
  | .nan n _ _ => n
  | .inf n => n
  | .fin n _ _ => n

def FVal.negate : FVal → FVal
  | .nan n f s => .nan (!n) f s
  | .inf n => .inf (!n)
  | .fin n m e => .fin (!n) m e

/-! ## Flags and modes -/

def fNV : BitVec 5 := 16
def fDZ : BitVec 5 := 8
def fOF : BitVec 5 := 4
def fUF : BitVec 5 := 2
def fNX : BitVec 5 := 1

/-- A rounding mode in force. -/
inductive RMode where
  | rne | rtz | rdn | rup | rmm
  deriving DecidableEq, Repr

/-- The mode that a 3-bit code names; reserved codes name none. -/
def rmodeOf (c : Nat) : Option RMode :=
  if c = 0 then some .rne else if c = 1 then some .rtz else if c = 2 then some .rdn
  else if c = 3 then some .rup else if c = 4 then some .rmm else none

/-- A rounding mode and the compatibility fields in force (07 Table 7.5); fcompat is 0 for scalar and matrix
arithmetic. -/
structure FEnv where
  mode : RMode
  fcompat : Word
  deriving DecidableEq, Repr

/-- An encoding and the flags it raised. -/
structure FRes where
  bits : Nat
  flags : BitVec 5
  deriving DecidableEq, Repr

/-- First fcompat bit of a format that DAZ and FTZ reach. -/
def FFmt.compatBit (f : FFmt) : Option Nat :=
  if f = fp64 then some 0 else if f = fp32 then some 2 else if f = bf16 then some 4 else none

def FEnv.daz (env : FEnv) (f : FFmt) : Bool := (f.compatBit.map (fun b => env.fcompat.getLsbD b)).getD false
def FEnv.ftz (env : FEnv) (f : FFmt) : Bool :=
  (f.compatBit.map (fun b => env.fcompat.getLsbD (b + 1))).getD false
def FEnv.payload (env : FEnv) : Bool := decide (fieldOf env.fcompat 7 6 = 1)
def FEnv.minmax (env : FEnv) : Nat := fieldOf env.fcompat 9 8
def FEnv.contr (env : FEnv) : Bool := env.fcompat.getLsbD 10
def FEnv.rcpl (env : FEnv) : Bool := env.fcompat.getLsbD 11
def FEnv.cvtl (env : FEnv) : Bool := env.fcompat.getLsbD 12

/-- An operand after DAZ (10 R219). -/
def FEnv.operand (env : FEnv) (f : FFmt) (x : Nat) : FVal :=
  match f.unpack x with
  | .fin n m e => if env.daz f && decide (m < 2 ^ f.mb) then .fin n 0 e else .fin n m e
  | v => v

/-! ## Rounding (07 R159 to R161) -/

/-- Round `n` units and a remainder `rem` of `2^s` up. -/
def roundUp (mode : RMode) (neg : Bool) (n rem s : Nat) : Bool :=
  match mode with
  | .rne => decide (2 ^ s < 2 * rem) || (decide (2 * rem = 2 ^ s) && decide (n % 2 = 1))
  | .rtz => false
  | .rdn => neg && decide (rem ≠ 0)
  | .rup => !neg && decide (rem ≠ 0)
  | .rmm => decide (2 ^ s ≤ 2 * rem) && decide (rem ≠ 0)

/-- `m × 2^e` rounded to a multiple of `2^q`: the multiple, and whether that is exact. -/
def roundTo (mode : RMode) (neg : Bool) (m : Nat) (e q : Int) : Nat × Bool :=
  if q ≤ e then (m * 2 ^ (e - q).toNat, true)
  else
    let s := (q - e).toNat
    let n := m / 2 ^ s
    let rem := m % 2 ^ s
    (if roundUp mode neg n rem s then n + 1 else n, decide (rem = 0))

/-- ⌊log2(m × 2^e)⌋ for m ≠ 0. -/
def topExp (m : Nat) (e : Int) : Int := e + (Nat.log2 m : Int)

/-- The value, rounded with unbounded exponent, is below the smallest normal. -/
def isTiny (f : FFmt) (mode : RMode) (neg : Bool) (m : Nat) (e : Int) : Bool :=
  let q := topExp m e - f.mb
  let r := roundTo mode neg m e q
  decide (topExp r.1 q < f.emin)

/-- What overflow delivers (Table 7.3). -/
def overflowCode (f : FFmt) (mode : RMode) (neg : Bool) : Nat :=
  match f.spec with
  | .e4m3 | .finite => f.maxCode
  | .ieee =>
      match mode with
      | .rne | .rmm => f.infCode
      | .rtz => f.maxCode
      | .rdn => if neg then f.infCode else f.maxCode
      | .rup => if neg then f.maxCode else f.infCode

/-- Round `(-1)^neg × m × 2^e`, m ≠ 0, to a format with `drop` low significand bits kept 0; `ftz` flushes a
tiny result and `sat` keeps an overflow finite. -/
def roundWith (f : FFmt) (drop : Nat) (mode : RMode) (ftz sat neg : Bool) (m : Nat) (e : Int) : FRes :=
  let mb := f.mb - drop
  let top := topExp m e
  let q := (if top < f.emin then f.emin else top) - mb
  let r := roundTo mode neg m e q
  let code := ((q - (f.emin - mb)).toNat * 2 ^ mb + r.1) * 2 ^ drop
  let tiny := isTiny { f with mb := mb } mode neg m e
  if f.maxCode < code then
    { bits := f.signed neg (if sat then f.maxCode else overflowCode f mode neg), flags := fOF ||| fNX }
  else if ftz && tiny then { bits := f.signed neg 0, flags := fUF ||| fNX }
  else
    { bits := f.signed neg code,
      flags := if r.2 then 0 else if tiny then fUF ||| fNX else fNX }

/-- Round a non-zero value to a format under the environment. -/
def FEnv.round (env : FEnv) (f : FFmt) (neg : Bool) (m : Nat) (e : Int) : FRes :=
  roundWith f 0 env.mode (env.ftz f) false neg m e

/-! ## NaNs (07 R162) -/

/-- A NaN of a target with the sign and the significand field of a NaN of another format, aligned at the top
bit, quiet. -/
def nanFrom (dst src : FFmt) (neg : Bool) (frac : Nat) : Nat :=
  match dst.spec with
  | .finite => 0
  | .e4m3 => dst.signed neg dst.nan
  | .ieee =>
      let al := if src.mb ≤ dst.mb then frac * 2 ^ (dst.mb - src.mb) else frac / 2 ^ (src.mb - dst.mb)
      dst.signed neg (dst.infCode + al % 2 ^ (dst.mb - 1) + 2 ^ (dst.mb - 1))

/-- The NaN that operands produce: of the first NaN among them under payload-preserving, else default. -/
def FEnv.nanOf (env : FEnv) (dst : FFmt) : List (FFmt × FVal) → Nat
  | [] => dst.nan
  | (f, .nan n fr _) :: t => if env.payload then nanFrom dst f n fr else env.nanOf dst t
  | (_, .inf _) :: t => env.nanOf dst t
  | (_, .fin _ _ _) :: t => env.nanOf dst t

/-- NV where some operand is a signalling NaN. -/
def snanFlag (vs : List FVal) : BitVec 5 := if vs.any FVal.isSnan then fNV else 0

/-- A NaN result of operands of which one is a NaN. -/
def FEnv.nanRes (env : FEnv) (dst : FFmt) (vs : List (FFmt × FVal)) : FRes :=
  { bits := env.nanOf dst vs, flags := snanFlag (vs.map (fun p => p.2)) }

/-- The result of an invalid operation. -/
def invalidRes (dst : FFmt) : FRes := { bits := dst.nan, flags := fNV }

/-! ## Sums and products -/

/-- An exact signed value m × 2^e. -/
def signedM (neg : Bool) (m : Nat) : Int := if neg then -(m : Int) else (m : Int)

/-- The exact sum of finite terms, as an integer and a power of two. -/
def sumTerms (ts : List (Bool × Nat × Int)) : Int × Int :=
  let e := ts.foldl (fun acc t => if t.2.2 < acc then t.2.2 else acc) ((ts.head?.map (fun t => t.2.2)).getD 0)
  (ts.foldl (fun acc t => acc + signedM t.1 t.2.1 * 2 ^ (t.2.2 - e).toNat) 0, e)

/-- The sign of an exact zero sum: that of its addends when they all have one sign and are zeros, else + but
for RDN. -/
def zeroSumNeg (mode : RMode) (ts : List (Bool × Nat × Int)) : Bool :=
  if ts.all (fun t => decide (t.2.1 = 0) && t.1) then true
  else if ts.all (fun t => decide (t.2.1 = 0) && !t.1) then false
  else decide (mode = .rdn)

/-- Round the exact sum of finite terms. -/
def FEnv.sum (env : FEnv) (f : FFmt) (ts : List (Bool × Nat × Int)) : FRes :=
  let s := sumTerms ts
  if s.1 = 0 then { bits := f.signed (zeroSumNeg env.mode ts) 0, flags := 0 }
  else env.round f (decide (s.1 < 0)) s.1.natAbs s.2

/-- A term of a sum: a value already known to be no NaN. -/
def FVal.term : FVal → Bool × Nat × Int
  | .fin n m e => (n, m, e)
  | .inf n => (n, 0, 0)
  | .nan n _ _ => (n, 0, 0)

/-- The product of two values that are no NaNs and not 0 × ∞. -/
def prodVal (a b : FVal) : FVal :=
  match a, b with
  | .fin na ma ea, .fin nb mb eb => .fin (na != nb) (ma * mb) (ea + eb)
  | _, _ => .inf (a.neg != b.neg)

/-- 0 × ∞. -/
def prodInvalid (a b : FVal) : Bool := (a.isZero && b.isInf) || (a.isInf && b.isZero)

/-- Infinities of both signs among the terms. -/
def infClash (vs : List FVal) : Bool :=
  vs.any (fun v => v.isInf && v.neg) && vs.any (fun v => v.isInf && !v.neg)

/-- The rounded sum of values that are no NaNs, at least one infinite or all finite. -/
def FEnv.sumVals (env : FEnv) (f : FFmt) (vs : List FVal) : FRes :=
  if infClash vs then invalidRes f
  else
    match vs.find? FVal.isInf with
    | some v => { bits := f.signed v.neg f.infCode, flags := 0 }
    | none => env.sum f (vs.map FVal.term)

/-- Operands `a` and `b` of formats `fa` and `fb` added into `f`. -/
def FEnv.addVals (env : FEnv) (f fa fb : FFmt) (a b : FVal) : FRes :=
  if a.isNan || b.isNan then env.nanRes f [(fa, a), (fb, b)]
  else env.sumVals f [a, b]

/-- A value negated, NaNs left as they are. -/
def FVal.negNum (v : FVal) : FVal := if v.isNan then v else v.negate

def FEnv.add (env : FEnv) (f : FFmt) (x y : Nat) : FRes :=
  env.addVals f f f (env.operand f x) (env.operand f y)

def FEnv.sub (env : FEnv) (f : FFmt) (x y : Nat) : FRes :=
  env.addVals f f f (env.operand f x) (env.operand f y).negNum

/-- A product of values of formats `fa` and `fb` rounded to `f`. -/
def FEnv.mulVals (env : FEnv) (f fa fb : FFmt) (a b : FVal) : FRes :=
  if a.isNan || b.isNan then env.nanRes f [(fa, a), (fb, b)]
  else if prodInvalid a b then invalidRes f
  else
    match prodVal a b with
    | .fin n m e => if m = 0 then { bits := f.signed n 0, flags := 0 } else env.round f n m e
    | v => { bits := f.signed v.neg f.infCode, flags := 0 }

def FEnv.mul (env : FEnv) (f : FFmt) (x y : Nat) : FRes :=
  env.mulVals f f f (env.operand f x) (env.operand f y)

/-! ## Division and roots -/

/-- `⌊ma ÷ mb⌋` to `p` bits at least, with a sticky bit, and its exponent. -/
def divSticky (ma mb : Nat) (p : Nat) : Nat × Int :=
  let k := p + Nat.log2 mb + 2 - min (Nat.log2 ma) (p + Nat.log2 mb + 2)
  let n := ma * 2 ^ k
  (2 * (n / mb) + (if n % mb = 0 then 0 else 1), -(k : Int) - 1)

/-- ⌊√x⌋, found from bit `n` down. -/
def isqrtFrom (x : Nat) : Nat → Nat → Nat
  | 0, r => if (r + 1) * (r + 1) ≤ x then r + 1 else r
  | n + 1, r =>
      let t := r + 2 ^ (n + 1)
      isqrtFrom x n (if t * t ≤ x then t else r)

def isqrt (x : Nat) : Nat := isqrtFrom x (Nat.log2 x / 2 + 1) 0

/-- √(m × 2^e) to `p` bits at least, with a sticky bit, and its exponent. -/
def sqrtSticky (m : Nat) (e : Int) (p : Nat) : Nat × Int :=
  let k := 2 * (p + 2) + (if e % 2 = 0 then 0 else 1)
  let x := m * 2 ^ k
  let r := isqrt x
  (2 * r + (if r * r = x then 0 else 1), (e - (k : Int)) / 2 - 1)

/-- 1 ÷ √(m × 2^e), m ≠ 0, to `p` bits at least, with a sticky bit, and its exponent. -/
def rsqrtSticky (m : Nat) (e : Int) (p : Nat) : Nat × Int :=
  let m' := if e % 2 = 0 then m else 2 * m
  let e' := if e % 2 = 0 then e else e - 1
  let t := p + 2 + Nat.log2 m'
  let r := isqrt (2 ^ (2 * t) / m')
  (2 * r + (if r * r * m' = 2 ^ (2 * t) then 0 else 1), -(t : Int) - e' / 2 - 1)

def FEnv.div (env : FEnv) (f : FFmt) (x y : Nat) : FRes :=
  let a := env.operand f x
  let b := env.operand f y
  let n := a.neg != b.neg
  match a, b with
  | .nan _ _ _, _ => env.nanRes f [(f, a), (f, b)]
  | _, .nan _ _ _ => env.nanRes f [(f, a), (f, b)]
  | .inf _, .inf _ => invalidRes f
  | .inf _, .fin _ _ _ => { bits := f.signed n f.infCode, flags := 0 }
  | .fin _ _ _, .inf _ => { bits := f.signed n 0, flags := 0 }
  | .fin _ ma ea, .fin _ mb eb =>
      if mb = 0 then
        (if ma = 0 then invalidRes f else { bits := f.signed n f.infCode, flags := fDZ })
      else if ma = 0 then { bits := f.signed n 0, flags := 0 }
      else
        let q := divSticky ma mb (f.mb + 2)
        env.round f n q.1 (q.2 + ea - eb)

def FEnv.sqrt (env : FEnv) (f : FFmt) (x : Nat) : FRes :=
  let a := env.operand f x
  match a with
  | .nan _ _ _ => env.nanRes f [(f, a)]
  | .inf n => if n then invalidRes f else { bits := f.infCode, flags := 0 }
  | .fin n m e =>
      if m = 0 then { bits := f.signed n 0, flags := 0 }
      else if n then invalidRes f
      else
        let r := sqrtSticky m e (f.mb + 2)
        env.round f false r.1 r.2

/-- Low significand bits that legacy-12 keeps 0, and the mode (10 R229). -/
def FEnv.rcpRound (env : FEnv) (f : FFmt) (neg : Bool) (m : Nat) (e : Int) : FRes :=
  if env.rcpl then roundWith f (f.mb - min f.mb 11) .rne (env.ftz f) false neg m e
  else env.round f neg m e

def FEnv.rcp (env : FEnv) (f : FFmt) (x : Nat) : FRes :=
  let a := env.operand f x
  match a with
  | .nan _ _ _ => env.nanRes f [(f, a)]
  | .inf n => { bits := f.signed n 0, flags := 0 }
  | .fin n m e =>
      if m = 0 then { bits := f.signed n f.infCode, flags := fDZ }
      else
        let q := divSticky 1 m (f.mb + 2)
        env.rcpRound f n q.1 (q.2 - e)

def FEnv.rsqrt (env : FEnv) (f : FFmt) (x : Nat) : FRes :=
  let a := env.operand f x
  match a with
  | .nan _ _ _ => env.nanRes f [(f, a)]
  | .inf n => if n then invalidRes f else { bits := 0, flags := 0 }
  | .fin n m e =>
      if m = 0 then { bits := f.signed n f.infCode, flags := fDZ }
      else if n then invalidRes f
      else
        let r := rsqrtSticky m e (f.mb + 2)
        env.rcpRound f false r.1 r.2

/-! ## Multiply-add (10 R221, R231) -/

/-- (±a × b) ± c fused: a and b of format `fi`, c and the result of format `fo`. -/
def FEnv.fused (env : FEnv) (fi fo : FFmt) (np nc : Bool) (a b c : FVal) : FRes :=
  if prodInvalid a b then
    { bits := fo.nan, flags := fNV }
  else if a.isNan || b.isNan || c.isNan then env.nanRes fo [(fi, a), (fi, b), (fo, c)]
  else
    let p := prodVal a b
    env.sumVals fo [if np then p.negate else p, if nc then c.negate else c]

/-- The split form: the product is rounded to `fo` and the sum is rounded again. -/
def FEnv.split (env : FEnv) (fi fo : FFmt) (np nc : Bool) (a b c : FVal) : FRes :=
  let p := env.mulVals fo fi fi a b
  let pv := fo.unpack p.bits
  let r := env.addVals fo fo fo (if np then pv.negNum else pv) (if nc then c.negNum else c)
  if prodInvalid a b then { bits := fo.nan, flags := fNV ||| r.flags }
  else { r with flags := p.flags ||| r.flags }

def FEnv.muladd (env : FEnv) (fi fo : FFmt) (np nc : Bool) (x y z : Nat) : FRes :=
  let a := env.operand fi x
  let b := env.operand fi y
  let c := env.operand fo z
  if env.contr then env.split fi fo np nc a b c else env.fused fi fo np nc a b c

/-! ## Minimum, maximum and comparison (10 R222, R223) -/

/-- a < b for values that are no NaNs, with −0 below +0 when `zeros`. -/
def FVal.lt (zeros : Bool) (a b : FVal) : Bool :=
  match a, b with
  | .inf na, .inf nb => na && !nb
  | .inf na, _ => na
  | _, .inf nb => !nb
  | .fin na ma ea, .fin nb mb eb =>
      let s := sumTerms [(na, ma, ea), (!nb, mb, eb)]
      decide (s.1 < 0) || (zeros && decide (s.1 = 0) && na && !nb)
  | _, _ => false

def FVal.eq (a b : FVal) : Bool := !a.isNan && !b.isNan && !FVal.lt false a b && !FVal.lt false b a

/-- The encoding of an operand after DAZ: only a flushed subnormal changes. -/
def FEnv.dazBits (env : FEnv) (f : FFmt) (x : Nat) : Nat :=
  match f.unpack x with
  | .fin n m _ => if env.daz f && decide (m < 2 ^ f.mb) then f.signed n 0 else x
  | _ => x

/-- The rules of Table 10.4. -/
inductive MinMaxRule where
  | ieee | number | legacy
  deriving DecidableEq, Repr

def FEnv.minmaxRule (env : FEnv) : MinMaxRule :=
  if env.minmax = 0 then .ieee else if env.minmax = 1 then .number else .legacy

/-- The lesser, or with `mx` the greater, of two operands under a rule. -/
def FEnv.minMax (env : FEnv) (rule : MinMaxRule) (mx : Bool) (f : FFmt) (x y : Nat) : FRes :=
  let x' := env.dazBits f x
  let y' := env.dazBits f y
  let a := f.unpack x'
  let b := f.unpack y'
  let nv := snanFlag [a, b]
  let pick := fun z => if (if mx then FVal.lt z b a else FVal.lt z a b) then x' else y'
  match rule with
  | .legacy => { bits := if a.isNan || b.isNan then y' else pick false, flags := nv }
  | .ieee => if a.isNan || b.isNan then env.nanRes f [(f, a), (f, b)] else { bits := pick true, flags := nv }
  | .number =>
      if a.isNan && b.isNan then env.nanRes f [(f, a), (f, b)]
      else if a.isNan then { bits := y', flags := nv }
      else if b.isNan then { bits := x', flags := nv }
      else { bits := pick true, flags := nv }

/-- Comparisons: result and flags. -/
def FEnv.compare (env : FEnv) (cc : FCc) (f : FFmt) (x y : Nat) : Bool × BitVec 5 :=
  let a := env.operand f x
  let b := env.operand f y
  let un := a.isNan || b.isNan
  let quiet := snanFlag [a, b]
  let loud := if un then fNV else 0
  match cc with
  | .eq => (FVal.eq a b, quiet)
  | .lt => (!un && FVal.lt false a b, loud)
  | .le => (!un && (FVal.lt false a b || FVal.eq a b), loud)
  | .unord => (un, quiet)

/-- The class of an encoding as one bit of ten (10 R224). -/
def fclass (f : FFmt) (x : Nat) : Nat :=
  match f.unpack x with
  | .nan _ _ s => if s then 256 else 512
  | .inf n => if n then 1 else 128
  | .fin n m _ =>
      if m = 0 then (if n then 8 else 16)
      else if m < 2 ^ f.mb then (if n then 4 else 32)
      else (if n then 2 else 64)

/-- Sign injection: the sign of y, its inverse, or the XOR of both (10 R225). -/
def fsgnj (f : FFmt) (op : Nat) (x y : Nat) : Nat :=
  let sx := x.testBit (f.eb + f.mb)
  let sy := y.testBit (f.eb + f.mb)
  f.signed (if op = 0 then sy else if op = 1 then !sy else sx != sy) (x % 2 ^ (f.eb + f.mb))

/-! ## Conversions (07 R165 to R167; 10 R228, R232) -/

/-- Float to float into a format of a register or of memory; `quietNan` suppresses the flag of a signalling
NaN and `sat` is the rule of fnars. -/
def FEnv.convert (env : FEnv) (src dst : FFmt) (quietNan sat : Bool) (v : FVal) : FRes :=
  match v with
  | .nan n fr s =>
      if dst.spec = .finite then { bits := 0, flags := fNV }
      else { bits := env.nanOf dst [(src, .nan n fr s)], flags := if s && !quietNan then fNV else 0 }
  | .inf n =>
      if sat then { bits := dst.signed n dst.maxCode, flags := 0 }
      else if dst.spec = .ieee then { bits := dst.signed n dst.infCode, flags := 0 }
      else { bits := dst.signed n dst.maxCode, flags := fNV }
  | .fin n m e =>
      if m = 0 then { bits := dst.signed n 0, flags := 0 }
      else roundWith dst 0 env.mode (env.ftz dst) sat n m e

/-- Into E8M0 (R165). -/
def toE8m0 (v : FVal) : FRes :=
  match v with
  | .nan _ _ _ => { bits := 255, flags := fNV }
  | .inf _ => { bits := 255, flags := fNV }
  | .fin n m e =>
      if m = 0 then { bits := 0, flags := fUF ||| fNX }
      else if n then { bits := 255, flags := fNV }
      else
        let k := topExp m e
        if k < -127 then { bits := 0, flags := fUF ||| fNX }
        else if 128 ≤ k then { bits := 254, flags := fOF ||| fNX }
        else { bits := (k + 127).toNat, flags := if m = 2 ^ Nat.log2 m then 0 else fNX }

/-- Out of E8M0. -/
def ofE8m0 (dst : FFmt) (x : Nat) : Nat :=
  if x = 255 then dst.nan
  else (roundWith dst 0 .rne false false false 1 ((x : Int) - 127)).bits

/-- Range of an integer format of width `w`. -/
def intMin (signed : Bool) (w : Nat) : Int := if signed then -(2 ^ (w - 1) : Int) else 0
def intMax (signed : Bool) (w : Nat) : Int := if signed then 2 ^ (w - 1) - 1 else 2 ^ w - 1

/-- An integer as `w` bits. -/
def intBits (w : Nat) (i : Int) : Nat := (BitVec.ofInt w i).toNat

/-- The result of a conversion that does not fit (R166). -/
def FEnv.misfit (env : FEnv) (signed : Bool) (w : Nat) (high : Bool) : FRes :=
  { bits := if env.cvtl then 2 ^ (w - 1)
            else intBits w (if high then intMax signed w else intMin signed w),
    flags := fNV }

def FEnv.toInt (env : FEnv) (f : FFmt) (signed : Bool) (w : Nat) (x : Nat) : FRes :=
  match env.operand f x with
  | .nan _ _ _ => env.misfit signed w true
  | .inf n => env.misfit signed w (!n)
  | .fin n m e =>
      let r := roundTo env.mode n m e 0
      let i := signedM n r.1
      if i < intMin signed w then env.misfit signed w false
      else if intMax signed w < i then env.misfit signed w true
      else { bits := intBits w i, flags := if r.2 then 0 else fNX }

/-- The integer that `w` bits stand for. -/
def intOf (signed : Bool) (w : Nat) (x : Nat) : Int :=
  if signed then (BitVec.ofNat w x).toInt else ((x % 2 ^ w : Nat) : Int)

def FEnv.ofInt (env : FEnv) (f : FFmt) (signed : Bool) (w : Nat) (x : Nat) : FRes :=
  let i := intOf signed w x
  if i = 0 then { bits := 0, flags := 0 }
  else env.round f (decide (i < 0)) i.natAbs 0

/-- Rounding to an integral value of the same format. -/
def FEnv.rnd (env : FEnv) (f : FFmt) (x : Nat) : FRes :=
  let a := env.operand f x
  match a with
  | .nan _ _ _ => env.nanRes f [(f, a)]
  | .inf n => { bits := f.signed n f.infCode, flags := 0 }
  | .fin n m e =>
      let r := roundTo env.mode n m e 0
      if r.1 = 0 then { bits := f.signed n 0, flags := if r.2 then 0 else fNX }
      else
        { bits := (roundWith f 0 .rne false false n r.1 0).bits, flags := if r.2 then 0 else fNX }

/-! ## BF16 pairs (10 R230) -/

/-- c + a0 × b0 + a1 × b1, rounded once. -/
def FEnv.dot2 (env : FEnv) (x y z : Nat) : FRes :=
  let a0 := env.operand bf16 (x % 2 ^ 16)
  let a1 := env.operand bf16 (x / 2 ^ 16 % 2 ^ 16)
  let b0 := env.operand bf16 (y % 2 ^ 16)
  let b1 := env.operand bf16 (y / 2 ^ 16 % 2 ^ 16)
  let c := env.operand fp32 z
  let ops : List (FFmt × FVal) := [(bf16, a0), (bf16, a1), (bf16, b0), (bf16, b1), (fp32, c)]
  let prods := (if a0.isNan || b0.isNan || prodInvalid a0 b0 then [] else [prodVal a0 b0])
    ++ (if a1.isNan || b1.isNan || prodInvalid a1 b1 then [] else [prodVal a1 b1])
    ++ (if c.isNan then [] else [c])
  if prodInvalid a0 b0 || prodInvalid a1 b1 || infClash prods then
    { bits := fp32.nan, flags := fNV }
  else if ops.any (fun p => p.2.isNan) then env.nanRes fp32 ops
  else env.sumVals fp32 [c, prodVal a0 b0, prodVal a1 b1]

end Sys2Proof.Machine
end

