-- ==== Sys2Proof/Machine/Flags.lean ====
section
/-! DEFINITION. The rounding environment that an instruction computes under, and how the flags it raises
reach fcsr.fflags (07 R168, R169). -/

namespace Sys2Proof.Machine

/-- The environment of a scalar float instruction: its rm field, or frm for 111; none for a reserved mode.
fcompat does not reach scalar arithmetic (07 R164). -/
def scalarEnv (h : Hart) (rm : BitVec 3) : Option FEnv :=
  (rmodeOf (if rm = 7 then h.s.frm.toNat else rm.toNat)).map (fun m => { mode := m, fcompat := 0 })

/-- The mode of a block word's RM field under its block's frm (07 R169). -/
def rmOf (rm : Rm) (frm : BitVec 3) : Option RMode :=
  match rm with
  | .rne => some .rne
  | .rtz => some .rtz
  | .rdn => some .rdn
  | .rup => some .rup
  | .rmm => some .rmm
  | .dyn => rmodeOf frm.toNat

/-- The environment of a block word: its mode, or RNE where the word has none in force, and the block's
fcompat. -/
def blockEnv (rm : Rm) (b : Block) : FEnv := { mode := (rmOf rm b.frm).getD .rne, fcompat := b.fcompat }

/-- The environment of the conversions that block loads and stores perform: of fcompat, NANP alone reaches
them (07 R164). -/
def convEnv (rm : Rm) (b : Block) : FEnv :=
  { mode := (rmOf rm b.frm).getD .rne, fcompat := b.fcompat &&& 0xC0 }

/-- Flags of the elements that a slice computed; none from a slice whose result poison is 1 (07 R168). -/
def sliceFlags (pois : Bool) (fl : List (BitVec 5)) : BitVec 5 :=
  if pois then 0 else fl.foldl (fun a b => a ||| b) 0

end Sys2Proof.Machine
end

