-- ==== Sys2Proof/Machine/Operands.lean ====
section
/-! DEFINITION. The operands of block words: where an element lies, masks, poison and high-water marks, the
checks of R42, progress and its stops, bound registers, and the frame that every element-wise word runs in
(06 R129 to R151; 08 R176, R177; 09 R200 to R203; 20 R427, R428). -/

namespace Sys2Proof.Machine

/-! ## The configuration of a word -/

/-- What a block word runs under: its hart's shape and its block's vcfg and vl (17 R368). -/
structure VEnv where
  vlen : Nat
  lanes : Nat
  groups : Nat
  neg : Nat
  sew : Nat
  lmul : Nat
  vl : Nat
  passes : Nat
  ta : Bool
  ma : Bool
  /-- The step's number, which names its open values (assumption 5). -/
  tick : Nat
  blk : Block

def venvOf (s : State) (b : Block) : VEnv :=
  let h := s.h
  { vlen := h.id.vlen, lanes := h.id.lanes, groups := h.id.groups, neg := h.id.neg, sew := sewOf b.vcfg,
    lmul := lmulOf b.vcfg, vl := b.vl.toNat, passes := vpassOf b.vcfg, ta := b.vcfg.getLsbD 6,
    ma := b.vcfg.getLsbD 7, tick := s.tick, blk := b }

/-- Elements of an element group (06 R129). -/
def VEnv.ege (v : VEnv) : Nat := v.lanes * 128 / v.sew

/-- Element groups that an instruction processes (06 R130). -/
def VEnv.nq (v : VEnv) : Nat := (v.vl + v.ege - 1) / v.ege

/-- The progress group of every word but VLWR and VSWR (06 R132, 20 R427). -/
def VEnv.gp (v : VEnv) : Nat := if v.passes ≠ 1 then v.passes else v.lmul

/-- Elements of group `q` below vl. -/
def VEnv.elems (v : VEnv) (q : Nat) : List Nat :=
  List.range' (q * v.ege) (min v.ege (v.vl - q * v.ege))

/-- The lane group that element `e` belongs to at the instruction's SEW (06 R129, R130). -/
def VEnv.lgOf (v : VEnv) (e : Nat) : Nat := e % v.ege * v.sew / 512

/-- The order in which a word runs: its passes, each over its element groups, with the progress index of
each group (20 R427). -/
def VEnv.plan (v : VEnv) : List (Nat × Nat × Nat) :=
  (List.range v.passes).flatMap (fun j => (List.range v.nq).map (fun q => (j, q, j * v.neg + q)))

/-! ## Registers -/

def Hart.vreg (h : Hart) (f : File) (i : Nat) : VReg :=
  match f with
  | .v => (h.vu.v[i]?).getD VReg.zero
  | .w => (h.vu.w[i]?).getD VReg.zero
  | .b => (h.vu.b[i]?).getD VReg.zero
  | .none_ => VReg.zero

def Hart.setVreg (h : Hart) (f : File) (i : Nat) (r : VReg) : Hart :=
  match f with
  | .v => { h with vu := { h.vu with v := h.vu.v.setIfInBounds i r } }
  | .w => { h with vu := { h.vu with w := h.vu.w.setIfInBounds i r } }
  | .b => { h with vu := { h.vu with b := h.vu.b.setIfInBounds i r } }
  | .none_ => h

/-- Bits [lo+w-1:lo] of a register. -/
def VReg.get (r : VReg) (lo w : Nat) : Nat := r.bits.toNat / 2 ^ lo % 2 ^ w

def VReg.put (r : VReg) (lo w x : Nat) : VReg := { r with bits := setField r.bits (lo + w - 1) lo x }

/-- An operand as one pass names it: its file, its first register and its element width. Width 1 is a mask
operand: one register, one bit for each element (09 R203). -/
structure OLoc where
  file : File
  ix : Nat
  w : Nat
  deriving DecidableEq, Repr

/-- Registers of an operand of width `w` in one pass (03 R61, 09 R208). -/
def VEnv.regs (v : VEnv) (w : Nat) : Nat := if w = 1 then 1 else max 1 (v.lmul * w / v.sew)

/-- The operand of pass `j`. -/
def VEnv.loc (v : VEnv) (j : Nat) (o : Opnd) (w : Nat) : OLoc :=
  { file := o.file, w := w, ix := if o.file = .v then o.ix.toNat + v.regs w * j else o.ix.toNat }

/-- Register and place of element `e` of an operand. -/
def OLoc.reg (o : OLoc) (vlen e : Nat) : Nat := o.ix + e / (vlen / o.w)
def OLoc.pos (o : OLoc) (vlen e : Nat) : Nat := e % (vlen / o.w)

/-- The 64-byte slice of the register that holds element `e`. -/
def OLoc.slice (o : OLoc) (vlen e : Nat) : Nat := o.pos vlen e * o.w / 512

/-- The operand has a place for element `e`: a mask register has VLEN bits, and a configuration whose VLMAX is
above VLEN has elements without one (assumption 28). -/
def OLoc.has (o : OLoc) (v : VEnv) (e : Nat) : Bool := decide (o.w ≠ 1) || decide (e < v.vlen)

/-- Element `e` of an operand; a mask bit that has no place is an open value. -/
def OLoc.get (o : OLoc) (h : Hart) (v : VEnv) (e : Nat) : Nat :=
  if o.has v e then (h.vreg o.file (o.reg v.vlen e)).get (o.pos v.vlen e * o.w) o.w
  else (Config.free v.tick (65536 * (1 + o.ix) + e) 1).toNat

/-- Poison of the slice that holds element `e`. -/
def OLoc.pois (o : OLoc) (h : Hart) (v : VEnv) (e : Nat) : Bool :=
  o.has v e && (h.vreg o.file (o.reg v.vlen e)).pois.getLsbD (o.slice v.vlen e % v.groups)

def OLoc.put (o : OLoc) (h : Hart) (v : VEnv) (e x : Nat) : Hart :=
  h.setVreg o.file (o.reg v.vlen e)
    ((h.vreg o.file (o.reg v.vlen e)).put (o.pos v.vlen e * o.w) o.w x)

/-- A source operand: absent, a register, or a value applied to every element (02 R38, 09 R199). -/
inductive VSrc where
  | none_
  | reg (o : OLoc)
  | val (n : Nat)
  deriving DecidableEq, Repr

def VSrc.get (a : VSrc) (h : Hart) (v : VEnv) (e : Nat) : Nat :=
  match a with
  | .none_ => 0
  | .reg o => o.get h v e
  | .val n => n

def VSrc.pois (a : VSrc) (h : Hart) (v : VEnv) (e : Nat) : Bool :=
  match a with
  | .none_ => false
  | .reg o => o.pois h v e
  | .val _ => false

/-- The value of a VS source B. -/
def VEnv.kval (v : VEnv) (n : BitVec 3) : Word := v.blk.k[n.toNat]'(n.isLt)

/-- The source that a register field names, absent for file code 11. -/
def VEnv.src (v : VEnv) (j : Nat) (o : Opnd) (w : Nat) : VSrc :=
  if o.file = .none_ then .none_ else .reg (v.loc j o w)

/-- Source B at width `w`; an immediate is sign-extended unless the entry declares it unsigned. -/
def VEnv.srcB (v : VEnv) (j : Nat) (b : BSrc) (w : Nat) (uns : Bool) : VSrc :=
  match b with
  | .reg o => v.src j o w
  | .k n => .val ((v.kval n).toNat % 2 ^ w)
  | .imm i => .val ((if uns then zext64 i else sext64 i).toNat % 2 ^ w)

/-! ## Masks -/

/-- ms: M of the top entry, or every bit 1 (11 R248). -/
def Hart.msBit (h : Hart) (v : VEnv) (e : Nat) : Bool :=
  match h.vu.ms with
  | [] => true
  | m :: _ =>
      if e < v.vlen then m.m.getLsbD e else decide (Config.free v.tick (65536 * 64 + e) 1 = 1)

def Hart.msPois (h : Hart) (v : VEnv) (e : Nat) : Bool :=
  match h.vu.ms with
  | [] => false
  | m :: _ => decide (e < v.vlen) && m.mPois.getLsbD (e / 512 % v.groups)

/-- v0 as the mask source of pass `j`. -/
def maskLoc (j : Nat) : OLoc := { file := .v, ix := j, w := 1 }

/-- The mask condition of element `e` (02 Table 2.3). -/
def maskBit (h : Hart) (v : VEnv) (msk : Msk) (j e : Nat) : Bool :=
  let v0 := decide ((maskLoc j).get h v e = 1)
  match msk with
  | .none_ => true
  | .v0 => v0
  | .notV0 => !v0
  | .ms => h.msBit v e
  | .v0ms => v0 && h.msBit v e

/-- Poison of the mask's slices that govern element `e` (09 R203). -/
def maskPois (h : Hart) (v : VEnv) (msk : Msk) (j e : Nat) : Bool :=
  match msk with
  | .none_ => false
  | .v0 | .notV0 => (maskLoc j).pois h v e
  | .ms => h.msPois v e
  | .v0ms => (maskLoc j).pois h v e || h.msPois v e

/-! ## Checks of R42 -/

/-- An operand of width `w` fits its group: file, alignment and size (02 R40, 03 R61, 20 R427). -/
def VEnv.fits (v : VEnv) (o : Opnd) (w : Nat) : Bool :=
  let g := v.regs w
  o.file = .none_ ||
    (decide (g * v.passes ≤ 8) && (decide (g = 1) || decide (o.file = .v))
      && (!decide (o.file = .v) || decide (o.ix.toNat % (g * v.passes) = 0)))

/-- Two operands share a register. -/
def VEnv.meet (v : VEnv) (o : Opnd) (w : Nat) (p : Opnd) (x : Nat) : Bool :=
  decide (o.file = p.file) && decide (o.file ≠ .none_) &&
    rangesMeet o.ix.toNat (v.regs w * v.passes) p.ix.toNat (v.regs x * v.passes)

/-- A register operand of source B. -/
def bOpnd (b : BSrc) : Opnd :=
  match b with
  | .reg o => o
  | .k _ => Opnd.absent
  | .imm _ => Opnd.absent

/-- The mask group of pass mode, v0 to v(P-1), is always aligned; the mask stack is not available there
(20 R428). -/
def VEnv.mskOk (v : VEnv) (m : Msk) : Bool :=
  v.passes = 1 || (decide (m ≠ .ms) && decide (m ≠ .v0ms))

/-- The binding of v register `i`. -/
def Hart.bindOf (h : Hart) (i : Nat) : Option Binding :=
  if i < 28 then none else (h.vu.bind[i - 28]?).getD none

def Hart.setBind (h : Hart) (i : Nat) (b : Option Binding) : Hart :=
  { h with vu := { h.vu with bind := h.vu.bind.setIfInBounds (i - 28) b } }

/-- Some register of a group is bound. -/
def Hart.anyBound (h : Hart) (o : Opnd) (n : Nat) : Bool :=
  decide (o.file = .v) && (List.range n).any (fun k => (h.bindOf (o.ix.toNat + k)).isSome)

/-- A word may read an operand: unbound, or a source of Table 6.4 at the recorded SEW (06 R143, R147). -/
def Hart.readOk (h : Hart) (v : VEnv) (o : Opnd) (w : Nat) : Bool :=
  let n := v.regs w * v.passes
  if n ≠ 1 then !h.anyBound o n
  else if o.file ≠ .v then true
  else
    match h.bindOf o.ix.toNat with
    | none => true
    | some (.streamIn ss _ _) => decide (sewOfCode ss.toNat = v.sew)
    | some (.streamOut _ _ _) => false
    | some (.chan _) => true
    | some (.frag _ _ _) => true

/-- A format code pairs with a SEW (07 Table 7.1). -/
def fmtPairs (fmt sew : Nat) : Bool :=
  decide (fmt = 0) || (decide (sew = 16) && decide (2 ≤ fmt) && decide (fmt ≤ 8))
    || ((decide (sew = 32) || decide (sew = 64)) && decide (fmt ≤ 8))

/-- A word may write an operand (06 Table 6.4, R147). -/
def Hart.writeOk (h : Hart) (v : VEnv) (o : Opnd) (w : Nat) : Bool :=
  let n := v.regs w * v.passes
  if n ≠ 1 then !h.anyBound o n
  else if o.file ≠ .v then true
  else
    match h.bindOf o.ix.toNat with
    | none => true
    | some (.streamIn _ _ _) => false
    | some (.streamOut _ d _) => fmtPairs d.fmt.toNat v.sew
    | some (.chan _) => true
    | some (.frag _ _ _) => false

/-- The checks of R42 that follow the encoding rules, in their order: `cfgOk` says that the word obeys the
rules of its vcfg and VPASS, `bindOk` those of bound registers. -/
def wordGuard (s : State) (b : Block) (i : Instr) (rm : Rm) (cfgOk bindOk : Bool) : Option Stop :=
  if s.h.c.vstat.getLsbD 0 then some (Stop.of 25 i.word)
  else if b.vcfg.getLsbD 63 then some (illegal i.word)
  else if decide (rm = .dyn) && (rmodeOf b.frm.toNat).isNone then some (illegal i.word)
  else if vpassOf b.vcfg ≠ 1 ∧ lmulOf b.vcfg ≠ 1 then some (illegal i.word)
  else if !cfgOk then some (illegal i.word)
  else if !bindOk then some (illegal i.word)
  else none

/-! ## Progress (06 R132 to R134) -/

/-- Why a word stops: `ring` says that it waits on a channel ring or a fragment stream. -/
structure VStop where
  st : Stop
  ring : Bool
  deriving DecidableEq, Repr

def VStop.of (st : Stop) : VStop := { st := st, ring := false }

/-- The wait of a channel or fragment transfer (06 R145). -/
def VStop.wait : VStop := { st := .retry, ring := true }

/-- The counts at which the oldest word stands. -/
def Hart.counts (h : Hart) : List Nat := (h.vu.prog.head?).getD (List.replicate 8 0)

/-- A lane group has completed the group with a progress index. -/
def laneDone (cs : List Nat) (n idx : Nat) : Bool := decide (idx < (cs[n]?).getD 0)

/-- The oldest word completes (06 R132). -/
def completeWord (s : State) : State :=
  (s.setH { s.h with
    vu := { s.h.vu with wix := s.h.vu.wix + 1, prog := s.h.vu.prog.tail, ringWait := false } }).tickUp

/-- The oldest word stops with its progress recorded. -/
def stopWord (s : State) (cs : List Nat) (ring : Bool) : State :=
  (s.setH { s.h with
    vu := { s.h.vu with prog := cs :: s.h.vu.prog.tail, ringWait := ring } }).tickUp

/-- Counts of a stop that every lane group makes at one index. -/
def stopAt (v : VEnv) (cs : List Nat) (idx : Nat) : List Nat :=
  (List.range 8).map (fun n => if n < v.groups then max idx ((cs[n]?).getD 0) else 0)

/-- Every hart lane group, as a mask. -/
def VEnv.allGroups (v : VEnv) : Nat := 2 ^ v.groups - 1

/-- The outcome of a stop. -/
def haltWord (s : State) (cs : List Nat) (e : VStop) (lg : Nat) : State :=
  raiseV e.st lg (stopWord s cs e.ring)

/-! ## Memory formats of loads, stores and streams (07 R152, R153, R165) -/

/-- The register format of a SEW. -/
def regFmt (sew : Nat) : FFmt := if sew = 16 then bf16 else if sew = 32 then fp32 else fp64

/-- Bits of a memory element (08 R174). -/
def fmtBits (fmt sew : Nat) : Nat :=
  if fmt = 0 then sew else if fmt ≤ 2 then 16 else if fmt ≤ 4 then 8 else if fmt ≤ 6 then 6
  else if fmt = 7 then 4 else 8

/-- The float format of a code 1 to 7 of Table 2.10. -/
def memFmt (fmt : Nat) : FFmt :=
  if fmt = 1 then fp16 else if fmt = 2 then bf16 else if fmt = 3 then e4m3 else if fmt = 4 then e5m2
  else if fmt = 5 then e2m3 else if fmt = 6 then e3m2 else e2m1

/-- A format and SEW between which a value is converted (08 R178). -/
def fmtConverts (fmt sew : Nat) : Bool := decide (fmt ≠ 0) && !(decide (fmt = 2) && decide (sew = 16))

/-- A memory element as the register holds it: exact, and without flags (07 R165). -/
def widenElem (env : FEnv) (fmt sew x : Nat) : Nat :=
  if !fmtConverts fmt sew then x
  else if fmt = 8 then ofE8m0 (regFmt sew) x
  else (env.convert (memFmt fmt) (regFmt sew) true false ((memFmt fmt).unpack x)).bits

/-- A register element as memory holds it, with its flags. -/
def narrowElem (env : FEnv) (fmt sew x : Nat) : FRes :=
  if !fmtConverts fmt sew then { bits := x, flags := 0 }
  else if fmt = 8 then toE8m0 ((regFmt sew).unpack x)
  else env.convert (regFmt sew) (memFmt fmt) false false ((regFmt sew).unpack x)

/-! ## Element accesses -/

/-- The place of a vector element, checked for alignment, translation, windows and permission; the device
range is an access fault (08 R175, R179). -/
def elemLoc (s : State) (k : AKind) (va : Word) (bytes : Nat) : Except Stop Loc :=
  if va.toNat % bytes ≠ 0 then .error (Stop.of k.misaligned va)
  else
    match addrOf s s.h k va with
    | .error e => .error e
    | .ok (.dev _) => .error (Stop.of k.accessFault va)
    | .ok l => .ok l

/-- The bytes of an element at a place, and whether they touch poison. -/
def elemRead (s : State) (l : Loc) (bytes : Nat) : Nat × Bool :=
  (loadLoc s.mem s.h.id.coreNo l bytes, poisonedLoc s l bytes)

/-! ## Bound registers (06 R139 to R148) -/

/-- Elements of a stream. -/
def StreamDesc.total (d : StreamDesc) : Nat := d.cnt0.toNat * d.cnt1.toNat * d.cnt2.toNat * d.cnt3.toNat

/-- Address of stream element `t` (R142). -/
def StreamDesc.addr (d : StreamDesc) (t : Nat) : Word :=
  let i0 := t % d.cnt0.toNat
  let t1 := t / d.cnt0.toNat
  let i1 := t1 % d.cnt1.toNat
  let t2 := t1 / d.cnt1.toNat
  d.base + BitVec.ofNat 64 i0 * d.str0 + BitVec.ofNat 64 i1 * d.str1
    + BitVec.ofNat 64 (t2 % d.cnt2.toNat) * d.str2 + BitVec.ofNat 64 (t2 / d.cnt2.toNat) * d.str3

/-- bound-register underrun. -/
def underrun : VStop := VStop.of (Stop.of 30 0)

/-- The places of `n` stream elements from `p`: the first failure stops the pop or push (R148). -/
def streamLocs (s : State) (k : AKind) (d : StreamDesc) (bytes : Nat) : Nat → Nat → Except Stop (List Loc)
  | _, 0 => .ok []
  | p, n + 1 =>
      match elemLoc s k (d.addr p) bytes with
      | .error e => .error e
      | .ok l =>
          match streamLocs s k d bytes (p + 1) n with
          | .error e => .error e
          | .ok t => .ok (l :: t)

/-- Bits [lo+w-1:lo] of a register set to those of a group, and its poison replaced: how a popped group
stands in the bound register's own storage, which is undefined while it is bound (R139). -/
def VReg.setGroup (r : VReg) (lo w x : Nat) (pois : BitVec 8) : VReg := { r.put lo w x with pois := pois }

/-- Elements side by side, `w` bits each. -/
def packElems (w : Nat) (xs : List Nat) : Nat := xs.foldr (fun x acc => x % 2 ^ w + 2 ^ w * acc) 0

/-- One poison bit for each lane group from element poison in group order. -/
def groupPois (v : VEnv) (ps : List Bool) : BitVec 8 :=
  BitVec.ofNat 8 ((List.range 8).foldl (fun acc n =>
    if (ps.zipIdx).any (fun p => p.1 && decide (v.lgOf p.2 = n)) then acc + 2 ^ n else acc) 0)

/-- Undefined bits of one popped group (assumption 5). -/
def freeGroup (s : State) (v : VEnv) (r q : Nat) : Nat :=
  (Config.free s.tick (64 + 256 * r + q) 16384).toNat % 2 ^ (128 * v.lanes)

/-- A group popped into the register's own storage. -/
def setPopped (s : State) (v : VEnv) (r q x : Nat) (pois : BitVec 8) (b : Binding) : State :=
  s.setH ((s.h.setVreg .v r ((s.h.vreg .v r).setGroup (q * (128 * v.lanes)) (128 * v.lanes) x pois)).setBind r
    (some b))

/-- A pop of group `q` from a stream (R143). -/
def popStream (s : State) (v : VEnv) (r q : Nat) (ss : BitVec 3) (d : StreamDesc) (pos : Nat) :
    Except VStop State :=
  let n := min v.ege (v.vl - q * v.ege)
  if d.total ≤ pos then .error underrun
  else
    let take := min n (d.total - pos)
    let bytes := fmtBits d.fmt.toNat v.sew / 8
    match streamLocs s .load d bytes pos take with
    | .error e => .error (VStop.of e)
    | .ok ls =>
        let rs := ls.map (fun l => elemRead s l bytes)
        let env := convEnv .rne v.blk
        let xs := rs.map (fun p => widenElem env d.fmt.toNat v.sew p.1)
        let x := packElems v.sew xs
          + (if take = v.ege then 0 else freeGroup s v r q / 2 ^ (take * v.sew) * 2 ^ (take * v.sew))
        .ok (setPopped s v r q x (groupPois v (rs.map (fun p => p.2))) (.streamIn ss d (pos + take)))

/-- The ring into member `m` of the hart's gang. -/
def State.ringOf (s : State) (m : Nat) : Option Ring := s.myGang.bind (fun g => g.rings[m]?)

/-- Change the ring into member `m`. -/
def State.updMyRing (s : State) (m : Nat) (f : Ring → Ring) : State :=
  match s.h.id.gang with
  | none => s
  | some g => s.updGang g (fun x =>
      { x with rings := x.rings.zipIdx.map (fun r => if r.2 = m then f r.1 else r.1) })

/-- A pop of group `q` from the member's inbound ring (R145). -/
def popRing (s : State) (v : VEnv) (r q : Nat) (ss : BitVec 3) : Except VStop State :=
  match s.ringOf s.h.id.member with
  | none => .error underrun
  | some ring =>
      match ring.groups with
      | [] => if ring.sendClosed then .error underrun else .error VStop.wait
      | g :: t =>
          .ok ((setPopped s v r q g.bits.toNat g.pois (.chan ss)).updMyRing s.h.id.member
            (fun x => { x with groups := t }))

/-- The fragment stream of the current hart. -/
def State.fragStream (s : State) : Option FragStream := s.h.frag

def State.updFragStream (s : State) (f : FragStream → FragStream) : State :=
  s.setH { s.h with frag := s.h.frag.map f }

/-- A pop of group `q` from the fragment stream (R146, 15 R338). -/
def popFrag (s : State) (v : VEnv) (r q : Nat) (ss : BitVec 3) (pos : Nat) (ended : Bool) :
    Except VStop State :=
  match s.fragStream with
  | none => .error underrun
  | some f =>
      if ended then .error underrun
      else if !f.ended && decide (f.queue.length < v.ege) then .error VStop.wait
      else
        let got := f.queue.take v.ege
        let xs := got ++ List.replicate (v.ege - got.length) 0xFFFFFFFF
        let x := if v.sew = 32 then packElems 32 xs else freeGroup s v r q
        .ok (((setPopped s v r q x 0
          (.frag ss (pos + got.length) (decide (got.length < v.ege)))).updFragStream
            (fun y => { y with queue := y.queue.drop v.ege })).acquire .package)

/-- A pop of group `q` into register `r`, where it is bound. -/
def popReg (s : State) (v : VEnv) (q r : Nat) : Except VStop State :=
  match s.h.bindOf r with
  | none => .ok s
  | some (.streamIn ss d pos) => popStream s v r q ss d pos
  | some (.streamOut _ _ _) => .ok s
  | some (.chan ss) => popRing s v r q ss
  | some (.frag ss pos ended) => popFrag s v r q ss pos ended

/-- Pops of every named register, each once (R143). -/
def popAll (s : State) (v : VEnv) (q : Nat) : List Nat → Except VStop State
  | [] => .ok s
  | r :: t =>
      match popReg s v q r with
      | .error e => .error e
      | .ok s' => popAll s' v q t

/-- The stores of a push: each active element below the stream's end (R144). -/
def pushStores (s : State) (bytes : Nat) : List (Loc × FRes × Bool) → State
  | [] => s
  | (l, x, p) :: t =>
      pushStores ((writeLoc s s.h.id.coreNo l bytes x.bits p).setH
        (s.h.addFlags (if p then 0 else x.flags))) bytes t

/-- Places of the active elements of a push, in position order. -/
def pushLocs (s : State) (d : StreamDesc) (bytes pos : Nat) (act : Nat → Bool) :
    Nat → List Nat → Except Stop (List (Nat × Loc))
  | _, [] => .ok []
  | i, e :: t =>
      if !act e then pushLocs s d bytes pos act (i + 1) t
      else
        match elemLoc s .store (d.addr (pos + i)) bytes with
        | .error x => .error x
        | .ok l =>
            match pushLocs s d bytes pos act (i + 1) t with
            | .error x => .error x
            | .ok r => .ok ((e, l) :: r)

/-- A push of group `q` to a stream (R144): the register's own storage holds the group. -/
def pushStream (s : State) (v : VEnv) (r q : Nat) (rm : Rm) (act : Nat → Bool) (ss : BitVec 3)
    (d : StreamDesc) (pos : Nat) : Except VStop State :=
  if d.total ≤ pos then .error underrun
  else
    let es := (v.elems q).take (d.total - pos)
    let bytes := fmtBits d.fmt.toNat v.sew / 8
    match pushLocs s d bytes pos act 0 es with
    | .error e => .error (VStop.of e)
    | .ok ls =>
        let o : OLoc := { file := .v, ix := r, w := v.sew }
        let env := convEnv rm v.blk
        let st := ls.map (fun p =>
          (p.2, narrowElem env d.fmt.toNat v.sew (o.get s.h v p.1), o.pois s.h v p.1))
        let s1 := pushStores s bytes st
        .ok (s1.setH (s1.h.setBind r (some (.streamOut ss d (pos + es.length)))))

/-- A push of group `q` to the ring of the next member (R145). -/
def pushRing (s : State) (v : VEnv) (r q : Nat) : Except VStop State :=
  match s.myGang with
  | none => .error underrun
  | some g =>
      let m := (s.h.id.member + 1) % g.size
      match g.rings[m]? with
      | none => .error underrun
      | some ring =>
          if ring.recvClosed then .error underrun
          else if 4 ≤ ring.groups.length then .error VStop.wait
          else
            let x := (s.h.vreg .v r).get (q * (128 * v.lanes)) (128 * v.lanes)
            .ok (s.updMyRing m (fun y => { y with
              groups := y.groups ++ [{ bits := BitVec.ofNat 16384 x, pois := (s.h.vreg .v r).pois }] }))

/-- A push of group `q` of register `r`, where it is bound. -/
def pushReg (s : State) (v : VEnv) (q r : Nat) (rm : Rm) (act : Nat → Bool) : Except VStop State :=
  match s.h.bindOf r with
  | some (.streamOut ss d pos) => pushStream s v r q rm act ss d pos
  | some (.chan _) => pushRing s v r q
  | _ => .ok s

/-! ## Writing a destination -/

/-- How a destination is written in one pass. -/
structure Dest where
  o : OLoc
  /-- MSK = 000 (R138). -/
  full : Bool
  deriving DecidableEq, Repr

/-- The register is wholly overwritten: unmasked, and every element of it lies below vl (06 R138). -/
def Dest.whole (d : Dest) (v : VEnv) (r : Nat) : Bool :=
  d.full && decide ((r - d.o.ix + 1) * (v.vlen / d.o.w) ≤ v.vl)

/-- Poison of register `r` after its slice `t` gets result poison `p` from elements `es`, of which some are
active: a whole overwrite replaces the bit at the lane group's first slice (06 R138). -/
def Dest.poison (d : Dest) (v : VEnv) (r t : Nat) (p wrote : Bool) (es : List Nat) (old : BitVec 8) :
    BitVec 8 :=
  let n := t % v.groups
  let first := es.contains ((r - d.o.ix) * (v.vlen / d.o.w) + t * 512 / d.o.w) && decide (t < v.groups)
  if !wrote then old
  else if d.whole v r && first then setField old n n (if p then 1 else 0)
  else if p then old ||| BitVec.ofNat 8 (2 ^ n) else old

/-- The high-water mark of register `r` once elements below `top` have been processed (06 R136). -/
def Dest.hwm (d : Dest) (v : VEnv) (r top old : Nat) : Nat :=
  let per := v.vlen / d.o.w
  let below := min per (top - (r - d.o.ix) * per)
  if below = 0 then old else max old (((below * d.o.w + 7) / 8 + 15) / 16 * 16)

/-- One choice of an agnostic element: keep it, or set every bit (08 R177; assumption 6). -/
def agnosticElem (s : State) (d : Dest) (v : VEnv) (e : Nat) (h : Hart) : Hart :=
  let r := d.o.reg v.vlen e
  if (Config.agnostic (32 * s.tick + r)).getLsbD (d.o.pos v.vlen e) then
    d.o.put h v e (2 ^ d.o.w - 1)
  else h

/-- An undefined element of a poisoned slice (09 R200; assumption 5). -/
def freeElem (s : State) (d : Dest) (v : VEnv) (e : Nat) : Nat :=
  (Config.free s.tick (d.o.reg v.vlen e) 16384).toNat / 2 ^ (d.o.pos v.vlen e * d.o.w) % 2 ^ d.o.w

/-- The slices of the destination that elements `es` lie in: register and slice. -/
def Dest.slices (d : Dest) (v : VEnv) (es : List Nat) : List (Nat × Nat) :=
  ((es.filter (d.o.has v)).map (fun e => (d.o.reg v.vlen e, d.o.slice v.vlen e))).eraseDups

/-- Elements below vl that lie in a slice. -/
def Dest.sliceElems (d : Dest) (v : VEnv) (r t : Nat) : List Nat :=
  let lo := (r - d.o.ix) * (v.vlen / d.o.w) + t * 512 / d.o.w
  List.range' lo (min (512 / d.o.w) (v.vl - lo))

/-- A masked-off element follows MA (08 R177). -/
def maskedElem (s : State) (d : Dest) (v : VEnv) (e : Nat) (h : Hart) : Hart :=
  if v.ma then agnosticElem s d v e h else h

/-- What each element of a slice becomes: `act` and `res` of the state before the write, `p` the slice's
result poison. -/
def putElems (s : State) (d : Dest) (v : VEnv) (act : Nat → Bool) (res : Nat → FRes) (p : Bool) :
    List Nat → Hart → Hart
  | [], h => h
  | e :: t, h =>
      putElems s d v act res p t
        (if act e then d.o.put h v e (if p then freeElem s d v e else (res e).bits)
         else maskedElem s d v e h)

/-- Flags of the active elements. -/
def elemFlags (act : Nat → Bool) (res : Nat → FRes) (es : List Nat) : List (BitVec 5) :=
  (es.filter act).map (fun e => (res e).flags)

/-- One slice of a destination written from elements `es`, which are those of the slice that this step
processes; `pois e` is the poison that element `e` contributes. -/
def putSlice (s : State) (d : Dest) (v : VEnv) (act : Nat → Bool) (res : Nat → FRes) (pois : Nat → Bool)
    (top : Nat) (es : List Nat) (h : Hart) (rt : Nat × Nat) : Hart :=
  let mine := es.filter (fun e => d.o.has v e && decide ((d.o.reg v.vlen e, d.o.slice v.vlen e) = rt))
  let p := (d.sliceElems v rt.1 rt.2).any pois
  let h1 := putElems s d v act res p mine h
  let r1 := h1.vreg d.o.file rt.1
  let h2 := h1.setVreg d.o.file rt.1 { r1 with
    pois := d.poison v rt.1 rt.2 p (mine.any act) mine r1.pois, hwm := d.hwm v rt.1 top r1.hwm }
  h2.addFlags (sliceFlags p (elemFlags act res mine))

/-- Elements `es` of the destination written, slice by slice. -/
def putGroup (s : State) (d : Dest) (v : VEnv) (act : Nat → Bool) (res : Nat → FRes) (pois : Nat → Bool)
    (top : Nat) (es : List Nat) : State :=
  s.setH ((d.slices v es).foldl (putSlice s d v act res pois top es) s.h)

/-- Elements from `lo` up to the end of the destination group follow TA (08 R177). -/
def putTail (s : State) (d : Dest) (v : VEnv) (lo : Nat) : State :=
  if !v.ta then s
  else
    let cap := v.regs d.o.w * (v.vlen / d.o.w)
    s.setH ((List.range' lo (cap - lo)).foldl (fun h e => agnosticElem s d v e h) s.h)

/-! ## Element-wise words -/

/-- An element-wise word in one pass: its operands, its mask, whether MSK is 000, and its function of the
elements of A, B and C. -/
structure ElemOp where
  d : OLoc
  a : VSrc
  b : VSrc
  c : VSrc
  msk : Msk
  full : Bool
  fn : Nat → Nat → Nat → FRes

/-- The v register that a source names, if it is a register. -/
def VSrc.vreg? (a : VSrc) : Option Nat :=
  match a with
  | .none_ => none
  | .reg o => if o.file = .v then some o.ix else none
  | .val _ => none

/-- Registers to pop from: the bound sources, each once. -/
def ElemOp.pops (o : ElemOp) (h : Hart) : List Nat :=
  (([o.a, o.b, o.c].filterMap VSrc.vreg?).eraseDups).filter (fun r => (h.bindOf r).isSome)

def ElemOp.dest (o : ElemOp) : Dest := { o := o.d, full := o.full }

def ElemOp.act (o : ElemOp) (h : Hart) (v : VEnv) (j e : Nat) : Bool := maskBit h v o.msk j e

/-- The result of element `e`. -/
def ElemOp.res (o : ElemOp) (h : Hart) (v : VEnv) (e : Nat) : FRes :=
  o.fn (o.a.get h v e) (o.b.get h v e) (o.c.get h v e)

/-- The poison that element `e` contributes to its destination slice (06 R137). -/
def ElemOp.pois (o : ElemOp) (h : Hart) (v : VEnv) (j e : Nat) : Bool :=
  maskPois h v o.msk j e ||
    (o.act h v j e && (o.a.pois h v e || o.b.pois h v e || o.c.pois h v e))

/-- The destination is bound: its own storage takes the group before it is pushed. -/
def ElemOp.dBound (o : ElemOp) (h : Hart) : Bool := decide (o.d.file = .v) && (h.bindOf o.d.ix).isSome

/-- A bound destination's storage cleared for group `q`. -/
def clearGroup (s : State) (v : VEnv) (r q : Nat) : State :=
  s.setH (s.h.setVreg .v r ((s.h.vreg .v r).setGroup (q * (128 * v.lanes)) (128 * v.lanes) 0 0))

/-- Group `q` of pass `j` of an element-wise word: pops, results, and a push where the destination is
bound. `cs` are the counts at which the word stood when this step began. -/
def elemGroup (s : State) (v : VEnv) (o : ElemOp) (rm : Rm) (cs : List Nat) (j q idx : Nat) :
    Except VStop State :=
  match popAll s v q (o.pops s.h) with
  | .error e => .error e
  | .ok s1 =>
      let es := (v.elems q).filter (fun e => !laneDone cs (v.lgOf e) idx)
      let h := s1.h
      let top := min v.vl ((q + 1) * v.ege)
      if o.dBound h then
        let s2 := clearGroup s1 v o.d.ix q
        pushReg (putGroup s2 o.dest { v with ma := false } (o.act h v j) (o.res h v) (o.pois h v j) 0 es)
          v q o.d.ix rm (o.act h v j)
      else .ok (putGroup s1 o.dest v (o.act h v j) (o.res h v) (o.pois h v j) top es)

/-- The groups of a word in order; a stop leaves the state before the group that stopped, and its progress
index. -/
def elemRun (v : VEnv) (op : Nat → ElemOp) (rm : Rm) (cs : List Nat) :
    List (Nat × Nat × Nat) → State → Except (State × Nat × VStop) State
  | [], s => .ok s
  | (j, q, idx) :: t, s =>
      if (List.range v.groups).all (fun n => laneDone cs n idx) then elemRun v op rm cs t s
      else
        match elemGroup s v (op j) rm cs j q idx with
        | .error e => .error (s, idx, e)
        | .ok s' => elemRun v op rm cs t s'

/-- Tails of every pass. -/
def elemTails (v : VEnv) (op : Nat → ElemOp) (s : State) : State :=
  if v.vl = 0 then s
  else
    (List.range v.passes).foldl (fun t j =>
      if (op j).dBound t.h then t else putTail t (op j).dest v v.vl) s

/-- An element-wise word runs until it completes or stops. -/
def elemWord (s : State) (v : VEnv) (op : Nat → ElemOp) (rm : Rm) : State :=
  let cs := s.h.counts
  match elemRun v op rm cs v.plan s with
  | .ok t => completeWord (elemTails v op t)
  | .error (t, idx, e) => haltWord t (stopAt v cs idx) e v.allGroups

/-- The outcome of a block word: a refusal to run without a block, the exception of a check, or its run. -/
def blockWord (s : State) (guard : Block → Option Stop) (run : Block → State) :
    Host.Outcome State Fault Refusal :=
  match s.h.vu.blocks with
  | [] => .fault .noBlock
  | b :: _ =>
      match guard b with
      | some e => .next (raiseV e 0 s)
      | none => .next (run b)

end Sys2Proof.Machine
end

