-- ==== Sys2Proof/Machine/VInt.lean ====
section
/-! DEFINITION. The vector integer words (09): each is a function of its elements in the frame of Operands. -/

namespace Sys2Proof.Machine

/-! ## Shapes of element-wise words -/

/-- Element widths of the operands of an element-wise word, the SEWs it takes, and whether its immediate is
unsigned (Tables 9.1, 10.1). -/
structure EShape where
  dW : Nat → Nat
  aW : Nat → Nat
  bW : Nat → Nat
  cW : Nat → Nat
  sewOk : Nat → Bool
  uns : Bool

/-- Every operand at SEW, at any SEW. -/
def EShape.plain : EShape :=
  { dW := id, aW := id, bW := id, cW := id, sewOk := fun _ => true, uns := false }

/-- Rules of the block's vcfg: SEW, groups, overlap of operands of different widths (09 R196, R201; 02 R40;
03 R61; 20 R428). -/
def EShape.cfgOk (sh : EShape) (v : VEnv) (o : VOp) : Bool :=
  let bo := bOpnd o.b
  let dW := sh.dW v.sew
  let aW := sh.aW v.sew
  let bW := sh.bW v.sew
  let cW := sh.cW v.sew
  sh.sewOk v.sew && v.mskOk o.msk && v.fits o.d dW && v.fits o.a aW && v.fits bo bW && v.fits o.c cW
    && (decide (aW = dW) || !v.meet o.d dW o.a aW) && (decide (bW = dW) || !v.meet o.d dW bo bW)
    && (decide (cW = dW) || !v.meet o.d dW o.c cW)

/-- Rules of bound registers (06 R143, R147). -/
def EShape.bindOk (sh : EShape) (h : Hart) (v : VEnv) (o : VOp) : Bool :=
  h.writeOk v o.d (sh.dW v.sew) && h.readOk v o.a (sh.aW v.sew) && h.readOk v (bOpnd o.b) (sh.bW v.sew)
    && h.readOk v o.c (sh.cW v.sew)

/-- The word in pass `j`. -/
def EShape.op (sh : EShape) (v : VEnv) (o : VOp) (fn : Nat → Nat → Nat → FRes) (j : Nat) : ElemOp :=
  { d := v.loc j o.d (sh.dW v.sew), a := v.src j o.a (sh.aW v.sew), b := v.srcB j o.b (sh.bW v.sew) sh.uns,
    c := v.src j o.c (sh.cW v.sew), msk := o.msk, full := decide (o.msk = .none_), fn := fn }

/-- An element-wise word: the checks of R42, then its elements. -/
def elemExec (i : Instr) (o : VOp) (sh : EShape) (fn : VEnv → Nat → Nat → Nat → FRes) (s : State) :
    Host.Outcome State Fault Refusal :=
  blockWord s
    (fun b => wordGuard s b i o.rm (sh.cfgOk (venvOf s b) o) (sh.bindOk s.h (venvOf s b) o))
    (fun b => elemWord s (venvOf s b) (sh.op (venvOf s b) o (fn (venvOf s b))) o.rm)

/-- An integer result sets no flag (09 R198). -/
def exact (x : Nat) : FRes := { bits := x, flags := 0 }

/-- An integer word at SEW bits. -/
def intExec (i : Instr) (o : VOp) (fn : Nat → Nat → Nat → Nat → Nat) (s : State) :
    Host.Outcome State Fault Refusal :=
  elemExec i o EShape.plain (fun v a b c => exact (fn v.sew a b c)) s

/-! ## Results of Table 9.2 -/

/-- An element as an I-format value. -/
abbrev sx (w x : Nat) : Int := intOf true w x

/-- A shift amount: the low log2(w) bits. -/
abbrev shAmt (w b : Nat) : Nat := b % w

def clampI (w : Nat) (x : Int) : Nat := intBits w (max (intMin true w) (min (intMax true w) x))
def clampN (w : Nat) (x : Int) : Nat := intBits w (max 0 (min (intMax false w) x))

/-- round_int of x ÷ 2^s (09 R197). -/
def roundInt (mode : RMode) (x : Int) (s : Nat) : Int :=
  let neg := decide (x < 0)
  signedM neg (roundTo mode neg x.natAbs (-(s : Int)) 0).1

/-- trunc(a ÷ b), with the exceptional cases of R205. -/
def vDivS (w a b : Nat) : Nat := if b = 0 then 2 ^ w - 1 else intBits w (Int.tdiv (sx w a) (sx w b))
def vDivU (w a b : Nat) : Nat := if b = 0 then 2 ^ w - 1 else a / b
def vRemS (w a b : Nat) : Nat := if b = 0 then a else intBits w (Int.tmod (sx w a) (sx w b))
def vRemU (a b : Nat) : Nat := if b = 0 then a else a % b

/-- The mode of a rounding integer word. -/
def VEnv.mode (v : VEnv) (rm : Rm) : RMode := (rmOf rm v.blk.frm).getD .rne

/-- Leading zeros within `w` bits. -/
def clzW (w a : Nat) : Nat := if a = 0 then w else w - 1 - Nat.log2 a

/-- Trailing zeros within `w` bits. -/
def ctzStart (a : Nat) : Nat → Nat → Nat
  | 0, i => i
  | n + 1, i => if a.testBit i then i else ctzStart a n (i + 1)
def ctzW (w a : Nat) : Nat := ctzStart a w 0

def popW (w a : Nat) : Nat := ((List.range w).filter (fun i => a.testBit i)).length

/-- VADD: (a + b) mod 2^SEW (R204). -/
def execVadd (o : VOp) (s : State) : Host.Outcome State Fault Refusal :=
  intExec (.vadd o) o (fun w a b _ => (a + b) % 2 ^ w) s

/-- VSUB: (a - b) mod 2^SEW. -/
def execVsub (o : VOp) (s : State) : Host.Outcome State Fault Refusal :=
  intExec (.vsub o) o (fun w a b _ => (a + 2 ^ w - b) % 2 ^ w) s

/-- VRSUB: (b - a) mod 2^SEW. -/
def execVrsub (o : VOp) (s : State) : Host.Outcome State Fault Refusal :=
  intExec (.vrsub o) o (fun w a b _ => (b + 2 ^ w - a) % 2 ^ w) s

/-- VMUL: the low SEW bits of a × b. -/
def execVmul (o : VOp) (s : State) : Host.Outcome State Fault Refusal :=
  intExec (.vmul o) o (fun w a b _ => a * b % 2 ^ w) s

/-- VMULH: the high SEW bits of signed a × signed b. -/
def execVmulh (o : VOp) (s : State) : Host.Outcome State Fault Refusal :=
  intExec (.vmulh o) o (fun w a b _ => intBits w (sx w a * sx w b / 2 ^ w)) s

/-- VMULHU: the high SEW bits of unsigned a × unsigned b. -/
def execVmulhu (o : VOp) (s : State) : Host.Outcome State Fault Refusal :=
  intExec (.vmulhu o) o (fun w a b _ => a * b / 2 ^ w) s

/-- VMULHSU: the high SEW bits of signed a × unsigned b. -/
def execVmulhsu (o : VOp) (s : State) : Host.Outcome State Fault Refusal :=
  intExec (.vmulhsu o) o (fun w a b _ => intBits w (sx w a * (b : Int) / 2 ^ w)) s

/-- VMACC: (c + a × b) mod 2^SEW. -/
def execVmacc (o : VOp) (s : State) : Host.Outcome State Fault Refusal :=
  intExec (.vmacc o) o (fun w a b c => (c + a * b) % 2 ^ w) s

/-- VNMSAC: (c - a × b) mod 2^SEW. -/
def execVnmsac (o : VOp) (s : State) : Host.Outcome State Fault Refusal :=
  intExec (.vnmsac o) o (fun w a b c => (c + 2 ^ w - a * b % 2 ^ w) % 2 ^ w) s

/-- VMADD: (a × c + b) mod 2^SEW. -/
def execVmadd (o : VOp) (s : State) : Host.Outcome State Fault Refusal :=
  intExec (.vmadd o) o (fun w a b c => (a * c + b) % 2 ^ w) s

/-- VDIV (R205). -/
def execVdiv (o : VOp) (s : State) : Host.Outcome State Fault Refusal :=
  intExec (.vdiv o) o (fun w a b _ => vDivS w a b) s

/-- VDIVU (R205). -/
def execVdivu (o : VOp) (s : State) : Host.Outcome State Fault Refusal :=
  intExec (.vdivu o) o (fun w a b _ => vDivU w a b) s

/-- VREM (R205). -/
def execVrem (o : VOp) (s : State) : Host.Outcome State Fault Refusal :=
  intExec (.vrem o) o (fun w a b _ => vRemS w a b) s

/-- VREMU (R205). -/
def execVremu (o : VOp) (s : State) : Host.Outcome State Fault Refusal :=
  intExec (.vremu o) o (fun _ a b _ => vRemU a b) s

/-- VMIN: the smaller as signed. -/
def execVmin (o : VOp) (s : State) : Host.Outcome State Fault Refusal :=
  intExec (.vmin o) o (fun w a b _ => if sx w a ≤ sx w b then a else b) s

/-- VMAX: the larger as signed. -/
def execVmax (o : VOp) (s : State) : Host.Outcome State Fault Refusal :=
  intExec (.vmax o) o (fun w a b _ => if sx w a ≤ sx w b then b else a) s

/-- VMINU: the smaller as unsigned. -/
def execVminu (o : VOp) (s : State) : Host.Outcome State Fault Refusal :=
  intExec (.vminu o) o (fun _ a b _ => min a b) s

/-- VMAXU: the larger as unsigned. -/
def execVmaxu (o : VOp) (s : State) : Host.Outcome State Fault Refusal :=
  intExec (.vmaxu o) o (fun _ a b _ => max a b) s

/-- VAND. -/
def execVand (o : VOp) (s : State) : Host.Outcome State Fault Refusal :=
  intExec (.vand o) o (fun _ a b _ => a &&& b) s

/-- VOR. -/
def execVor (o : VOp) (s : State) : Host.Outcome State Fault Refusal :=
  intExec (.vor o) o (fun _ a b _ => a ||| b) s

/-- VXOR. -/
def execVxor (o : VOp) (s : State) : Host.Outcome State Fault Refusal :=
  intExec (.vxor o) o (fun _ a b _ => a ^^^ b) s

/-- VANDN: a & ~b. -/
def execVandn (o : VOp) (s : State) : Host.Outcome State Fault Refusal :=
  intExec (.vandn o) o (fun w a b _ => a &&& (2 ^ w - 1 - b)) s

/-- VSLL: (a << s) mod 2^SEW. -/
def execVsll (o : VOp) (s : State) : Host.Outcome State Fault Refusal :=
  intExec (.vsll o) o (fun w a b _ => a * 2 ^ shAmt w b % 2 ^ w) s

/-- VSRL: unsigned a >> s. -/
def execVsrl (o : VOp) (s : State) : Host.Outcome State Fault Refusal :=
  intExec (.vsrl o) o (fun w a b _ => a / 2 ^ shAmt w b) s

/-- VSRA: signed a >> s, sign-filled. -/
def execVsra (o : VOp) (s : State) : Host.Outcome State Fault Refusal :=
  intExec (.vsra o) o (fun w a b _ => intBits w (sx w a / 2 ^ shAmt w b)) s

/-- VSADD: a + b clamped to the I range. -/
def execVsadd (o : VOp) (s : State) : Host.Outcome State Fault Refusal :=
  intExec (.vsadd o) o (fun w a b _ => clampI w (sx w a + sx w b)) s

/-- VSADDU: a + b clamped to the N range. -/
def execVsaddu (o : VOp) (s : State) : Host.Outcome State Fault Refusal :=
  intExec (.vsaddu o) o (fun w a b _ => min (a + b) (2 ^ w - 1)) s

/-- VSSUB: a - b clamped to the I range. -/
def execVssub (o : VOp) (s : State) : Host.Outcome State Fault Refusal :=
  intExec (.vssub o) o (fun w a b _ => clampI w (sx w a - sx w b)) s

/-- VSSUBU: a - b clamped to 0. -/
def execVssubu (o : VOp) (s : State) : Host.Outcome State Fault Refusal :=
  intExec (.vssubu o) o (fun _ a b _ => a - b) s

/-- VAVG: round_int((a + b) ÷ 2), signed (R197). -/
def execVavg (o : VOp) (s : State) : Host.Outcome State Fault Refusal :=
  elemExec (.vavg o) o EShape.plain
    (fun v a b _ => exact (intBits v.sew (roundInt (v.mode o.rm) (sx v.sew a + sx v.sew b) 1))) s

/-- VAVGU: the same, unsigned. -/
def execVavgu (o : VOp) (s : State) : Host.Outcome State Fault Refusal :=
  elemExec (.vavgu o) o EShape.plain
    (fun v a b _ => exact (intBits v.sew (roundInt (v.mode o.rm) ((a : Int) + b) 1))) s

/-- VABSD: |a - b| of signed a and b, as an N value. -/
def execVabsd (o : VOp) (s : State) : Host.Outcome State Fault Refusal :=
  intExec (.vabsd o) o (fun w a b _ => (sx w a - sx w b).natAbs) s

/-! ## Width-changing words (R206 to R208) -/

/-- Narrow sources, wide destination and accumulator, at SEW 2 to 32. -/
def EShape.widen : EShape :=
  { dW := fun w => 2 * w, aW := id, bW := id, cW := fun w => 2 * w, sewOk := fun w => decide (w ≤ 32),
    uns := false }

def wideExec (i : Instr) (o : VOp) (fn : Nat → Nat → Nat → Nat → Nat) (s : State) :
    Host.Outcome State Fault Refusal :=
  elemExec i o EShape.widen (fun v a b c => exact (fn v.sew a b c)) s

/-- VWADD: sext(a) + sext(b). -/
def execVwadd (o : VOp) (s : State) : Host.Outcome State Fault Refusal :=
  wideExec (.vwadd o) o (fun w a b _ => intBits (2 * w) (sx w a + sx w b)) s

/-- VWADDU: zext(a) + zext(b). -/
def execVwaddu (o : VOp) (s : State) : Host.Outcome State Fault Refusal :=
  wideExec (.vwaddu o) o (fun _ a b _ => a + b) s

/-- VWSUB: sext(a) - sext(b). -/
def execVwsub (o : VOp) (s : State) : Host.Outcome State Fault Refusal :=
  wideExec (.vwsub o) o (fun w a b _ => intBits (2 * w) (sx w a - sx w b)) s

/-- VWMUL: sext(a) × sext(b). -/
def execVwmul (o : VOp) (s : State) : Host.Outcome State Fault Refusal :=
  wideExec (.vwmul o) o (fun w a b _ => intBits (2 * w) (sx w a * sx w b)) s

/-- VWMULU: zext(a) × zext(b). -/
def execVwmulu (o : VOp) (s : State) : Host.Outcome State Fault Refusal :=
  wideExec (.vwmulu o) o (fun _ a b _ => a * b) s

/-- VWMACC: (c + sext(a) × sext(b)) mod 2^(2·SEW). -/
def execVwmacc (o : VOp) (s : State) : Host.Outcome State Fault Refusal :=
  wideExec (.vwmacc o) o (fun w a b c => intBits (2 * w) ((c : Int) + sx w a * sx w b)) s

/-- A wide source, a narrow shift operand and a narrow destination; the immediate is unsigned. -/
def EShape.narrow : EShape :=
  { dW := id, aW := fun w => 2 * w, bW := id, cW := id, sewOk := fun w => decide (w ≤ 32), uns := true }

/-- VNSRL: (zext(a) >> s) mod 2^SEW. -/
def execVnsrl (o : VOp) (s : State) : Host.Outcome State Fault Refusal :=
  elemExec (.vnsrl o) o EShape.narrow
    (fun v a b _ => exact (a / 2 ^ shAmt (2 * v.sew) b % 2 ^ v.sew)) s

/-- VNCLIP: round_int(a ÷ 2^s) of a signed, clamped to the I range. -/
def execVnclip (o : VOp) (s : State) : Host.Outcome State Fault Refusal :=
  elemExec (.vnclip o) o EShape.narrow
    (fun v a b _ =>
      exact (clampI v.sew (roundInt (v.mode o.rm) (sx (2 * v.sew) a) (shAmt (2 * v.sew) b)))) s

/-- VNCLIPU: the same of a unsigned, clamped to the N range. -/
def execVnclipu (o : VOp) (s : State) : Host.Outcome State Fault Refusal :=
  elemExec (.vnclipu o) o EShape.narrow
    (fun v a b _ => exact (clampN v.sew (roundInt (v.mode o.rm) (a : Int) (shAmt (2 * v.sew) b)))) s

/-- A source narrower by a factor of 2^lf (R208). -/
def EShape.extend (lf : Nat) : EShape :=
  { dW := id, aW := fun w => w / 2 ^ lf, bW := id, cW := id,
    sewOk := fun w => decide (w % 2 ^ lf = 0) && decide (2 ≤ w / 2 ^ lf), uns := false }

/-- VSEXT: the narrower element sign-extended to SEW. -/
def execVsext (o : VOp) (s : State) : Host.Outcome State Fault Refusal :=
  elemExec (.vsext o) o (EShape.extend o.imm16.toNat)
    (fun v a _ _ => exact (intBits v.sew (sx (v.sew / 2 ^ o.imm16.toNat) a))) s

/-- VZEXT: the narrower element zero-extended to SEW. -/
def execVzext (o : VOp) (s : State) : Host.Outcome State Fault Refusal :=
  elemExec (.vzext o) o (EShape.extend o.imm16.toNat) (fun _ a _ _ => exact a) s

/-! ## Compare, select and count (R209 to R211) -/

/-- The conditions of VCMP. -/
def cmpBit (cc : VCc) (w a b : Nat) : Bool :=
  match cc with
  | .eq => decide (a = b)
  | .ne => decide (a ≠ b)
  | .lt => decide (sx w a < sx w b)
  | .ltu => decide (a < b)
  | .le => decide (sx w a ≤ sx w b)
  | .leu => decide (a ≤ b)
  | .gt => decide (sx w b < sx w a)
  | .gtu => decide (b < a)

/-- A mask destination. -/
def EShape.toMask : EShape := { EShape.plain with dW := fun _ => 1 }

/-- VCMP: bit e of the mask destination is a cc b. -/
def execVcmp (cc : VCc) (o : VOp) (s : State) : Host.Outcome State Fault Refusal :=
  elemExec (.vcmp cc o) o EShape.toMask
    (fun v a b _ => exact (if cmpBit cc v.sew a b then 1 else 0)) s

/-- VMERGE as an element-wise word: v0 is a source and masks no element off (R210). -/
def mergeOp (v : VEnv) (o : VOp) (j : Nat) : ElemOp :=
  { EShape.plain.op v o (fun a b m => exact (if m = 1 then b else a)) j with
    c := .reg (maskLoc j), msk := .none_, full := false }

/-- VMERGE: D[e] := B[e] where bit e of v0 is 1, else A[e]. -/
def execVmerge (o : VOp) (s : State) : Host.Outcome State Fault Refusal :=
  blockWord s
    (fun b => wordGuard s b (.vmerge o) o.rm (EShape.plain.cfgOk (venvOf s b) o)
      (EShape.plain.bindOk s.h (venvOf s b) o))
    (fun b => elemWord s (venvOf s b) (mergeOp (venvOf s b) o) o.rm)

/-- VMV: D[e] := B[e]. -/
def execVmv (o : VOp) (s : State) : Host.Outcome State Fault Refusal :=
  intExec (.vmv o) o (fun _ _ b _ => b) s

/-- VCLZ: leading zero bits of a within SEW. -/
def execVclz (o : VOp) (s : State) : Host.Outcome State Fault Refusal :=
  intExec (.vclz o) o (fun w a _ _ => clzW w a) s

/-- VCTZ: trailing zero bits of a within SEW. -/
def execVctz (o : VOp) (s : State) : Host.Outcome State Fault Refusal :=
  intExec (.vctz o) o (fun w a _ _ => ctzW w a) s

/-- VPOPC: one bits of a. -/
def execVpopc (o : VOp) (s : State) : Host.Outcome State Fault Refusal :=
  intExec (.vpopc o) o (fun w a _ _ => popW w a) s

/-! ## Packed dot products and the legacy table (R212, R213) -/

/-- Σ A_i × B_i over packed values of width `w`. -/
def dotSum (op : DotOp) (w a b : Nat) : Int :=
  let as := decide (op = .ss) || decide (op = .su)
  let bs := decide (op = .ss) || decide (op = .us)
  (List.range (32 / w)).foldl (fun acc i =>
    acc + intOf as w (a / 2 ^ (i * w)) * intOf bs w (b / 2 ^ (i * w))) 0

/-- Input width of VDOT. -/
def dotWidth (imm : BitVec 16) : Nat := if imm = 0 then 8 else if imm = 1 then 4 else 2

/-- VDOT: (c + Σ A_i × B_i) mod 2^32, at SEW 32. -/
def execVdot (op : DotOp) (o : VOp) (s : State) : Host.Outcome State Fault Refusal :=
  elemExec (.vdot op o) o { EShape.plain with sewOk := fun w => decide (w = 32) }
    (fun _ a b c => exact (intBits 32 (sx 32 c + dotSum op (dotWidth o.imm16) a b))) s

/-- Entry `c` of the table that the block captured (07 R158). -/
def lutEntry (b : Block) (c : Nat) : Nat :=
  (if c < 8 then b.vlut0.toNat / 2 ^ (8 * c) else b.vlut1.toNat / 2 ^ (8 * (c - 8))) % 256

/-- VLUT4: the I8 entry for each N4 code, at SEW 8. -/
def execVlut4 (o : VOp) (s : State) : Host.Outcome State Fault Refusal :=
  elemExec (.vlut4 o) o { EShape.plain with aW := fun _ => 4, sewOk := fun w => decide (w = 8) }
    (fun v a _ _ => exact (lutEntry v.blk a)) s

end Sys2Proof.Machine
end

