-- ==== Sys2Proof/Machine/VFloat.lean ====
section
/-! DEFINITION. The vector floating-point words (10): each is a function of its elements in the frame of
Operands, under the block's rounding mode and fcompat. -/

namespace Sys2Proof.Machine

/-- SEWs that have a register format (07 R152). -/
abbrev floatSew (w : Nat) : Bool := decide (w = 16) || decide (w = 32) || decide (w = 64)

/-- Operands at a float SEW. -/
def EShape.float : EShape := { EShape.plain with sewOk := floatSew }

/-- A float word of elements at SEW. -/
def fpExec (i : Instr) (o : VOp) (fn : FEnv → FFmt → Nat → Nat → Nat → FRes) (s : State) :
    Host.Outcome State Fault Refusal :=
  elemExec i o EShape.float (fun v a b c => fn (blockEnv o.rm v.blk) (regFmt v.sew) a b c) s

/-- VFADD: round(a + b) (R220). -/
def execVfadd (o : VOp) (s : State) : Host.Outcome State Fault Refusal :=
  fpExec (.vfadd o) o (fun env f a b _ => env.add f a b) s

/-- VFSUB: round(a - b). -/
def execVfsub (o : VOp) (s : State) : Host.Outcome State Fault Refusal :=
  fpExec (.vfsub o) o (fun env f a b _ => env.sub f a b) s

/-- VFMUL: round(a × b). -/
def execVfmul (o : VOp) (s : State) : Host.Outcome State Fault Refusal :=
  fpExec (.vfmul o) o (fun env f a b _ => env.mul f a b) s

/-- VFDIV: round(a ÷ b). -/
def execVfdiv (o : VOp) (s : State) : Host.Outcome State Fault Refusal :=
  fpExec (.vfdiv o) o (fun env f a b _ => env.div f a b) s

/-- VFSQRT: round(√a). -/
def execVfsqrt (o : VOp) (s : State) : Host.Outcome State Fault Refusal :=
  fpExec (.vfsqrt o) o (fun env f a _ _ => env.sqrt f a) s

/-- VFMADD: a × b + c, fused or split (R221). -/
def execVfmadd (o : VOp) (s : State) : Host.Outcome State Fault Refusal :=
  fpExec (.vfmadd o) o (fun env f a b c => env.muladd f f false false a b c) s

/-- VFMSUB: a × b - c. -/
def execVfmsub (o : VOp) (s : State) : Host.Outcome State Fault Refusal :=
  fpExec (.vfmsub o) o (fun env f a b c => env.muladd f f false true a b c) s

/-- VFNMADD: -(a × b) - c. -/
def execVfnmadd (o : VOp) (s : State) : Host.Outcome State Fault Refusal :=
  fpExec (.vfnmadd o) o (fun env f a b c => env.muladd f f true true a b c) s

/-- VFNMSUB: -(a × b) + c. -/
def execVfnmsub (o : VOp) (s : State) : Host.Outcome State Fault Refusal :=
  fpExec (.vfnmsub o) o (fun env f a b c => env.muladd f f true false a b c) s

/-- VFMIN: the lesser under fcompat.MINMAX (R222). -/
def execVfmin (o : VOp) (s : State) : Host.Outcome State Fault Refusal :=
  fpExec (.vfmin o) o (fun env f a b _ => env.minMax env.minmaxRule false f a b) s

/-- VFMAX: the greater under fcompat.MINMAX. -/
def execVfmax (o : VOp) (s : State) : Host.Outcome State Fault Refusal :=
  fpExec (.vfmax o) o (fun env f a b _ => env.minMax env.minmaxRule true f a b) s

/-- The rule and the side that VFMINMAX's FN names. -/
def minMaxRes (op : MinMaxOp) (env : FEnv) (f : FFmt) (a b : Nat) : FRes :=
  match op with
  | .min => env.minMax .ieee false f a b
  | .max => env.minMax .ieee true f a b
  | .minnum => env.minMax .number false f a b
  | .maxnum => env.minMax .number true f a b

/-- VFMINMAX: selection by FN, whatever fcompat.MINMAX holds. -/
def execVfminmax (op : MinMaxOp) (o : VOp) (s : State) : Host.Outcome State Fault Refusal :=
  fpExec (.vfminmax op o) o (fun env f a b _ => minMaxRes op env f a b) s

/-- A comparison's bit and flags. -/
def cmpRes (r : Bool × BitVec 5) : FRes := { bits := if r.1 then 1 else 0, flags := r.2 }

/-- VFCMP: bit e of the mask destination (R223). -/
def execVfcmp (cc : FCc) (o : VOp) (s : State) : Host.Outcome State Fault Refusal :=
  elemExec (.vfcmp cc o) o { EShape.float with dW := fun _ => 1 }
    (fun v a b _ => cmpRes ((blockEnv o.rm v.blk).compare cc (regFmt v.sew) a b)) s

/-- VFCLASS: one class bit, without DAZ or flags (R224). -/
def execVfclass (o : VOp) (s : State) : Host.Outcome State Fault Refusal :=
  fpExec (.vfclass o) o (fun _ f a _ _ => exact (fclass f a)) s

/-- VFSGNJ: the sign of b (R225). -/
def execVfsgnj (o : VOp) (s : State) : Host.Outcome State Fault Refusal :=
  fpExec (.vfsgnj o) o (fun _ f a b _ => exact (fsgnj f 0 a b)) s

/-- VFSGNJN: the inverse of the sign of b. -/
def execVfsgnjn (o : VOp) (s : State) : Host.Outcome State Fault Refusal :=
  fpExec (.vfsgnjn o) o (fun _ f a b _ => exact (fsgnj f 1 a b)) s

/-- VFSGNJX: the XOR of both signs. -/
def execVfsgnjx (o : VOp) (s : State) : Host.Outcome State Fault Refusal :=
  fpExec (.vfsgnjx o) o (fun _ f a b _ => exact (fsgnj f 2 a b)) s

/-! ## Conversions (R226 to R228) -/

/-- Widths of each member of VFCVT (Table 10.5, R227). -/
def cvtShape (op : FCvt) (imm : BitVec 16) : EShape :=
  let w := sewOfCode imm.toNat
  match op with
  | .fwid => { EShape.plain with aW := fun x => x / 2,
                                 sewOk := fun x => decide (x = 32) || decide (x = 64) }
  | .fnar | .fnars => { EShape.plain with aW := fun x => 2 * x,
                                          sewOk := fun x => decide (x = 16) || decide (x = 32) }
  | .ftoi | .fton => { EShape.float with dW := fun _ => w }
  | .itof | .ntof => { EShape.float with aW := fun _ => w }

/-- What each member computes of an element at SEW `sew`. -/
def cvtRes (op : FCvt) (imm : BitVec 16) (env : FEnv) (sew a : Nat) : FRes :=
  let w := sewOfCode imm.toNat
  let exactEnv : FEnv := { env with fcompat := env.fcompat &&& 0xC0 }
  match op with
  | .fwid =>
      exactEnv.convert (regFmt (sew / 2)) (regFmt sew) false false
        (env.operand (regFmt (sew / 2)) a)
  | .fnar => env.convert (regFmt (2 * sew)) (regFmt sew) false false (env.operand (regFmt (2 * sew)) a)
  | .fnars => env.convert (regFmt (2 * sew)) (regFmt sew) false true (env.operand (regFmt (2 * sew)) a)
  | .ftoi => env.toInt (regFmt sew) true w a
  | .fton => env.toInt (regFmt sew) false w a
  | .itof => env.ofInt (regFmt sew) true w a
  | .ntof => env.ofInt (regFmt sew) false w a

/-- VFCVT. -/
def execVfcvt (op : FCvt) (o : VOp) (s : State) : Host.Outcome State Fault Refusal :=
  elemExec (.vfcvt op o) o (cvtShape op o.imm16)
    (fun v a _ _ => cvtRes op o.imm16 (blockEnv o.rm v.blk) v.sew a) s

/-- VFRCP: 1 ÷ a (R229). -/
def execVfrcp (o : VOp) (s : State) : Host.Outcome State Fault Refusal :=
  fpExec (.vfrcp o) o (fun env f a _ _ => env.rcp f a) s

/-- VFRSQRT: 1 ÷ √a. -/
def execVfrsqrt (o : VOp) (s : State) : Host.Outcome State Fault Refusal :=
  fpExec (.vfrsqrt o) o (fun env f a _ _ => env.rsqrt f a) s

/-- VFDOT2: c + a0 × b0 + a1 × b1 of BF16 pairs, rounded once, at SEW 32 (R230). -/
def execVfdot2 (o : VOp) (s : State) : Host.Outcome State Fault Refusal :=
  elemExec (.vfdot2 o) o { EShape.plain with sewOk := fun w => decide (w = 32) }
    (fun v a b c => (blockEnv o.rm v.blk).dot2 a b c) s

/-- VFWMA: a × b + c with BF16 a and b and FP32 c, at SEW 16 (R231). -/
def execVfwma (o : VOp) (s : State) : Host.Outcome State Fault Refusal :=
  elemExec (.vfwma o) o { EShape.widen with sewOk := fun w => decide (w = 16) }
    (fun v a b c => (blockEnv o.rm v.blk).muladd bf16 fp32 false false a b c) s

/-- VFRND: a rounded to an integral value (R232). -/
def execVfrnd (o : VOp) (s : State) : Host.Outcome State Fault Refusal :=
  fpExec (.vfrnd o) o (fun env f a _ _ => env.rnd f a) s

end Sys2Proof.Machine
end

