-- ==== Sys2Proof/Machine/VPerm.lean ====
section
/-! DEFINITION. Permutes, reductions, mask words and the mask stack (11). These words read elements across
lane groups and never stop once their checks have passed. -/

namespace Sys2Proof.Machine

/-! ## The common frame -/

/-- Operands of a word that names no bound register (06 R147, 11 R235). -/
def noneBound (h : Hart) (v : VEnv) (os : List (Opnd × Nat)) : Bool :=
  os.all (fun p => !h.anyBound p.1 (v.regs p.2 * v.passes))

/-- Width 1 names one register whatever LMUL is: a mask, or the element operands of a reduction. -/
abbrev oneW : Nat := 1

/-- Rules of vcfg of a class 0x6 word: no pass mode, groups, and for other words than reductions no overlap of
the destination with a source or the mask (R235, 20 R428). -/
def permCfgOk (v : VEnv) (o : VOp) (sewOk : Bool) (dW aW bW : Nat) (apart : Bool) : Bool :=
  let d := o.d
  let bo := bOpnd o.b
  sewOk && decide (v.passes = 1) && v.fits d dW && v.fits o.a aW && v.fits bo bW
    && (!apart || (!v.meet d dW o.a aW && !v.meet d dW bo bW))

/-- A class 0x6 or 0x7 word: its checks, then its run. -/
def permExec (i : Instr) (o : VOp) (cfg : VEnv → Bool) (aW bW dW : VEnv → Nat)
    (run : VEnv → State) (s : State) : Host.Outcome State Fault Refusal :=
  blockWord s
    (fun b =>
      let v := venvOf s b
      wordGuard s b i o.rm (cfg v)
        (noneBound s.h v [(o.d, dW v), (o.a, aW v), (bOpnd o.b, bW v)]))
    (fun b => run (venvOf s b))

/-- Elements below `n` written at once, the tail above `n`, and the word complete. `top` is the length that
the high-water marks follow. -/
def permRun (s : State) (v : VEnv) (d : Dest) (n top : Nat) (act : Nat → Bool) (res : Nat → FRes)
    (pois : Nat → Bool) : State :=
  if v.vl = 0 then completeWord s
  else
    let s1 := putGroup s d { v with vl := n } act res pois top (List.range n)
    completeWord (putTail s1 d v n)

/-- Destination of a word in its only pass. -/
def VEnv.dest (v : VEnv) (o : VOp) (w : Nat) : Dest := { o := v.loc 0 o.d w, full := decide (o.msk = .none_) }

/-- An off operand: the whole k register, or the zero-extended immediate (R236). -/
def VEnv.off (v : VEnv) (b : BSrc) : Nat :=
  match b with
  | .reg _ => 0
  | .k n => (v.kval n).toNat
  | .imm i => i.toNat

/-- An element-wise permute at any SEW: results and the poison of what supplies them. -/
def slideRun (s : State) (v : VEnv) (o : VOp) (act : Nat → Bool) (res : Nat → Nat) (pois : Nat → Bool) :
    State :=
  permRun s v (v.dest o v.sew) v.vl v.vl act (fun e => exact (res e))
    (fun e => maskPois s.h v o.msk 0 e || (act e && pois e))

/-- Element and poison of source A. -/
def aGet (s : State) (v : VEnv) (o : VOp) (w e : Nat) : Nat := (v.loc 0 o.a w).get s.h v e
def aPois (s : State) (v : VEnv) (o : VOp) (w e : Nat) : Bool := (v.loc 0 o.a w).pois s.h v e
def bGet (s : State) (v : VEnv) (o : VOp) (w e : Nat) : Nat := (v.srcB 0 o.b w false).get s.h v e
def bPois (s : State) (v : VEnv) (o : VOp) (w e : Nat) : Bool := (v.srcB 0 o.b w false).pois s.h v e
def mAct (s : State) (v : VEnv) (o : VOp) (e : Nat) : Bool := maskBit s.h v o.msk 0 e

def slideExec (i : Instr) (o : VOp) (run : State → VEnv → State) (s : State) :
    Host.Outcome State Fault Refusal :=
  permExec i o (fun v => permCfgOk v o true v.sew v.sew v.sew true) (fun v => v.sew) (fun v => v.sew)
    (fun v => v.sew) (run s) s

/-! ## Slides, permutes and indices (R237 to R240) -/

/-- Below the offset an element keeps its old value, whatever MA says: it is its own source. -/
def slideupRun (o : VOp) (s : State) (v : VEnv) : State :=
  let off := v.off o.b
  let d := v.loc 0 o.d v.sew
  slideRun s v o (fun e => decide (e < off) || mAct s v o e)
    (fun e => if e < off then d.get s.h v e else aGet s v o v.sew (e - off))
    (fun e => if e < off then d.pois s.h v e else aPois s v o v.sew (e - off))

/-- VSLIDEUP: A[e - off] from e = off upward. -/
def execVslideup (o : VOp) (s : State) : Host.Outcome State Fault Refusal :=
  slideExec (.vslideup o) o (slideupRun o) s

def slidednRun (o : VOp) (s : State) (v : VEnv) : State :=
  let off := v.off o.b
  slideRun s v o (mAct s v o) (fun e => if e + off < v.vl then aGet s v o v.sew (e + off) else 0)
    (fun e => decide (e + off < v.vl) && aPois s v o v.sew (e + off))

/-- VSLIDEDN: A[e + off] below vl, and 0 past it. -/
def execVslidedn (o : VOp) (s : State) : Host.Outcome State Fault Refusal :=
  slideExec (.vslidedn o) o (slidednRun o) s

def slide1upRun (o : VOp) (s : State) (v : VEnv) : State :=
  slideRun s v o (mAct s v o)
    (fun e => if e = 0 then bGet s v o v.sew 0 else aGet s v o v.sew (e - 1))
    (fun e => decide (e ≠ 0) && aPois s v o v.sew (e - 1))

/-- VSLIDE1UP: the scalar at element 0, A[e - 1] above it. -/
def execVslide1up (o : VOp) (s : State) : Host.Outcome State Fault Refusal :=
  slideExec (.vslide1up o) o (slide1upRun o) s

def slide1dnRun (o : VOp) (s : State) (v : VEnv) : State :=
  slideRun s v o (mAct s v o)
    (fun e => if e + 1 < v.vl then aGet s v o v.sew (e + 1) else bGet s v o v.sew 0)
    (fun e => decide (e + 1 < v.vl) && aPois s v o v.sew (e + 1))

/-- VSLIDE1DN: A[e + 1], and the scalar at element vl - 1. -/
def execVslide1dn (o : VOp) (s : State) : Host.Outcome State Fault Refusal :=
  slideExec (.vslide1dn o) o (slide1dnRun o) s

def vpermRun (o : VOp) (s : State) (v : VEnv) : State :=
  let ix := fun e => bGet s v o v.sew e
  slideRun s v o (mAct s v o) (fun e => if ix e < v.vl then aGet s v o v.sew (ix e) else 0)
    (fun e => bPois s v o v.sew e || (decide (ix e < v.vl) && aPois s v o v.sew (ix e)))

/-- VPERM: A[B[e]], and 0 for an index at or past vl. -/
def execVperm (o : VOp) (s : State) : Host.Outcome State Fault Refusal :=
  slideExec (.vperm o) o (vpermRun o) s

/-- Elements c and above follow TA as tail elements; the high-water marks follow vl (R239). Every mask bit
below vl takes part in where an element goes. -/
def vcompressRun (o : VOp) (s : State) (v : VEnv) : State :=
  let src := (List.range v.vl).filter (fun e => decide (bGet s v o oneW e = 1))
  let mp := (List.range v.vl).any (fun e => bPois s v o oneW e)
  let from_ := fun e => (src[e]?).getD 0
  let d := v.dest o v.sew
  let t := permRun s v d src.length v.vl (fun _ => true)
    (fun e => exact (aGet s v o v.sew (from_ e))) (fun e => mp || aPois s v o v.sew (from_ e))
  if v.vl = 0 then t
  else
    (List.range (v.regs v.sew)).foldl (fun u r =>
      let x := u.h.vreg d.o.file (d.o.ix + r)
      u.setH (u.h.setVreg d.o.file (d.o.ix + r) { x with hwm := d.hwm v (d.o.ix + r) v.vl x.hwm })) t

/-- VCOMPRESS: the elements of A whose bit of B is 1, packed from element 0. -/
def execVcompress (o : VOp) (s : State) : Host.Outcome State Fault Refusal :=
  permExec (.vcompress o) o (fun v => permCfgOk v o true v.sew v.sew oneW true) (fun v => v.sew)
    (fun _ => oneW) (fun v => v.sew) (vcompressRun o s) s

def viotaRun (o : VOp) (s : State) (v : VEnv) : State :=
  let on := fun i => mAct s v o i && decide (aGet s v o oneW i = 1)
  slideRun s v o (mAct s v o) (fun e => ((List.range e).filter on).length % 2 ^ v.sew)
    (fun e => (List.range e).any (fun i => maskPois s.h v o.msk 0 i || (mAct s v o i && aPois s v o oneW i)))

/-- VIOTA: how many active bits of A below e are 1. -/
def execViota (o : VOp) (s : State) : Host.Outcome State Fault Refusal :=
  permExec (.viota o) o
    (fun v => permCfgOk v o true v.sew oneW oneW true) (fun _ => oneW) (fun _ => oneW) (fun v => v.sew)
    (viotaRun o s) s

/-- VID: e mod 2^SEW. -/
def execVid (o : VOp) (s : State) : Host.Outcome State Fault Refusal :=
  slideExec (.vid o) o
    (fun s v => slideRun s v o (mAct s v o) (fun e => e % 2 ^ v.sew) (fun _ => false)) s

/-! ## Reductions (R241 to R243; 07 R170, R171) -/

/-- The operands of a reduction: active elements of A in index order, ABSENT where inactive. -/
def redElems (s : State) (v : VEnv) (o : VOp) : List (Option Nat) :=
  (List.range v.vl).map (fun e => if mAct s v o e then some (aGet s v o v.sew e) else none)

/-- Location of a one-register element operand: element 0 of a register. -/
def oneLoc (o : Opnd) (w : Nat) : OLoc := { file := o.file, ix := o.ix.toNat, w := w }

/-- The result at element 0 of D, its poison ORed into hart lane group 0, the rest following TA (R241). -/
def redRun (o : VOp) (red : VEnv → Nat → List (Option Nat) → FRes) (s : State) (v : VEnv) : State :=
  if v.vl = 0 then completeWord s
  else
    let b := oneLoc (bOpnd o.b) v.sew
    let p := b.pois s.h v 0 || (List.range v.vl).any (fun e =>
      maskPois s.h v o.msk 0 e || (mAct s v o e && aPois s v o v.sew e))
    let r := red v (b.get s.h v 0) (redElems s v o)
    let d : Dest := { o := oneLoc o.d v.sew, full := false }
    let v1 := { v with vl := 1 }
    let s1 := putGroup s d v1 (fun _ => true) (fun _ => r) (fun _ => p) 1 [0]
    let u : VEnv := { v with lmul := 1 }
    completeWord (putTail s1 d u 1)

/-- Reductions take A as a group, B and D as one register each, and neither index need be aligned. -/
def redExec (i : Instr) (o : VOp) (sewOk : Nat → Bool) (red : VEnv → Nat → List (Option Nat) → FRes)
    (s : State) : Host.Outcome State Fault Refusal :=
  permExec i o (fun v => permCfgOk v o (sewOk v.sew) oneW v.sew oneW false) (fun v => v.sew)
    (fun _ => oneW) (fun _ => oneW) (redRun o red s) s

/-- The op of VRED on two values of `w` bits (Table 11.2). -/
def redOp (op : RedOp) (w a b : Nat) : Nat :=
  match op with
  | .sum => (a + b) % 2 ^ w
  | .and => a &&& b
  | .or => a ||| b
  | .xor => a ^^^ b
  | .min => if sx w a ≤ sx w b then a else b
  | .max => if sx w a ≤ sx w b then b else a
  | .minu => min a b
  | .maxu => max a b

/-- VRED: an integer reduction, independent of order. -/
def execVred (op : RedOp) (o : VOp) (s : State) : Host.Outcome State Fault Refusal :=
  redExec (.vred op o) o (fun _ => true)
    (fun v x es => exact ((es.filterMap id).foldl (redOp op v.sew) x)) s

/-- One level of the index tree (07 R171): neighbours combined, with the flags of each op. -/
def treeLevel (op : Nat → Nat → FRes) : List (Option Nat) → List (Option Nat) × BitVec 5
  | [] => ([], 0)
  | [a] => ([a], 0)
  | a :: b :: t =>
      let r := treeLevel op t
      match a, b with
      | none, y => (y :: r.1, r.2)
      | x, none => (x :: r.1, r.2)
      | some x, some y => (some (op x y).bits :: r.1, (op x y).flags ||| r.2)

/-- The root of the tree of at most 2^n elements. -/
def treeRoot (op : Nat → Nat → FRes) : Nat → List (Option Nat) → Option Nat × BitVec 5
  | 0, l => (l.head?.getD none, 0)
  | n + 1, l =>
      let r := treeLevel op l
      let t := treeRoot op n r.1
      (t.1, r.2 ||| t.2)

/-- The levels of the tree over `n` elements: ⌈log2 n⌉. -/
def treeDepth (n : Nat) : Nat := if n ≤ 1 then 0 else Nat.log2 (n - 1) + 1

/-- The tree's result with the starting value; an absent root leaves it unchanged. -/
def treeReduce (op : Nat → Nat → FRes) (x : Nat) (es : List (Option Nat)) : FRes :=
  let r := treeRoot op (treeDepth es.length) es
  match r.1 with
  | none => { bits := x, flags := r.2 }
  | some y => { bits := (op x y).bits, flags := r.2 ||| (op x y).flags }

/-- VFREDSUM: sums along the index tree. -/
def execVfredsum (o : VOp) (s : State) : Host.Outcome State Fault Refusal :=
  redExec (.vfredsum o) o floatSew
    (fun v x es => treeReduce ((blockEnv o.rm v.blk).add (regFmt v.sew)) x es) s

/-- Sums in strict index order (07 R170). -/
def orderedSum (env : FEnv) (f : FFmt) (x : Nat) (es : List Nat) : FRes :=
  es.foldl (fun acc y =>
    { bits := (env.add f acc.bits y).bits, flags := acc.flags ||| (env.add f acc.bits y).flags })
    { bits := x, flags := 0 }

/-- VFREDOSUM: sums in strict index order. -/
def execVfredosum (o : VOp) (s : State) : Host.Outcome State Fault Refusal :=
  redExec (.vfredosum o) o floatSew
    (fun v x es => orderedSum (blockEnv o.rm v.blk) (regFmt v.sew) x (es.filterMap id)) s

/-- VFMIN or VFMAX along the index tree. -/
def redMinMax (mx : Bool) (o : VOp) (v : VEnv) (x : Nat) (es : List (Option Nat)) : FRes :=
  let env := blockEnv o.rm v.blk
  treeReduce (env.minMax env.minmaxRule mx (regFmt v.sew)) x es

/-- VFREDMIN. -/
def execVfredmin (o : VOp) (s : State) : Host.Outcome State Fault Refusal :=
  redExec (.vfredmin o) o floatSew (redMinMax false o) s

/-- VFREDMAX. -/
def execVfredmax (o : VOp) (s : State) : Host.Outcome State Fault Refusal :=
  redExec (.vfredmax o) o floatSew (redMinMax true o) s

/-! ## Results into return slots (R247) -/

/-- Write return slot `n`. -/
def State.setSlot (s : State) (n : Nat) (v : Word) (p : Bool) : State :=
  s.setH { s.h with vu := { s.h.vu with j := s.h.vu.j.setIfInBounds n { val := v, pois := p } } }

/-- The slot that a word's destination field names. -/
def slotOf (o : VOp) : Nat := o.d.ix.toNat % 4

def slotRun (s : State) (o : VOp) (v : Word) (p : Bool) : State :=
  completeWord (s.setSlot (slotOf o) v p)

/-- VXGET: A[off] below vl, else 0. -/
def execVxget (o : VOp) (s : State) : Host.Outcome State Fault Refusal :=
  permExec (.vxget o) o (fun v => permCfgOk v { o with d := Opnd.absent } true v.sew v.sew v.sew false)
    (fun v => v.sew) (fun v => v.sew) (fun _ => oneW)
    (fun v =>
      let off := v.off o.b
      if off < v.vl then
        slotRun s o (BitVec.ofNat 64 (aGet s v o v.sew off)) (aPois s v o v.sew off)
      else slotRun s o 0 false) s

/-! ## Mask words (R244 to R246) -/

/-- A mask word with no pass mode (20 R428). -/
def maskExec (i : Instr) (o : VOp) (run : State → VEnv → State) (s : State) :
    Host.Outcome State Fault Refusal :=
  permExec i o (fun v => decide (v.passes = 1)) (fun _ => oneW) (fun _ => oneW) (fun _ => oneW) (run s) s

/-- The bit operations of VMLOG. -/
def mlogBit (op : MlogOp) (a b : Nat) : Nat :=
  match op with
  | .and => a &&& b
  | .or => a ||| b
  | .xor => a ^^^ b
  | .andn => a &&& (1 - b)
  | .not => 1 - a

/-- Masks in every place. -/
def EShape.masks : EShape :=
  { dW := fun _ => 1, aW := fun _ => 1, bW := fun _ => 1, cW := fun _ => 1, sewOk := fun _ => true,
    uns := false }

/-- VMLOG: a bit operation on masks, in pass mode too. -/
def execVmlog (op : MlogOp) (o : VOp) (s : State) : Host.Outcome State Fault Refusal :=
  blockWord s
    (fun b =>
      let v := venvOf s b
      wordGuard s b (.vmlog op o) o.rm (EShape.masks.cfgOk v o)
        (noneBound s.h v [(o.d, oneW), (o.a, oneW), (bOpnd o.b, oneW)]))
    (fun b => elemWord s (venvOf s b)
      (EShape.masks.op (venvOf s b) o (fun a x _ => exact (mlogBit op a x))) o.rm)

/-- Bit `e` of mask source A where its element is active; a masked-off input counts as 0 (R244). -/
def mBit (s : State) (v : VEnv) (o : VOp) (e : Nat) : Bool :=
  mAct s v o e && decide (aGet s v o oneW e = 1)

/-- Poison of a mask input bit. -/
def mBitPois (s : State) (v : VEnv) (o : VOp) (e : Nat) : Bool :=
  maskPois s.h v o.msk 0 e || (mAct s v o e && aPois s v o oneW e)

/-- f: the lowest active index below vl whose bit of A is 1. -/
def firstBit (s : State) (v : VEnv) (o : VOp) : Option Nat := (List.range v.vl).find? (mBit s v o)

def msetRun (o : VOp) (rel : Nat → Option Nat → Bool) (s : State) (v : VEnv) : State :=
  let f := firstBit s v o
  permRun s v (v.dest o oneW) v.vl v.vl (mAct s v o) (fun e => exact (if rel e f then 1 else 0))
    (fun e => (List.range (e + 1)).any (mBitPois s v o))

/-- VMSBF: e < f. -/
def execVmsbf (o : VOp) (s : State) : Host.Outcome State Fault Refusal :=
  maskExec (.vmsbf o) o (msetRun o (fun e f => match f with | none => true | some x => decide (e < x))) s

/-- VMSIF: e ≤ f. -/
def execVmsif (o : VOp) (s : State) : Host.Outcome State Fault Refusal :=
  maskExec (.vmsif o) o (msetRun o (fun e f => match f with | none => true | some x => decide (e ≤ x))) s

/-- VMSOF: e = f. -/
def execVmsof (o : VOp) (s : State) : Host.Outcome State Fault Refusal :=
  maskExec (.vmsof o) o (msetRun o (fun e f => decide (f = some e))) s

/-- VMPOPC: how many active bits of A below vl are 1. -/
def execVmpopc (o : VOp) (s : State) : Host.Outcome State Fault Refusal :=
  maskExec (.vmpopc o) { o with d := Opnd.absent } (fun s v =>
    slotRun s o (BitVec.ofNat 64 ((List.range v.vl).filter (mBit s v o)).length)
      ((List.range v.vl).any (mBitPois s v o))) s

/-- VMFIRST: the lowest such index, or all ones. -/
def execVmfirst (o : VOp) (s : State) : Host.Outcome State Fault Refusal :=
  maskExec (.vmfirst o) { o with d := Opnd.absent } (fun s v =>
    slotRun s o (match firstBit s v o with
      | none => BitVec.allOnes 64
      | some f => BitVec.ofNat 64 f) ((List.range v.vl).any (mBitPois s v o))) s

/-! ## The mask stack (R248 to R251) -/

/-- Bits below vl. -/
def VEnv.below (v : VEnv) : VBits := BitVec.ofNat 16384 (2 ^ min v.vl v.vlen - 1)

/-- ms as bits. -/
def Hart.msBits (h : Hart) : VBits :=
  match h.vu.ms with
  | [] => BitVec.allOnes 16384
  | m :: _ => m.m

/-- Lane groups whose slices hold bits below vl. -/
def VEnv.lowGroups (v : VEnv) : BitVec 8 :=
  BitVec.ofNat 8 ((List.range v.groups).foldl (fun acc n =>
    if n * 512 < min v.vl v.vlen then acc + 2 ^ n else acc) 0)

/-- Poison of ms and of A in the slices that hold bits below vl. -/
def stackPois (s : State) (v : VEnv) (a : Opnd) : BitVec 8 :=
  (((s.h.vu.ms.head?.map (fun m => m.mPois)).getD 0) ||| (s.h.vreg a.file a.ix.toNat).pois) &&& v.lowGroups

/-- A stack word: the checks of R42, then its requirement, which raises mask-stack overflow (R250). -/
def stackExec (i : Instr) (o : VOp) (need : Nat → Bool) (run : VEnv → List MsEntry → List MsEntry)
    (s : State) : Host.Outcome State Fault Refusal :=
  blockWord s
    (fun b =>
      let v := venvOf s b
      match wordGuard s b i o.rm (decide (v.passes = 1)) (noneBound s.h v [(o.a, oneW)]) with
      | some e => some e
      | none => if need s.h.vu.ms.length then none else some (Stop.of 26 i.word))
    (fun b => completeWord (s.setH { s.h with vu := { s.h.vu with ms := run (venvOf s b) s.h.vu.ms } }))

/-- VMSPUSH: M := ms & A, R := ms & ~A, below vl. -/
def execVmspush (o : VOp) (s : State) : Host.Outcome State Fault Refusal :=
  stackExec (.vmspush o) o (fun d => decide (d < 16)) (fun v ms =>
    let a := (s.h.vreg o.a.file o.a.ix.toNat).bits
    let p := stackPois s v o.a
    { m := s.h.msBits &&& a &&& v.below, r := s.h.msBits &&& ~~~a &&& v.below, mPois := p, rPois := p }
      :: ms) s

/-- M := R and R := 0 in the top entry, below vl. -/
def elseTop (v : VEnv) : List MsEntry → List MsEntry
  | [] => []
  | x :: t =>
      { m := (x.m &&& ~~~v.below) ||| (x.r &&& v.below), r := x.r &&& ~~~v.below, mPois := x.rPois,
        rPois := 0 } :: t

/-- VMSELSE: the other arm. -/
def execVmselse (o : VOp) (s : State) : Host.Outcome State Fault Refusal :=
  stackExec (.vmselse o) o (fun d => decide (1 ≤ d)) elseTop s

/-- VMSPOP: the top entry is discarded. -/
def execVmspop (o : VOp) (s : State) : Host.Outcome State Fault Refusal :=
  stackExec (.vmspop o) o (fun d => decide (1 ≤ d)) (fun _ ms => ms.tail) s

/-- Elements `x` leave the top `n` entries. -/
def breakTop (x : VBits) (p : BitVec 8) : Nat → List MsEntry → List MsEntry
  | 0, ms => ms
  | _, [] => []
  | n + 1, e :: t =>
      { m := e.m &&& ~~~x, r := e.r &&& ~~~x, mPois := e.mPois ||| p, rPois := e.rPois ||| p }
        :: breakTop x p n t

/-- VMSBRK: ms & A, below vl, leaves the top n entries. -/
def execVmsbrk (o : VOp) (s : State) : Host.Outcome State Fault Refusal :=
  stackExec (.vmsbrk o) o (fun d => decide (1 ≤ o.imm16.toNat) && decide (o.imm16.toNat ≤ d)) (fun v ms =>
    breakTop (s.h.msBits &&& (s.h.vreg o.a.file o.a.ix.toNat).bits &&& v.below) (stackPois s v o.a)
      o.imm16.toNat ms) s

/-- VMSANY: 1 if any bit of ms below vl is 1. -/
def execVmsany (o : VOp) (s : State) : Host.Outcome State Fault Refusal :=
  maskExec (.vmsany o) { o with d := Opnd.absent } (fun s v =>
    slotRun s o (if (List.range v.vl).any (s.h.msBit v) then 1 else 0)
      ((List.range v.vl).any (s.h.msPois v))) s

end Sys2Proof.Machine
end

