-- ==== Sys2Proof/Machine/VMem.lean ====
section
/-! DEFINITION. Vector loads, stores, whole-register images, prefetches and atomics (08). A slice is checked
whole before it makes any access; each lane group runs to its own first failing slice (08 R179). -/

namespace Sys2Proof.Machine

/-! ## Element accesses -/

/-- The pieces of an element of `m` bits at bit `off` of a byte address: one access of whole bytes, or the bytes
that hold a sub-byte element (08 R174, R183). -/
def elemPieces (va : Word) (off m : Nat) : List (Word × Nat) :=
  if m % 8 = 0 then [(va, m / 8)]
  else (List.range ((off + m + 7) / 8)).map (fun i => (va + BitVec.ofNat 64 i, 1))

/-- The places of an element's pieces. -/
def pieceLocs (s : State) (k : AKind) : List (Word × Nat) → Except Stop (List (Loc × Nat))
  | [] => .ok []
  | (va, n) :: t =>
      match elemLoc s k va n with
      | .error e => .error e
      | .ok l =>
          match pieceLocs s k t with
          | .error e => .error e
          | .ok r => .ok ((l, n) :: r)

/-- Checks of one element in the order of R179: alignment, poison of its index, translation, windows. -/
def checkElem (s : State) (k : AKind) (va : Word) (off m : Nat) (idxPois : Bool) :
    Except Stop (List (Loc × Nat)) :=
  if m % 8 = 0 ∧ va.toNat % (m / 8) ≠ 0 then .error (Stop.of k.misaligned va)
  else if idxPois then .error (Stop.of 24 va)
  else pieceLocs s k (elemPieces va off m)

/-- Bytes of pieces, little-endian, and whether any is poisoned. -/
def readPieces (s : State) : List (Loc × Nat) → Nat × Bool
  | [] => (0, false)
  | (l, n) :: t =>
      let r := elemRead s l n
      let q := readPieces s t
      (r.1 + 2 ^ (8 * n) * q.1, r.2 || q.2)

/-- The element of `m` bits that pieces hold. -/
def readElem (s : State) (ps : List (Loc × Nat)) (off m : Nat) : Nat × Bool :=
  let r := readPieces s ps
  (r.1 / 2 ^ off % 2 ^ m, r.2)

/-- The byte at a place, past any L1 copy. -/
def homeByte (m : MemSys) (l : Loc) : Nat :=
  match l with
  | .mem pa _ => readLe m.mem pa 1
  | .spad a => readLe m.spad a 1
  | .dev _ => 0

/-- Write an element's bits; neighbours in the same byte are unchanged (R183). -/
def writeElem (s : State) (ps : List (Loc × Nat)) (off m x : Nat) (p : Bool) : State :=
  if m % 8 = 0 then
    match ps with
    | [] => s
    | (l, n) :: _ => writeLoc s s.h.id.coreNo l n x p
  else
    ((ps.zipIdx).foldl (fun (t : State) q =>
      let old := homeByte t.mem q.1.1
      let lo := off - 8 * q.2
      let skip := 8 * q.2 - off
      let n := min (8 - lo) (m - skip)
      let new := (setField (BitVec.ofNat 8 old) (lo + n - 1) lo (x / 2 ^ skip)).toNat
      writeLoc t t.h.id.coreNo q.1.1 1 new p) s)

/-! ## The frame of a memory word -/

/-- A memory word in one pass. -/
structure MemOp where
  kind : AKind
  /-- Memory bits of an element, and its format code. -/
  m : Nat
  fmt : Nat
  /-- Data operand of each field. -/
  data : List OLoc
  /-- Poison of the index element. -/
  idxPois : Hart → Nat → Bool
  /-- Address and bit offset of field `i` of element `e`. -/
  addr : Hart → Nat → Nat → Word × Nat

/-- The places of an element's fields, checked in field order. -/
def fieldLocs (s : State) (o : MemOp) (e : Nat) : List Nat → Except Stop (List (List (Loc × Nat)))
  | [] => .ok []
  | i :: t =>
      match checkElem s o.kind (o.addr s.h e i).1 (o.addr s.h e i).2 o.m (o.idxPois s.h e) with
      | .error x => .error x
      | .ok l =>
          match fieldLocs s o e t with
          | .error x => .error x
          | .ok r => .ok (l :: r)

/-- A slice: its active elements with the places of their fields, or the first failing check. -/
def sliceLocs (s : State) (o : MemOp) (act : Nat → Bool) :
    List Nat → Except (Nat × Stop) (List (Nat × List (List (Loc × Nat))))
  | [] => .ok []
  | e :: t =>
      if !act e then sliceLocs s o act t
      else
        match fieldLocs s o e (List.range o.data.length) with
        | .error x => .error (e, x)
        | .ok fs =>
            match sliceLocs s o act t with
            | .error x => .error x
            | .ok r => .ok ((e, fs) :: r)

/-- Places of the fields of element `e`. -/
def locsOf (ls : List (Nat × List (List (Loc × Nat)))) (e i : Nat) : List (Loc × Nat) :=
  ((ls.find? (fun p => decide (p.1 = e))).bind (fun p => p.2[i]?)).getD []

/-- What a load slice does: every field's register takes the converted values (R177). -/
def loadSlice (s : State) (v : VEnv) (o : MemOp) (j : Nat) (msk : Msk) (top : Nat) (es : List Nat)
    (ls : List (Nat × List (List (Loc × Nat)))) : State :=
  let h := s.h
  let env := convEnv .rne v.blk
  (o.data.zipIdx).foldl (fun (t : State) p =>
    let got := fun e => readElem s (locsOf ls e p.2) (o.addr h e p.2).2 o.m
    putGroup t { o := p.1, full := decide (msk = .none_) } v (maskBit h v msk j)
      (fun e => exact (widenElem env o.fmt v.sew (got e).1))
      (fun e => maskPois h v msk j e || (maskBit h v msk j e && (got e).2)) top es) s

/-- Poison of a stored slice: of its data and of the mask that governs it. -/
def storePois (h : Hart) (v : VEnv) (d : OLoc) (msk : Msk) (j : Nat) (es : List Nat) : Bool :=
  es.any (fun e => maskPois h v msk j e || (maskBit h v msk j e && d.pois h v e))

/-- What a store slice does: each active element is converted and written, in index order (R178, R181). -/
def storeSlice (s : State) (v : VEnv) (o : MemOp) (j : Nat) (msk : Msk) (rm : Rm) (es : List Nat)
    (ls : List (Nat × List (List (Loc × Nat)))) : State :=
  let h := s.h
  let env := convEnv rm v.blk
  ls.foldl (fun (t : State) p =>
    (o.data.zipIdx).foldl (fun (u : State) d =>
      let po := storePois h v d.1 msk j es
      let r := narrowElem env o.fmt v.sew (d.1.get h v p.1)
      let u1 := writeElem u ((p.2[d.2]?).getD []) (o.addr h p.1 d.2).2 o.m r.bits po
      u1.setH (u1.h.addFlags (if po then 0 else r.flags))) t) s

/-! ## Lane groups (06 R133; 08 R179) -/

/-- The progress of a running word: the state, each lane group's number of processed element groups, and the
failures found, with the element that failed. -/
structure LaneRun where
  st : State
  pos : List Nat
  fails : List (Nat × Nat × Stop)

/-- What a slice does: the lane group's elements of a group of a pass. -/
abbrev SliceRun := State → Nat → Nat → Nat → Except (Nat × Stop) State

def posOf (l : List Nat) (n : Nat) : Nat := (l[n]?).getD 0

/-- One lane group's slice, where the lane group stands at it and no other lane group is two behind. -/
def laneStep (v : VEnv) (run : SliceRun) (held : LaneRun → Nat → Nat → Nat → Bool) (t j q : Nat)
    (r : LaneRun) (n : Nat) : LaneRun :=
  if posOf r.pos n ≠ t ∨ (List.range v.groups).any (fun m => decide (posOf r.pos m + 2 < t + 1))
      ∨ r.fails.any (fun f => decide (f.1 = n)) ∨ held r j q n then r
  else
    match run r.st j q n with
    | .error e => { r with fails := r.fails ++ [(n, e.1, e.2)] }
    | .ok s => { r with st := s, pos := r.pos.set n (t + 1) }

/-- Every slice in order. -/
def laneRun (v : VEnv) (run : SliceRun) (held : LaneRun → Nat → Nat → Nat → Bool) :
    List ((Nat × Nat × Nat) × Nat) → LaneRun → LaneRun
  | [], r => r
  | ((j, q, _), t) :: rest, r =>
      laneRun v run held rest ((List.range v.groups).foldl (laneStep v run held t j q) r)

/-- The number of processed groups below a progress count, and back. -/
def posOfCount (plan : List (Nat × Nat × Nat)) (c : Nat) : Nat :=
  (plan.filter (fun p => decide (p.2.2 < c))).length

def countOfPos (plan : List (Nat × Nat × Nat)) (full p : Nat) : Nat :=
  match plan[p]? with
  | some x => x.2.2
  | none => full

/-- Counts of a stop, by lane group. -/
def laneCounts (v : VEnv) (plan : List (Nat × Nat × Nat)) (full : Nat) (pos : List Nat) : List Nat :=
  (List.range 8).map (fun n => if n < v.groups then countOfPos plan full (posOf pos n) else 0)

/-- The failure that is reported: the lowest-indexed element; an access to be sent again waits for that first. -/
def pickFail (fails : List (Nat × Nat × Stop)) : Option (Nat × Nat × Stop) :=
  match fails.find? (fun f => decide (f.2.2 = .retry)) with
  | some f => some f
  | none =>
      fails.foldl (fun acc f =>
        match acc with
        | none => some f
        | some g => if f.2.1 < g.2.1 then some f else some g) none

/-- Lane groups that stopped on a failure. -/
def failMask (fails : List (Nat × Nat × Stop)) : Nat :=
  (List.range 8).foldl (fun acc n => if fails.any (fun f => decide (f.1 = n)) then acc + 2 ^ n else acc) 0

/-- A word that runs lane group by lane group, over a plan with a full count. -/
def laneWord (s : State) (v : VEnv) (plan : List (Nat × Nat × Nat)) (full : Nat) (run : SliceRun)
    (held : LaneRun → Nat → Nat → Nat → Bool) (done : State → State) : State :=
  let cs := s.h.counts
  let r := laneRun v run held plan.zipIdx
    { st := s, pos := (List.range v.groups).map (fun n => posOfCount plan ((cs[n]?).getD 0)), fails := [] }
  match pickFail r.fails with
  | none => completeWord (done r.st)
  | some f => haltWord r.st (laneCounts v plan full r.pos) (VStop.of f.2.2) (failMask r.fails)

/-- Elements of a lane group's slice. -/
def VEnv.laneElems (v : VEnv) (q n : Nat) : List Nat :=
  (v.elems q).filter (fun e => decide (v.lgOf e = n))

/-! ## Loads and stores -/

/-- A bound register is an operand's storage. -/
def OLoc.isBound (d : OLoc) (h : Hart) : Bool := decide (d.file = .v) && (h.bindOf d.ix).isSome

/-- The length that a destination's high-water mark follows in group `q`: a bound register keeps its own. -/
def topOf (h : Hart) (v : VEnv) (ds : List OLoc) (q : Nat) : Nat :=
  if ds.any (fun d => d.isBound h) then 0 else min v.vl ((q + 1) * v.ege)

/-- The slice of a load or store word. -/
def memSlice (v : VEnv) (op : Nat → MemOp) (msk : Msk) (rm : Rm) : SliceRun := fun s j q n =>
  let o := op j
  let es := v.laneElems q n
  match sliceLocs s o (maskBit s.h v msk j) es with
  | .error e => .error e
  | .ok ls =>
      if o.kind = .load then .ok (loadSlice s v o j msk (topOf s.h v o.data q) es ls)
      else .ok (storeSlice s v o j msk rm es ls)

/-- Byte ranges of two elements share a byte. -/
def bytesMeet (a b : Word × Nat) (m : Nat) : Bool :=
  decide (a.1.toNat < b.1.toNat + (b.2 + m + 7) / 8) && decide (b.1.toNat < a.1.toNat + (a.2 + m + 7) / 8)

/-- A slice of a store waits where a lower-indexed element that a stopped lane group has not performed shares a
byte with it (R182, R195). -/
def storeHeld (v : VEnv) (op : Nat → MemOp) (msk : Msk) : LaneRun → Nat → Nat → Nat → Bool := fun r j q n =>
  r.fails ≠ [] && decide ((op j).kind ≠ .load) &&
    (r.fails.any (fun f => decide (posOf r.pos f.1 < j * v.nq)) ||
     (v.laneElems q n).any (fun e =>
      maskBit r.st.h v msk j e &&
      (List.range e).any (fun x =>
        maskBit r.st.h v msk j x && decide (posOf r.pos (v.lgOf x) ≤ j * v.nq + x / v.ege)
          && decide (v.lgOf x ≠ n)
          && bytesMeet ((op j).addr r.st.h x 0) ((op j).addr r.st.h e 0) (op j).m)))

/-- Tails of a load's fields. -/
def loadTails (v : VEnv) (op : Nat → MemOp) (lo : Nat) (s : State) : State :=
  if lo = 0 then s
  else
    (List.range v.passes).foldl (fun t j =>
      if (op j).kind = .load then
        (op j).data.foldl (fun u d =>
          if d.isBound u.h then u else putTail u { o := d, full := false } v lo) t
      else t) s

/-- Every lane group's slice of a group. -/
def sliceAll (v : VEnv) (slice : SliceRun) (q : Nat) : List Nat → State → Except Stop State
  | [], s => .ok s
  | n :: t, s =>
      match slice s 0 q n with
      | .error e => .error e.2
      | .ok s' => sliceAll v slice q t s'

/-- Masked-off and tail positions of a pushed group carry zero (06 R145). -/
def zeroIdle (s : State) (v : VEnv) (d : OLoc) (q : Nat) (act : Nat → Bool) : State :=
  s.setH ((List.range' (q * v.ege) v.ege).foldl (fun h e =>
    if act e && decide (e < v.vl) then h else d.put h v e 0) s.h)

/-- Group `q` of a word that names a bound register: pops, every slice's checks, the accesses, and a push; the
whole group stops together (06 R148). -/
def boundGroup (s : State) (v : VEnv) (op : Nat → MemOp) (msk : Msk) (rm : Rm) (pops : List Nat)
    (slice : SliceRun) (q : Nat) : Except (VStop × Nat) State :=
  match popAll s v q pops with
  | .error e => .error (e, v.allGroups)
  | .ok s1 =>
      let fails := (List.range v.groups).filterMap (fun n =>
        match sliceLocs s1 (op 0) (maskBit s1.h v msk 0) (v.laneElems q n) with
        | .error e => some (n, e.1, e.2)
        | .ok _ => none)
      match pickFail fails with
      | some f => .error (VStop.of f.2.2, failMask fails)
      | none =>
          let dst := (op 0).data.filter (fun d => decide ((op 0).kind ≠ .store) && d.isBound s1.h)
          let h := s1.h
          let s2 := dst.foldl (fun t d => if pops.contains d.ix then t else clearGroup t v d.ix q) s1
          match sliceAll v slice q (List.range v.groups) s2 with
          | .error e => .error (VStop.of e, v.allGroups)
          | .ok t =>
              match dst with
              | [] => .ok t
              | d :: _ =>
                  match pushReg (zeroIdle t v d q (maskBit h v msk 0)) v q d.ix rm (maskBit h v msk 0) with
                  | .error e => .error (e, v.allGroups)
                  | .ok u => .ok u

/-- The groups of a word that names a bound register. -/
def boundRun (v : VEnv) (op : Nat → MemOp) (msk : Msk) (rm : Rm) (pops : List Nat) (slice : SliceRun)
    (cs : List Nat) : List (Nat × Nat × Nat) → State → Except (State × Nat × VStop × Nat) State
  | [], s => .ok s
  | (_, q, idx) :: t, s =>
      if (List.range v.groups).all (fun n => laneDone cs n idx) then
        boundRun v op msk rm pops slice cs t s
      else
        match boundGroup s v op msk rm pops slice q with
        | .error e => .error (s, idx, e.1, e.2)
        | .ok u => boundRun v op msk rm pops slice cs t u

/-- Bound v registers among operands that are read. -/
def boundOf (h : Hart) (os : List Opnd) : List Nat :=
  ((os.filter (fun o => decide (o.file = .v) && (h.bindOf o.ix.toNat).isSome)).map
    (fun o => o.ix.toNat)).eraseDups

/-- A load, store or atomic word: lane group by lane group, or group by group where it names a bound
register. -/
def memWord (s : State) (v : VEnv) (op : Nat → MemOp) (msk : Msk) (rm : Rm) (reads writes : List Opnd)
    (slice : SliceRun) (lo : Nat) : State :=
  if boundOf s.h (reads ++ writes) = [] then
    laneWord s v v.plan (v.neg * v.gp) slice (storeHeld v op msk) (loadTails v op lo)
  else
    let cs := s.h.counts
    match boundRun v op msk rm (boundOf s.h reads) slice cs v.plan s with
    | .ok t => completeWord (loadTails v op lo t)
    | .error (t, idx, e, lg) => haltWord t (stopAt v cs idx) e lg

/-! ## Address forms (R185 to R188, R193) -/

/-- The virtual element that element `e` of pass `j` stands for (20 R427). -/
def VEnv.velem (v : VEnv) (j e : Nat) : Nat := j * v.vl + e

/-- The base address. -/
def VEnv.base (v : VEnv) (b : BSrc) : Word :=
  match b with
  | .k n => v.kval n
  | .reg _ => 0
  | .imm _ => 0

/-- Element `n` of packed elements of `m` bits from a base. -/
def unitAddr (base : Word) (m n : Nat) : Word × Nat :=
  (base + BitVec.ofNat 64 (n * m / 8), if m % 8 = 0 then 0 else n * m % 8)

/-- Index width IW. -/
def VEnv.iw (v : VEnv) : Nat := max v.sew 32

/-- Address of an indexed element: k[B] + sext(index[e]). -/
def idxAddr (v : VEnv) (base : Word) (x : OLoc) (h : Hart) (e : Nat) : Word :=
  base + BitVec.ofInt 64 (intOf true v.iw (x.get h v e))

/-- The data operand of pass `j`. -/
def memOne (v : VEnv) (kind : AKind) (fmt : Nat) (d : Opnd) (addr : Nat → Hart → Nat → Nat → Word × Nat)
    (j : Nat) : MemOp :=
  { kind := kind, m := fmtBits fmt v.sew, fmt := fmt, data := [v.loc j d v.sew],
    idxPois := fun _ _ => false, addr := addr j }

/-- FMT of a memory word. -/
def memFmtOf (o : VOp) : Nat := fieldOf o.imm16 3 0

/-- Rules of vcfg of a word with one data operand; `sub` permits a sub-byte memory element (R173). -/
def memCfgOk (v : VEnv) (o : VOp) (d : Opnd) (sub : Bool) : Bool :=
  fmtPairs (memFmtOf o) v.sew && (sub || decide (8 ≤ fmtBits (memFmtOf o) v.sew)) && v.mskOk o.msk
    && v.fits d v.sew

/-- A load word: checks, then its slices. -/
def loadExec (i : Instr) (o : VOp) (cfg : VEnv → Bool) (reads : List Opnd) (idxW : VEnv → Nat)
    (op : VEnv → Nat → MemOp) (s : State) : Host.Outcome State Fault Refusal :=
  blockWord s
    (fun b =>
      let v := venvOf s b
      wordGuard s b i o.rm (cfg v)
        (s.h.writeOk v o.d v.sew && reads.all (fun r => s.h.readOk v r (idxW v))))
    (fun b =>
      let v := venvOf s b
      memWord s v (op v) o.msk o.rm reads [o.d] (memSlice v (op v) o.msk o.rm) v.vl)

/-- A store word. -/
def storeExec (i : Instr) (o : VOp) (cfg : VEnv → Bool) (idx : Opnd) (idxW : VEnv → Nat)
    (op : VEnv → Nat → MemOp) (s : State) : Host.Outcome State Fault Refusal :=
  blockWord s
    (fun b =>
      let v := venvOf s b
      wordGuard s b i o.rm (cfg v) (s.h.readOk v o.a v.sew && s.h.readOk v idx (idxW v)))
    (fun b =>
      let v := venvOf s b
      memWord s v (op v) o.msk o.rm [o.a, idx] [] (memSlice v (op v) o.msk o.rm) v.vl)

/-! ## Unit-stride, strided, indexed and segment accesses -/

def unitOp (kind : AKind) (d : Opnd) (o : VOp) (v : VEnv) (j : Nat) : MemOp :=
  memOne v kind (memFmtOf o) d
    (fun j _ e _ => unitAddr (v.base o.b) (fmtBits (memFmtOf o) v.sew) (v.velem j e)) j

/-- VLE: element e from base + e × M ÷ 8. -/
def execVle (o : VOp) (s : State) : Host.Outcome State Fault Refusal :=
  loadExec (.vle o) o (fun v => memCfgOk v o o.d true) [] (fun v => v.sew) (unitOp .load o.d o) s

/-- VSE: element e to base + e × M ÷ 8. -/
def execVse (o : VOp) (s : State) : Host.Outcome State Fault Refusal :=
  storeExec (.vse o) o (fun v => memCfgOk v o o.a true) Opnd.absent (fun v => v.sew)
    (unitOp .store o.a o) s

/-- The k register that holds a stride. -/
def strideOf (v : VEnv) (o : VOp) : Word := v.kval (o.imm16.extractLsb' 4 3)

def strideOp (kind : AKind) (d : Opnd) (o : VOp) (v : VEnv) (j : Nat) : MemOp :=
  memOne v kind (memFmtOf o) d
    (fun j _ e _ => (v.base o.b + BitVec.ofNat 64 (v.velem j e) * strideOf v o, 0)) j

/-- VLSE: element e from k[B] + e × k[S]. -/
def execVlse (o : VOp) (s : State) : Host.Outcome State Fault Refusal :=
  loadExec (.vlse o) o (fun v => memCfgOk v o o.d false) [] (fun v => v.sew) (strideOp .load o.d o) s

/-- VSSE: element e to k[B] + e × k[S]. -/
def execVsse (o : VOp) (s : State) : Host.Outcome State Fault Refusal :=
  storeExec (.vsse o) o (fun v => memCfgOk v o o.a false) Opnd.absent (fun v => v.sew)
    (strideOp .store o.a o) s

def indexOp (kind : AKind) (d x : Opnd) (o : VOp) (v : VEnv) (j : Nat) : MemOp :=
  { memOne v kind (memFmtOf o) d
      (fun j h e _ => (idxAddr v (v.base o.b) (v.loc j x v.iw) h e, 0)) j with
    idxPois := fun h e => (v.loc j x v.iw).pois h v e }

/-- VLXE: element e from k[B] + sext(index[e]). -/
def execVlxe (o : VOp) (s : State) : Host.Outcome State Fault Refusal :=
  loadExec (.vlxe o) o (fun v => memCfgOk v o o.d false && v.fits o.a v.iw) [o.a] (fun v => v.iw)
    (indexOp .load o.d o.a o) s

/-- VSXE: element e to k[B] + sext(index[e]). -/
def execVsxe (o : VOp) (s : State) : Host.Outcome State Fault Refusal :=
  storeExec (.vsxe o) o (fun v => memCfgOk v o o.a false && v.fits o.c v.iw) o.c (fun v => v.iw)
    (indexOp .store o.a o.c o) s

/-- f of a segment word. -/
def segF (o : VOp) : Nat := fieldOf o.imm16 6 4 + 1

/-- Segments: each field is a group of its own (03 R61, 20 R427). -/
def segCfgOk (v : VEnv) (o : VOp) (d : Opnd) : Bool :=
  let g := v.lmul * v.passes
  fmtPairs (memFmtOf o) v.sew && decide (8 ≤ fmtBits (memFmtOf o) v.sew) && v.mskOk o.msk
    && decide (d.ix.toNat % g = 0) && decide (segF o * g ≤ 8) && decide (d.ix.toNat + segF o * g ≤ 32)

def segOp (kind : AKind) (d : Opnd) (o : VOp) (v : VEnv) (j : Nat) : MemOp :=
  let m := fmtBits (memFmtOf o) v.sew
  { kind := kind, m := m, fmt := memFmtOf o, idxPois := fun _ _ => false,
    data := (List.range (segF o)).map (fun i =>
      { file := .v, ix := d.ix.toNat + i * v.lmul * v.passes + j * v.lmul, w := v.sew }),
    addr := fun _ e i => unitAddr (v.base o.b) m (v.velem j e * segF o + i) }

/-- A segment word names no bound register: its data group has more than one register (06 R147). -/
def segUnbound (h : Hart) (v : VEnv) (o : VOp) (d : Opnd) : Bool :=
  !h.anyBound d (segF o * v.lmul * v.passes)

/-- VLSEG: field i of segment e into element e of its group. -/
def execVlseg (o : VOp) (s : State) : Host.Outcome State Fault Refusal :=
  blockWord s
    (fun b => wordGuard s b (.vlseg o) o.rm (segCfgOk (venvOf s b) o o.d) (segUnbound s.h (venvOf s b) o o.d))
    (fun b =>
      let v := venvOf s b
      memWord s v (segOp .load o.d o v) o.msk o.rm [] []
        (memSlice v (segOp .load o.d o v) o.msk o.rm) v.vl)

/-- VSSEG: the converse. -/
def execVsseg (o : VOp) (s : State) : Host.Outcome State Fault Refusal :=
  blockWord s
    (fun b => wordGuard s b (.vsseg o) o.rm (segCfgOk (venvOf s b) o o.a) (segUnbound s.h (venvOf s b) o o.a))
    (fun b =>
      let v := venvOf s b
      memWord s v (segOp .store o.a o v) o.msk o.rm [] []
        (memSlice v (segOp .store o.a o v) o.msk o.rm) v.vl)

/-! ## Fault-first loads (R189) -/

/-- Checks of the active elements in index order: the first that fails, if any. -/
def firstFail (s : State) (v : VEnv) (o : MemOp) (msk : Msk) : List Nat → Option (Nat × Stop)
  | [] => none
  | e :: t =>
      if !maskBit s.h v msk 0 e then firstFail s v o msk t
      else
        let a := o.addr s.h e 0
        match checkElem s o.kind a.1 a.2 o.m false with
        | .error x => some (e, x)
        | .ok _ => firstFail s v o msk t

/-- The length at which a fault-first load cuts off: none where its first active element fails, which traps, or
where an access must be sent again. -/
def ffCut (s : State) (v : VEnv) (o : MemOp) (msk : Msk) : Option Nat :=
  match firstFail s v o msk (List.range v.vl) with
  | none => some v.vl
  | some (e, x) =>
      if x = .retry ∨ (List.range v.vl).find? (maskBit s.h v msk 0) = some e then none else some e

def vlffRun (o : VOp) (s : State) (v : VEnv) : State :=
  let op := unitOp .load o.d o
  match ffCut s v (op v 0) o.msk with
  | none => memWord s v (op v) o.msk o.rm [] [o.d] (memSlice v (op v) o.msk o.rm) v.vl
  | some c =>
      let u : VEnv := { v with vl := c }
      let t := memWord s u (op u) o.msk o.rm [] [o.d] (memSlice u (op u) o.msk o.rm)
        (if v.vl = 0 then 0 else c)
      if t.h.vu.wix = s.h.vu.wix + 1 then
        t.setSlot (fieldOf o.imm16 5 4) (BitVec.ofNat 64 c) false
      else t

/-- VLFF: elements below the first failing check, whose index goes to the slot. -/
def execVlff (o : VOp) (s : State) : Host.Outcome State Fault Refusal :=
  blockWord s
    (fun b =>
      let v := venvOf s b
      wordGuard s b (.vlff o) o.rm (memCfgOk v o o.d true && decide (v.passes = 1)) (s.h.writeOk v o.d v.sew))
    (fun b => vlffRun o s (venvOf s b))

/-! ## Whole-register images (R190) -/

/-- The plan of an image of `g` registers: every slice, at NEG × g element groups (06 R132). -/
def imagePlan (v : VEnv) (g : Nat) : List (Nat × Nat × Nat) :=
  (List.range (v.neg * g)).map (fun q => (0, q, q))

/-- Register, slice and address of lane group `n` of group `q`. -/
def imageAddr (v : VEnv) (base : Word) (q n : Nat) : Word :=
  base + BitVec.ofNat 64 (q * (16 * v.lanes) + 64 * n)

/-- A slice loaded: 64 bytes, with the granule's poison. -/
def vlwrSlice (v : VEnv) (base : Word) (d : Nat) : SliceRun := fun s _ q n =>
  let va := imageAddr v base q n
  match elemLoc s .load va 64 with
  | .error e => .error (q * v.groups + n, e)
  | .ok l =>
      let x := elemRead s l 64
      let r := d + q / v.neg
      let lo := q % v.neg * (128 * v.lanes) + 512 * n
      let old := s.h.vreg .v r
      let bits := if x.2 then (Config.free v.tick r 16384).toNat / 2 ^ lo else x.1
      let pois := if q % v.neg = 0 ∨ x.2 then setField old.pois n n (if x.2 then 1 else 0) else old.pois
      .ok (s.setH (s.h.setVreg .v r { old.put lo 512 bits with pois := pois, hwm := v.vlen / 8 }))

/-- A slice stored, with its poison. -/
def vswrSlice (v : VEnv) (base : Word) (a : Nat) : SliceRun := fun s _ q n =>
  let va := imageAddr v base q n
  match elemLoc s .store va 64 with
  | .error e => .error (q * v.groups + n, e)
  | .ok l =>
      let r := s.h.vreg .v (a + q / v.neg)
      .ok (writeLoc s s.h.id.coreNo l 64 (r.get (q % v.neg * (128 * v.lanes) + 512 * n) 512)
        (r.pois.getLsbD n))

def imageExec (i : Instr) (o : VOp) (d : Opnd) (slice : VEnv → SliceRun) (s : State) :
    Host.Outcome State Fault Refusal :=
  blockWord s
    (fun b =>
      let v := venvOf s b
      wordGuard s b i o.rm (decide (v.passes = 1)) (!s.h.anyBound d (wholeG o.imm16)))
    (fun b =>
      let v := venvOf s b
      laneWord s v (imagePlan v (wholeG o.imm16)) (v.neg * wholeG o.imm16) (slice v)
        (fun _ _ _ _ => false) id)

/-- VLWR: g whole registers from a base that is a multiple of 64. -/
def execVlwr (o : VOp) (s : State) : Host.Outcome State Fault Refusal :=
  imageExec (.vlwr o) o o.d (fun v => vlwrSlice v (v.base o.b) o.d.ix.toNat) s

/-- VSWR: g whole registers to a base. -/
def execVswr (o : VOp) (s : State) : Host.Outcome State Fault Refusal :=
  imageExec (.vswr o) o o.a (fun v => vswrSlice v (v.base o.b) o.a.ix.toNat) s

/-! ## Prefetch (R192) -/

/-- VPREF: no architectural effect. -/
def execVpref (o : VOp) (s : State) : Host.Outcome State Fault Refusal :=
  blockWord s
    (fun b =>
      let v := venvOf s b
      wordGuard s b (.vpref o) o.rm (fmtPairs (memFmtOf o) v.sew && v.mskOk o.msk) true)
    (fun _ => completeWord s)

/-! ## Vector atomics (R193 to R195) -/

/-- The value that an operation stores (Table 8.2). -/
def vamoVal (op : VAmoOp) (w o c d : Nat) : Nat :=
  match op with
  | .add => (o + c) % 2 ^ w
  | .and => o &&& c
  | .or => o ||| c
  | .xor => o ^^^ c
  | .min => if sx w o ≤ sx w c then o else c
  | .max => if sx w o ≤ sx w c then c else o
  | .minu => min o c
  | .maxu => max o c
  | .swap => c
  | .cas => if o = d then c else o

/-- One atomic element: the memory after it, the old value and whether that is poisoned. A poisoned operand,
compare value or granule performs no arithmetic: the old bits go back, and the granule becomes poisoned. -/
def vamoElem (s : State) (v : VEnv) (op : VAmoOp) (l : Loc) (c d : Nat) (p : Bool) : State × Nat × Bool :=
  let n := v.sew / 8
  let old := loadLoc { s.mem with l1 := [] } s.h.id.coreNo l n
  let bad := p || poisonedLoc s l n
  (writeLoc s s.h.id.coreNo l n (if bad then old else vamoVal op v.sew old c d) bad, old, bad)

/-- The active elements of a slice in index order, with the old values they return. -/
def vamoElems (v : VEnv) (op : VAmoOp) (get : Nat → Nat × Nat × Bool) :
    List (Nat × List (List (Loc × Nat))) → State → State × List (Nat × Nat × Bool)
  | [], s => (s, [])
  | (e, fs) :: t, s =>
      match fs.head?.bind List.head? with
      | none => vamoElems v op get t s
      | some l =>
          let g := get e
          let r := vamoElem s v op l.1 g.1 g.2.1 g.2.2
          let q := vamoElems v op get t r.1
          (q.1, (e, r.2) :: q.2)

/-- A slice of VAMO: its element operations, then its old values into the destination. -/
def vamoSlice (v : VEnv) (op : VAmoOp) (o : VOp) (mop : Nat → MemOp) : SliceRun := fun s j q n =>
  let es := v.laneElems q n
  match sliceLocs s (mop j) (maskBit s.h v o.msk j) es with
  | .error e => .error e
  | .ok ls =>
      let h := s.h
      let c := v.loc j o.c v.sew
      let d := v.loc j o.d v.sew
      let cas := decide (op = .cas)
      let cp := es.any (fun e => maskPois h v o.msk j e ||
        (maskBit h v o.msk j e && (c.pois h v e || (cas && d.pois h v e))))
      let r := vamoElems v op (fun e => (c.get h v e, if cas then d.get h v e else 0, cp)) ls s
      if o.d.file = .none_ then .ok r.1
      else
        let find := fun e => ((r.2.find? (fun p => decide (p.1 = e))).map (fun p => p.2)).getD (0, false)
        .ok (putGroup r.1 { o := d, full := decide (o.msk = .none_) } v (maskBit h v o.msk j)
          (fun e => exact (find e).1)
          (fun e => maskPois h v o.msk j e || (maskBit h v o.msk j e && (find e).2))
          (topOf h v [d] q) es)

/-- The accesses of VAMO; its destination stands as the data operand. -/
def vamoOp (o : VOp) (v : VEnv) (j : Nat) : MemOp :=
  { indexOp .amo (if o.d.file = .none_ then o.c else o.d) o.a o v j with m := v.sew, fmt := 0 }

def vamoCfgOk (v : VEnv) (o : VOp) : Bool :=
  (decide (v.sew = 32) || decide (v.sew = 64)) && v.mskOk o.msk && v.fits o.d v.sew && v.fits o.c v.sew
    && v.fits o.a v.iw

/-- Tail of the old-value destination. -/
def vamoTails (v : VEnv) (o : VOp) (s : State) : State :=
  if v.vl = 0 ∨ o.d.file = .none_ then s
  else
    (List.range v.passes).foldl (fun t j =>
      if (v.loc j o.d v.sew).isBound t.h then t
      else putTail t { o := v.loc j o.d v.sew, full := false } v v.vl) s

def vamoRun (op : VAmoOp) (o : VOp) (s : State) (v : VEnv) : State :=
  let mop := vamoOp o v
  let slice := vamoSlice v op o mop
  let reads := [o.a, o.c] ++ (if op = .cas then [o.d] else [])
  if boundOf s.h (reads ++ [o.d]) = [] then
    laneWord s v v.plan (v.neg * v.gp) slice (storeHeld v mop o.msk) (vamoTails v o)
  else
    let cs := s.h.counts
    match boundRun v mop o.msk o.rm (boundOf s.h reads) slice cs v.plan s with
    | .ok t => completeWord (vamoTails v o t)
    | .error (t, idx, e, lg) => haltWord t (stopAt v cs idx) e lg

/-- VAMO: an atomic read-modify-write for each active element. -/
def execVamo (op : VAmoOp) (o : VOp) (s : State) : Host.Outcome State Fault Refusal :=
  blockWord s
    (fun b =>
      let v := venvOf s b
      wordGuard s b (.vamo op o) o.rm (vamoCfgOk v o)
        (s.h.writeOk v o.d v.sew && s.h.readOk v o.a v.iw && s.h.readOk v o.c v.sew
          && (decide (op ≠ .cas) || s.h.readOk v o.d v.sew)))
    (fun b => vamoRun op o s (venvOf s b))

end Sys2Proof.Machine
end

