-- ==== Sys2Proof/Machine/Bind.lean ====
section
/-! DEFINITION. Binding and unbinding v28 to v31, channel transfers, VLSYNC and VSTOP (06 R139 to R149; 16
R356; 17 R369). -/

namespace Sys2Proof.Machine

/-- The v register that a bind word names. -/
def bindIx (d : BitVec 2) : Nat := 28 + d.toNat

/-- The 64 bytes at the descriptor's address as eight doublewords; undefined where they are poisoned. -/
def descWords (s : State) (l : Loc) : Nat :=
  let r := elemRead s l 64
  if r.2 then (Config.free s.tick 0 512).toNat else r.1

/-- A descriptor from its bytes (Table 6.5). -/
def descOf (x : Nat) : StreamDesc :=
  let b : BitVec 512 := BitVec.ofNat 512 x
  { base := b.extractLsb' 0 64, str0 := b.extractLsb' 64 64, str1 := b.extractLsb' 128 64,
    str2 := b.extractLsb' 192 64, str3 := b.extractLsb' 256 64, cnt0 := b.extractLsb' 320 32,
    cnt1 := b.extractLsb' 352 32, cnt2 := b.extractLsb' 384 32, cnt3 := b.extractLsb' 416 32,
    fmt := b.extractLsb' 448 8 }

/-- FMT of a stream: a code that VLE accepts at the SEW, with whole-byte elements (R142). -/
def streamFmtOk (fmt sew : Nat) : Bool :=
  decide (fmt ≤ 8) && fmtPairs fmt sew && decide (fmtBits fmt sew % 8 = 0)

/-- A descriptor is valid at a SEW (R142); `x` is its 64 bytes. -/
def descOk (x sew : Nat) : Bool :=
  let d := descOf x
  let m := fmtBits d.fmt.toNat sew / 8
  streamFmtOk d.fmt.toNat sew && decide (1 ≤ d.cnt0.toNat) && decide (1 ≤ d.cnt1.toNat)
    && decide (1 ≤ d.cnt2.toNat) && decide (1 ≤ d.cnt3.toNat) && decide (d.total ≤ 2 ^ 40)
    && decide (d.base.toNat % m = 0) && decide (d.str0.toNat % m = 0) && decide (d.str1.toNat % m = 0)
    && decide (d.str2.toNat % m = 0) && decide (d.str3.toNat % m = 0) && decide (x / 2 ^ 456 = 0)

def Binding.isChan : Binding → Bool
  | .chan _ => true
  | .streamIn _ _ _ | .streamOut _ _ _ | .frag _ _ _ => false

def Binding.isFrag : Binding → Bool
  | .frag _ _ _ => true
  | .streamIn _ _ _ | .streamOut _ _ _ | .chan _ => false

/-- Some register holds a binding of a kind. -/
def Hart.holds (h : Hart) (p : Binding → Bool) : Bool :=
  h.vu.bind.toList.any (fun b => (b.map p).getD false)

def GangKind.isFrag : GangKind → Bool
  | .fragment _ _ _ _ => true
  | .compute | .geometry _ _ _ _ _ => false

/-- The hart is a member of a fragment gang (15 R338). -/
def State.inFragGang (s : State) : Bool := (s.myGang.map (fun g => g.kind.isFrag)).getD false

/-- The register's elements become undefined, its mark and its poison 0 (R139). -/
def resetBound (s : State) (r : Nat) (b : Option Binding) : State :=
  s.setH ((s.h.setVreg .v r { bits := Config.free s.tick r 16384, pois := 0, hwm := 0 }).setBind r b)

/-- The ends of the member's rings, opened or closed. -/
def setEnds (s : State) (open_ : Bool) : State :=
  match s.myGang with
  | none => s
  | some g =>
      (s.updMyRing s.h.id.member (fun r =>
        { r with recvOpen := r.recvOpen || open_, recvClosed := !open_,
                 groups := if open_ then r.groups else [] })).updMyRing
        ((s.h.id.member + 1) % g.size) (fun r => { r with sendClosed := !open_ })

/-- The SEW code of a block's vcfg. -/
def sewCode (b : Block) : BitVec 3 := b.vcfg.extractLsb' 0 3

/-- A stream binding from its descriptor, or why VBIND stops (R141). -/
def bindStream (s : State) (v : VEnv) (i : Instr) (k : BitVec 3) (mk : BitVec 3 → StreamDesc → Nat → Binding)
    (r : Nat) : Except Stop State :=
  let va := v.kval k
  match elemLoc s .load va 64 with
  | .error e => .error e
  | .ok l =>
      let x := descWords s l
      if descOk x v.sew then .ok (resetBound s r (some (mk (sewCode v.blk) (descOf x) 0)))
      else .error (illegal i.word)

/-- VBIND once the checks that need no descriptor have passed. -/
def bindRun (s : State) (v : VEnv) (i : Instr) (r : Nat) (src : BindSrc) : Except Stop State :=
  match src with
  | .streamIn k => bindStream s v i k .streamIn r
  | .streamOut k => bindStream s v i k .streamOut r
  | .chan => .ok (resetBound (setEnds s.withGang true) r (some (.chan (sewCode v.blk))))
  | .frag => .ok (resetBound s r (some (.frag (sewCode v.blk) 0 false)))

/-- The register is free, and the binding is the hart's first of its kind (R141). -/
def bindFree (s : State) (r : Nat) (src : BindSrc) : Bool :=
  (s.h.bindOf r).isNone &&
    (match src with
     | .streamIn _ | .streamOut _ => true
     | .chan => !s.h.holds Binding.isChan
     | .frag => !s.h.holds Binding.isFrag && s.inFragGang)

/-- VBIND (R140, R141). -/
def execVbind (d : BitVec 2) (src : BindSrc) (s : State) : Host.Outcome State Fault Refusal :=
  match s.h.vu.blocks with
  | [] => .fault .noBlock
  | b :: _ =>
      let v := venvOf s b
      let i := Instr.vbind d src
      match wordGuard s b i .rne (decide (v.passes = 1)) (bindFree s (bindIx d) src) with
      | some e => .next (raiseV e 0 s)
      | none =>
          match bindRun s v i (bindIx d) src with
          | .error e => .next (haltWord s (stopAt v s.h.counts 0) (VStop.of e) v.allGroups)
          | .ok t => .next (completeWord t)

/-- VUNBIND's effect: a channel closes both ends and discards its inbound groups (R149). -/
def unbindRun (s : State) (r : Nat) : State :=
  match s.h.bindOf r with
  | none => s
  | some b => resetBound (if b.isChan then setEnds s false else s) r none

/-- VUNBIND. -/
def execVunbind (d : BitVec 2) (s : State) : Host.Outcome State Fault Refusal :=
  blockWord s
    (fun b => wordGuard s b (.vunbind d) .rne (decide (vpassOf b.vcfg = 1)) true)
    (fun _ => completeWord (unbindRun s (bindIx d)))

/-- VLSYNC orders the accesses before it, which the model has performed already, and drops the sampler's
texels (16 R356, 12 R266). -/
def execVlsync (s : State) : Host.Outcome State Fault Refusal :=
  blockWord s (fun b => wordGuard s b .vlsync .rne true true)
    (fun _ => completeWord (s.setH { s.h with texels := [] }))

/-- The oldest block completes (17 R369). -/
def endBlock (s : State) : State :=
  let h := s.h.setBlocks s.h.vu.blocks.tail 0
  (s.setH { h with vu := { h.vu with ringWait := false } }).tickUp

/-- VSTOP: the block ends. It runs whatever vcfg holds (02 Table 2.8, 20 R427). -/
def execVstop (s : State) : Host.Outcome State Fault Refusal :=
  blockWord s
    (fun _ => if s.h.c.vstat.getLsbD 0 then some (Stop.of 25 Instr.vstop.word) else none)
    (fun _ => endBlock s)

/-- A ring or stream that the hart waits on has data, room or an end. -/
def ringReady (s : State) : Bool :=
  let inb := match s.ringOf s.h.id.member with
    | none => false
    | some r => decide (r.groups ≠ []) || r.sendClosed
  let outb := match s.myGang.bind (fun g => g.rings[(s.h.id.member + 1) % g.size]?) with
    | none => false
    | some r => decide (r.groups.length < 4) || r.recvClosed
  let frag := match s.fragStream with
    | none => false
    | some f => f.ended || decide (f.queue ≠ [])
  (s.h.holds Binding.isChan && (inb || outb)) || (s.h.holds Binding.isFrag && frag)

/-- CHANNEL_RING_TRANSFER: the waiting word goes on; its next run makes the pop or push (R145). -/
def execChannelRingTransfer (s : State) : Host.Outcome State Fault Refusal :=
  event "CHANNEL_RING_TRANSFER"
    (if s.h.vu.ringWait && ringReady s then
      some (s.setH { s.h with vu := { s.h.vu with ringWait := false } }) else none)

end Sys2Proof.Machine
end

