-- ==== Sys2Proof/Machine/Message.lean ====
section
/-! DEFINITION. Messages between contexts, inboxes, fault replies and shape-change notices (17 R375 to
R378, R381; 04 R84; 19 R416, R417). -/

namespace Sys2Proof.Machine

/-- Apply a change of the current hart to the hart record that satisfies `p`, as if it were current. -/
def State.onHart (s : State) (p : Hart → Bool) (f : State → State) : State :=
  if p s.h then f s
  else
    match s.others.findIdx? p with
    | none => s
    | some n => (f (s.swapHart n)).swapHart n

/-! ## Inboxes (19 R417) -/

/-- An inbox entry. -/
structure InboxEntry where
  yix : Nat
  kind : Nat
  sender : ContId
  lcnt : BitVec 48
  payload : BitVec 512
  deriving DecidableEq, Repr

def InboxEntry.toNat (e : InboxEntry) : Nat :=
  e.yix + e.kind * 2 ^ 8 + e.sender.toNat * 2 ^ 32 + e.lcnt.toNat * 2 ^ 64 + e.payload.toNat * 2 ^ 512

def InboxEntry.ofNat (n : Nat) : InboxEntry :=
  { yix := n % 256, kind := n / 2 ^ 8 % 256, sender := BitVec.ofNat 32 (n / 2 ^ 32),
    lcnt := BitVec.ofNat 48 (n / 2 ^ 64), payload := BitVec.ofNat 512 (n / 2 ^ 512) }

/-- Partition address of a context's inbox. -/
def Hart.inbox (k : Hart) : Nat := k.c.ctxarea.toNat + 0x1000

def inboxHead (s : State) (k : Hart) : Nat := (s.readPart k.id.part k.inbox 4).getD 0
def inboxTail (s : State) (k : Hart) : Nat := (s.readPart k.id.part (k.inbox + 4) 4).getD 0

/-- Entries held, at most 31. -/
def inboxCount (s : State) (k : Hart) : Nat :=
  min 31 ((inboxTail s k + 2 ^ 32 - inboxHead s k) % 2 ^ 32)

/-- Address of the `j`-th entry from the head. -/
def inboxSlot (s : State) (k : Hart) (j : Nat) : Nat := k.inbox + 128 + 128 * ((inboxHead s k + j) % 31)

def inboxEntry (s : State) (k : Hart) (j : Nat) : InboxEntry :=
  InboxEntry.ofNat ((s.readPart k.id.part (inboxSlot s k j) 128).getD 0)

def inboxEntries (s : State) (k : Hart) : List InboxEntry :=
  (List.range (inboxCount s k)).map (inboxEntry s k)

/-- Append an entry; none while the inbox is full or cannot be written. -/
def inboxAppend (s : State) (k : Hart) (e : InboxEntry) : Option State :=
  if 31 ≤ inboxCount s k then none
  else
    (s.writePart k.id.part (inboxSlot s k (inboxCount s k)) 128 e.toNat).bind (fun t =>
      t.writePart k.id.part (k.inbox + 4) 4 ((inboxTail s k + 1) % 2 ^ 32))

/-- Move the entries before the `j`-th up by one and advance the head (assumption 30). -/
def inboxShift (s : State) (k : Hart) : Nat → State
  | 0 => (s.writePart k.id.part k.inbox 4 ((inboxHead s k + 1) % 2 ^ 32)).getD s
  | j + 1 =>
      let t := (s.writePart k.id.part (inboxSlot s k (j + 1)) 128 (inboxEntry s k j).toNat).getD s
      inboxShift t k j

/-- The oldest entry for a reply register: its place and contents. -/
def inboxFind (s : State) (k : Hart) (y : Nat) : Option (Nat × InboxEntry) :=
  ((List.range (inboxCount s k)).find? (fun j =>
      decide ((inboxEntry s k j).yix = y) && decide ((inboxEntry s k j).kind < 2))).map
    (fun j => (j, inboxEntry s k j))

/-- A reply register after a delivery (17 R376). -/
def YReg.deliver (blk : Bool) (v : BitVec 512) : YReg :=
  { val := v, unread := if blk then 8 else 1, blk := blk }

def Hart.setY (h : Hart) (y : Nat) (r : YReg) : Hart :=
  { h with y := if hy : y < 4 then h.y.set y r hy else h.y }

def Hart.getY (h : Hart) (y : BitVec 2) : YReg := h.y[y.toNat]'(y.isLt)

/-- The current hart's empty register `y` takes its oldest inbox entry. -/
def inboxTake (s : State) (y : BitVec 2) : Option State :=
  if (s.h.getY y).unread ≠ 0 then none
  else
    match inboxFind s s.h y.toNat with
    | none => none
    | some (j, e) =>
        some ((inboxShift s s.h j).setH (s.h.setY y.toNat (YReg.deliver (decide (e.kind = 1)) e.payload)))

/-- Every empty register of a context takes its oldest entry. -/
def inboxTakeAll (s : State) : State :=
  ([0, 1, 2, 3] : List (BitVec 2)).foldl (fun st y => (inboxTake st y).getD st) s

def inboxDeliveryRun (target : ContId) (s : State) : Option State :=
  match s.findCont target with
  | none => none
  | some k =>
      if k.isOut || !k.live then none
      else
        let t := s.onHart (fun h => decide (h.id.cont = k.id.cont) && decide (h.run ≠ .empty)) inboxTakeAll
        if t = s then none else some t

def execInboxDelivery (target : ContId) (s : State) : Host.Outcome State Fault Refusal :=
  event "INBOX_DELIVERY" (inboxDeliveryRun target s)

/-! ## What becomes of a message (17 R378) -/

inductive Fate where
  | refuse
  | drop
  /-- The register is not empty, or older inbox entries wait for it. -/
  | wait
  | deliver (k : Hart)
  | divert (k : Hart)
  deriving DecidableEq, Repr

/-- The identifier in x[rs1] names a place that can hold a context. -/
def placeOk (s : State) (x : Word) : Bool :=
  let die := fieldOf x 31 29
  let cl := fieldOf x 28 25
  let core := fieldOf x 24 21
  let slot := fieldOf x 20 18
  decide (fieldOf x 63 32 = 0) && s.dieOn die &&
    (decide (cl ≤ 9) || (decide (cl = 14) && decide (core ≤ 9) && decide (slot ≠ 7))
      || (decide (cl = 15) && decide (die = 0) && decide (core = 15)))

/-- The fate of a message of partition `part` to the register that `x` names, as the target stands now.
An identifier whose place the context has left diverts (R375). -/
def fateOf (s : State) (part : Nat) (x : Word) : Fate :=
  if !placeOk s x then .refuse
  else
    match s.findCtx part (fieldOf x 17 2) with
    | none => .refuse
    | some k =>
        let y : BitVec 2 := x.truncate 2
        match k.run with
        | .empty => .refuse
        | .retired => .drop
        | .created | .saved _ | .held => .divert k
        | .running | .faultWait _ | .parked _ =>
            if k.id.cont ≠ (x.truncate 32 : ContId) &&& ~~~(3 : ContId) then .divert k
            else if (k.getY y).unread ≠ 0 ∨ (inboxFind s k y.toNat).isSome then .wait
            else .deliver k

/-- Whose context a record is. -/
def Hart.same (k h : Hart) : Bool := h.isCtx k.id.part k.id.tag

/-- The message crosses from the sender's holder to the target's (05 R99). -/
def State.cross (s : State) (a b : Nat) : State := if a = b then s else s.message a b

/-- Deliver to a context. -/
def deliverTo (s : State) (src : Nat) (k : Hart) (x : Word) (blk : Bool) (v : BitVec 512) : State :=
  (s.cross src k.id.holder).mapHarts k.same (fun h => h.setY (fieldOf x 1 0) (YReg.deliver blk v))

/-- Append to a context's inbox. -/
def divertTo (s : State) (src : Nat) (sender : ContId) (k : Hart) (x : Word) (kind : Nat)
    (v : BitVec 512) : Option State :=
  let s1 := s.cross src k.id.holder
  inboxAppend s1 k { yix := fieldOf x 1 0, kind := kind, sender := sender, lcnt := s1.lcntOf k.id.holder,
                     payload := v }

/-- The current hart sends: none says that it waits. -/
def sendMessage (s : State) (x : Word) (blk : Bool) (v : BitVec 512) : Except Stop (Option State) :=
  match fateOf s s.h.id.part x with
  | .refuse => .error (Stop.of 31 x)
  | .drop =>
      if 4096 ≤ s.heldReports s.h.id.part then .ok none
      else .ok (some (s.reportHart s.h 9 (zext64 (x.truncate 32 : ContId)) (zext64 s.h.id.cont)))
  | .wait => .ok none
  | .deliver k => .ok (some (deliverTo s s.h.id.holder k x blk v))
  | .divert k => .ok (divertTo s s.h.id.holder s.h.id.cont k x (if blk then 1 else 0) v)

/-- Complete a send: a hart that waits stays at the instruction. -/
def afterSend (r : Except Stop (Option State)) (s : State) : Except Stop State :=
  match r with
  | .error e => .error e
  | .ok none => .ok s
  | .ok (some t) => .ok t.advance

/-! ## Fault replies (04 R84, Table 4.7) -/

/-- The reply can act on a context in fault wait: SEQ matches and STATUS is listed. -/
def replyFits (w : FaultWait) (p : Word) : Bool :=
  decide (fieldOf p 47 32 = w.seq.toNat) && decide (fieldOf p 3 0 ≤ 1)

/-- The reply's effect on the current hart: it resumes, or takes the page-fault trap. -/
def replyEffect (w : FaultWait) (p : Word) (s : State) : State :=
  let s1 := s.setH { s.h with run := .running }
  if fieldOf p 3 0 = 0 then (if w.mq then s1.setMatFault none else s1)
  else if w.mq then
    takeTrap (s1.setMatFault (some .retry)) { cause := w.cause, tval := w.va, sub := 0 }
      (some ((s1.h.mat.queue.head?.map (fun e => e.pc)).getD 0))
  else takeTrap s1 { cause := w.cause, tval := w.va, sub := 0 } none

/-- The page-fault message that a reply answers is done with. -/
def dropPagerMsg (s : State) (c : ContId) (p : Word) : State :=
  { s with pagerMsgs := s.pagerMsgs.filter (fun m =>
      !(decide (m.2.2.2.extractLsb' 0 32 = c) && decide (fieldOf m.2.2.2 47 32 = fieldOf p 47 32))) }

/-- The context that a reply is for: the one at the place that `c` names, or the one of its tag that waits
for this SEQ wherever it runs now (17 R375). -/
def replyTarget (s : State) (c : ContId) (p : Word) : Option Hart :=
  match s.findCont c with
  | some k => some k
  | none => s.harts.find? (fun h => h.id.isVector && decide (h.id.tag = fieldOf c 17 2) &&
      (match h.run with
       | .faultWait w => replyFits w p
       | .empty | .created | .running | .parked _ | .saved _ | .held | .retired => false))

/-- A reply from `sender` reaches the context that `c` names: applied, put in its inbox, or refused
(none). -/
def replyTo (s : State) (src : Nat) (sender c : ContId) (p : Word) : Option State :=
  match replyTarget s c p with
  | none => none
  | some k =>
      match k.run with
      | .faultWait w =>
          if replyFits w p then
            some (dropPagerMsg ((s.cross src k.id.holder).onHart
              (fun h => decide (h.id.cont = k.id.cont) && decide (h.run = .faultWait w))
              (replyEffect w p)) k.id.cont p)
          else none
      | .saved _ | .held =>
          divertTo s src sender k (zext64 c) 2 (p.zeroExtend 512)
      | .empty | .created | .running | .parked _ | .retired => none

def execFaultReply (target : ContId) (p : Word) (s : State) : Host.Outcome State Fault Refusal :=
  event "FAULT_REPLY" (if p.getLsbD 63 then replyTo s 8 0 target p else none)

/-! ## The message instructions (17 R377) -/

def execHcont (rd : Reg) (y : BitVec 2) (s : State) : Host.Outcome State Fault Refusal :=
  .next (s.setX rd (zext64 (s.h.id.cont ||| y.zeroExtend 32))).advance

/-- A pager's HSEND with payload bit 63 set is a fault reply; a refused one raises message refused. -/
def hsendRun (rs1 rs2 : Reg) (s : State) : Except Stop State :=
  let x := s.h.xr rs1
  let p := s.h.xr rs2
  if s.h.id.kind = .pager ∧ p.getLsbD 63 then
    match (if fieldOf x 63 32 = 0 then replyTo s s.h.id.holder s.h.id.cont (x.truncate 32) p else none) with
    | none => .error (Stop.of 31 x)
    | some t => .ok t.advance
  else afterSend (sendMessage s x false (p.zeroExtend 512)) s

def execHsend (rs1 rs2 : Reg) (s : State) : Host.Outcome State Fault Refusal :=
  finish (hsendRun rs1 rs2 s) s

/-- The eight doublewords at an address, each read as a scalar load. -/
def payloadAt (s : State) : Nat → Word → Except Stop Nat
  | 0, _ => .ok 0
  | n + 1, va =>
      match scalarLoadBytes s .plain va 8 with
      | .error e => .error e
      | .ok v =>
          match payloadAt s n (va + 8) with
          | .error e => .error e
          | .ok t => .ok (v + 2 ^ 64 * t)

def hsendbRun (rs1 rs2 : Reg) (s : State) : Except Stop State :=
  let va := s.h.xr rs2
  if va.toNat % 64 ≠ 0 then .error (Stop.of 4 va)
  else
    match payloadAt s 8 va with
    | .error e => .error e
    | .ok v => afterSend (sendMessage s (s.h.xr rs1) true (BitVec.ofNat 512 v)) s

def execHsendb (rs1 rs2 : Reg) (s : State) : Host.Outcome State Fault Refusal :=
  finish (hsendbRun rs1 rs2 s) s

/-- The doubleword that HWAIT returns. -/
def YReg.read (r : YReg) : Word := r.val.extractLsb' (if r.blk then 64 * (8 - r.unread) else 0) 64

/-- The register after one doubleword is consumed. -/
def YReg.consume (r : YReg) : YReg :=
  { r with unread := r.unread - 1, blk := r.blk && decide (r.unread ≠ 1) }

/-- HWAIT waits while the register is empty and no inbox entry is there for it. -/
def hwaitEffect (rd : Reg) (y : BitVec 2) (s : State) : State :=
  let r := s.h.getY y
  if r.unread = 0 then (inboxTake s y).getD s
  else (((s.setH (s.h.setY y.toNat r.consume)).setX rd r.read).acquire .system).advance

def execHwait (rd : Reg) (y : BitVec 2) (s : State) : Host.Outcome State Fault Refusal :=
  .next (hwaitEffect rd y s)

/-! ## Arrivals from other senders -/

/-- Partition and holder of a sender. -/
def senderOf (s : State) (c : ContId) : Nat × Nat :=
  match s.findCont c with
  | none => (127, 8)
  | some h => (h.id.part, h.id.holder)

def messageDeliveryRun (sender : ContId) (target : Word) (blk : Bool) (payload : BitVec 512) (s : State) :
    Option State :=
  match fateOf s (senderOf s sender).1 target with
  | .deliver k => some (deliverTo s (senderOf s sender).2 k target blk payload)
  | .refuse | .drop | .wait | .divert _ => none

def execMessageDelivery (sender : ContId) (target : Word) (blk : Bool) (payload : BitVec 512)
    (s : State) : Host.Outcome State Fault Refusal :=
  event "MESSAGE_DELIVERY" (messageDeliveryRun sender target blk payload s)

def messageDivertRun (sender : ContId) (target : Word) (blk : Bool) (payload : BitVec 512) (s : State) :
    Option State :=
  match fateOf s (senderOf s sender).1 target with
  | .divert k => divertTo s (senderOf s sender).2 sender k target (if blk then 1 else 0) payload
  | .refuse | .drop | .wait | .deliver _ => none

def execMessageDivert (sender : ContId) (target : Word) (blk : Bool) (payload : BitVec 512) (s : State) :
    Host.Outcome State Fault Refusal :=
  event "MESSAGE_DIVERT" (messageDivertRun sender target blk payload s)

/-! ## Shape-change notices and PARK (17 R381) -/

/-- A notice sets NOTICE and posts code 2 with the window in microseconds. -/
def noticeHart (window : BitVec 32) (h : Hart) : Hart :=
  ({ h with c := { h.c with vstat := setField h.c.vstat 1 1 1 } }).post { code := 2, info := window }

/-- A notice belongs to the placement in which it is posted: the context must be placed. -/
def shapeChangeNoticeRun (target : ContId) (window : BitVec 32) (s : State) : Option State :=
  match s.findCont target with
  | none => none
  | some k =>
      if k.id.isVector && k.live && !k.isOut && decide (k.run ≠ .created) then
        some (s.mapHarts k.same (noticeHart window))
      else none

def execShapeChangeNotice (target : ContId) (window : BitVec 32) (s : State) :
    Host.Outcome State Fault Refusal :=
  event "SHAPE_CHANGE_NOTICE" (shapeChangeNoticeRun target window s)

/-- A hart that holds a channel or fragment binding, or a mask-stack entry, parks for an exact save. -/
def parkPortable (h : Hart) : Bool :=
  decide (h.vu.ms = []) && h.vu.bind.toList.all (fun b =>
    match b with
    | some (.chan _) | some (.frag _ _ _) => false
    | some (.streamIn _ _ _) | some (.streamOut _ _ _) | none => true)

/-- PARK once nothing is left to wait for. -/
def parkEffect (s : State) : State :=
  if s.h.c.vstat.getLsbD 1 then
    let t := (s.setVstat (setField s.h.c.vstat 1 1 0)).advance
    t.setH { t.h with run := .parked (parkPortable s.h) }
  else s.advance

/-- PARK executes at U only; it waits as VFENCE.VS does. -/
def execPark (s : State) : Host.Outcome State Fault Refusal :=
  if s.h.s.priv ≠ .u then .next (raise (illegal Instr.park.word) s)
  else
    match matrixSync s with
    | some t => .next t
    | none => .next (if s.h.vu.blocks = [] then parkEffect s else s)

end Sys2Proof.Machine
end

