-- ==== Sys2Proof/Machine/MatVal.lean ====
section
/-! DEFINITION. Values of the matrix engine: tile and accumulator images, the operand formats, window_sum and
the sums over it, the slices of MMA64, and CRC-32C (13 R271 to R274, R287 to R291; 14 R305, Table 14.6). -/

namespace Sys2Proof.Machine

/-! ## Images (13 R271, R273) -/

/-- Row `r` of an operand tile, 64 bytes. -/
def Tile.row (t : Tile) (r : Nat) : Nat := t.bits.toNat / 2 ^ (512 * r) % 2 ^ 512

/-- Byte `o` of an operand tile. -/
def Tile.byte (t : Tile) (o : Nat) : Nat := t.bits.toNat / 2 ^ (8 * o) % 256

/-- Row `r` of an accumulator, 128 bytes. -/
def Acc.row (a : Acc) (r : Nat) : Nat := a.bits.toNat / 2 ^ (1024 * r) % 2 ^ 1024

/-- Element (i, j) of an accumulator. -/
def Acc.elem (a : Acc) (i j : Nat) : Nat := a.bits.toNat / 2 ^ (1024 * i + 32 * j) % 2 ^ 32

def Mat.tile (m : Mat) (t : Nat) : Tile := (m.mt[t]?).getD { bits := 0, pois := 0 }
def Mat.acc (m : Mat) (a : Nat) : Acc := (m.ma[a]?).getD { bits := 0, pois := 0 }
def Mat.setTile (m : Mat) (t : Nat) (x : Tile) : Mat := { m with mt := m.mt.setIfInBounds t x }
def Mat.setAcc (m : Mat) (a : Nat) (x : Acc) : Mat := { m with ma := m.ma.setIfInBounds a x }

/-- FP64 element (i, j) of the pair `a`, `a + 1`. -/
def Mat.pairElem (m : Mat) (a i j : Nat) : Nat :=
  (m.acc (if j < 16 then a else a + 1)).bits.toNat / 2 ^ (1024 * i + 64 * (j % 16)) % 2 ^ 64

/-- The 32 poison bits that a predicate of the row gives. -/
def rowBits (p : Nat → Bool) : BitVec 32 :=
  BitVec.ofNat 32 ((List.range 32).foldl (fun x r => if p r then x + 2 ^ r else x) 0)

/-- Undefined bits of row `r` of a poisoned result: operand tile `t` takes slot 128 + t, accumulator `a` slot
160 + a (assumption 5). -/
def freeRow (s : State) (slot r w : Nat) : Nat := (Config.free s.tick slot 32768).toNat / 2 ^ (w * r) % 2 ^ w

/-- Rows of results: a poisoned row is undefined and records no flag (R274). -/
def rowImage (s : State) (slot w ew : Nat) (pois : BitVec 32) (rows : List (List FRes)) : Nat :=
  packElems w (rows.zipIdx.map (fun r =>
    if pois.getLsbD r.2 then freeRow s slot r.2 w else packElems ew (r.1.map (fun x => x.bits))))

def rowFlags (pois : BitVec 32) (rows : List (List FRes)) : BitVec 5 :=
  rows.zipIdx.foldl (fun fl r =>
    if pois.getLsbD r.2 then fl else r.1.foldl (fun f x => f ||| x.flags) fl) 0

/-! ## Operand formats (13 R272) -/

/-- A tile format: a float of `stride` bits in the row, or an integer. -/
inductive MFmt where
  | fl (f : FFmt) (stride : Nat)
  | int (signed : Bool) (w : Nat)
  deriving DecidableEq, Repr

/-- The format that a code of Table 13.1 names. -/
def mfmtOf (c : Nat) : Option MFmt :=
  if c = 2 then some (.fl bf16 16)
  else if c = 3 then some (.fl Machine.e4m3 8)
  else if c = 4 then some (.fl Machine.e5m2 8)
  else if c = 5 then some (.fl Machine.e2m3 8)
  else if c = 6 then some (.fl Machine.e3m2 8)
  else if c = 7 then some (.fl Machine.e2m1 4)
  else if c = 8 then some (.int true 8)
  else if c = 9 then some (.int false 8)
  else if c = 10 then some (.int true 4)
  else if c = 11 then some (.int false 4)
  else none

def MFmt.stride : MFmt → Nat
  | .fl _ n => n
  | .int _ w => w

def MFmt.isInt : MFmt → Bool
  | .fl _ _ => false
  | .int _ _ => true

/-- K: elements of a row. -/
def MFmt.k (m : MFmt) : Nat := 512 / m.stride

/-- The raw elements of a row. -/
def MFmt.elems (m : MFmt) (row : Nat) : List Nat :=
  (List.range m.k).map (fun k => row / 2 ^ (m.stride * k) % 2 ^ m.stride)

def MFmt.ints (m : MFmt) (row : Nat) : List Int :=
  match m with
  | .int sg w => (m.elems row).map (intOf sg w)
  | .fl _ _ => []

def MFmt.vals (m : MFmt) (row : Nat) : List FVal :=
  match m with
  | .fl f _ => (m.elems row).map f.unpack
  | .int _ _ => []

/-! ## window_sum (13 R287) -/

/-- An exact sum `num` × 2^e; `neg0` is the sign of a zero; `nx` says that a term was truncated. -/
structure WSum where
  num : Int
  e : Int
  neg0 : Bool
  nx : Bool
  deriving DecidableEq, Repr

/-- The largest ⌊log2⌋ of the non-zero terms. -/
def maxTop (ts : List (Bool × Nat × Int)) : Option Int :=
  ts.foldl (fun m t =>
    if t.2.1 = 0 then m
    else match m with
      | none => some (topExp t.2.1 t.2.2)
      | some x => some (if x < topExp t.2.1 t.2.2 then topExp t.2.1 t.2.2 else x)) none

/-- A term in units of 2^q, truncated toward zero, and whether that is exact. -/
def truncTo (q : Int) (t : Bool × Nat × Int) : Int × Bool :=
  if q ≤ t.2.2 then (signedM t.1 (t.2.1 * 2 ^ (t.2.2 - q).toNat), true)
  else
    (signedM t.1 (t.2.1 / 2 ^ (q - t.2.2).toNat), decide (t.2.1 % 2 ^ (q - t.2.2).toNat = 0))

def windowSum (ts : List (Bool × Nat × Int)) : WSum :=
  match maxTop ts with
  | none => { num := 0, e := 0, neg0 := ts.all (fun t => t.1), nx := false }
  | some top =>
      let us := ts.map (truncTo (top - 63))
      { num := us.foldl (fun a u => a + u.1) 0, e := top - 63, neg0 := false,
        nx := us.any (fun u => !u.2) }

/-- RNE with fcompat at 0: the rounding of every matrix sum. -/
def rneEnv : FEnv := { mode := .rne, fcompat := 0 }

/-- Rounded once. -/
def WSum.round (f : FFmt) (w : WSum) : FRes :=
  let nx : BitVec 5 := if w.nx then fNX else 0
  if w.num = 0 then { bits := f.signed w.neg0 0, flags := nx }
  else
    let r := rneEnv.round f (decide (w.num < 0)) w.num.natAbs w.e
    { r with flags := r.flags ||| nx }

/-- The products that are neither NaN nor 0 × ∞, with the addends that are no NaN. -/
def dotTerms (cs : List FVal) (ps : List (FVal × FVal)) : List FVal :=
  cs.filter (fun c => !c.isNan) ++
    (ps.filter (fun p => !p.1.isNan && !p.2.isNan && !prodInvalid p.1 p.2)).map (fun p => prodVal p.1 p.2)

/-- The result that special operands give a sum of addends and products; none where every term is finite. -/
def dotSpecial (f : FFmt) (cs : List FVal) (ps : List (FVal × FVal)) : Option FRes :=
  let ts := dotTerms cs ps
  let bad := ps.any (fun p => prodInvalid p.1 p.2) || infClash ts
  let sig := cs.any FVal.isSnan || ps.any (fun p => p.1.isSnan || p.2.isSnan)
  if bad || cs.any FVal.isNan || ps.any (fun p => p.1.isNan || p.2.isNan) then
    some { bits := f.nan, flags := if bad || sig then fNV else 0 }
  else (ts.find? FVal.isInf).map (fun v => { bits := f.signed v.neg f.infCode, flags := 0 })

/-- Addends and products, summed by window_sum and rounded once. -/
def winDot (f : FFmt) (cs : List FVal) (ps : List (FVal × FVal)) : FRes :=
  match dotSpecial f cs ps with
  | some r => r
  | none => (windowSum ((dotTerms cs ps).map FVal.term)).round f

/-- a × b + c × d: an exact sum, one rounding (14 R305). -/
def twoProducts (a b c d : FVal) : FRes :=
  match dotSpecial fp32 [] [(a, b), (c, d)] with
  | some r => r
  | none => rneEnv.sum fp32 ((dotTerms [] [(a, b), (c, d)]).map FVal.term)

/-! ## Cells -/

/-- A cell of MMA in a float class (R288). -/
def mmaFloat (c : Nat) (as bs : List FVal) : FRes := winDot fp32 [fp32.unpack c] (as.zip bs)

/-- A cell of MMA in an integer class: modulo 2^32, without flags. -/
def mmaInt (c : Nat) (as bs : List Int) : FRes :=
  { bits := intBits 32 ((c : Int) + ((as.zip bs).map (fun p => p.1 * p.2)).foldl (· + ·) 0), flags := 0 }

/-- T × SCALE for a T that is an infinity or a NaN, under IEEE 754. -/
def scaleSpecial (t : FRes) (scale : Nat) : FRes :=
  let r := rneEnv.mul fp32 t.bits scale
  { r with flags := r.flags ||| t.flags }

/-- U of MMAS: the scaled products, rounded once. `xs` are the scale bytes' sums less 254 for each k. -/
def mmasU (as bs : List FVal) (xs : List Int) (scale : Nat) : FRes :=
  match dotSpecial fp32 [] (as.zip bs) with
  | some t => scaleSpecial t scale
  | none =>
      let w := windowSum (((dotTerms [] (as.zip bs)).map FVal.term).zip xs |>.map
        (fun p => (p.1.1, p.1.2.1, p.1.2.2 + p.2)))
      let nx : BitVec 5 := if w.nx then fNX else 0
      if w.num = 0 then { bits := 0, flags := nx }
      else
        match fp32.unpack scale with
        | .fin n m e =>
            let neg := decide (w.num < 0) != n
            if m = 0 then { bits := fp32.signed neg 0, flags := nx }
            else
              let r := rneEnv.round fp32 neg (w.num.natAbs * m) (w.e + e)
              { r with flags := r.flags ||| nx }
        | .inf _ => { bits := fp32.nan, flags := fNV }
        | .nan _ _ _ => { bits := fp32.nan, flags := fNV }

/-- A cell of MMAS (R290). -/
def mmasCell (c : Nat) (as bs : List FVal) (xa xb : List Nat) (k : Nat) (scale : Nat) : FRes :=
  if !(match fp32.unpack scale with | .fin _ _ _ => true | _ => false) then { bits := fp32.nan, flags := fNV }
  else if xa.any (fun x => decide (x = 255)) || xb.any (fun x => decide (x = 255)) then
    { bits := fp32.nan, flags := 0 }
  else
    let xs := (List.range k).map (fun j => (((xa[j / 32]?).getD 0 + (xb[j / 32]?).getD 0 : Nat) : Int) - 254)
    let u := mmasU as bs xs scale
    let r := rneEnv.add fp32 c u.bits
    { r with flags := r.flags ||| u.flags }

/-- Slice `k` of an FP64 element with significand `m` (R291). -/
def mma64Slice (neg : Bool) (m k : Nat) : Int :=
  let t := (BitVec.ofInt 56 (signedM neg (4 * m))).toNat
  if k = 0 then intOf true 8 (t / 2 ^ 48 % 256) else ((t / 2 ^ (48 - 8 * k) % 256 : Nat) : Int)

/-- The slice products of a pair of elements, in units of 2^(ea + eb - 108). -/
def mma64Prod (na : Bool) (ma : Nat) (nb : Bool) (mb s : Nat) : Int :=
  ((List.range s).flatMap (fun p => ((List.range s).filter (fun q => decide (p + q ≤ s - 1))).map (fun q =>
    mma64Slice na ma p * mma64Slice nb mb q * 2 ^ (96 - 8 * p - 8 * q)))).foldl (· + ·) 0

/-- The kept part of a product of finite elements. -/
def mma64Term (s : Nat) (p : FVal × FVal) : Bool × Nat × Int :=
  match p.1, p.2 with
  | .fin na ma ea, .fin nb mb eb =>
      let x := mma64Prod na ma nb mb s
      (decide (x < 0), x.natAbs, ea + eb - 4)
  | _, _ => (false, 0, 0)

/-- A cell of MMA64: the exact sum of the addend and the kept slice products, rounded once. -/
def mma64Cell (c : Nat) (as bs : List FVal) (s : Nat) : FRes :=
  let ps := as.zip bs
  let cv := fp64.unpack c
  match dotSpecial fp64 [cv] ps with
  | some r => r
  | none =>
      let x := sumTerms (cv.term :: ps.map (mma64Term s))
      if x.1 = 0 then
        { bits := fp64.signed (cv.isZero && cv.neg &&
            ps.all (fun p => (prodVal p.1 p.2).isZero && (p.1.neg != p.2.neg))) 0, flags := 0 }
      else rneEnv.round fp64 (decide (x.1 < 0)) x.1.natAbs x.2

/-! ## CRC-32C (14 Table 14.6) -/

/-- Eight steps of the reflected polynomial. -/
def crcBits : Nat → Nat → Nat
  | 0, c => c
  | n + 1, c => crcBits n (if c % 2 = 1 then (c / 2) ^^^ 0x82F63B78 else c / 2)

/-- `n` bytes of `x`, from the lowest. -/
def crcBytes : Nat → Nat → Nat → Nat
  | 0, _, c => c
  | n + 1, x, c => crcBytes n (x / 256) (crcBits 8 (c ^^^ (x % 256)))

/-- The checksum over pieces: a number of bytes and their value. -/
def crc32c (ps : List (Nat × Nat)) : Nat :=
  (ps.foldl (fun c p => crcBytes p.1 p.2 c) 0xFFFFFFFF) ^^^ 0xFFFFFFFF

end Sys2Proof.Machine
end

