-- ==== Sys2Proof/Machine/Matrix.lean ====
section
/-! DEFINITION. The matrix engine: MCFG and MSYNC, posting a custom-2 word to the matrix queue, and what the
tile loads and stores, the moves and the sums do when their entries execute (13 R270 to R294; 03 R62, R65). -/

namespace Sys2Proof.Machine

/-! ## Checks and posting (03 R62 to R65; 13 R276) -/

/-- The checks of a word in order: its encoding against the grant, then its commit checks. -/
def matGuard (i : Instr) (enc : Bool) (commit : Option Stop) : Option Stop :=
  if enc then commit else some (illegal i.word)

/-- Commit checks of a word that names vector registers: VSTALE, VILL, then its own. -/
def matVecGuard (h : Hart) (i : Instr) (ok : Bool) : Option Stop :=
  if h.c.vstat.getLsbD 0 then some (Stop.of 25 i.word)
  else if h.c.vcfg.getLsbD 63 || !ok then some (illegal i.word)
  else none

/-- A v index is a multiple of LMUL (02 R40). -/
def lmulAligned (h : Hart) (r : Reg) : Bool := decide (r.toNat % lmulOf h.c.vcfg = 0)

/-- SEW in bits now in force. -/
def Hart.sew (h : Hart) : Nat := sewOf h.c.vcfg

/-- The entry of a word, with what it captures. -/
def newEntry (h : Hart) (i : Instr) (xa xb : Word) : MqEntry :=
  { word := i.word.truncate 32, pc := h.s.pc, xa := xa, xb := xb, mcfg := h.mat.mcfg,
    mtscale := h.mat.mtscale, frm := h.s.frm, vcfg := h.c.vcfg, vl := h.c.vl,
    bpos := h.vu.blocks.length, priv := h.s.priv }

/-- Post a word, or wait at it while the queue holds 16 entries. -/
def postEntry (s : State) (i : Instr) (xa xb : Word) : State :=
  if 16 ≤ s.h.mat.queue.length then s
  else
    (s.setH { s.h with
      mat := { s.h.mat with queue := s.h.mat.queue ++ [newEntry s.h i xa xb] } }).advance

/-- A word that posts: its checks, then its entry. -/
def postWord (s : State) (i : Instr) (enc : Bool) (commit : Option Stop) (xa xb : Word) :
    Host.Outcome State Fault Refusal :=
  guarded (matGuard i enc commit) s (postEntry s i xa xb)

/-- Operand tile `t` is in the grant. -/
def Hart.hasTile (h : Hart) (t : BitVec 3) : Bool := decide (t.toNat < h.id.mtN)
/-- Accumulators `a` to `a + n - 1` are in the grant. -/
def Hart.hasAccs (h : Hart) (a : BitVec 4) (n : Nat) : Bool := decide (a.toNat + n ≤ h.id.maN)

/-! ## MCFG and MSYNC (R275, R281) -/

/-- A value that MCFG accepts (Table 13.2, R275). -/
def mcfgOk (a b : Word) : Bool :=
  decide (fieldOf a 11 11 = 0) && decide (fieldOf a 63 15 = 0) && decide (fieldOf b 63 32 = 0)
    && decide (3 ≤ fieldOf a 10 8) &&
    (match mfmtOf (fieldOf a 3 0), mfmtOf (fieldOf a 7 4) with
     | some x, some y => decide (x.isInt = y.isInt) && decide (x.k = y.k)
     | _, _ => false)

def mcfgEffect (s : State) (a b : Word) : State :=
  (s.setH { s.h with mat := { s.h.mat with mcfg := a, mtscale := b.truncate 32 } }).advance

def execMcfg (rs1 rs2 : Reg) (s : State) : Host.Outcome State Fault Refusal :=
  let a := s.h.xr rs1
  let b := s.h.xr rs2
  guarded (if mcfgOk a b then none else some (illegal (Instr.mcfg rs1 rs2).word)) s (mcfgEffect s a b)

/-- MSYNC waits for the queue, or takes the fault at which it has stopped. -/
def execMsync (s : State) : Host.Outcome State Fault Refusal :=
  match matrixSync s with
  | some t => .next t
  | none => .next s.advance

/-! ## Words of Table 3.4 -/

/-- A base and a stride that are multiples of `n`; the first misaligned row's address is the trap value. -/
def strideGuard (cause : BitVec 8) (n : Nat) (a b : Word) : Option Stop :=
  if a.toNat % n ≠ 0 then some (Stop.of cause a)
  else if b.toNat % n ≠ 0 then some (Stop.of cause (a + b))
  else none

def execMldt (t : BitVec 3) (rs1 rs2 : Reg) (s : State) : Host.Outcome State Fault Refusal :=
  postWord s (.mldt t rs1 rs2) (s.h.hasTile t) (strideGuard 4 64 (s.h.xr rs1) (s.h.xr rs2)) (s.h.xr rs1)
    (s.h.xr rs2)

def execMstt (t : BitVec 3) (rs1 rs2 : Reg) (s : State) : Host.Outcome State Fault Refusal :=
  postWord s (.mstt t rs1 rs2) (s.h.hasTile t) (strideGuard 6 64 (s.h.xr rs1) (s.h.xr rs2)) (s.h.xr rs1)
    (s.h.xr rs2)

def execMlda (t : BitVec 4) (rs1 rs2 : Reg) (s : State) : Host.Outcome State Fault Refusal :=
  postWord s (.mlda t rs1 rs2) (s.h.hasAccs t 1) (strideGuard 4 128 (s.h.xr rs1) (s.h.xr rs2)) (s.h.xr rs1)
    (s.h.xr rs2)

def execMsta (t : BitVec 4) (rs1 rs2 : Reg) (s : State) : Host.Outcome State Fault Refusal :=
  postWord s (.msta t rs1 rs2) (s.h.hasAccs t 1) (strideGuard 6 128 (s.h.xr rs1) (s.h.xr rs2)) (s.h.xr rs1)
    (s.h.xr rs2)

def execMzero (t : BitVec 4) (s : State) : Host.Outcome State Fault Refusal :=
  postWord s (.mzero t) (s.h.hasAccs t 1) none 0 0

def execMma (d : BitVec 4) (a b : BitVec 3) (s : State) : Host.Outcome State Fault Refusal :=
  postWord s (.mma d a b) (s.h.hasAccs d 1 && s.h.hasTile a && s.h.hasTile b) none 0 0

/-- The captured formats are of the float class and SCT lies in the grant (R290). -/
def mmasOk (h : Hart) : Bool :=
  (match mfmtOf (fieldOf h.mat.mcfg 3 0) with
   | some m => !m.isInt
   | none => false) && decide (fieldOf h.mat.mcfg 14 12 < h.id.mtN)

def execMmas (d : BitVec 4) (a b : BitVec 3) (s : State) : Host.Outcome State Fault Refusal :=
  postWord s (.mmas d a b) (s.h.hasAccs d 1 && s.h.hasTile a && s.h.hasTile b && mmasOk s.h) none 0 0

def execMma64 (d : BitVec 4) (a b : BitVec 3) (s : State) : Host.Outcome State Fault Refusal :=
  postWord s (.mma64 d a b)
    (s.h.hasAccs d 2 && s.h.hasTile a && s.h.hasTile b && decide (d.toNat % 2 = 0)) none 0 0

def execMmal (d : BitVec 4) (a : BitVec 3) (rs2 : Reg) (s : State) : Host.Outcome State Fault Refusal :=
  postWord s (.mmal d a rs2) (s.h.hasAccs d 1 && s.h.hasTile a)
    (if (s.h.xr rs2).toNat % 128 = 0 then none else some (Stop.of 4 (s.h.xr rs2))) 0 (s.h.xr rs2)

/-- Accumulators that a format takes (Table 13.5). -/
def mcvtAccs (fmt : BitVec 4) : Nat :=
  if fmt.toNat ≤ 2 then 1 else if fmt.toNat ≤ 6 then 2 else 4

def execMcvt (fmt : BitVec 4) (rm : Rm) (d : BitVec 3) (src : BitVec 4) (s : State) :
    Host.Outcome State Fault Refusal :=
  let n := mcvtAccs fmt
  postWord s (.mcvt fmt rm d src)
    (s.h.hasTile d && s.h.hasAccs src n && decide (src.toNat % n = 0)
      && (decide (rm ≠ .dyn) || (rmodeOf s.h.s.frm.toNat).isSome)) none 0 0

def execMaccv (d : BitVec 5) (src : BitVec 4) (rs2 : Reg) (s : State) :
    Host.Outcome State Fault Refusal :=
  let x := s.h.xr rs2
  let i := Instr.maccv d src rs2
  postWord s i (s.h.hasAccs src 1)
    (matVecGuard s.h i (decide (x.toNat < 32) && lmulAligned s.h d &&
      (decide (s.h.sew = 32) ||
        (decide (s.h.sew = 64) && decide (src.toNat % 2 = 0) && s.h.hasAccs src 2)))) 0 x

def execMvtile (d : BitVec 3) (src : BitVec 5) (s : State) : Host.Outcome State Fault Refusal :=
  let i := Instr.mvtile d src
  postWord s i (s.h.hasTile d)
    (matVecGuard s.h i (decide (fieldOf s.h.c.vcfg 2 0 ≤ 3) && lmulAligned s.h src)) 0 0

/-! ## Accesses of entries (R282, R292, R294) -/

/-- matrix queue fault with a subcode of Table 13.6. -/
def mqStop (sub : BitVec 16) (va : Word) : Stop := .exc { cause := 29, tval := va, sub := sub }

/-- Subcode of a failed read or write. -/
def mqSub (k : AKind) : BitVec 16 := if k = .load then 1 else 2

/-- The hart as an entry's accesses see it. -/
def entryHart (h : Hart) (e : MqEntry) : Hart := { h with s := { h.s with priv := e.priv } }

/-- The place of an entry's access: a page fault stays one, and every other failure is a matrix queue
fault. -/
def entryLoc (s : State) (h : Hart) (k : AKind) (va : Word) : Except Stop Loc :=
  match addrOf s h k va with
  | .error (.exc _) => .error (mqStop (mqSub k) va)
  | .error e => .error e
  | .ok (.dev _) => .error (mqStop (mqSub k) va)
  | .ok l => .ok l

/-- An access that no aperture may take, with the subcode that one gives. -/
def entryLocFlat (s : State) (h : Hart) (k : AKind) (sub : BitVec 16) (va : Word) : Except Stop Loc :=
  if inAperture va then .error (mqStop sub va) else entryLoc s h k va

/-- The failing access of the lowest address; one that is only to be sent again gives way to the others. -/
def lowestErr : List (Word × Except Stop Loc) → Option (Word × Stop)
  | [] => none
  | (_, .ok _) :: t => lowestErr t
  | (va, .error e) :: t =>
      match lowestErr t with
      | none => some (va, e)
      | some (vb, f) =>
          if f = .retry then some (va, e)
          else if e = .retry then some (vb, f)
          else if va.toNat ≤ vb.toNat then some (va, e) else some (vb, f)

def okLocs : List (Word × Except Stop Loc) → List Loc
  | [] => []
  | (_, .ok l) :: t => l :: okLocs t
  | (_, .error _) :: t => okLocs t

/-- Every access is checked before any is made (R292). -/
def allLocs (rs : List (Word × Except Stop Loc)) : Except Stop (List Loc) :=
  match lowestErr rs with
  | some e => .error e.2
  | none => .ok (okLocs rs)

/-- Address of row `r` (R282). -/
def rowAddr (base stride : Word) (r : Nat) : Word := base + BitVec.ofNat 64 r * stride

/-- The places of the 32 rows of a tile. -/
def rowLocs (s : State) (e : MqEntry) (k : AKind) : Except Stop (List Loc) :=
  allLocs ((List.range 32).map (fun r =>
    (rowAddr e.xa e.xb r, entryLoc s (entryHart s.h e) k (rowAddr e.xa e.xb r))))

/-- The rows read, `n` bytes each, with poison. -/
def readRows (s : State) (m : MemSys) (n : Nat) (ls : List Loc) : List (Nat × Bool) :=
  ls.map (fun l => (loadLoc m s.h.id.coreNo l n, poisonedLoc s l n))

/-- The rows written, in increasing order. -/
def writeRows (s : State) (n : Nat) : List (Loc × Nat × Bool) → State
  | [] => s
  | (l, x, p) :: t => writeRows (writeLoc s s.h.id.coreNo l n x p) n t

def State.setMat (s : State) (m : Mat) : State := s.setH { s.h with mat := m }

/-! ## The ownership table of a group (14 R298, R299) -/

/-- The group of the context that accumulator `a` belongs to. -/
def Mat.pinOf (m : Mat) (a : Nat) : Option PinEntry :=
  m.pins.find? (fun p => decide (p.origin.toNat ≤ a) && decide (a < p.origin.toNat + p.side * p.side))

/-- SHAPE of a group of n × n. -/
def shapeCode (n : Nat) : Nat := if n = 1 then 0 else if n = 2 then 1 else 2

/-- Word 0 of a resident group's entries (Table 14.1). -/
def aotWord (i : Ident) (p : PinEntry) (dirty : Bool) : Word :=
  BitVec.ofNat 64 (1 + (if dirty then 2 else 0) + shapeCode p.side * 4 + i.physAcc p.origin.toNat * 16
    + i.tag * 2 ^ 16 + p.gen.toNat * 2 ^ 32)

/-- Write the entries of a resident group of the context. -/
def State.aotWrite (s : State) (i : Ident) (p : PinEntry) (dirty : Bool) : State :=
  s.aotPut p.core (i.physAcc p.origin.toNat) (aotWord i p dirty) (zext64 p.handle) (p.side * p.side)

/-- DIRTY of a resident group. -/
def State.aotDirty (s : State) (i : Ident) (p : PinEntry) : Bool :=
  (s.devGet (aotAddr p.core (i.physAcc p.origin.toNat))).getLsbD 1

/-- An entry that writes accumulator `a` marks its group dirty (R299). -/
def State.markDirty (s : State) (a : Nat) : State :=
  match s.h.mat.pinOf a with
  | none => s
  | some p => if p.state = .resident then s.aotWrite s.h.id p true else s

/-- Accumulator `a` written by an entry. -/
def State.putAcc (s : State) (a : Nat) (x : Acc) : State := (s.setMat (s.h.mat.setAcc a x)).markDirty a

/-! ## Effects of the words of Table 3.4 -/

/-- MLDT. -/
def mldtRun (s : State) (e : MqEntry) (t : Nat) : Except Stop State :=
  match rowLocs s e .load with
  | .error x => .error x
  | .ok ls =>
      let rs := readRows s s.mem 64 ls
      .ok (s.setMat (s.h.mat.setTile t {
        bits := BitVec.ofNat 16384 (packElems 512 (rs.map (fun r => r.1))),
        pois := rowBits (fun r => ((rs[r]?).map (fun x => x.2)).getD false) }))

/-- MSTT. -/
def msttRun (s : State) (e : MqEntry) (t : Nat) : Except Stop State :=
  match rowLocs s e .store with
  | .error x => .error x
  | .ok ls =>
      let ti := s.h.mat.tile t
      .ok (writeRows s 64 (ls.zipIdx.map (fun l => (l.1, ti.row l.2, ti.pois.getLsbD l.2))))

/-- MLDA. -/
def mldaRun (s : State) (e : MqEntry) (a : Nat) : Except Stop State :=
  match rowLocs s e .load with
  | .error x => .error x
  | .ok ls =>
      let rs := readRows s s.mem 128 ls
      .ok (s.putAcc a {
        bits := BitVec.ofNat 32768 (packElems 1024 (rs.map (fun r => r.1))),
        pois := rowBits (fun r => ((rs[r]?).map (fun x => x.2)).getD false) })

/-- MSTA. -/
def mstaRun (s : State) (e : MqEntry) (a : Nat) : Except Stop State :=
  match rowLocs s e .store with
  | .error x => .error x
  | .ok ls =>
      let ac := s.h.mat.acc a
      .ok (writeRows s 128 (ls.zipIdx.map (fun l => (l.1, ac.row l.2, ac.pois.getLsbD l.2))))

/-- MZERO. -/
def mzeroRun (s : State) (a : Nat) : State := s.putAcc a { bits := 0, pois := 0 }

/-- An accumulator's rows replaced by results with their poison, and the flags recorded. -/
def putCells (s : State) (a : Nat) (pois : BitVec 32) (rows : List (List FRes)) : State :=
  (s.putAcc a { bits := BitVec.ofNat 32768 (rowImage s (160 + a) 1024 32 pois rows), pois := pois }).setH
    ((s.putAcc a { bits := BitVec.ofNat 32768 (rowImage s (160 + a) 1024 32 pois rows), pois := pois }).h.addFlags
      (rowFlags pois rows))

/-- Row poison of a sum: the row's own, the A row's, and that of every source row of B (R288). -/
def sumPois (old a : BitVec 32) (b : Bool) : BitVec 32 :=
  old ||| a ||| (if b then BitVec.allOnes 32 else 0)

/-- The rows of a sum over K products; `rowB j` is row j of the B tile. -/
def mmaRows (m : Mat) (d : Nat) (fa fb : MFmt) (rowA rowB : Nat → Nat) : List (List FRes) :=
  let acc := m.acc d
  if fa.isInt then
    let bs := (List.range 32).map (fun j => fb.ints (rowB j))
    (List.range 32).map (fun i =>
      let as := fa.ints (rowA i)
      bs.zipIdx.map (fun b => mmaInt (acc.elem i b.2) as b.1))
  else
    let bs := (List.range 32).map (fun j => fb.vals (rowB j))
    (List.range 32).map (fun i =>
      let as := fa.vals (rowA i)
      bs.zipIdx.map (fun b => mmaFloat (acc.elem i b.2) as b.1))

/-- The captured formats. -/
def MqEntry.afmt (e : MqEntry) : MFmt := (mfmtOf (fieldOf e.mcfg 3 0)).getD (.fl bf16 16)
def MqEntry.bfmt (e : MqEntry) : MFmt := (mfmtOf (fieldOf e.mcfg 7 4)).getD (.fl bf16 16)

/-- MMA. -/
def mmaRun (s : State) (e : MqEntry) (d a b : Nat) : State :=
  let ta := s.h.mat.tile a
  let tb := s.h.mat.tile b
  putCells s d (sumPois (s.h.mat.acc d).pois ta.pois (decide (tb.pois ≠ 0)))
    (mmaRows s.h.mat d e.afmt e.bfmt ta.row tb.row)

/-- The places of MMAL's 16 lines (R289). -/
def mmalLocs (s : State) (e : MqEntry) : Except Stop (List Loc) :=
  allLocs ((List.range 16).map (fun j =>
    (e.xb + BitVec.ofNat 64 (128 * j),
     entryLocFlat s (entryHart s.h e) .load 3 (e.xb + BitVec.ofNat 64 (128 * j)))))

/-- MMAL: the B tile is fetched from its home slices, without L1. -/
def mmalRun (s : State) (e : MqEntry) (d a : Nat) : Except Stop State :=
  match mmalLocs s e with
  | .error x => .error x
  | .ok ls =>
      let rs := readRows s { s.mem with l1 := [] } 128 ls
      let tb : Tile := { bits := BitVec.ofNat 16384 (packElems 1024 (rs.map (fun r => r.1))), pois := 0 }
      let pb := (ls.any (fun l => poisonedLoc s l 128))
      let ta := s.h.mat.tile a
      .ok (putCells s d (sumPois (s.h.mat.acc d).pois ta.pois pb)
        (mmaRows s.h.mat d e.afmt e.bfmt ta.row tb.row))

/-- The scale bytes of row `i`, from byte `o` of the scale tile. -/
def scaleBytes (t : Tile) (o i : Nat) (n : Nat) : List Nat := (List.range n).map (fun b => t.byte (o + 4 * i + b))

/-- MMAS (R290). -/
def mmasRun (s : State) (e : MqEntry) (d a b : Nat) : State :=
  let ta := s.h.mat.tile a
  let tb := s.h.mat.tile b
  let ts := s.h.mat.tile (fieldOf e.mcfg 14 12)
  let acc := s.h.mat.acc d
  let k := e.afmt.k
  let bs := (List.range 32).map (fun j => (e.bfmt.vals (tb.row j), scaleBytes ts 128 j (k / 32)))
  let rows := (List.range 32).map (fun i =>
    let as := e.afmt.vals (ta.row i)
    let xa := scaleBytes ts 0 i (k / 32)
    bs.zipIdx.map (fun p => mmasCell (acc.elem i p.2) as p.1.1 xa p.1.2 k e.mtscale.toNat))
  putCells s d (sumPois acc.pois ta.pois (decide (tb.pois ≠ 0) || decide (fieldOf ts.pois 3 0 ≠ 0))) rows

/-- FP64 values of a row. -/
def fp64Row (row : Nat) : List FVal := (List.range 8).map (fun k => fp64.unpack (row / 2 ^ (64 * k) % 2 ^ 64))

/-- The rows that MMA64 gives accumulator `d + t` of its pair: two 32-bit halves for each element. -/
def mma64Rows (m : Mat) (e : MqEntry) (d a b t : Nat) : List (List FRes) :=
  let n := fieldOf e.mcfg 10 8
  let bs := (List.range' (16 * t) 16).map (fun j => (j, fp64Row ((m.tile b).row j)))
  (List.range 32).map (fun i =>
    let as := fp64Row ((m.tile a).row i)
    bs.flatMap (fun p =>
      let r := mma64Cell (m.pairElem d i p.1) as p.2 n
      [{ bits := r.bits % 2 ^ 32, flags := r.flags }, { bits := r.bits / 2 ^ 32, flags := r.flags }]))

/-- MMA64 (R291). -/
def mma64Run (s : State) (e : MqEntry) (d a b : Nat) : State :=
  let m := s.h.mat
  let pb := decide ((m.tile b).pois ≠ 0)
  let pa := (m.tile a).pois
  putCells (putCells s d (sumPois (m.acc d).pois pa pb) (mma64Rows m e d a b 0)) (d + 1)
    (sumPois (m.acc (d + 1)).pois pa pb) (mma64Rows m e d a b 1)

/-- The float format and the element width of an MCVT code (Table 13.5). -/
def mcvtFmt (fmt : Nat) : FFmt × Nat := (memFmt fmt, if fmt ≤ 2 then 16 else if fmt ≤ 6 then 8 else 4)

/-- MCVT (R286). -/
def mcvtRun (s : State) (e : MqEntry) (fmt : BitVec 4) (rm : Rm) (d src : Nat) : State :=
  let n := mcvtAccs fmt
  let f := mcvtFmt fmt.toNat
  let env : FEnv := { mode := (rmOf rm e.frm).getD .rne, fcompat := 0 }
  let pois := (List.range n).foldl (fun p t => p ||| (s.h.mat.acc (src + t)).pois) (0 : BitVec 32)
  let rows := (List.range 32).map (fun i =>
    (List.range n).flatMap (fun t => (List.range 32).map (fun c =>
      env.convert fp32 f.1 false false (fp32.unpack ((s.h.mat.acc (src + t)).elem i c)))))
  let m := s.h.mat.setTile d {
    bits := BitVec.ofNat 16384 (rowImage s (128 + d) 512 f.2 pois rows), pois := pois }
  s.setH ({ s.h with mat := m }.addFlags (rowFlags pois rows))

/-! ## Vector operands of entries (R278, R284, R285) -/

/-- The environment under which an entry reads and writes vector registers. -/
def entryEnv (s : State) (e : MqEntry) (vl : Nat) : VEnv :=
  { vlen := s.h.id.vlen, lanes := s.h.id.lanes, groups := s.h.id.groups, neg := s.h.id.neg,
    sew := sewOf e.vcfg, lmul := lmulOf e.vcfg, vl := vl, passes := 1, ta := e.vcfg.getLsbD 6,
    ma := false, tick := s.tick,
    blk := { base := 0, k := Vector.replicate 8 0, vcfg := e.vcfg, vl := e.vl, frm := e.frm, fcompat := 0,
             vlut0 := 0, vlut1 := 0 } }

/-- A bound register's own storage reads as undefined (06 R147). -/
def unboundCopy (s : State) : Hart :=
  ([28, 29, 30, 31] : List Nat).foldl (fun h i =>
    if (h.bindOf i).isSome then
      h.setVreg .v i { h.vreg .v i with bits := Config.free s.tick i 16384, pois := 0 }
    else h) s.h

def vloc (r w : Nat) : OLoc := { file := .v, ix := r, w := w }

/-- Elements of a destination group written by an entry: unmasked, with its tail. -/
def putEntryVec (s : State) (v : VEnv) (d : Nat) (res : Nat → FRes) (pois : Nat → Bool) : State :=
  let ds : Dest := { o := vloc d v.sew, full := true }
  if v.vl = 0 then s
  else putTail (putGroup s ds v (fun _ => true) res pois v.vl (List.range v.vl)) ds v v.vl

/-- MACCV: element `e` at SEW 32 or 64, and the accumulator row that it comes from. -/
def maccvElem (m : Mat) (sew src h e : Nat) : Nat :=
  let r := h + e / 32
  if 32 ≤ r then 0 else if sew = 32 then (m.acc src).elem r (e % 32) else m.pairElem src r (e % 32)

def maccvPois (m : Mat) (sew src h e : Nat) : Bool :=
  let r := h + e / 32
  if 32 ≤ r then false
  else if sew = 32 ∨ e % 32 < 16 then (m.acc src).pois.getLsbD r
  else (m.acc (src + 1)).pois.getLsbD r

def maccvRun (s : State) (e : MqEntry) (d src : Nat) : State :=
  let v := entryEnv s e e.vl.toNat
  putEntryVec s v d (fun i => { bits := maccvElem s.h.mat v.sew src e.xb.toNat i, flags := 0 })
    (maccvPois s.h.mat v.sew src e.xb.toNat)

/-- MVTILE (R284). -/
def mvtileRun (s : State) (e : MqEntry) (d src : Nat) : State :=
  let v := entryEnv s e e.vl.toNat
  let n := min 2048 (v.vl * v.sew / 8)
  let h := unboundCopy s
  let bytes := packElems v.vlen ((List.range v.lmul).map (fun i => (h.vreg .v (src + i)).bits.toNat))
    % 2 ^ (8 * n)
  let per := v.vlen / 8
  let pois := fun r =>
    decide (64 * r < n) &&
      (h.vreg .v (src + 64 * r / per)).pois.getLsbD (64 * r % per / 64 % v.groups)
  s.setMat (s.h.mat.setTile d { bits := BitVec.ofNat 16384 bytes, pois := rowBits pois })

end Sys2Proof.Machine
end

