-- ==== Sys2Proof/Machine/Pinned.lean ====
section
/-! DEFINITION. Pinned accumulators: the seven operations of Table 3.5, spill records, refills and evictions,
and the execution of matrix-queue entries (14 R296 to R315; 13 R276, R277, R292, R313). -/

namespace Sys2Proof.Machine

/-! ## The words of Table 3.5 -/

def sideOf : PinShape → Nat
  | .s1 => 1
  | .s2 => 2
  | .s4 => 4

/-- MPIN's origin is a multiple of the group's tiles and the group lies in the grant (03 R64, 14 R301). -/
def execMpin (o : BitVec 4) (g : PinShape) (rs1 : Reg) (s : State) : Host.Outcome State Fault Refusal :=
  let i := Instr.mpin o g rs1
  let n := sideOf g * sideOf g
  postWord s i (s.h.hasAccs o n && decide (o.toNat % n = 0))
    (if fieldOf (s.h.xr rs1) 63 32 = 0 then none else some (illegal i.word)) (s.h.xr rs1) 0

def execMunpin (o : BitVec 4) (s : State) : Host.Outcome State Fault Refusal :=
  postWord s (.munpin o) (s.h.hasAccs o 1) none 0 0

def execMgdr (o : BitVec 4) (k : BitVec 5) (rs1 : Reg) (s : State) : Host.Outcome State Fault Refusal :=
  let i := Instr.mgdr o k rs1
  postWord s i (s.h.hasAccs o 1)
    (matVecGuard s.h i (decide (s.h.sew = 32) && lmulAligned s.h k)) (s.h.xr rs1) 0

def execMgdrq (o : BitVec 4) (k : BitVec 5) (rs1 : Reg) (d : BitVec 5) (s : State) :
    Host.Outcome State Fault Refusal :=
  let i := Instr.mgdrq o k rs1 d
  postWord s i (s.h.hasAccs o 1)
    (matVecGuard s.h i (decide (s.h.sew = 32) && lmulAligned s.h k && lmulAligned s.h d)) (s.h.xr rs1) 0

def execMqry (o : BitVec 4) (q d : BitVec 5) (s : State) : Host.Outcome State Fault Refusal :=
  let i := Instr.mqry o q d
  postWord s i (s.h.hasAccs o 1)
    (matVecGuard s.h i (decide (s.h.sew = 32) && lmulAligned s.h q && lmulAligned s.h d)) 0 0

def execMspill (o : BitVec 4) (s : State) : Host.Outcome State Fault Refusal :=
  postWord s (.mspill o) (s.h.hasAccs o 1) none 0 0

def execMfill (o : BitVec 4) (rs1 : Reg) (s : State) : Host.Outcome State Fault Refusal :=
  let i := Instr.mfill o rs1
  postWord s i (s.h.hasAccs o 1)
    (if fieldOf (s.h.xr rs1) 63 16 = 0 then none else some (illegal i.word)) (s.h.xr rs1) 0

/-! ## Groups (R296, R312) -/

/-- d of a group: 32n. -/
def PinEntry.d (p : PinEntry) : Nat := 32 * p.side

/-- The group that the context holds at an origin. -/
def Mat.pinAt (m : Mat) (o : Nat) : Option PinEntry := m.pins.find? (fun p => decide (p.origin.toNat = o))

/-- Replace a group's entry, or take it out. -/
def Mat.setPin (m : Mat) (p : PinEntry) : Mat :=
  { m with pins := m.pins.map (fun x => if x.origin = p.origin then p else x) }
def Mat.dropPin (m : Mat) (o : BitVec 4) : Mat :=
  { m with pins := m.pins.filter (fun x => decide (x.origin ≠ o)) }

/-- The accumulators that hold row `r` of S, and the row in them. -/
def PinEntry.rowAccs (p : PinEntry) (r : Nat) : List Nat :=
  (List.range p.side).map (fun c => p.origin.toNat + p.side * (r / 32) + c)

/-- Row `r` of S as a number of 1,024 n bits. -/
def pinRow (m : Mat) (p : PinEntry) (r : Nat) : Nat :=
  packElems 1024 ((p.rowAccs r).map (fun a => (m.acc a).row (r % 32)))

/-- Poison of row `r` of S. -/
def pinPois (m : Mat) (p : PinEntry) (r : Nat) : Bool :=
  (p.rowAccs r).any (fun a => (m.acc a).pois.getLsbD (r % 32))

/-- The elements of row `r`. -/
def pinElems (m : Mat) (p : PinEntry) (r : Nat) : List Nat :=
  let x := pinRow m p r
  (List.range p.d).map (fun j => x / 2 ^ (32 * j) % 2 ^ 32)

/-- Row `r` of S replaced, with its poison. -/
def putPinRow (p : PinEntry) (m : Mat) (r : Nat) (x : Nat) (pois : Bool) : Mat :=
  (p.rowAccs r).zipIdx.foldl (fun m a =>
    let old := m.acc a.1
    let k := r % 32
    m.setAcc a.1 { bits := setField old.bits (1024 * k + 1023) (1024 * k) (x / 2 ^ (1024 * a.2) % 2 ^ 1024),
                   pois := setField old.pois k k (if pois then 1 else 0) }) m

/-- Every row of S replaced, from row `r`. -/
def putPinRows (p : PinEntry) : Nat → List (Nat × Bool) → Mat → Mat
  | _, [], m => m
  | r, (x, q) :: t, m => putPinRows p (r + 1) t (putPinRow p m r x q)

/-- accumulator not owned, with a subcode of Table 14.5. -/
def notOwned (sub : BitVec 16) : Stop := .exc { cause := 27, tval := 0, sub := sub }

/-! ## Spill records (R300, R308, Table 14.6) -/

/-- Address of the record of a handle. -/
def spillVa (h : Hart) (handle : BitVec 32) : Word := h.c.aotbase + zext64 handle * 65600

/-- 64-byte pieces of a row. -/
def PinEntry.rowPieces (p : PinEntry) : Nat := 2 * p.side
/-- 64-byte pieces of a record. -/
def PinEntry.pieces (p : PinEntry) : Nat := 1 + p.rowPieces * p.d

/-- The first 16 bytes of a header. -/
def spillHeader (i : Ident) (p : PinEntry) (gen : BitVec 16) : Nat :=
  0x4E4B5041 + 1 * 2 ^ 32 + shapeCode p.side * 2 ^ 48 + i.tag * 2 ^ 64 + gen.toNat * 2 ^ 80
    + p.handle.toNat * 2 ^ 96

/-- The places of a record's pieces; an aperture fails as the device range does (R302). -/
def spillLocs (s : State) (h : Hart) (p : PinEntry) (k : AKind) : Except Stop (List Loc) :=
  allLocs ((List.range p.pieces).map (fun i =>
    (spillVa h p.handle + BitVec.ofNat 64 (64 * i),
     entryLocFlat s h k (mqSub k) (spillVa h p.handle + BitVec.ofNat 64 (64 * i)))))

/-- The 64-byte pieces of S, with row poison. -/
def statePieces (m : Mat) (p : PinEntry) : List (Nat × Bool) :=
  (List.range p.d).flatMap (fun r =>
    (List.range p.rowPieces).map (fun j => (pinRow m p r / 2 ^ (512 * j) % 2 ^ 512, pinPois m p r)))

/-- The record of a group with a generation: its pieces, the header first. -/
def spillPieces (i : Ident) (m : Mat) (p : PinEntry) (gen : BitVec 16) : List (Nat × Bool) :=
  let hd := spillHeader i p gen
  let rows := statePieces m p
  let crc := crc32c ((16, hd) :: rows.map (fun x => (64, x.1)))
  (hd + crc * 2 ^ 128, false) :: rows

/-- A spill: the record is written with GEN + 1, and the group's generation follows (R299, R309); `h` is the
hart as its accesses see it. -/
def spillGroup (s : State) (h : Hart) (p : PinEntry) : Except Stop (State × PinEntry) :=
  match spillLocs s h p .store with
  | .error e => .error e
  | .ok ls =>
      let ps := spillPieces h.id h.mat p (p.gen + 1)
      .ok (writeRows s 64 ((ls.zip ps).map (fun x => (x.1, x.2.1, x.2.2))), { p with gen := p.gen + 1 })

/-- The checks of a record as read, in subcode order (Table 14.5). -/
def spillCheck (p : PinEntry) (gen : BitVec 16) (ps : List Nat) : Option (BitVec 16) :=
  let hd := ps.headD 0
  if descField hd 0 4 ≠ 0x4E4B5041 ∨ descField hd 4 2 ≠ 1 then some 1
  else if descField hd 6 1 ≠ shapeCode p.side ∨ descField hd 12 4 ≠ p.handle.toNat then some 2
  else if descField hd 10 2 ≠ gen.toNat then some 3
  else if descField hd 16 4 ≠ crc32c ((16, hd % 2 ^ 128) :: ps.tail.map (fun x => (64, x))) then some 4
  else none

/-- Rows of S from a record's row pieces, with poison. -/
def spillRows (p : PinEntry) (ps : List (Nat × Bool)) : List (Nat × Bool) :=
  (List.range p.d).map (fun r =>
    let mine := (ps.drop (p.rowPieces * r)).take p.rowPieces
    (packElems 512 (mine.map (fun x => x.1)), mine.any (fun x => x.2)))

/-- A fill: the whole record is read and checked before any tile is written (R308). -/
def fillGroup (s : State) (h : Hart) (p : PinEntry) (gen : BitVec 16) : Except Stop State :=
  match spillLocs s h p .load with
  | .error e => .error e
  | .ok ls =>
      let rs := readRows s s.mem 64 ls
      match spillCheck p gen (rs.map (fun x => x.1)) with
      | some sub => .error (.exc { cause := 28, tval := spillVa h p.handle, sub := sub })
      | none =>
          let q : PinEntry := { p with gen := gen, state := .resident, core := h.id.coreNo }
          let m := (putPinRows p 0 (spillRows p rs.tail) s.h.mat).setPin q
          .ok ((s.setMat m).aotWrite h.id q false)

/-! ## What the entries do (R303 to R309) -/

/-- MPIN. -/
def mpinRun (s : State) (e : MqEntry) (o : BitVec 4) (g : PinShape) : Except Stop State :=
  let n := sideOf g
  let hd : BitVec 32 := e.xa.truncate 32
  if s.h.mat.pins.any (fun p => decide (p.origin = o) && decide (p.side = n) && decide (p.handle = hd)) then .ok s
  else if (List.range (n * n)).any (fun t => (s.h.mat.pinOf (o.toNat + t)).isSome) then .error (notOwned 2)
  else
    let p : PinEntry :=
      { origin := o, side := n, handle := hd, gen := 0, state := .resident, core := s.h.id.coreNo }
    .ok ((s.setMat { s.h.mat with pins := s.h.mat.pins ++ [p] }).aotWrite s.h.id p true)

/-- MUNPIN. -/
def munpinRun (s : State) (o : BitVec 4) : Except Stop State :=
  match s.h.mat.pinAt o.toNat with
  | none => .error (notOwned 1)
  | some p => .ok ((s.aotClear s.h.id p).setMat (s.h.mat.dropPin o))

/-- The new row i of S, and the flags of its steps (R305). -/
def updateRow (alpha beta v : Nat) (ks : List FVal) (row : List Nat) : List Nat × BitVec 5 :=
  let ss := row.map fp32.unpack
  let u := winDot fp32 [] (ss.zip ks)
  let t := rneEnv.mul fp32 alpha u.bits
  let w := rneEnv.sub fp32 v t.bits
  let dl := rneEnv.mul fp32 beta w.bits
  let cells := (ss.zip ks).map (fun p => twoProducts (fp32.unpack alpha) p.1 (fp32.unpack dl.bits) p.2)
  (cells.map (fun c => c.bits),
   cells.foldl (fun f c => f ||| c.flags) (u.flags ||| t.flags ||| w.flags ||| dl.flags))

/-- Element `j` of group vK as FP32 bits. -/
def entryElem (h : Hart) (v : VEnv) (k j : Nat) : Nat := (vloc k 32).get h v j

/-- Some slice of a group that holds one of the elements is poisoned. -/
def entryPois (h : Hart) (v : VEnv) (k : Nat) (es : List Nat) : Bool := es.any (fun e => (vloc k 32).pois h v e)

/-- The update of MGDR and MGDRQ: an undefined row where the result is poisoned. -/
def updateRun (s : State) (e : MqEntry) (p : PinEntry) (k : Nat) : State :=
  let v := entryEnv s e e.vl.toNat
  let h := unboundCopy s
  let d := p.d
  let kp := entryPois h v k (List.range v.vl)
  let ks := (List.range d).map (fun j => fp32.unpack (entryElem h v k j))
  let alpha := fieldOf e.xa 31 0
  let beta := fieldOf e.xa 63 32
  let rs : List (Nat × Bool × BitVec 5) := (List.range d).map (fun i =>
    if kp || pinPois s.h.mat p i then
      ((Config.free s.tick (256 + i) 4096).toNat % 2 ^ (32 * d), true, (0 : BitVec 5))
    else
      let r := updateRow alpha beta (entryElem h v k (d + i)) ks (pinElems s.h.mat p i)
      (packElems 32 r.1, false, r.2))
  let m := putPinRows p 0 (rs.map (fun r => (r.1, r.2.1))) s.h.mat
  (s.setH ({ s.h with mat := m }.addFlags (rs.foldl (fun (f : BitVec 5) (r : Nat × Bool × BitVec 5) => f ||| r.2.2) 0))).aotWrite s.h.id p true

/-- The query: row sums into vD; `k` and `o` are the register and the first element of q, read in `h`. -/
def queryRun (s : State) (h : Hart) (e : MqEntry) (p : PinEntry) (k o d : Nat) : State :=
  let v := entryEnv s e p.d
  let vq := entryEnv s e e.vl.toNat
  let qs := (List.range p.d).map (fun j => fp32.unpack (entryElem h vq k (o + j)))
  let qp := entryPois h vq k (List.range' o p.d)
  let m := s.h.mat
  putEntryVec s v d (fun i => winDot fp32 [] (((pinElems m p i).map fp32.unpack).zip qs))
    (fun i => qp || pinPois m p i)

/-- MGDR. -/
def mgdrRun (s : State) (e : MqEntry) (o : BitVec 4) (k : Nat) : Except Stop State :=
  match s.h.mat.pinAt o.toNat with
  | none => .error (notOwned 1)
  | some p => if e.vl.toNat = 2 * p.d then .ok (updateRun s e p k) else .error (notOwned 3)

/-- MGDRQ: the update, then the query on the state that it leaves. -/
def mgdrqRun (s : State) (e : MqEntry) (o : BitVec 4) (k d : Nat) : Except Stop State :=
  match s.h.mat.pinAt o.toNat with
  | none => .error (notOwned 1)
  | some p =>
      if e.vl.toNat = 3 * p.d then
        .ok (queryRun (updateRun s e p k) (unboundCopy s) e p k (2 * p.d) d)
      else .error (notOwned 3)

/-- MQRY. -/
def mqryRun (s : State) (e : MqEntry) (o : BitVec 4) (q d : Nat) : Except Stop State :=
  match s.h.mat.pinAt o.toNat with
  | none => .error (notOwned 1)
  | some p =>
      if e.vl.toNat = p.d then .ok (queryRun s (unboundCopy s) e p q 0 d) else .error (notOwned 3)

/-- MSPILL. -/
def mspillRun (s : State) (e : MqEntry) (o : BitVec 4) : Except Stop State :=
  match s.h.mat.pinAt o.toNat with
  | none => .error (notOwned 1)
  | some p =>
      match spillGroup s (entryHart s.h e) p with
      | .error x => .error x
      | .ok r => .ok ((r.1.setMat (r.1.h.mat.setPin r.2)).aotWrite s.h.id r.2 false)

/-- MFILL. -/
def mfillRun (s : State) (e : MqEntry) (o : BitVec 4) : Except Stop State :=
  match s.h.mat.pinAt o.toNat with
  | none => .error (notOwned 1)
  | some p => fillGroup s (entryHart s.h e) p (e.xa.truncate 16)

/-! ## Refill and eviction (R311 to R313) -/

/-- Accumulators that a word names in the grant, and whether it refills a spilled group of theirs: MPIN and
MUNPIN do not (R303, R304). -/
def entryAccs (h : Hart) (i : Instr) : List Nat :=
  let group := fun (o : BitVec 4) => (h.mat.pinAt o.toNat).elim [o.toNat]
    (fun p => (List.range (p.side * p.side)).map (fun t => o.toNat + t))
  match i with
  | .mlda t _ _ | .msta t _ _ | .mzero t => [t.toNat]
  | .mma d _ _ | .mmas d _ _ | .mmal d _ _ => [d.toNat]
  | .mma64 d _ _ => [d.toNat, d.toNat + 1]
  | .mcvt fmt _ _ a => (List.range (mcvtAccs fmt)).map (fun t => a.toNat + t)
  | .maccv _ a _ => [a.toNat, a.toNat + 1]
  | .mgdr o _ _ | .mgdrq o _ _ _ | .mqry o _ _ | .mspill o | .mfill o _ => group o
  | _ => []

/-- MACCV names its second accumulator at SEW 64 alone. -/
def entryNames (h : Hart) (e : MqEntry) (i : Instr) : List Nat :=
  match i with
  | .maccv _ a _ => if sewOf e.vcfg = 64 then entryAccs h i else [a.toNat]
  | _ => entryAccs h i

/-- The first spilled group that the entry names. -/
def spilledOf (h : Hart) (e : MqEntry) (i : Instr) : Option PinEntry :=
  ((entryNames h e i).filterMap h.mat.pinOf).find? (fun p => decide (p.state = .spilled))

/-- Refill a spilled group: an acquire at package scope, the claim and the fill. -/
def refill (s : State) (e : MqEntry) (p : PinEntry) : Except Stop State :=
  let s1 := s.acquire .package
  fillGroup s1 (entryHart s1.h e) p p.gen

/-- Every spilled group that the entry names is refilled, at most two. -/
def refillAll (e : MqEntry) (i : Instr) : Nat → State → Except (State × Stop) State
  | 0, s => .ok s
  | n + 1, s =>
      match spilledOf s.h e i with
      | none => .ok s
      | some p =>
          match refill s e p with
          | .error x => .error (s, x)
          | .ok t => refillAll e i n t

/-- What an entry's word does on a hart whose groups are resident. -/
def entryRun (s : State) (e : MqEntry) (i : Instr) : Except Stop State :=
  match i with
  | .mldt t _ _ => mldtRun s e t.toNat
  | .mstt t _ _ => msttRun s e t.toNat
  | .mlda t _ _ => mldaRun s e t.toNat
  | .msta t _ _ => mstaRun s e t.toNat
  | .mzero t => .ok (mzeroRun s t.toNat)
  | .mma d a b => .ok (mmaRun s e d.toNat a.toNat b.toNat)
  | .mmas d a b => .ok (mmasRun s e d.toNat a.toNat b.toNat)
  | .mma64 d a b => .ok (mma64Run s e d.toNat a.toNat b.toNat)
  | .mmal d a _ => mmalRun s e d.toNat a.toNat
  | .mcvt fmt rm d a => .ok (mcvtRun s e fmt rm d.toNat a.toNat)
  | .maccv d a _ => .ok (maccvRun s e d.toNat a.toNat)
  | .mvtile d v => .ok (mvtileRun s e d.toNat v.toNat)
  | .mpin o g _ => mpinRun s e o g
  | .munpin o => munpinRun s o
  | .mgdr o k _ => mgdrRun s e o k.toNat
  | .mgdrq o k _ d => mgdrqRun s e o k.toNat d.toNat
  | .mqry o q d => mqryRun s e o q.toNat d.toNat
  | .mspill o => mspillRun s e o
  | .mfill o _ => mfillRun s e o
  | _ => .ok s

/-- The word of an entry. -/
def MqEntry.instr (e : MqEntry) : Instr := (decodeScalar e.word).getD .msync

/-- The words that read or write vector registers (13 R278). -/
def namesVec (i : Instr) : Bool :=
  match i with
  | .maccv _ _ _ | .mvtile _ _ | .mgdr _ _ _ | .mgdrq _ _ _ _ | .mqry _ _ _ => true
  | _ => false

/-- The oldest entry may execute: the queue has not stopped, and for a word that names vector registers every
block fetched before it has completed (R276 to R278). -/
def entryReady (h : Hart) (e : MqEntry) : Bool :=
  h.mat.fault.isNone && h.live && !h.isOut && (decide (e.bpos = 0) || !namesVec e.instr)

/-- The queue stops at its oldest entry; an access that is to be sent again leaves it to start anew. -/
def stopQueue (s : State) (x : Stop) : State := if x = .retry then s else s.setMatFault (some x)

/-- The oldest entry of the current hart executes, after the refills that it needs. -/
def matrixEntry (s : State) : Option State :=
  match s.h.mat.queue with
  | [] => none
  | e :: t =>
      if !entryReady s.h e then none
      else
        match refillAll e e.instr 2 s with
        | .error (s1, x) => some (stopQueue s1 x)
        | .ok s1 =>
            match entryRun s1 e e.instr with
            | .error x => some (stopQueue s1 x)
            | .ok s2 => some (s2.setMat { s2.h.mat with queue := t })

def execMatrixEntryExecute (s : State) : Host.Outcome State Fault Refusal :=
  event "MATRIX_ENTRY_EXECUTE" (matrixEntry s)

/-- A refill of the current hart's spilled group that its oldest entry names. -/
def pinnedRefillRun (o : BitVec 4) (s : State) : Option State :=
  match s.h.mat.queue with
  | [] => none
  | e :: _ =>
      if !entryReady s.h e then none
      else
        match spilledOf s.h e e.instr with
        | none => none
        | some p =>
            if p.origin ≠ o then none
            else
              match refill s e p with
              | .error x => some (stopQueue s x)
              | .ok t => some t

def execPinnedRefill (o : BitVec 4) (s : State) : Host.Outcome State Fault Refusal :=
  event "PINNED_REFILL" (pinnedRefillRun o s)

/-- The owner as an eviction's accesses see it: the partition runtime's pages and its kernels' alike are the
context's, so the privilege is that of the context at its stop. -/
def evictGroup (s : State) (k : Hart) (p : PinEntry) : Except Stop State :=
  let r : Except Stop (State × PinEntry) := if s.aotDirty k.id p then spillGroup s k p else .ok (s, p)
  match r with
  | .error e => .error e
  | .ok (s1, q) =>
      .ok ((s1.aotClear k.id p).mapHarts (fun h => decide (h.id = k.id))
        (fun h => { h with mat := h.mat.setPin { q with state := .spilled } }))

end Sys2Proof.Machine
end

