-- ==== Sys2Proof/Machine/Evict.lean ====
section
/-! DEFINITION. Save areas as memory, and what leaves a core before other work takes its place: scratchpad
grants and pinned groups (06 R127; 14 R311; 19 R413, Tables 19.3 and 19.4). -/

namespace Sys2Proof.Machine

/-- `n` bytes at a physical address as an agent reads them; those of a poisoned granule are open. -/
def agentRead (s : State) (pa n : Nat) : Nat :=
  if poisonedLoc s (.mem pa true) n then (Config.free s.tick (2 ^ 32 + pa) (8 * n)).toNat else s.readPa pa n

/-! ## Save areas (19 R413) -/

/-- `n` bytes at a partition address of a save area. -/
def areaRead (s : State) (part a n : Nat) : Nat :=
  match partLoc s.mem part a .load with
  | some (.mem pa _) => agentRead s pa n
  | _ => 0

/-- Bytes to write into a save area: offset, size, value. -/
structure Piece where
  off : Nat
  size : Nat
  val : Nat
  deriving DecidableEq, Repr

/-- The pieces written at an area; none where a window refuses one. -/
def writePieces (part area : Nat) : List Piece → State → Option State
  | [], s => some s
  | p :: t, s =>
      if p.size = 0 then writePieces part area t s
      else if !partRangeOk s.mem part (area + p.off) p.size .store then none
      else
        match s.writePart part (area + p.off) p.size p.val with
        | none => none
        | some u => writePieces part area t u

/-- A record as a number from its fields: offset, size, value. -/
def fieldsNat (l : List (Nat × Nat × Nat)) : Nat :=
  l.foldl (fun a f => a + f.2.2 % 2 ^ (8 * f.2.1) * 2 ^ (8 * f.1)) 0

/-- The 4,096 bytes of a header with its checksum (Table 19.4). -/
def sealHeader (x : Nat) : Nat :=
  let y := x - descField x 0x10 4 * 2 ^ (8 * 0x10)
  y + crc32c [(4096, y)] * 2 ^ (8 * 0x10)

/-- The header of a context that has been saved, changed in its area. -/
def patchHeader (k : Hart) (f : BitVec 32768 → BitVec 32768) (s : State) : Option State :=
  match k.run with
  | .saved _ =>
      let a := k.c.ctxarea.toNat
      if !partRangeOk s.mem k.id.part a 4096 .store then none
      else
        s.writePart k.id.part a 4096 (sealHeader (f (BitVec.ofNat 32768 (areaRead s k.id.part a 4096))).toNat)
  | .empty | .created | .running | .faultWait _ | .parked _ | .held | .retired => some s

/-- Field of `n` bytes at offset `o` replaced. -/
def putBytes (b : BitVec 32768) (o n x : Nat) : BitVec 32768 := setField b (8 * (o + n) - 1) (8 * o) x

/-! ## Scratchpad grants (06 R127) -/

/-- The context is switched out by a save. -/
def Hart.isSaved (h : Hart) : Bool :=
  match h.run with
  | .saved _ => true
  | .empty | .created | .running | .faultWait _ | .parked _ | .held | .retired => false

/-- Bytes of a resident grant: from where to where in the scratchpads. -/
def grantBase (k : Hart) (c : Nat) : Nat := c * 2 ^ 19 + k.id.spadOff

/-- Poison bits of `n` granules from `g`. -/
def spadPoisBits (s : State) (g n : Nat) : Nat :=
  (List.range n).foldl (fun x i => if s.mem.spadPois.contains (g + i) then x + 2 ^ i else x) 0

/-- A grant as pieces of its context's area (Table 19.3). -/
def spadPieces (s : State) (k : Hart) (c : Nat) : List Piece :=
  let b := grantBase k c
  (List.range (k.id.spadKib * 16)).map (fun i =>
    { off := 0x40000 + 64 * i, size := 64, val := readLe s.mem.spad (b + 64 * i) 64 })
  ++ [{ off := 0xC0000, size := 0x400, val := spadPoisBits s (b / 64) (k.id.spadKib * 16) }]

/-- The resident grant of a switched-out context streams out; its header says so. -/
def evictSpad (s : State) (k : Hart) : Option State :=
  match k.id.spadCore with
  | none => none
  | some c =>
      if !k.isSaved || decide (k.id.spadKib = 0) then none
      else
        ((writePieces k.id.part k.c.ctxarea.toNat (spadPieces s k c) s).bind
          (patchHeader k (fun b => putBytes (putBytes b 0x1C 2 0xFFFF) 0x0C 1
            (descField b.toNat 0x0C 1 ||| 64)))).map
          (fun t => t.mapHarts k.same (fun h => { h with id := { h.id with spadCore := none } }))

def execScratchpadEvict (target : ContId) (s : State) : Host.Outcome State Fault Refusal :=
  event "SCRATCHPAD_EVICT" ((s.findCont target).bind (evictSpad s))

/-- The grant streamed into place from its area: scratchpad bytes, then poison. -/
def spadIn (s : State) (k : Hart) (c : Nat) : State :=
  let a := k.c.ctxarea.toNat
  let b := grantBase k c
  let n := k.id.spadKib * 16
  let pb := areaRead s k.id.part (a + 0xC0000) 0x400
  s.setMem ((List.range n).foldl (fun (m : MemSys) i =>
    { m with spad := writeLe m.spad (b + 64 * i) 64 (areaRead s k.id.part (a + 0x40000 + 64 * i) 64),
             spadPois := if pb.testBit i then setAdd m.spadPois (b / 64 + i) else setDel m.spadPois (b / 64 + i) })
    s.mem)

/-- A placed context whose grant is not resident gets it back. -/
def streamIn (s : State) (k : Hart) : Option State :=
  if k.id.isVector && k.live && !k.isOut && decide (k.run ≠ .created) && decide (0 < k.id.spadKib)
      && decide (k.id.spadCore ≠ some k.id.coreNo)
      && partRangeOk s.mem k.id.part (k.c.ctxarea.toNat + 0x40000) (k.id.spadKib * 1024) .load
      && partRangeOk s.mem k.id.part (k.c.ctxarea.toNat + 0xC0000) 0x400 .load then
    some ((spadIn s k k.id.coreNo).mapHarts k.same
      (fun h => { h with id := { h.id with spadCore := some h.id.coreNo } }))
  else none

def execScratchpadStreamIn (target : ContId) (s : State) : Host.Outcome State Fault Refusal :=
  event "SCRATCHPAD_STREAM_IN" ((s.findCont target).bind (streamIn s))

/-- A gang-aperture access that waits for a grant is sent again: the instruction at the pc, or the oldest
block word, runs once more on its hart's next step (06 R128). -/
def execApertureRetry (s : State) : Host.Outcome State Fault Refusal :=
  event "APERTURE_RETRY"
    (if s.harts.any (fun k => decide (k.id.gang = s.h.id.gang) && decide (s.h.id.gang ≠ none)
        && decide (0 < k.id.spadKib) && decide (k.id.spadCore ≠ some k.id.coreNo)) then some s else none)

/-! ## Making room (06 R127, 14 R311) -/

/-- The list entry of an evicted group in its context's area. -/
def patchPin (k : Hart) (o : BitVec 4) (s : State) : Option State :=
  match k.mat.pins.findIdx? (fun p => decide (p.origin = o)), s.findCtx k.id.part k.id.tag with
  | some i, some h =>
      match h.mat.pinAt o.toNat with
      | none => some s
      | some p => patchHeader h (fun b =>
          putBytes (putBytes b (0x600 + 16 * i + 2) 1 2) (0x600 + 16 * i + 8) 2 p.gen.toNat) s
  | _, _ => some s

/-- A resident group leaves its accumulators. -/
def evictPin (k : Hart) (p : PinEntry) (s : State) : Option State :=
  match evictGroup s k p with
  | .error _ => none
  | .ok t => patchPin k p.origin t

/-- A context whose groups may be evicted: its queue is saved or drained. -/
def evictable (k : Hart) : Bool := k.isOut || decide (k.mat.queue = [])

/-- Eviction of the group at an origin of a context that is switched out or drained. -/
def pinnedEvictRun (target : ContId) (o : BitVec 4) (s : State) : Option State :=
  match s.findCont target with
  | none => none
  | some k =>
      match k.mat.pinAt o.toNat with
      | none => none
      | some p =>
          if evictable k && decide (p.state = .resident) then
            evictPin k p s
          else none

def execPinnedEvict (target : ContId) (o : BitVec 4) (s : State) : Host.Outcome State Fault Refusal :=
  event "PINNED_EVICT" (pinnedEvictRun target o s)

/-- Resident groups of a context on core `c` that reach physical accumulators `lo` to `lo + n - 1`. -/
def pinsOn (k : Hart) (c lo n : Nat) : List PinEntry :=
  k.mat.pins.filter (fun p => decide (p.state = .resident) && decide (p.core = c)
    && overlap (k.id.physAcc p.origin.toNat) (p.side * p.side) lo n)

/-- The resident grant of a context on core `c` reaches bytes `lo` to `lo + n - 1` of its scratchpad. -/
def grantOn (k : Hart) (c lo n : Nat) : Bool :=
  decide (k.id.spadCore = some c) && overlap k.id.spadOff (k.id.spadKib * 1024) lo n

/-- A context's hold on part of a core ends: its groups, and its grant, are evicted. -/
def vacateOne (c slo sn alo an : Nat) (s : State) (k : Hart) : Option State :=
  let s1 := (pinsOn k c alo an).foldl (fun (t : Option State) p => t.bind (evictPin k p)) (some s)
  if grantOn k c slo sn then s1.bind (fun t => evictSpad t k) else s1

/-- Room on core `c` for a grant of `sn` bytes at `slo` and `an` accumulators at `alo`, for a context `own`;
none while an access of an eviction fails. -/
def vacate (s : State) (c slo sn alo an : Nat) (own : Hart → Bool) : Option State :=
  (s.harts.filter (fun k => k.isSaved && !own k)).foldl
    (fun (t : Option State) k => t.bind (fun u => vacateOne c slo sn alo an u k)) (some s)

end Sys2Proof.Machine
end

