-- ==== Sys2Proof/Machine/Sched.lean ====
section
/-! DEFINITION. Queues, packets, jobs and their gangs: what Ferryman and the cluster supervisors do (18; 17 R360
to R363; 19 R412). -/

namespace Sys2Proof.Machine

/-! ## Memory under a queue's address space (18 Table 18.1 SATP; assumption 32) -/

/-- Physical address of a virtual address, or the cause of the fault that the access meets. -/
def spaceAccess (s : State) (part : Nat) (satp : Word) (k : AKind) (va : Word) : Except (BitVec 8) Nat :=
  match toPartition s.mem part satp [] .s true false k va with
  | .error .access => .error k.accessFault
  | .error (.page _) => .error k.pageFault
  | .ok a =>
      match partLoc s.mem part a k with
      | some (.mem pa _) => .ok pa
      | _ => .error k.accessFault

def spaceRead (s : State) (part : Nat) (satp : Word) (va : Word) (n : Nat) : Except (BitVec 8) Nat :=
  match spaceAccess s part satp .load va with
  | .error c => .error c
  | .ok pa => .ok (agentRead s pa n)

/-- TAG of a packet (R385). -/
def pktTag (x : Nat) : BitVec 32 := BitVec.ofNat 32 (descField x 4 4)

/-- A store of a doubleword that a packet names: made, or reported with cause 5 (R465). -/
def signalStore (s : State) (part : Nat) (satp : Word) (q : Nat) (pktix : Word) (tag : BitVec 32) (va v : Word) :
    State :=
  match spaceAccess s part satp .store va with
  | .ok pa => s.writePa pa 8 v.toNat
  | .error c =>
      s.postReport { cause := 5, queue := q, part := part, tag := tag, pktix := pktix, boff := 0,
                     lcnt := s.lcntOf 8, d0 := va, d1 := zext64 c }

/-! ## Packets (R384 to R387) -/

/-- What is wrong with a packet. -/
structure Bad where
  cause : Nat
  boff : Nat
  d0 : Word
  d1 : Word
  deriving DecidableEq, Repr

/-- A field out of range or a reserved byte that is not zero. -/
def Bad.field (boff : Nat) : Bad := { cause := 3, boff := boff, d0 := 0, d1 := 0 }

/-- A descriptor that could not be read, named by the field at `boff`. -/
def Bad.read (boff : Nat) (va : Word) (c : BitVec 8) : Bad := { cause := 5, boff := boff, d0 := va, d1 := zext64 c }

/-- The first field that breaks its table. -/
def badField (l : List (Nat × Bool)) : Option Bad := (l.find? (fun p => !p.2)).map (fun p => Bad.field p.1)

/-- Reserved bytes `o` to `o + n - 1`. -/
def zeros (x o n : Nat) : List (Nat × Bool) :=
  (List.range n).map (fun i => (o + i, decide (descField x (o + i) 1 = 0)))

/-- A packet type on a queue type at a revision (Tables 18.3 and 15.1). -/
def pktTypeOk (qt rev ty : Nat) : Bool :=
  if ty = 0x01 then decide (qt = 0)
  else if ty = 0x02 then decide (qt = 0 ∧ 2 ≤ rev)
  else if ty = 0x03 ∨ ty = 0x04 then decide (qt ≤ 3)
  else if ty = 0x05 then decide (qt ≤ 2 ∧ rev = 3)
  else if ty = 0x06 then decide (qt = 2)
  else if 0x10 ≤ ty ∧ ty ≤ 0x13 then decide (qt = 3)
  else if ty = 0x43 then decide (qt = 1 ∧ 2 ≤ rev)
  else if ty = 0x44 then decide (qt = 1 ∧ rev = 3)
  else if ty = 0x40 ∨ ty = 0x41 ∨ ty = 0x42 ∨ ty = 0x45 then decide (qt = 1)
  else false

/-- The inner packet at which an INDIRECT stands. -/
def State.inner (s : State) (q : Nat) : Option Nat := ((s.qs q).indirect).map (fun i => i.2.2)

/-- What is wrong with a packet's header (R385). An INDIRECT inside a buffer is no permitted type (R393). -/
def headerBad (s : State) (q x : Nat) : Option Bad :=
  if !pktTypeOk (s.qType q) (s.qRev q) (descField x 0 1)
      || (decide (descField x 0 1 = 0x05) && (s.inner q).isSome) then
    some { cause := 1, boff := 0, d0 := 0, d1 := 0 }
  else if descField x 1 1 ≠ s.qRev q then
    some { cause := 2, boff := 1, d0 := BitVec.ofNat 64 (descField x 1 1), d1 := 0 }
  else badField [(2, decide (descField x 2 1 ≤ 1)), (3, decide (descField x 3 1 = 0))]

/-- Partition address of the slot at RDIX. -/
def State.slotAddr (s : State) (q : Nat) : Nat := s.qRing q + 64 * ((s.qRdix q).toNat % s.qSize q)

/-- The packet that is to start next, read once. -/
def curPacket (s : State) (q : Nat) : Except Bad Nat :=
  match (s.qs q).packet with
  | some p => .ok p.toNat
  | none =>
      match (s.qs q).indirect with
      | some (a, _, k) =>
          let va := a + BitVec.ofNat 64 (64 * k)
          match spaceRead s (s.qPart q) (s.qSatp q) va 64 with
          | .error c => .error (Bad.read 0 va c)
          | .ok x => .ok x
      | none =>
          match partLoc s.mem (s.qPart q) (s.slotAddr q) .load with
          | some (.mem pa _) => .ok (agentRead s pa 64)
          | _ => .error (Bad.read 0 (BitVec.ofNat 64 (s.slotAddr q)) 5)

/-- A queue that has a packet to start. -/
def queueRunning (s : State) (q : Nat) : Bool :=
  decide (s.qState q = 1) && decide (s.qType q ≠ 4) && decide ((s.qRdix q).toNat < (s.qWrix q).toNat)

/-- What the packet at RDIX leaves behind in the queue's record. -/
def QueueState.fresh (r : QueueState) (time : Nat) : QueueState :=
  { r with packet := none, skips := 0, resv := [], picked := false, headAt := time, wdReported := 0 }

/-- A malformed packet: the queue stops before it, and a REPORT goes to the sibling queue (R386). -/
def malform (s : State) (q x : Nat) (b : Bad) : State :=
  let boff := (b.boff + 64 * (s.inner q).getD 0) % 65536
  ((s.qSetState q 2).reportQueue q b.cause (BitVec.ofNat 32 (descField x 4 4)) (s.qRdix q) boff b.d0 b.d1).updQs q
    (fun r => { r.fresh s.time with indirect := none })

/-- The packet has started: RDIX passes it, or its INDIRECT goes on to the next inner packet. -/
def advanceQ (s : State) (q : Nat) : State :=
  match (s.qs q).indirect with
  | some (a, n, k) =>
      if k + 1 < n then s.updQs q (fun r => { r.fresh s.time with indirect := some (a, n, k + 1) })
      else (s.qSetRdix q (s.qRdix q + 1)).updQs q (fun r => { r.fresh s.time with indirect := none })
  | none => (s.qSetRdix q (s.qRdix q + 1)).updQs q (fun r => r.fresh s.time)

/-- Keep the packet that was read. -/
def latchQ (s : State) (q x : Nat) : State := s.updQs q (fun r => { r with packet := some (BitVec.ofNat 512 x) })

/-- Batches of a draw. -/
def Draw.batches (d : Draw) : Nat := if d.mesh then d.count else (d.count + d.batch - 1) / max 1 d.batch
def Draw.isClosed (d : Draw) : Bool := decide (d.batches ≤ d.closed.length)

/-- Every started packet of a queue has completed. -/
def queueIdle (s : State) (q : Nat) : Bool :=
  s.sched.jobs.all (fun j => decide (j.queue ≠ q) || j.done)
    && s.sched.copies.all (fun c => decide (c.queue ≠ q))
    && decide ((s.qs q).pending = [])
    && s.gfx.all (fun c => decide (c.queue ≠ q)
      || c.draws.all (fun d => decide (d.seq % c.k ≠ c.dieSlot) || d.isClosed))

/-- The FENCE flag lets the packet start. -/
def fenceOk (s : State) (q x : Nat) : Bool := decide (descField x 2 1 = 0) || queueIdle s q

/-- What starting a packet comes to. -/
inductive Start where
  | bad (b : Bad)
  | wait
  | go (t : State)
  deriving DecidableEq, Repr

/-- An event that starts a packet of one type: a malformed packet is handled whatever its type; the event
cannot happen where the queue has no such packet or the packet must wait. -/
def packetEvent (ty : Nat) (body : State → Nat → Nat → Start) (s : State) (q : Nat) : Option State :=
  if !queueRunning s q then none
  else
    match curPacket s q with
    | .error b => some (malform s q 0 b)
    | .ok x =>
        match headerBad s q x with
        | some b => some (malform s q x b)
        | none =>
            if descField x 0 1 ≠ ty then none
            else
              match body s q x with
              | .bad b => some (malform s q x b)
              | .wait => none
              | .go t => some t

/-! ## Kernels and jobs (R388 to R391) -/

/-- A kernel descriptor from its bytes (Table 18.5). -/
def Kernel.ofNat (x : Nat) : Kernel :=
  { entry := BitVec.ofNat 64 (descField x 0 8), gang := descField x 8 2, shape := descField x 10 1,
    eclass := descField x 11 1, spad := descField x 12 2, mt := descField x 14 1, ma := descField x 15 1,
    lentag := descField x 16 4 }

def Kernel.ok (k : Kernel) (x : Nat) : Bool :=
  decide (k.entry.toNat % 4 = 0) && decide (1 ≤ k.gang ∧ k.gang ≤ 4096)
    && decide (k.shape = 1 ∨ k.shape = 2 ∨ k.shape = 4 ∨ k.shape = 8) && decide (k.eclass ≤ 7)
    && decide (k.spad % 4 = 0) && decide (k.spad * k.shape ≤ 512) && decide (k.mt * k.shape ≤ 8)
    && decide (k.ma * k.shape ≤ 16) && decide (x / 2 ^ 160 = 0)

/-- The kernel that the field at `boff` names. -/
def readKernel (s : State) (part : Nat) (satp va : Word) (boff : Nat) : Except Bad Kernel :=
  if va.toNat % 64 ≠ 0 then .error (Bad.field boff)
  else
    match spaceRead s part satp va 64 with
    | .error c => .error (Bad.read boff va c)
    | .ok x => if (Kernel.ofNat x).ok x then .ok (Kernel.ofNat x) else .error (Bad.field boff)

/-- Vector cores of the clusters that a partition holds. -/
def State.partCores (s : State) (p : Nat) : Nat :=
  16 * (s.sched.clusters.filter (fun c => decide (c.2 = p) && s.dieOn (c.1 / 10))).length

/-- The job cannot be placed on the partition's cores (R391). -/
def unplaceable (s : State) (p : Nat) (k : Kernel) (ngang : Nat) (cores : Bool) : Bool :=
  let need := if cores then ngang * k.gang else k.gang
  let c := s.partCores p
  decide (c * k.shape < need) || decide (c * 512 < need * k.spad) || decide (c * 8 < need * k.mt)
    || decide (c * 16 < need * k.ma) || (decide (k.lentag ≠ 0) && decide (k.lentag ≠ 16384 / k.shape))

/-- A binding of a STREAMJOB's member (R389). -/
def jobBinding (s : State) (q x i n : Nat) : Except Bad (Option Binding) :=
  if !(descField x 29 1).testBit n then .ok none
  else
    let va := BitVec.ofNat 64 (descField x 32 8 + 256 * i + 64 * n)
    let ss := BitVec.ofNat 3 (descField x 31 1)
    match spaceRead s (s.qPart q) (s.qSatp q) va 64 with
    | .error c => .error (Bad.read 32 va c)
    | .ok d =>
        if descOk d (sewOfCode ss.toNat) then
          .ok (some (if (descField x 30 1).testBit n then .streamOut ss (descOf d) 0
            else .streamIn ss (descOf d) 0))
        else .error (Bad.field 32)

/-- The bindings of every member, four each, in gang and member order. -/
def jobBinds (s : State) (q x : Nat) : List Nat → Except Bad (List (Option Binding))
  | [] => .ok []
  | i :: t =>
      match jobBinding s q x (i / 4) (i % 4) with
      | .error b => .error b
      | .ok o =>
          match jobBinds s q x t with
          | .error b => .error b
          | .ok r => .ok (o :: r)

/-- Fields of a DISPATCH or STREAMJOB (Table 18.4). -/
def jobFields (x : Nat) : List (Nat × Bool) :=
  let stream := decide (descField x 0 1 = 0x02)
  let sb := descField x 29 1
  let so := descField x 30 1
  [(8, decide (descField x 8 8 % 64 = 0)),
   (24, decide (1 ≤ descField x 24 4 ∧ descField x 24 4 ≤ 2 ^ 24)), (28, decide (descField x 28 1 ≤ 1)),
   (29, if stream then decide (sb < 16) else decide (sb = 0)),
   (30, if stream then decide (so &&& sb = so) else decide (so = 0)),
   (31, if stream then decide (descField x 31 1 ≤ 5) else decide (descField x 31 1 = 0)),
   (32, if stream then decide (descField x 32 8 % 64 = 0) else decide (descField x 32 8 = 0)),
   (40, decide (descField x 40 8 % 8 = 0))] ++ zeros x 56 8

/-- The whole check of a job packet: its kernel and its bindings. -/
def jobCheck (s : State) (q x : Nat) : Except Bad (Kernel × List (Option Binding)) :=
  match badField (jobFields x) with
  | some b => .error b
  | none =>
      match readKernel s (s.qPart q) (s.qSatp q) (BitVec.ofNat 64 (descField x 8 8)) 8 with
      | .error b => .error b
      | .ok k =>
          let n := descField x 24 4
          if descField x 0 1 = 0x02 ∧ 65536 < n * k.gang then .error (Bad.field 24)
          else
            match (if descField x 0 1 = 0x02 then jobBinds s q x (List.range (4 * n * k.gang)) else .ok []) with
            | .error b => .error b
            | .ok bs =>
                if unplaceable s (s.qPart q) k n (decide (descField x 28 1 = 1)) then
                  .error { cause := 6, boff := 0, d0 := 0, d1 := 0 }
                else .ok (k, bs)

/-- The job that a packet creates. -/
def jobOfPacket (s : State) (q x : Nat) (k : Kernel) (bs : List (Option Binding)) : Job :=
  { jid := s.sched.nextJob, queue := q, pktix := s.qRdix q, tag := pktTag x, part := s.qPart q, entry := k.entry,
    args := BitVec.ofNat 64 (descField x 16 8), ngang := descField x 24 4, gangSize := k.gang, shape := k.shape,
    eclass := k.eclass, spad := k.spad, mt := k.mt, ma := k.ma, lentag := k.lentag,
    cores := decide (descField x 28 1 = 1), compsig := BitVec.ofNat 64 (descField x 40 8),
    compval := BitVec.ofNat 64 (descField x 48 8), satp := s.qSatp q, binds := bs, placed := 0, retired := 0,
    cut := false, startUs := s.time, wdReported := 0, done := false }

/-- A job packet starts once Ferryman has picked it: its job goes to placement (R387). -/
def startJob (s : State) (q x : Nat) : Start :=
  match jobCheck s q x with
  | .error b => .bad b
  | .ok (k, bs) =>
      if !(s.qs q).picked || !fenceOk s q x then .wait
      else
        .go ({ advanceQ s q with sched := { (advanceQ s q).sched with
          jobs := (advanceQ s q).sched.jobs ++ [jobOfPacket s q x k bs],
          nextJob := s.sched.nextJob + 1 } })

/-- DISPATCH. -/
def execDispatch (q : QNum) (s : State) : Host.Outcome State Fault Refusal :=
  event "DISPATCH" (packetEvent 0x01 startJob s q.toNat)

/-- STREAMJOB. -/
def execStreamjob (q : QNum) (s : State) : Host.Outcome State Fault Refusal :=
  event "STREAMJOB" (packetEvent 0x02 startJob s q.toNat)

/-! ## Signals and indirect buffers (R392, R393) -/

/-- The condition of a WAITSIG. -/
def sigCond (c sig v : Nat) : Bool :=
  if c = 0 then decide (v ≤ sig) else if c = 1 then decide (sig = v) else if c = 2 then decide (sig ≠ v)
  else decide (sig < v)

/-- WAITSIG holds its queue until a read of the signal satisfies COND, and completes as it starts. -/
def startWaitsig (s : State) (q x : Nat) : Start :=
  let va := BitVec.ofNat 64 (descField x 8 8)
  match badField ([(8, decide (descField x 8 8 % 8 = 0)), (24, decide (descField x 24 1 ≤ 3))] ++ zeros x 25 39) with
  | some b => .bad b
  | none =>
      match spaceRead s (s.qPart q) (s.qSatp q) va 8 with
      | .error c => .bad (Bad.read 8 va c)
      | .ok sig =>
          if fenceOk s q x && sigCond (descField x 24 1) sig (descField x 16 8) then .go (advanceQ s q)
          else .go (latchQ s q x)

/-- WAITSIG. -/
def execWaitsig (q : QNum) (s : State) : Host.Outcome State Fault Refusal :=
  event "WAITSIG" (packetEvent 0x03 startWaitsig s q.toNat)

/-- SETSIG starts once every earlier packet of its queue has completed. -/
def startSetsig (s : State) (q x : Nat) : Start :=
  let va := BitVec.ofNat 64 (descField x 8 8)
  let v := descField x 16 8
  match badField ([(8, decide (descField x 8 8 % 8 = 0)), (24, decide (descField x 24 1 ≤ 1))] ++ zeros x 25 39) with
  | some b => .bad b
  | none =>
      if !queueIdle s q then .wait
      else
        let new : Nat :=
          if descField x 24 1 = 0 then v
          else
            match spaceAccess s (s.qPart q) (s.qSatp q) .amo va with
            | .ok pa => (agentRead s pa 8 + v) % 2 ^ 64
            | .error _ => v
        .go (signalStore (advanceQ s q) (s.qPart q) (s.qSatp q) q (s.qRdix q) (pktTag x) va (BitVec.ofNat 64 new))

/-- SETSIG. -/
def execSetsig (q : QNum) (s : State) : Host.Outcome State Fault Refusal :=
  event "SETSIG" (packetEvent 0x04 startSetsig s q.toNat)

/-- INDIRECT: its COUNT packets run in its place. -/
def startIndirect (s : State) (q x : Nat) : Start :=
  match badField ([(8, decide (descField x 8 8 % 64 = 0)),
      (16, decide (1 ≤ descField x 16 4 ∧ descField x 16 4 ≤ 65536))] ++ zeros x 20 44) with
  | some b => .bad b
  | none =>
      if !fenceOk s q x then .wait
      else
        .go (s.updQs q (fun r => { r.fresh s.time with
          indirect := some (BitVec.ofNat 64 (descField x 8 8), descField x 16 4, 0) }))

def execIndirect (q : QNum) (s : State) : Host.Outcome State Fault Refusal :=
  event "INDIRECT" (packetEvent 0x05 startIndirect s q.toNat)

/-! ## Copies (R394) -/

/-- Identifier of the Ferryman hart that serves a queue: die 0, cluster and core field 15. -/
def ferryCont (q : Nat) : ContId := BitVec.ofNat 32 (15 * 2 ^ 25 + 15 * 2 ^ 21 + q / 512 * 2 ^ 18)

/-- A COPY is well formed: its engine and the mailbox of its command block. -/
def copyCheck (s : State) (q x : Nat) : Except Bad (Nat × Word) :=
  let va := BitVec.ofNat 64 (descField x 8 8)
  let n := descField x 16 2
  match badField ([(8, decide (descField x 8 8 % 128 = 0)),
      (16, s.sched.engines.contains (n, s.qPart q) && s.dieOn (engineDie n))] ++ zeros x 18 46) with
  | some b => .error b
  | none =>
      match spaceRead s (s.qPart q) (s.qSatp q) va 128 with
      | .error c => .error (Bad.read 8 va c)
      | .ok e =>
          let fl := descField e 48 2
          let mb := BitVec.ofNat 64 (descField e 40 8)
          if fl.testBit 4 && decide (fl % 4 = 2) && !fl.testBit 2 && !fl.testBit 3 then
            match spaceAccess s (s.qPart q) (s.qSatp q) .store mb with
            | .error c => .error (Bad.read 8 mb c)
            | .ok _ => .ok (n, mb)
          else .error (Bad.field 8)

/-- COPY: the mailbox STATUS is cleared and the engine kicked. -/
def startCopy (s : State) (q x : Nat) : Start :=
  match copyCheck s q x with
  | .error b => .bad b
  | .ok (n, mb) =>
      if !(s.qs q).picked || !fenceOk s q x then .wait
      else
        let s1 : State :=
          match spaceAccess s (s.qPart q) (s.qSatp q) .store mb with
          | .ok pa => s.writePa pa 4 0
          | .error _ => s
        let k : Kicker := { cont := ferryCont q, part := s.qPart q, priv := 1, satp := s.qSatp q }
        let s2 := doKick s1 n (BitVec.ofNat 64 (descField x 8 8)) k 8
        .go (advanceQ { s2 with sched := { s2.sched with copies := s2.sched.copies ++
          [{ queue := q, pktix := s.qRdix q, tag := pktTag x, mbox := mb, startUs := s.time, wdReported := 0 }] } } q)

def execCopy (q : QNum) (s : State) : Host.Outcome State Fault Refusal :=
  event "COPY" (packetEvent 0x06 startCopy s q.toNat)

/-- COPY completes when its mailbox STATUS reads as non-zero. -/
def copyDone (s : State) (q : Nat) (pktix : Word) : Option State :=
  match s.sched.copies.find? (fun c => decide (c.queue = q) && decide (c.pktix = pktix)) with
  | none => none
  | some c =>
      match spaceRead s (s.qPart q) (s.qSatp q) c.mbox 4 with
      | .error _ => none
      | .ok v =>
          if v = 0 then none
          else some { s with sched := { s.sched with copies := s.sched.copies.erase c } }

def execCopyComplete (q : QNum) (pktix : Word) (s : State) : Host.Outcome State Fault Refusal :=
  event "COPY_COMPLETE" (copyDone s q.toNat pktix)

/-! ## Control packets (R395, R396) -/

/-- The gang works for queue `q`: its job's queue, or the queue of its pass. -/
def gangOfQueue (s : State) (q : Nat) (g : Gang) : Bool :=
  (match g.job with
   | none => false
   | some j => s.sched.jobs.any (fun x => decide (x.jid = j) && decide (x.queue = q))) ||
  (match g.kind with
   | .compute => false
   | .geometry r _ _ _ _ => decide (r.queue = q)
   | .fragment r _ _ _ => decide (r.queue = q))

/-- A gang is killed: its harts stop for good, its pinned groups are released unspilled, and it does not count
as retired (R396). -/
def killGang (s : State) (g : Gang) : State :=
  let mine : Hart → Bool := fun h => decide (h.id.gang = some g.gid) && decide (h.run ≠ .empty)
  let s1 := (s.harts.filter mine).foldl (fun st h => (st.releasePins h).dropFrags h.id.part h.id.tag) s
  (s1.mapHarts mine (fun h => { h with
    run := .retired, frag := none, mat := { h.mat with pins := [], queue := [] },
    vu := { h.vu with blocks := [], prog := [], wix := 0 } })).updGang g.gid (fun x => { x with live := false })

def killQueue (s : State) (q : Nat) : State :=
  (s.gangs.filter (fun g => g.live && gangOfQueue s q g)).foldl killGang s

/-- Jobs of a queue that have not retired whole and satisfy `p` end short. -/
def cutJobs (s : State) (q : Nat) (p : Job → Bool) : State :=
  { s with sched := { s.sched with jobs := s.sched.jobs.map (fun j =>
      if j.queue = q ∧ j.done = false ∧ j.retired < j.ngang ∧ p j = true then { j with cut := true } else j) } }

/-- The draws of a queue's pass whose gangs are killed or discarded have nothing left to do (assumption 37). -/
def cutDraws (s : State) (q : Nat) : State :=
  { s with gfx := s.gfx.map (fun c => if c.queue = q then
      { c with draws := c.draws.map (fun d => { d with launched := d.batches, closed := List.range d.batches }) }
    else c) }

/-- Unstarted packets are discarded. -/
def discardRest (s : State) (q : Nat) : State :=
  (s.qSetRdix q (s.qWrix q)).updQs q (fun r => { r.fresh s.time with indirect := none })

/-- Another live queue names `q` as its sibling. -/
def isSibling (s : State) (q : Nat) : Bool :=
  (List.range 4096).any (fun k => decide (k ≠ q) && decide (s.qState k ≠ 0) && decide (s.qSib k = q))

/-- The queues of a partition. -/
def partQueues (s : State) (p : Nat) : List Nat :=
  (List.range 4096).filter (fun k => decide (s.qState k ≠ 0) && decide (s.qPart k = p))

/-- RESETPART requires every queue of the partition other than control and report queues to be stopped. -/
def resetOk (s : State) (p : Nat) : Bool :=
  (partQueues s p).all (fun k => decide (s.qType k = 3) || decide (s.qType k = 4) || decide (s.qState k = 2))

/-- Bytes of a scratchpad range read 0 from then on, and no granule of it is poisoned (06 R123). -/
def zeroGrant (m : MemSys) (lo n : Nat) : MemSys :=
  { m with spad := m.spad.filter (fun e => !(decide (lo ≤ e.1) && decide (e.1 < lo + n))),
           spadPois := m.spadPois.filter (fun g => !(decide (lo ≤ g * 64) && decide (g * 64 < lo + n))) }

/-- The grants of one context are freed, its scratchpad zeroed, its posts and its inbox emptied. -/
def resetContext (s : State) (h : Hart) : State :=
  let s1 := s.releasePins h
  let s2 : State :=
    match h.id.spadCore with
    | none => s1
    | some c => s1.setMem (zeroGrant s1.mem (c * 2 ^ 19 + h.id.spadOff) (h.id.spadKib * 1024))
  (s2.writePart h.id.part (h.c.ctxarea.toNat + 0x1000) 4
    ((s2.readPart h.id.part (h.c.ctxarea.toNat + 0x1004) 4).getD 0)).getD s2

/-- RESETPART's releases. -/
def resetPart (s : State) (p : Nat) : State :=
  let mine : Hart → Bool := fun h => decide (h.id.part = p) && decide (h.id.kind = .vector) && decide (h.run ≠ .empty)
  let s1 := (s.harts.filter mine).foldl resetContext s
  let s2 := s1.mapHarts mine (fun h => { h with
    id := { h.id with spadKib := 0, spadOff := 0, spadCore := none, mtN := 0, maN := 0 },
    mat := { h.mat with pins := [] }, posts := [], heldPosts := [] })
  let s3 := { s2 with gfx := s2.gfx.filter (fun c => decide (c.part ≠ p)) }
  ((partQueues s p).filter (fun k => decide (s.qState k = 2))).foldl
    (fun t k => (discardRest t k).qSetState k 1) s3

/-- A control packet is well formed and its requirement holds: its target and mode (Tables 18.7 and 18.8). -/
def ctlCheck (s : State) (q x : Nat) : Option Bad :=
  let ty := descField x 0 1
  let t := descField x 8 2
  let mode := descField x 10 1
  let lim := descField x 12 4
  let fields := badField ([
    (8, if ty = 0x11 then decide (t = 0) else decide (t < 4096)),
    (10, if ty = 0x10 then decide (mode ≤ 2) else if ty = 0x12 then decide (mode ≤ 1) else decide (mode = 0)),
    (11, decide (descField x 11 1 = 0)), (12, decide (ty = 0x13) || decide (lim = 0)),
    (16, decide (descField x 16 8 % 8 = 0))] ++ zeros x 32 32)
  match fields with
  | some b => some b
  | none =>
      let target := decide (s.qState t ≠ 0) && decide (s.qPart t = s.qPart q) && decide (s.qType t ≠ 3)
      let ok : Bool :=
        if ty = 0x11 then resetOk s (s.qPart q)
        else if ty = 0x10 ∧ mode = 2 then target && decide (s.qState t = 2)
        else if ty = 0x10 then target && (decide (s.qState t = 1) || decide (s.qState t = 2))
        else if ty = 0x12 then target && !isSibling s t
        else target
      if ok then none else some (Bad.field 8)

/-- What a control packet does when it starts (Table 18.8). -/
def ctlEffect (s : State) (q x : Nat) : State :=
  let ty := descField x 0 1
  let t := descField x 8 2
  let mode := descField x 10 1
  if ty = 0x10 then
    (if mode = 0 then s.qSetState t 3
     else if mode = 1 then cutDraws (cutJobs (killQueue (s.qSetState t 3) t) t (fun _ => true)) t
     else (discardRest s t).qSetState t 1)
  else if ty = 0x12 then
    let s1 := discardRest (s.qSetState t 4) t
    (if mode = 0 then cutJobs s1 t (fun j => decide (j.placed < j.ngang))
     else cutJobs (killQueue s1 t) t (fun _ => true))
  else if ty = 0x11 then resetPart s (s.qPart q)
  else s.qSetWd t (descField x 12 4)

/-- A control packet that has started may complete. -/
def ctlDone (s : State) (x : Nat) : Bool :=
  let t := descField x 8 2
  let mode := descField x 10 1
  if descField x 0 1 = 0x10 then decide (mode = 2) || queueIdle s t
  else if descField x 0 1 = 0x12 then
    s.sched.jobs.all (fun j => decide (j.queue ≠ t) || j.done)
      && s.gangs.all (fun g => !g.live || !gangOfQueue s t g)
  else true

/-- The completion of a control packet: the target's STATE, and VALUE to SIGNAL. -/
def ctlFinish (s : State) (q : Nat) (pktix : Word) (x : Nat) : State :=
  let t := descField x 8 2
  let s1 : State :=
    if descField x 0 1 = 0x10 ∧ descField x 10 1 ≠ 2 ∧ s.qState t = 3 then s.qSetState t 2
    else if descField x 0 1 = 0x12 then s.qSetState t 0
    else s
  if descField x 16 8 = 0 then s1
  else signalStore s1 (s.qPart q) (s.qSatp q) q pktix (pktTag x) (BitVec.ofNat 64 (descField x 16 8))
    (BitVec.ofNat 64 (descField x 24 8))

/-- Started control packets complete in ring order: those at the front that complete at once. -/
def flushCtl (s : State) (q : Nat) : List (Word × BitVec 512) → State
  | [] => s.updQs q (fun r => { r with pending := [] })
  | (ix, p) :: t =>
      let atOnce := decide (descField p.toNat 0 1 = 0x11) || decide (descField p.toNat 0 1 = 0x13)
        || (decide (descField p.toNat 0 1 = 0x10) && decide (descField p.toNat 10 1 = 2))
      if atOnce then flushCtl (ctlFinish s q ix p.toNat) q t
      else s.updQs q (fun r => { r with pending := (ix, p) :: t })

/-- A control packet starts once the control packets before it have completed: its requirement is that of the
moment after them (R461: behind a DRAIN that never completes, RESETPART never starts; assumption 36). -/
def startCtl (mode : Nat) (s : State) (q x : Nat) : Start :=
  if (s.qs q).pending ≠ [] then .wait
  else match ctlCheck s q x with
  | some b => .bad b
  | none =>
      if descField x 10 1 ≠ mode ∨ fenceOk s q x = false then .wait
      else
        let s1 := advanceQ (ctlEffect s q x) q
        .go (flushCtl s1 q ((s1.qs q).pending ++ [(s.qRdix q, BitVec.ofNat 512 x)]))

/-- The oldest started control packet of a type completes. -/
def ctlComplete (ty : Nat) (s : State) (q : Nat) : Option State :=
  match (s.qs q).pending with
  | [] => none
  | (ix, p) :: t =>
      if descField p.toNat 0 1 = ty ∧ ctlDone s p.toNat = true then
        some (flushCtl (ctlFinish s q ix p.toNat) q t)
      else none

def execDrainMode0 (q : QNum) (s : State) : Host.Outcome State Fault Refusal :=
  event "DRAIN_MODE_0" (packetEvent 0x10 (startCtl 0) s q.toNat)

def execDrainMode1 (q : QNum) (s : State) : Host.Outcome State Fault Refusal :=
  event "DRAIN_MODE_1" (packetEvent 0x10 (startCtl 1) s q.toNat)

def execDrainMode2 (q : QNum) (s : State) : Host.Outcome State Fault Refusal :=
  event "DRAIN_MODE_2" (packetEvent 0x10 (startCtl 2) s q.toNat)

def execDrainComplete (q : QNum) (s : State) : Host.Outcome State Fault Refusal :=
  event "DRAIN_COMPLETE" (ctlComplete 0x10 s q.toNat)

def execDestroyMode0 (q : QNum) (s : State) : Host.Outcome State Fault Refusal :=
  event "DESTROY_MODE_0" (packetEvent 0x12 (startCtl 0) s q.toNat)

def execDestroyMode1 (q : QNum) (s : State) : Host.Outcome State Fault Refusal :=
  event "DESTROY_MODE_1" (packetEvent 0x12 (startCtl 1) s q.toNat)

def execDestroyComplete (q : QNum) (s : State) : Host.Outcome State Fault Refusal :=
  event "DESTROY_COMPLETE" (ctlComplete 0x12 s q.toNat)

def execResetpart (q : QNum) (s : State) : Host.Outcome State Fault Refusal :=
  event "RESETPART" (packetEvent 0x11 (startCtl 0) s q.toNat)

def execTimerset (q : QNum) (s : State) : Host.Outcome State Fault Refusal :=
  event "TIMERSET" (packetEvent 0x13 (startCtl 0) s q.toNat)

/-! ## Picking (R398, R399) -/

/-- The energy class of a queue's packet that is ready to be picked. -/
def pickClass (s : State) (q : Nat) : Option Nat :=
  if !queueRunning s q || (s.qs q).picked then none
  else
    match curPacket s q with
    | .error _ => none
    | .ok x =>
        if (headerBad s q x).isSome || !fenceOk s q x then none
        else if descField x 0 1 = 0x01 ∨ descField x 0 1 = 0x02 then
          match jobCheck s q x with
          | .error _ => none
          | .ok (k, _) => some k.eclass
        else if descField x 0 1 = 0x06 then
          match copyCheck s q x with
          | .error _ => none
          | .ok _ => some (s.qEclass q)
        else none

/-- The gangs of a class fit the budgets of their dies. -/
def energyFits (s : State) (c : Nat) (dies : List (Nat × Nat)) : Bool :=
  dies.all (fun d =>
    decide (fieldOf (s.devGet (powerBase + 0x100 * d.1 + 8)) 31 0
      + fieldOf (s.devGet (eclsAddr d.1 c)) 31 0 * d.2 ≤ fieldOf (s.devGet (powerBase + 0x100 * d.1)) 31 0))

/-- An estimate alone exceeds the budget of some die. -/
def energyOver (s : State) (c : Nat) (dies : List (Nat × Nat)) : Bool :=
  dies.any (fun d => decide (fieldOf (s.devGet (powerBase + 0x100 * d.1)) 31 0
    < fieldOf (s.devGet (eclsAddr d.1 c)) 31 0 * d.2))

/-- Dies and gangs of a candidate, as the pick is told. -/
def spreadOf (spread : List (QNum × DieNo × BitVec 32)) (q : Nat) : List (Nat × Nat) :=
  (spread.filter (fun e => decide (e.1.toNat = q))).map (fun e => (e.2.1.toNat, e.2.2.toNat))

/-- A reservation of higher priority holds one of the dies (step 4). -/
def heldByReservation (s : State) (q : Nat) (dies : List (Nat × Nat)) : Bool :=
  s.sched.queues.any (fun r => decide (r.q ≠ q) && decide (s.qPrio q < s.qPrio r.q)
    && r.resv.any (fun d => dies.any (fun e => decide (e.1 = d.1))))

/-- The pointer of a priority level of a partition. -/
def pickPointer (s : State) (p prio : Nat) : Nat :=
  ((s.sched.pointers.find? (fun e => decide (e.1 = p) && decide (e.2.1 = prio))).map (fun e => e.2.2)).getD 0

def setPointer (s : State) (p prio q : Nat) : State :=
  { s with sched := { s.sched with pointers :=
      (p, prio, q) :: s.sched.pointers.filter (fun e => !(decide (e.1 = p) && decide (e.2.1 = prio))) } }

/-- One candidate does not fit: a skip, and at the eighth a reservation of its dies. -/
def skipQueue (s : State) (q : Nat) (dies : List (Nat × Nat)) : State :=
  s.updQs q (fun r => { r with
    skips := r.skips + 1, runLeft := 0, resv := if 7 ≤ r.skips then dies else r.resv })

/-- One candidate is picked; the pointer stays with it for WEIGHT starts in a row. -/
def pickQueue (s : State) (p prio q : Nat) : State :=
  let left := if pickPointer s p prio = q ∧ (s.qs q).runLeft ≠ 0 then (s.qs q).runLeft - 1 else s.qWeight q - 1
  let x := match curPacket s q with
    | .ok x => x
    | .error _ => 0
  setPointer ((latchQ s q x).updQs q (fun r => { r with picked := true, runLeft := left })) p prio
    (if left = 0 then q + 1 else q)

/-- Candidates in their cyclic order: the first that fits is picked, those before it are skipped. -/
def pickFrom (p prio : Nat) (spread : List (QNum × DieNo × BitVec 32)) : List Nat → State → State
  | [], s => s
  | q :: t, s =>
      if energyFits s ((pickClass s q).getD 0) (spreadOf spread q) then pickQueue s p prio q
      else pickFrom p prio spread t (skipQueue s q (spreadOf spread q))

/-- A pick for partition `p`. A job that holds a reservation starts at a window start. -/
def pickRun (p : Nat) (spread : List (QNum × DieNo × BitVec 32)) (s : State) : Option State :=
  let cand := (partQueues s p).filter (fun q => (pickClass s q).isSome && decide ((s.qs q).resv = [])
    && !heldByReservation s q (spreadOf spread q))
  match cand with
  | [] => none
  | _ =>
      let prio := cand.foldl (fun m q => max m (s.qPrio q)) 0
      let lvl := cand.filter (fun q => decide (s.qPrio q = prio))
      let ptr := pickPointer s p prio
      some (pickFrom p prio spread
        (lvl.filter (fun q => decide (ptr ≤ q)) ++ lvl.filter (fun q => decide (q < ptr))) s)

/-- JOB_PICK. -/
def execJobPick (part : BitVec 7) (spread : List (QNum × DieNo × BitVec 32)) (s : State) :
    Host.Outcome State Fault Refusal :=
  event "JOB_PICK" (pickRun part.toNat spread s)

/-- A reserved job is picked at a window start of one of its dies once it fits, or at once where its estimate
alone exceeds the budget. -/
def pickReserved (s : State) (d : Nat) (r : QueueState) : State :=
  match pickClass s r.q with
  | none => s
  | some c =>
      if r.resv.any (fun e => decide (e.1 = d)) && (energyFits s c r.resv || energyOver s c r.resv) then
        match curPacket s r.q with
        | .ok x => (latchQ s r.q x).updQs r.q (fun r => { r with picked := true, resv := [] })
        | .error _ => s
      else s

/-- A window starts on a die: ESPENT returns to 0, and reserved jobs that fit are picked. -/
def windowStart (s : State) (d : Nat) : State :=
  let s1 := s.devSet (powerBase + 0x100 * d + 8) 0
  (s.sched.queues.filter (fun r => decide (r.resv ≠ []))).foldl (fun t r => pickReserved t d r) s1

def execEnergyWindowStart (die : DieNo) (s : State) : Host.Outcome State Fault Refusal :=
  event "ENERGY_WINDOW_START" (if s.dieOn die.toNat then some (windowStart s die.toNat) else none)

/-- Time passes: every enabled die measures energy into its window and its total (assumption 23). -/
def elapse (s : State) (us : Nat) : State :=
  let s1 := (((List.range 8).filter s.dieOn).foldl (fun (t : State) d =>
    let e := Config.free s.tick (200 + d) 32
    let a := powerBase + 0x100 * d
    (t.devSet (a + 8) (setField (t.devGet (a + 8)) 31 0 (fieldOf (t.devGet (a + 8)) 31 0 + e.toNat))).devSet (a + 16)
      (t.devGet (a + 16) + zext64 e)) s).tickUp
  { s1 with time := s1.time + us }

/-- CLOCK_CHANGE: MHZ follows the arithmetic clock (01 R26, R27). -/
def execClockChange (die : DieNo) (mhz : BitVec 12) (s : State) : Host.Outcome State Fault Refusal :=
  let a := powerBase + 0x100 * die.toNat + 0x18
  event "CLOCK_CHANGE"
    (if s.dieOn die.toNat && decide (600 ≤ mhz.toNat) && decide (mhz.toNat ≤ 1600) then
      some (s.devSet a (setField (s.devGet a) 11 0 mhz.toNat)) else none)

/-! ## Contexts and gangs (17 R360 to R362) -/

/-- What a gang is started with. -/
structure Spawn where
  part : Nat
  satp : Word
  kernel : Kernel
  a0 : Word
  a1 : Word
  a2 : Word
  kind : GangKind
  job : Option Nat
  ix : Nat
  /-- Bindings of the members, four each. -/
  binds : List (Option Binding)
  deriving DecidableEq, Repr

/-- A register file entry at context start: undefined elements, mark and poison 0 (Table 17.1). -/
def freshReg (tick slot : Nat) : VReg := { bits := Config.free tick slot 16384, pois := 0, hwm := 0 }

/-- Open points of a context that starts with tag `t`. -/
def startSlot (t i : Nat) : Nat := 2 ^ 33 + 64 * t + i

def freshVec (tick t : Nat) (binds : List (Option Binding)) : Vec :=
  { Vec.reset with
    v := Vector.ofFn (fun (i : Fin 32) => freshReg tick (startSlot t i.val)),
    w := Vector.ofFn (fun (i : Fin 8) => freshReg tick (startSlot t (32 + i.val))),
    b := Vector.ofFn (fun (i : Fin 4) => freshReg tick (startSlot t (40 + i.val))),
    bind := Vector.ofFn (fun (i : Fin 4) => (binds[i.val]?).getD none) }

/-- The lowest context tag that no context of the partition holds (assumption 24). -/
def freeTag (s : State) (p : Nat) : Nat :=
  let used := (s.harts.filter (fun h => decide (h.id.part = p) && decide (h.run ≠ .empty))).map (fun h => h.id.tag)
  ((List.range (used.length + 1)).find? (fun t => !used.contains t)).getD 0

/-- Exit address and trap entry of a partition's runtime (assumption 33). -/
def runtimeOf (s : State) (p : Nat) : Word × Word :=
  ((s.sched.runtimes.find? (fun r => decide (r.1 = p))).map (fun r => r.2)).getD (0, 0)

/-- CPOOL + 1 MiB × the context tag (19 R412). -/
def ctxareaOf (s : State) (p t : Nat) : Word :=
  (s.devGet (cpoolBase + 8 * p) &&& 0xFFFFFFFF00000) + BitVec.ofNat 64 (2 ^ 20 * t)

/-- Registers at start (Table 17.1). -/
def startScalar (sp : Spawn) (n m : Nat) (ra : Word) : Scalar :=
  { Scalar.reset with
    pc := sp.kernel.entry,
    x := ((((((Vector.replicate 32 (0 : Word)).set 1 ra).set 2
      (if sp.kernel.spad = 0 then 0 else BitVec.ofNat 64 (0xFFFFFFFF00000000 + sp.kernel.spad * 1024))).set 4
      (BitVec.ofNat 64 (m + n * 2 ^ 32))).set 10 sp.a0).set 11 sp.a1).set 12 sp.a2 }

/-- A context as it is created: it has no place yet (cluster field 13 names none). Its tiles read 0 (13 R270). -/
def newContext (s : State) (sp : Spawn) (gid n m : Nat) : Hart :=
  let t := freeTag s sp.part
  let area := ctxareaOf s sp.part t
  let rt := runtimeOf s sp.part
  { Hart.reset with
    id := { Ident.none_ with
      cluster := 13, tag := t, part := sp.part, gang := some gid, member := m, shape := sp.kernel.shape,
      spadKib := sp.kernel.spad, mtN := sp.kernel.mt, maN := sp.kernel.ma },
    run := .created, s := startScalar sp n m rt.1,
    c := { Csrs.reset with ctxarea := area, vtrec := area + 0xC1000 },
    sc := { SCsrs.reset with satp := sp.satp, stvec := rt.2 },
    vu := freshVec s.tick t ((sp.binds.drop (4 * m)).take 4), mat := Mat.reset,
    frag := if sp.kind.isFrag then some { queue := [], got := 0, ended := false } else none }

/-- Rings of a gang of `n`. -/
def freshRings (n : Nat) : List Ring :=
  List.replicate n { groups := [], recvOpen := false, recvClosed := false, sendClosed := false }

/-- The contexts of a gang are created; the gang's identifier is the next one. -/
def createGang (s : State) (sp : Spawn) : State :=
  let gid := s.sched.nextGang
  let n := sp.kernel.gang
  let s1 := ((List.range n).foldl (fun (t : State) m =>
    { t with others := t.others ++ [newContext t sp gid n m] }) s).tickUp
  { s1 with
    sched := { s1.sched with nextGang := gid + 1 },
    gangs := s1.gangs ++ [{
      gid := gid, job := sp.job, ix := sp.ix, part := sp.part, size := n,
      tags := (s1.others.drop s.others.length).map (fun h => h.id.tag), kind := sp.kind, arrived := [],
      phase := false, pend := 0, retired := [], rings := freshRings n, exported := [], live := true }] }

/-- The record is placed on a hart slot. -/
def Hart.placed (h : Hart) : Bool := h.id.isVector && h.live && !h.isOut && decide (h.run ≠ .created)

def placeCore (p : Place) : Nat := Machine.coreNo p.die.toNat p.cluster.toNat p.core.toNat

/-- Shape to which a core is set. -/
def State.coreShape (s : State) (c : Nat) : Option Nat :=
  (s.sched.shapes.find? (fun e => decide (e.1 = c))).map (fun e => e.2)

/-- A context holds its hart slot: it is placed, or it has retired from a gang that goes on. -/
def State.holdsSlot (s : State) (h : Hart) : Bool :=
  h.placed || (h.id.isVector && decide (h.run = .retired) &&
    ((h.id.gang.bind s.findGang).map (fun g => g.live)).getD false)

/-- A partition's context may take a place at shape `n`: the partition holds the cluster, the slot exists and
is free, and a core with a placed context is set to that shape (R400, 01 R23). -/
def placeFree (s : State) (part n : Nat) (p : Place) : Bool :=
  let c := placeCore p
  let here := s.harts.filter (fun h => s.holdsSlot h && decide (h.id.coreNo = c))
  decide (p.cluster.toNat < 10) && s.dieOn p.die.toNat
    && s.sched.clusters.contains (p.die.toNat * 10 + p.cluster.toNat, part)
    && decide (p.slot.toNat < n) && here.all (fun h => decide (h.id.slot ≠ p.slot.toNat))
    && (decide (here = []) || decide (s.coreShape c = some n)) && !s.sched.gated.contains c

/-- Set a core's shape. -/
def State.setShape (s : State) (c n : Nat) : State :=
  { s with sched := { s.sched with shapes := (c, n) :: s.sched.shapes.filter (fun e => decide (e.1 ≠ c)) } }

/-- The supervisor sets the shape of a core that has no placed context. -/
def supervisorShape (s : State) (c n : Nat) : State :=
  if (n = 1 ∨ n = 2 ∨ n = 4 ∨ n = 8) ∧ s.harts.all (fun h => !(h.placed && decide (h.id.coreNo = c))) = true then
    s.setShape c n
  else s

/-- Identity of a context at a place: its scratchpad grant lies at slot × (512 KiB ÷ n) of the core. -/
def Ident.at_ (i : Ident) (p : Place) : Ident :=
  { i with die := p.die.toNat, cluster := p.cluster.toNat, core := p.core.toNat, slot := p.slot.toNat,
           spadOff := p.slot.toNat * (2 ^ 19 / i.shape), spadCore := some (placeCore p) }

/-- First placement of one created member: what stood in its place is evicted, and its grant reads 0. -/
def placeMember (s : State) (gid m : Nat) (p : Place) : Option State :=
  let is_ : Hart → Bool := fun h => decide (h.id.gang = some gid) && decide (h.id.member = m)
    && decide (h.run = .created)
  match s.harts.find? is_ with
  | none => some s
  | some h =>
      let i := h.id.at_ p
      match vacate s (placeCore p) i.spadOff (i.spadKib * 1024) (i.physAcc 0) i.maN is_ with
      | none => none
      | some s0 =>
          let s1 := s0.setMem (zeroGrant s0.mem (placeCore p * 2 ^ 19 + i.spadOff) (i.spadKib * 1024))
          some ((s1.mapHarts is_ (fun k => { k with id := k.id.at_ p, run := .running })).setShape (placeCore p)
            i.shape)

/-- Every member of a created gang is placed at the same time; none where a place is not free. -/
def placeGang (gid part shape : Nat) : List Place → Nat → State → Option State
  | [], _, s => some s
  | p :: t, m, s =>
      if placeFree s part shape p then (placeMember s gid m p).bind (placeGang gid part shape t (m + 1)) else none

/-- Create a gang, unless it is created already, and place it. -/
def launchGang (s : State) (sp : Spawn) (places : List Place) : Option State :=
  if places.length ≠ sp.kernel.gang then none
  else
    match s.gangs.find? (fun g => decide (g.job = sp.job) && decide (g.ix = sp.ix) && sp.job.isSome) with
    | some g => placeGang g.gid sp.part sp.kernel.shape places 0 s
    | none => placeGang s.sched.nextGang sp.part sp.kernel.shape places 0 (createGang s sp)

def Job.kernel (j : Job) : Kernel :=
  { entry := j.entry, gang := j.gangSize, shape := j.shape, eclass := j.eclass, spad := j.spad, mt := j.mt,
    ma := j.ma, lentag := j.lentag }

/-- Gang `i` of a job (R388). -/
def Job.spawn (j : Job) (i : Nat) : Spawn :=
  { part := j.part, satp := j.satp, kernel := j.kernel, a0 := j.args, a1 := BitVec.ofNat 64 i,
    a2 := BitVec.ofNat 64 j.ngang, kind := .compute, job := some j.jid, ix := i,
    binds := (j.binds.drop (4 * i * j.gangSize)).take (4 * j.gangSize) }

def State.findJob (s : State) (j : Nat) : Option Job := s.sched.jobs.find? (fun x => decide (x.jid = j))

def State.updJob (s : State) (j : Nat) (f : Job → Job) : State :=
  { s with sched := { s.sched with jobs := s.sched.jobs.map (fun x => if x.jid = j then f x else x) } }

/-- Gang `i` of a job has members that are past creation. -/
def gangPlaced (s : State) (j i : Nat) : Bool :=
  s.gangs.any (fun g => decide (g.job = some j) && decide (g.ix = i)
    && s.harts.any (fun h => decide (h.id.gang = some g.gid) && decide (h.run ≠ .created)))

/-- Gangs `is` of a job placed together. -/
def placeGangs (j : Job) : List Nat → List Place → State → Option State
  | [], _, s => some s
  | i :: t, ps, s =>
      match launchGang s (j.spawn i) (ps.take j.gangSize) with
      | none => none
      | some u => placeGangs j t (ps.drop j.gangSize) (u.updJob j.jid (fun x => { x with placed := x.placed + 1 }))

/-- GANG_PLACE: one gang, or with CORES every gang of the job at the same time. -/
def gangPlaceRun (job gang : Nat) (places : List Place) (s : State) : Option State :=
  match s.findJob job with
  | none => none
  | some j =>
      if j.done || j.cut then none
      else if j.cores then
        (if j.placed = 0 ∧ places.length = j.ngang * j.gangSize then
          placeGangs j (List.range j.ngang) places s else none)
      else if gang < j.ngang ∧ gangPlaced s job gang = false then placeGangs j [gang] places s
      else none

def execGangPlace (job gang : BitVec 32) (places : List Place) (s : State) :
    Host.Outcome State Fault Refusal :=
  event "GANG_PLACE" (gangPlaceRun job.toNat gang.toNat places s)

/-- The contexts of a gang that is not placed yet are created. -/
def createJobGang (s : State) (job gang : Nat) : State :=
  match s.findJob job with
  | none => s
  | some j =>
      if j.done || j.cut || decide (j.ngang ≤ gang)
          || s.gangs.any (fun g => decide (g.job = some job) && decide (g.ix = gang)) then s
      else createGang s (j.spawn gang)

/-! ## Completion of jobs, reports and the watchdog (R390, R397, R402) -/

/-- The job's last gang has retired, or it was cut short and no gang of it lives. -/
def jobEnded (s : State) (j : Job) : Bool :=
  decide (j.retired = j.ngang) ||
    (j.cut && s.gangs.all (fun g => decide (g.job ≠ some j.jid) || !g.live
      || s.harts.all (fun h => decide (h.id.gang ≠ some g.gid) || decide (h.run = .created))))

/-- DESTROYED_PARTIAL. -/
def destroyedPartial (n : Nat) : Word := BitVec.ofNat 64 (0xDE * 2 ^ 56 + n % 2 ^ 32)

/-- A job completes: COMPVAL or DESTROYED_PARTIAL to COMPSIG; contexts that were never placed go. -/
def jobFinish (s : State) (j : Job) : State :=
  let s1 := s.updJob j.jid (fun x => { x with done := true })
  let s2 := (s1.gangs.filter (fun g => decide (g.job = some j.jid) && g.live)).foldl killGang s1
  if j.compsig = 0 then s2
  else signalStore s2 j.part j.satp j.queue j.pktix j.tag j.compsig
    (if j.retired = j.ngang then j.compval else destroyedPartial j.retired)

def jobCompleteRun (job : Nat) (s : State) : Option State :=
  match s.findJob job with
  | none => none
  | some j => if j.done || !jobEnded s j then none else some (jobFinish s j)

def execJobComplete (job : BitVec 32) (s : State) : Host.Outcome State Fault Refusal :=
  event "JOB_COMPLETE" (jobCompleteRun job.toNat s)

/-- REPORT_WRITE: the oldest held report goes into the ring when room and translation allow. -/
def execReportWrite (q : QNum) (s : State) : Host.Outcome State Fault Refusal :=
  event "REPORT_WRITE"
    (if (s.nextReport q.toNat).isSome && !(s.qs q.toNat).stalled then some (reportTry s q.toNat) else none)

/-- A watchdog item has reached the limit of its queue and has not been reported for it. -/
def wdDue (s : State) (q start last : Nat) : Bool :=
  decide (s.qWd q ≠ 0) && decide (s.qWd q ≤ s.time - start) && decide (last ≠ s.qWd q)

/-- REPORT cause 8. -/
def wdReport (s : State) (q : Nat) (pktix : Word) (tag : BitVec 32) (start retired : Nat) : State :=
  s.postReport { cause := 8, queue := q, part := s.qPart q, tag := tag, pktix := pktix, boff := 0, lcnt := s.lcntOf 8,
                 d0 := BitVec.ofNat 64 (s.time - start), d1 := BitVec.ofNat 64 retired }

/-- The packet at RDIX is a WAITSIG. -/
def headIsWait (s : State) (q : Nat) : Bool :=
  queueRunning s q &&
    (match curPacket s q with
     | .ok x => decide (descField x 0 1 = 0x03) && (headerBad s q x).isNone
     | .error _ => false)

/-- TAG of the packet at RDIX. -/
def headTag (s : State) (q : Nat) : BitVec 32 :=
  match curPacket s q with
  | .ok x => pktTag x
  | .error _ => 0

/-- The oldest due item of a packet: a job, a COPY, or the WAITSIG at RDIX. -/
def watchdogRun (q : Nat) (pktix : Word) (s : State) : Option State :=
  match s.sched.jobs.find? (fun j => decide (j.queue = q) && decide (j.pktix = pktix) && !j.done
      && wdDue s q j.startUs j.wdReported) with
  | some j =>
      some ((wdReport s q pktix j.tag j.startUs j.retired).updJob j.jid (fun x => { x with wdReported := s.qWd q }))
  | none =>
      match s.sched.copies.find? (fun c => decide (c.queue = q) && decide (c.pktix = pktix)
          && wdDue s q c.startUs c.wdReported) with
      | some c =>
          let t := wdReport s q pktix c.tag c.startUs 0
          some { t with sched := { t.sched with copies := t.sched.copies.map (fun (y : CopyItem) =>
            if y = c then { y with wdReported := s.qWd q } else y) } }
      | none =>
          if pktix = s.qRdix q ∧ headIsWait s q = true ∧ wdDue s q (s.qs q).headAt (s.qs q).wdReported = true then
            some ((wdReport s q pktix (headTag s q) (s.qs q).headAt 0).updQs q (fun r => { r with wdReported := s.qWd q }))
          else none

def execWatchdogExpiry (q : QNum) (pktix : Word) (s : State) : Host.Outcome State Fault Refusal :=
  event "WATCHDOG_EXPIRY" (watchdogRun q.toNat pktix s)

/-! ## Creating queues, and notifies (R382, R383) -/

/-- A locked TDI: firmware refuses commands that would change the partition (21 R443). -/
def State.tdiLocked (s : State) (p : Nat) : Bool :=
  s.pkg.tdi.any (fun t => decide (t.1 = p) && (decide (t.2 = .locked) || decide (t.2 = .run)))

/-- A descriptor obeys Table 18.1. -/
def queueDescOk (s : State) (q : Nat) (d : List Word) : Bool :=
  let w : Nat → Word := fun k => (d[k]?).getD 0
  let part := fieldOf (w 2) 55 48
  let ty := fieldOf (w 2) 15 8
  let sib := fieldOf (w 3) 15 0
  decide (d.length = 8) && decide ((w 0).toNat % 4096 = 0) && decide (fieldOf (w 1) 63 60 = 10)
    && decide (4 ≤ fieldOf (w 2) 7 0 ∧ fieldOf (w 2) 7 0 ≤ 16) && decide (ty ≤ 4)
    && decide (fieldOf (w 2) 23 16 ≤ 15) && decide (1 ≤ fieldOf (w 2) 31 24 ∧ fieldOf (w 2) 31 24 ≤ 3)
    && decide (1 ≤ fieldOf (w 2) 47 32 ∧ fieldOf (w 2) 47 32 ≤ 1024) && decide (part < 80)
    && decide (fieldOf (w 2) 63 56 ≤ 7)
    && (if ty = 4 then decide (sib = q)
        else decide (sib < 4096) && decide (s.qState sib ≠ 0) && decide (s.qType sib = 4)
          && decide (s.qPart sib = part))
    && decide (w 6 = 0) && decide (w 7 = 0)

/-- Firmware creates queue `q`, or refuses the command. -/
def queueCreateRun (q : Nat) (d : List Word) (s : State) : State :=
  let w : Nat → Word := fun k => (d[k]?).getD 0
  if s.qState q ≠ 0 ∨ queueDescOk s q d = false ∨ s.tdiLocked (fieldOf (w 2) 55 48) = true then s
  else
    ((((((s.qSet q 0 (w 0)).qSet q 1 (w 1)).qSet q 2 (w 2)).qSet q 3
      (setField (setField (w 3) 31 24 0) 23 16 1)).qSet q 4 0).qSet q 5 0).setQs (QueueState.new q)

/-- Firmware frees queue `q`, or refuses: no other live queue reports into it, and nothing it started is
unfinished. -/
def queueFreeRun (q : Nat) (s : State) : State :=
  if s.qState q = 0 ∨ isSibling s q = true ∨ queueIdle s q = false ∨ s.tdiLocked (s.qPart q) = true then s
  else s.qSetState q 0

def execQueueCreate (q : QNum) (create : Bool) (desc : List Word) (s : State) :
    Host.Outcome State Fault Refusal :=
  .next (if create then queueCreateRun q.toNat desc s else queueFreeRun q.toNat s)

/-- NOTIFY: a store to the notify register of a queue that is no report queue. -/
def execNotify (q : QNum) (v : Word) (s : State) : Host.Outcome State Fault Refusal :=
  event "NOTIFY" (if s.qState q.toNat ≠ 0 ∧ s.qType q.toNat ≠ 4 then some (doNotify s q.toNat v) else none)

/-- REPORT_QUEUE_NOTIFY. -/
def execReportQueueNotify (q : QNum) (v : Word) (s : State) : Host.Outcome State Fault Refusal :=
  event "REPORT_QUEUE_NOTIFY"
    (if s.qState q.toNat ≠ 0 ∧ s.qType q.toNat = 4 then some (doNotify s q.toNat v) else none)

/-! ## What firmware grants (assumption 33) -/

/-- Give number `n` to partition `p`. -/
def grantTo (l : List (Nat × Nat)) (n p : Nat) : List (Nat × Nat) := (n, p) :: l.filter (fun e => decide (e.1 ≠ n))

def grantCluster (s : State) (p n : Nat) : State :=
  { s with sched := { s.sched with clusters := grantTo s.sched.clusters n p } }

/-- An engine grant does not change under a locked TDI (21 R443). -/
def grantEngine (s : State) (p n : Nat) : State :=
  if s.tdiLocked p || s.sched.engines.any (fun e => decide (e.1 = n) && s.tdiLocked e.2) then s
  else { s with sched := { s.sched with engines := grantTo s.sched.engines n p } }

def grantRender (s : State) (p n : Nat) : State :=
  { s with sched := { s.sched with renders := grantTo s.sched.renders n p } }

def setRuntime (s : State) (p : Nat) (exit trap : Word) : State :=
  { s with sched := { s.sched with runtimes :=
      (p, exit, trap) :: s.sched.runtimes.filter (fun e => decide (e.1 ≠ p)) } }

end Sys2Proof.Machine
end

