-- ==== Sys2Proof/Machine/Exact.lean ====
section
/-! DEFINITION. Exact rational arithmetic, with infinities, and its one rounding to FP32 (12 R260 to R268). -/

namespace Sys2Proof.Machine

/-- A rational number; the denominator is never 0. -/
structure Q where
  num : Int
  den : Nat
  deriving DecidableEq, Repr

def Q.ofInt (i : Int) : Q := ⟨i, 1⟩
def Q.zero : Q := ⟨0, 1⟩
def Q.one : Q := ⟨1, 1⟩
def Q.add (a b : Q) : Q := ⟨a.num * b.den + b.num * a.den, a.den * b.den⟩
def Q.neg (a : Q) : Q := ⟨-a.num, a.den⟩
def Q.sub (a b : Q) : Q := a.add b.neg
def Q.mul (a b : Q) : Q := ⟨a.num * b.num, a.den * b.den⟩
/-- a ÷ b for b ≠ 0. -/
def Q.div (a b : Q) : Q :=
  ⟨if b.num < 0 then -(a.num * b.den) else a.num * b.den, a.den * b.num.natAbs⟩
def Q.lt (a b : Q) : Bool := decide (a.num * b.den < b.num * a.den)
def Q.le (a b : Q) : Bool := decide (a.num * b.den ≤ b.num * a.den)
def Q.isZero (a : Q) : Bool := decide (a.num = 0)
def Q.abs (a : Q) : Q := ⟨a.num.natAbs, a.den⟩
def Q.max (a b : Q) : Q := if a.le b then b else a
def Q.min (a b : Q) : Q := if a.le b then a else b
def Q.floor (a : Q) : Int := a.num / (a.den : Int)

/-- The nearest integer, ties to even. -/
def Q.rne (a : Q) : Int :=
  let f := a.floor
  let r := a.num - f * a.den
  if 2 * r < a.den then f else if (a.den : Int) < 2 * r then f + 1
  else if f % 2 = 0 then f else f + 1

/-- Rounded RNE to a multiple of 2^-8 (R262, R263). -/
def Q.rne8 (a : Q) : Q := ⟨(Q.mul a ⟨256, 1⟩).rne, 256⟩

/-- m × 2^e. -/
def Q.ofDyadic (neg : Bool) (m : Nat) (e : Int) : Q :=
  if 0 ≤ e then ⟨signedM neg (m * 2 ^ e.toNat), 1⟩ else ⟨signedM neg m, 2 ^ (-e).toNat⟩

/-- Rounded to FP32; an exact zero is +0. -/
def Q.toF32 (a : Q) (mode : RMode) : Nat :=
  if a.num = 0 then 0
  else
    let q := divSticky a.num.natAbs a.den 26
    (roundWith fp32 0 mode false false (decide (a.num < 0)) q.1 q.2).bits

/-! ## Extended values -/

/-- An exact value, an infinity, or no value: a NaN, or a form that has none. -/
inductive XQ where
  | nan
  | ninf
  | fin (q : Q)
  | pinf
  deriving DecidableEq, Repr

/-- The value of an FP32 element. -/
def XQ.ofF32 (x : Nat) : XQ :=
  match fp32.unpack x with
  | .nan _ _ _ => .nan
  | .inf n => if n then .ninf else .pinf
  | .fin n m e => .fin (Q.ofDyadic n m e)

def XQ.neg : XQ → XQ
  | .nan => .nan
  | .ninf => .pinf
  | .pinf => .ninf
  | .fin q => .fin q.neg

def XQ.add : XQ → XQ → XQ
  | .nan, _ => .nan
  | _, .nan => .nan
  | .pinf, .ninf => .nan
  | .ninf, .pinf => .nan
  | .pinf, _ => .pinf
  | _, .pinf => .pinf
  | .ninf, _ => .ninf
  | _, .ninf => .ninf
  | .fin a, .fin b => .fin (a.add b)

def XQ.sub (a b : XQ) : XQ := a.add b.neg

/-- -1, 0 or 1, by sign. -/
def XQ.sign : XQ → Int
  | .nan => 0
  | .ninf => -1
  | .pinf => 1
  | .fin q => q.num.sign

def XQ.mul : XQ → XQ → XQ
  | .nan, _ => .nan
  | _, .nan => .nan
  | .fin a, .fin b => .fin (a.mul b)
  | a, b =>
      let s := a.sign * b.sign
      if s = 0 then .nan else if 0 < s then .pinf else .ninf

def XQ.le : XQ → XQ → Bool
  | .nan, _ => false
  | _, .nan => false
  | .ninf, _ => true
  | _, .pinf => true
  | .fin a, .fin b => a.le b
  | .pinf, _ => false
  | _, .ninf => false

def XQ.isNan : XQ → Bool
  | .nan => true
  | .ninf | .pinf | .fin _ => false

def XQ.isFin : XQ → Bool
  | .fin _ => true
  | .nan | .ninf | .pinf => false

/-- The finite value, or 0. -/
def XQ.val : XQ → Q
  | .fin q => q
  | .nan | .ninf | .pinf => Q.zero

/-- FP32 bits under a mode; an infinity stays one. -/
def XQ.toF32 (a : XQ) (mode : RMode) : Nat :=
  match a with
  | .nan => fp32.nan
  | .pinf => fp32.infCode
  | .ninf => fp32.signed true fp32.infCode
  | .fin q => q.toF32 mode

/-! ## Roots and logarithms -/

/-- ⌊log2 (a ÷ b)⌋ for a, b ≠ 0. -/
def floorLog2 (a b : Nat) : Int :=
  let k : Int := (Nat.log2 a : Int) - (Nat.log2 b : Int)
  if (if 0 ≤ k then decide (b * 2 ^ k.toNat ≤ a) else decide (b ≤ a * 2 ^ (-k).toNat)) then k else k - 1

/-- 256 × log2 √r, rounded RNE to an integer, for r > 0: the logarithm of a rational is never half way
between. -/
def halfLog256 (r : Q) : Int :=
  (floorLog2 (r.num.natAbs ^ 256) (r.den ^ 256) + 1) / 2

/-- The largest r with r^5 ≤ x, found from bit `n` down. -/
def root5From (x : Nat) : Nat → Nat → Nat
  | 0, r => if (r + 1) ^ 5 ≤ x then r + 1 else r
  | n + 1, r =>
      let t := r + 2 ^ (n + 1)
      root5From x n (if t ^ 5 ≤ x then t else r)

/-- The sRGB decoding function of c ÷ 255, rounded RNE to FP32 (R260; assumption 17): linear up to 0.04045,
else ((x + 0.055) ÷ 1.055)^2.4, whose fifth power is rational. -/
def srgbToF32 (c : Nat) : Nat :=
  if c * 100000 ≤ 4045 * 255 then (Q.mk (c * 100) (255 * 1292)).toF32 .rne
  else
    let n := 1000 * c + 55 * 255
    let d := 1055 * 255
    let x := n ^ 12 * 2 ^ 200 / d ^ 12
    let r := root5From x 41 0
    (roundWith fp32 0 .rne false false false (2 * r + 1) (-41)).bits

end Sys2Proof.Machine
end

