-- ==== Sys2Proof/Machine/Tex.lean ====
section
/-! DEFINITION. Texture sampling and ray queries (12). Every result is exact, or an exact value rounded once. -/

namespace Sys2Proof.Machine

/-! ## Pixel formats (R259, R260) -/

/-- Element bytes and block width and height of a layout of Table 12.5. -/
def texBlock (l : Nat) : Option (Nat × Nat × Nat) :=
  match l with
  | 0x01 => some (1, 1, 1) | 0x02 => some (2, 1, 1) | 0x03 => some (4, 1, 1)
  | 0x04 => some (2, 1, 1) | 0x05 => some (4, 1, 1) | 0x06 => some (8, 1, 1)
  | 0x07 => some (4, 1, 1) | 0x08 => some (8, 1, 1) | 0x09 => some (16, 1, 1)
  | 0x0A => some (4, 1, 1) | 0x0B => some (4, 1, 1) | 0x0C => some (4, 1, 1)
  | 0x10 => some (8, 4, 4) | 0x11 => some (16, 4, 4) | 0x12 => some (16, 4, 4) | 0x13 => some (8, 4, 4)
  | 0x14 => some (16, 4, 4) | 0x15 => some (16, 4, 4) | 0x16 => some (16, 4, 4)
  | 0x20 => some (16, 4, 4) | 0x21 => some (16, 5, 4) | 0x22 => some (16, 5, 5) | 0x23 => some (16, 6, 5)
  | 0x24 => some (16, 6, 6) | 0x25 => some (16, 8, 5) | 0x26 => some (16, 8, 6) | 0x27 => some (16, 8, 8)
  | 0x28 => some (16, 10, 5) | 0x29 => some (16, 10, 6) | 0x2A => some (16, 10, 8) | 0x2B => some (16, 10, 10)
  | 0x2C => some (16, 12, 10) | 0x2D => some (16, 12, 12)
  | _ => none

/-- The type codes that a layout takes. -/
def texTypes (l : Nat) : List Nat :=
  if l = 0x01 ∨ l = 0x02 then [0, 1, 2, 3]
  else if l = 0x03 then [0, 1, 2, 3, 5]
  else if 0x04 ≤ l ∧ l ≤ 0x06 then [0, 1, 2, 3, 4]
  else if 0x07 ≤ l ∧ l ≤ 0x09 then [2, 3, 4]
  else if l = 0x0A ∨ l = 0x0B then [4]
  else if l = 0x0C then [0, 2]
  else if l = 0x13 ∨ l = 0x14 then [0, 1]
  else if l = 0x15 then [4, 6]
  else if (0x10 ≤ l ∧ l ≤ 0x16) ∨ (0x20 ≤ l ∧ l ≤ 0x2D) then [0, 5]
  else []

/-- Lowest bit and width of the channels of an uncompressed layout. -/
def texChans (l : Nat) : List (Nat × Nat) :=
  let even := fun n w => (List.range n).map (fun c => (w * c, w))
  if 0x01 ≤ l ∧ l ≤ 0x03 then even (2 ^ (l - 0x01)) 8
  else if 0x04 ≤ l ∧ l ≤ 0x06 then even (2 ^ (l - 0x04)) 16
  else if 0x07 ≤ l ∧ l ≤ 0x09 then even (2 ^ (l - 0x07)) 32
  else if l = 0x0A then [(0, 11), (11, 11), (22, 10)]
  else if l = 0x0B then [(0, 9), (9, 9), (18, 9)]
  else if l = 0x0C then [(0, 10), (10, 10), (20, 10), (30, 2)]
  else []

/-- A float of a format as FP32: exact, and every NaN the canonical one. -/
def floatToF32 (f : FFmt) (x : Nat) : Nat :=
  match f.unpack x with
  | .nan _ _ _ => fp32.nan
  | .inf n => fp32.signed n fp32.infCode
  | .fin n m e => fp32.signed n ((Q.ofDyadic false m e).toF32 .rne)

/-- A texel's channel: its register value, and the value that a filter weighs. The two differ for UNORM and
SNORM alone, whose exact quotients the worked sample of R266 sums (assumption 31). -/
structure TexChan where
  bits : Nat
  val : XQ
  deriving DecidableEq, Repr

/-- A channel whose register value is what a filter weighs. -/
def TexChan.ofBits (x : Nat) : TexChan := { bits := x, val := XQ.ofF32 x }

/-- An exact quotient. -/
def TexChan.ofQ (q : Q) : TexChan := { bits := q.toF32 .rne, val := .fin q }

/-- A channel of `n` bits (R260). -/
def texChan (ty n c : Nat) (alpha : Bool) : TexChan :=
  if ty = 0 ∨ (ty = 5 ∧ alpha) then TexChan.ofQ ⟨c, 2 ^ n - 1⟩
  else if ty = 1 then TexChan.ofQ (Q.max ⟨intOf true n c, 2 ^ (n - 1) - 1⟩ (Q.ofInt (-1)))
  else if ty = 2 then TexChan.ofBits c
  else if ty = 3 then TexChan.ofBits (intBits 32 (intOf true n c))
  else if ty = 5 then TexChan.ofBits (srgbToF32 c)
  else if n = 16 then TexChan.ofBits (floatToF32 fp16 c)
  else if n = 32 then TexChan.ofBits (floatToF32 fp32 c)
  else if n = 11 then TexChan.ofBits (floatToF32 ⟨5, 6, .ieee⟩ c)
  else TexChan.ofBits (floatToF32 ⟨5, 5, .ieee⟩ c)

/-- The value 1 of a type's alpha. -/
def texOne (ty : Nat) : Nat := if ty = 2 ∨ ty = 3 then 1 else 0x3F800000

/-- Four channels of texel (x, y) of an element's bytes: missing channels 0, missing alpha 1. -/
def texelVals (l ty raw x y : Nat) : List TexChan :=
  if 0x10 ≤ l then
    let b := Config.blockTexel (l + 256 * ty) (decide (ty = 1 ∨ ty = 6)) (BitVec.ofNat 128 raw) x y
    (List.range 4).map (fun c => TexChan.ofBits (fieldOf b (32 * c + 31) (32 * c)))
  else if l = 0x0B then
    let e : Int := (raw / 2 ^ 27 % 32 : Nat)
    ((texChans l).map (fun p => TexChan.ofQ (Q.ofDyadic false (raw / 2 ^ p.1 % 2 ^ p.2) (e - 24))))
      ++ [TexChan.ofBits (texOne ty)]
  else
    let cs := (texChans l).zipIdx.map (fun p =>
      texChan ty p.1.2 (raw / 2 ^ p.1.1 % 2 ^ p.1.2) (decide (p.2 = 3)))
    (List.range 4).map (fun c => (cs[c]?).getD (TexChan.ofBits (if c = 3 then texOne ty else 0)))

/-! ## Descriptors (R256 to R258) -/

/-- A texture descriptor (Table 12.3). -/
structure TexDesc where
  base : Word
  layout : Nat
  ty : Nat
  dim : Nat
  levels : Nat
  width : Nat
  height : Nat
  depth : Nat
  deriving DecidableEq, Repr

/-- A sampler descriptor (Table 12.4); biases and limits are in 1/256. -/
structure SampDesc where
  mode : List Nat
  filt : BitVec 8
  bias : Int
  minLod : Nat
  maxLod : Nat
  border : Nat
  unnorm : Bool
  val : List Nat
  deriving DecidableEq, Repr

def TexDesc.ofNat (x : Nat) : TexDesc :=
  { base := BitVec.ofNat 64 (descField x 0 8), layout := descField x 8 1, ty := descField x 9 1,
    dim := descField x 10 1, levels := descField x 11 1, width := descField x 12 4,
    height := descField x 16 4, depth := descField x 20 4 }

def SampDesc.ofNat (x : Nat) : SampDesc :=
  { mode := [descField x 0 1, descField x 1 1, descField x 2 1], filt := BitVec.ofNat 8 (descField x 3 1),
    bias := intOf true 16 (descField x 4 2), minLod := descField x 6 2, maxLod := descField x 8 2,
    border := descField x 10 1, unnorm := decide (descField x 11 1 % 2 = 1),
    val := (List.range 4).map (fun i => descField x (16 + 4 * i) 4) }

/-- Coordinate count and spatial dimensions of a DIM. -/
def texNco (dim : Nat) : Nat :=
  if dim = 0 then 1 else if dim = 1 ∨ dim = 4 then 2 else if dim = 6 then 4 else 3
def texDims (dim : Nat) : Nat := if dim = 0 ∨ dim = 4 then 1 else if dim = 2 then 3 else 2

def TexDesc.cube (t : TexDesc) : Bool := decide (t.dim = 3) || decide (t.dim = 6)
def TexDesc.intFmt (t : TexDesc) : Bool := decide (t.ty = 2) || decide (t.ty = 3)

/-- A descriptor obeys Tables 12.3 and 12.5; `x` is its 64 bytes. -/
def TexDesc.ok (t : TexDesc) (x : Nat) : Bool :=
  let deep := if t.dim = 2 then t.depth else 1
  decide (t.base.toNat % 128 = 0) && (texBlock t.layout).isSome && decide (t.ty ∈ texTypes t.layout)
    && decide (t.dim ≤ 6) && decide (1 ≤ t.width ∧ t.width ≤ 16384)
    && decide (1 ≤ t.height ∧ t.height ≤ 16384)
    && (!(decide (t.dim = 0) || decide (t.dim = 4)) || decide (t.height = 1))
    && (!t.cube || decide (t.height = t.width))
    && (if t.dim = 6 then decide (1 ≤ t.depth ∧ t.depth ≤ 341)
        else if t.dim = 2 ∨ t.dim = 4 ∨ t.dim = 5 then decide (1 ≤ t.depth ∧ t.depth ≤ 2048)
        else decide (t.depth = 1))
    && decide (1 ≤ t.levels ∧ t.levels ≤ 1 + Nat.log2 (max (max t.width t.height) deep))
    && decide (x / 2 ^ 192 = 0)

/-- A sampler descriptor obeys Table 12.4; `x` is its 32 bytes and `dim` the texture's. -/
def SampDesc.ok (m : SampDesc) (x dim : Nat) : Bool :=
  m.mode.all (fun a => decide (a ≤ 4)) && decide (fieldOf m.filt 7 4 = 0)
    && decide (-4096 ≤ m.bias ∧ m.bias ≤ 4096) && decide (m.minLod ≤ 3840) && decide (m.minLod ≤ m.maxLod)
    && decide (m.border ≤ 3) && decide (descField x 11 1 ≤ 1)
    && (!m.unnorm || (decide (dim ≤ 1) && m.filt.getLsbD 3)) && decide (descField x 12 4 = 0)

/-- Width, height and slices of level `m` (R257). -/
def TexDesc.w (t : TexDesc) (m : Nat) : Nat := max 1 (t.width / 2 ^ m)
def TexDesc.h (t : TexDesc) (m : Nat) : Nat := max 1 (t.height / 2 ^ m)
def TexDesc.n (t : TexDesc) (m : Nat) : Nat :=
  if t.dim = 2 then max 1 (t.depth / 2 ^ m) else if t.dim = 3 then 6
  else if t.dim = 6 then 6 * t.depth else t.depth

def TexDesc.elemBytes (t : TexDesc) : Nat := ((texBlock t.layout).map (fun b => b.1)).getD 1
def TexDesc.bw (t : TexDesc) : Nat := ((texBlock t.layout).map (fun b => b.2.1)).getD 1
def TexDesc.bh (t : TexDesc) : Nat := ((texBlock t.layout).map (fun b => b.2.2)).getD 1

/-- Row pitch and slice size of level `m`. -/
def TexDesc.pitch (t : TexDesc) (m : Nat) : Nat :=
  ((t.w m + t.bw - 1) / t.bw * t.elemBytes + 127) / 128 * 128
def TexDesc.slice (t : TexDesc) (m : Nat) : Nat := t.pitch m * ((t.h m + t.bh - 1) / t.bh)

/-- Byte offset of the start of level `m`. -/
def TexDesc.start (t : TexDesc) : Nat → Nat
  | 0 => 0
  | m + 1 => t.start m + t.slice m * t.n m

/-- Address of the element that holds texel (x, y) of slice z of level `m`. -/
def TexDesc.addr (t : TexDesc) (m x y z : Nat) : Word :=
  t.base + BitVec.ofNat 64 (t.start m + z * t.slice m + y / t.bh * t.pitch m + x / t.bw * t.elemBytes)

/-- The bytes of a descriptor, read once; those of a poisoned granule are open. -/
def readDesc (s : State) (va : Word) (bytes : Nat) : Except Stop Nat :=
  match elemLoc s .load va bytes with
  | .error e => .error e
  | .ok l =>
      let r := elemRead s l bytes
      .ok (if r.2 then (Config.free s.tick (2 ^ 25 + bytes) (8 * bytes)).toNat else r.1)

/-- texture descriptor invalid. -/
def texInvalid (va : Word) : Stop := Stop.of 35 va

/-- The texture descriptor at kT; `nco` and `ng` are the counts that DIM must need. -/
def readTex (s : State) (va : Word) (nco ng : Option Nat) : Except Stop TexDesc :=
  match readDesc s va 64 with
  | .error e => .error e
  | .ok x =>
      let t := TexDesc.ofNat x
      let fit := fun (n : Option Nat) (k : Nat) => (n.map (fun m => decide (m = k))).getD true
      if t.ok x && fit nco (texNco t.dim) && fit ng (texDims t.dim) then .ok t else .error (texInvalid va)

/-- The sampler descriptor at kS. -/
def readSamp (s : State) (va : Word) (dim : Nat) : Except Stop SampDesc :=
  match readDesc s va 32 with
  | .error e => .error e
  | .ok x => let m := SampDesc.ofNat x; if m.ok x dim then .ok m else .error (texInvalid va)

/-! ## Addressing (R261) -/

/-- The index that an address mode uses in a dimension of size `n`; none is the border. -/
def texIndex (mode : Nat) (i : Int) (n : Nat) : Option Nat :=
  let k : Int := n
  let clamp := fun (j : Int) => (max 0 (min j (k - 1))).toNat
  match mode with
  | 0 => some (i % k).toNat
  | 1 => let r := i % (2 * k); some (if r < k then r else 2 * k - 1 - r).toNat
  | 2 => some (clamp i)
  | 3 => if 0 ≤ i ∧ i < k then some i.toNat else none
  | _ => some (clamp (if 0 ≤ i then i else -1 - i))

/-- The face that a cube coordinate selects, +x, -x, +y, -y, +z, -z. -/
def cubeFace (x y z : Q) : Nat :=
  let neg := fun (a : Q) => if a.num < 0 then 1 else 0
  if x.abs.le z.abs && y.abs.le z.abs then 4 + neg z
  else if x.abs.le y.abs then 2 + neg y
  else neg x

/-- u and v of a coordinate on a face; none where ma is 0. -/
def faceUv (f : Nat) (x y z : Q) : Option (Q × Q) :=
  let r : Q × Q × Q :=
    if f = 0 then (z.neg, y.neg, x) else if f = 1 then (z, y.neg, x)
    else if f = 2 then (x, z, y) else if f = 3 then (x, z.neg, y)
    else if f = 4 then (x, y.neg, z) else (x.neg, y.neg, z)
  if r.2.2.isZero then none
  else
    let at_ := fun (c : Q) => ((c.div r.2.2.abs).add Q.one).div (Q.ofInt 2)
    some (at_ r.1, at_ r.2.1)

/-- A value that the spec leaves open, as a rational number (assumption 5). -/
def freeQ (tick slot den : Nat) : Q := ⟨(Config.free tick slot 64).toInt, den⟩

/-- Where a sample lies: spatial coordinates, absent dimensions none, and the slice. -/
structure TexPoint where
  u : Q
  v : Option Q
  w : Option Q
  slice : Nat
  deriving DecidableEq, Repr

/-- A layer coordinate (R261). -/
def texLayer (c : Q) (layers : Nat) : Nat := (max 0 (min c.rne ((layers : Int) - 1))).toNat

/-- The point of an element's finite coordinates; the face coordinates of (0, 0, 0) are open. -/
def texPoint (t : TexDesc) (tick e : Nat) (cs : List Q) : TexPoint :=
  let c := fun i => (cs[i]?).getD Q.zero
  if t.cube then
    let f := cubeFace (c 0) (c 1) (c 2)
    let uv := (faceUv f (c 0) (c 1) (c 2)).getD
      (freeQ tick (2 ^ 27 + 2 * e) (2 ^ 32), freeQ tick (2 ^ 27 + 2 * e + 1) (2 ^ 32))
    { u := uv.1, v := some uv.2, w := none,
      slice := f + (if t.dim = 6 then 6 * texLayer (c 3) t.depth else 0) }
  else
    { u := c 0, v := if texDims t.dim = 1 then none else some (c 1),
      w := if t.dim = 2 then some (c 2) else none,
      slice := if t.dim = 4 then texLayer (c 1) t.depth else if t.dim = 5 then texLayer (c 2) t.depth else 0 }

/-! ## Level of detail (R262) -/

/-- Sizes of level 0 along the spatial dimensions. -/
def TexDesc.sizes (t : TexDesc) : List Nat :=
  if texDims t.dim = 1 then [t.width] else if t.dim = 2 then [t.width, t.height, t.depth]
  else [t.width, t.height]

/-- ρ² of one direction: exact, and no value where a gradient has none. -/
def rhoSq (g : List XQ) (sizes : List Nat) : XQ :=
  (g.zip sizes).foldl (fun acc p =>
    let x := p.1.mul (.fin (Q.ofInt (p.2 : Nat)))
    acc.add (x.mul x)) (.fin Q.zero)

/-- λ0 from both directions. -/
def lamZero (gx gy : List XQ) (sizes : List Nat) : XQ :=
  let a := rhoSq gx sizes
  let b := rhoSq gy sizes
  if a.isNan || b.isNan then .nan
  else
    match (if a.le b then b else a) with
    | .fin q => if q.isZero then .ninf else .fin ⟨halfLog256 q, 256⟩
    | .pinf => .pinf
    | .ninf => .nan
    | .nan => .nan

/-- Face-coordinate differences of P and P + ∂P on P's face. -/
def cubeGrad (p d : List Q) : List XQ :=
  let c := fun (l : List Q) i => (l[i]?).getD Q.zero
  let f := cubeFace (c p 0) (c p 1) (c p 2)
  let at_ := fun (l : List Q) => faceUv f (c l 0) (c l 1) (c l 2)
  match at_ p, at_ ((List.range 3).map (fun i => (c p i).add (c d i))) with
  | some a, some b => [.fin (b.1.sub a.1), .fin (b.2.sub a.2)]
  | _, _ => [.nan, .nan]

/-- Gradients of element `e` from its quad: coordinate `i` of element `k` is `get i k`. -/
def quadGrads (t : TexDesc) (vl : Nat) (get : Nat → Nat → XQ) (e : Nat) : List XQ × List XQ :=
  let q := e / 4 * 4
  let n := texDims t.dim
  if vl ≤ q + 3 then (List.replicate n (.fin Q.zero), List.replicate n (.fin Q.zero))
  else
    let diff := fun k i => (get i (q + k)).sub (get i q)
    if t.cube then
      let face := fun k =>
        let d := (List.range 3).map (diff k)
        if d.all XQ.isFin then cubeGrad ((List.range 3).map (fun i => (get i e).val)) (d.map XQ.val)
        else [.nan, .nan]
      (face 1, face 2)
    else ((List.range n).map (diff 1), (List.range n).map (diff 2))

/-- λ where it has a value, else an open one. -/
def lamOr (tick e : Nat) (x : XQ) : XQ := if x.isNan then .fin (freeQ tick (2 ^ 26 + e) 256) else x

/-- λc. -/
def lamClamp (t : TexDesc) (m : SampDesc) (lam : XQ) : Q :=
  let lo : Q := ⟨m.minLod, 256⟩
  let hi := Q.min ⟨m.maxLod, 256⟩ (Q.ofInt ((t.levels : Int) - 1))
  match lam with
  | .fin q => Q.min (Q.max q lo) hi
  | .pinf => hi
  | .ninf => Q.min lo hi
  | .nan => hi

/-! ## Footprints (R263) -/

/-- A texel of a footprint: the border, or an element's address and the texel's place in its block. -/
inductive TexelRef where
  | border
  | mem (va : Word) (x y : Nat)
  deriving DecidableEq, Repr

/-- Indices and weights along one dimension; a texel of weight 0 contributes nothing. -/
def dimFoot (lin : Bool) (t : Q) : List (Int × Q) :=
  if lin then
    let t' := (t.sub ⟨1, 2⟩).rne8
    let i := t'.floor
    let a := t'.sub (Q.ofInt i)
    [(i, Q.one.sub a), (i + 1, a)].filter (fun p => !p.2.isZero)
  else [(t.floor, Q.one)]

/-- The texel coordinate. -/
def texCoord (m : SampDesc) (c : Q) (size : Nat) : Q := if m.unnorm then c else c.mul (Q.ofInt (size : Nat))

def TexDesc.mode (t : TexDesc) (m : SampDesc) (i : Nat) : Nat := if t.cube then 2 else (m.mode[i]?).getD 2

/-- A texel of indices after addressing. -/
def texelAt (t : TexDesc) (lv : Nat) (x y z : Option Nat) : TexelRef :=
  match x, y, z with
  | some x, some y, some z => .mem (t.addr lv x y z) (x % t.bw) (y % t.bh)
  | _, _, _ => .border

/-- The texels and weights of one level. -/
def levelFoot (t : TexDesc) (m : SampDesc) (lin : Bool) (lv : Nat) (p : TexPoint) :
    List (TexelRef × Q) :=
  let foot := fun (i : Nat) (c : Q) (n : Nat) =>
    (dimFoot lin (texCoord m c n)).map (fun d => (texIndex (t.mode m i) d.1 n, d.2))
  let us := foot 0 p.u (t.w lv)
  let vs := (p.v.map (fun c => foot 1 c (t.h lv))).getD [(some 0, Q.one)]
  let ws := (p.w.map (fun c => foot 2 c (t.n lv))).getD [(some p.slice, Q.one)]
  ws.flatMap (fun w => vs.flatMap (fun v => us.map (fun u =>
    (texelAt t lv u.1 v.1 w.1, (u.2.mul v.2).mul w.2))))

/-- The nearest mip level. -/
def nearLevel (m : SampDesc) (lc : Q) : Nat := if m.filt.getLsbD 3 then 0 else (lc.add ⟨1, 2⟩).floor.toNat

/-- The texels and weights of a sample at λ. -/
def sampleFoot (t : TexDesc) (m : SampDesc) (lam : XQ) (p : TexPoint) : List (TexelRef × Q) :=
  let lc := lamClamp t m lam
  let lin := !t.intFmt && (if lam.le (.fin Q.zero) then m.filt.getLsbD 0 else m.filt.getLsbD 1)
  if m.filt.getLsbD 3 || t.intFmt || !m.filt.getLsbD 2 then levelFoot t m lin (nearLevel m lc) p
  else
    let m0 := lc.floor.toNat
    let f := lc.sub (Q.ofInt (m0 : Nat))
    if f.isZero || decide (t.levels ≤ m0 + 1) then levelFoot t m lin m0 p
    else
      (levelFoot t m lin m0 p).map (fun x => (x.1, x.2.mul (Q.one.sub f)))
        ++ (levelFoot t m lin (m0 + 1) p).map (fun x => (x.1, x.2.mul f))

/-- What an element of a texture word does: gives values, filters texels, or returns texels as converted. -/
inductive TexWork where
  | vals (l : List Nat)
  | filter (l : List (TexelRef × Q))
  | fetch (r : TexelRef)
  | gather (ch : Nat) (l : List TexelRef)
  deriving DecidableEq, Repr

def TexWork.refs : TexWork → List TexelRef
  | .vals _ => []
  | .filter l => l.map (fun p => p.1)
  | .fetch r => [r]
  | .gather _ l => l

/-- The BORDER colour. -/
def borderVals (t : TexDesc) (m : SampDesc) : List Nat :=
  let o := texOne t.ty
  if m.border = 0 then [0, 0, 0, 0] else if m.border = 1 then [0, 0, 0, o]
  else if m.border = 2 then [o, o, o, o] else m.val

/-- One filtered channel: the exact sum, rounded once. -/
def filterChan (xs : List (XQ × Q)) : Nat :=
  (xs.foldl (fun acc p => XQ.add acc (p.1.mul (.fin p.2))) (.fin Q.zero)).toF32 .rne

/-- The channels that an element returns; `vals` are the texels' channels in the order of the references. -/
def TexWork.result (wk : TexWork) (vals : List (List TexChan)) : List Nat :=
  let ch := fun (l : List TexChan) c => (l[c]?).getD (TexChan.ofBits 0)
  match wk with
  | .vals l => l
  | .filter l =>
      (List.range 4).map (fun c =>
        filterChan ((vals.map (fun x => (ch x c).val)).zip (l.map (fun p => p.2))))
  | .fetch _ => ((vals.head?).getD []).map (fun x => x.bits)
  | .gather c _ => vals.map (fun x => (ch x c).bits)

/-! ## Running a texture word -/

/-- What a texture word runs with: its descriptors, and the registers of its operands. -/
structure TexRun where
  v : VEnv
  t : TexDesc
  m : SampDesc
  o : VOp
  nco : Nat

/-- Register group `i` of an operand. -/
def TexRun.grp (r : TexRun) (o : Opnd) (i : Nat) : OLoc :=
  { file := .v, ix := o.ix.toNat + i * r.v.lmul, w := 32 }

def TexRun.coord (r : TexRun) (h : Hart) (i e : Nat) : Nat := (r.grp r.o.a i).get h r.v e
def TexRun.cval (r : TexRun) (h : Hart) (i e : Nat) : Nat := (r.grp r.o.c i).get h r.v e

/-- λ of the quad, with LODBIAS and a bias. -/
def TexRun.quadLam (r : TexRun) (h : Hart) (e : Nat) (bias : XQ) : XQ :=
  let g := quadGrads r.t r.v.vl (fun i k => XQ.ofF32 (r.coord h i k)) e
  lamOr r.v.tick e (((lamZero g.1 g.2 r.t.sizes).add (.fin ⟨r.m.bias, 256⟩)).add bias)

/-- λ of VTEXD, from C. -/
def TexRun.gradLam (r : TexRun) (h : Hart) (e : Nat) : XQ :=
  let n := texDims r.t.dim
  let g := fun k => (List.range n).map (fun i => XQ.ofF32 (r.cval h (k * n + i) e))
  lamOr r.v.tick e ((lamZero (g 0) (g 1) r.t.sizes).add (.fin ⟨r.m.bias, 256⟩))

/-- The exact coordinates of an element, or none where one is NaN or infinite. -/
def TexRun.coords (r : TexRun) (h : Hart) (e : Nat) : Option (List Q) :=
  let xs := (List.range r.nco).map (fun i => XQ.ofF32 (r.coord h i e))
  if xs.all XQ.isFin then some (xs.map XQ.val) else none

/-- A sample at λ: 0 on every channel where a coordinate is NaN or infinite. -/
def TexRun.sample (r : TexRun) (h : Hart) (e : Nat) (lam : XQ) : TexWork :=
  match r.coords h e with
  | none => .vals [0, 0, 0, 0]
  | some cs =>
      let f := sampleFoot r.t r.m lam (texPoint r.t r.v.tick e cs)
      if r.t.intFmt then .fetch ((f.head?.map (fun p => p.1)).getD .border) else .filter f

def texsWork (r : TexRun) (h : Hart) (e : Nat) : TexWork :=
  r.sample h e (r.quadLam h e
    (if r.o.c.file = .none_ then .fin Q.zero else XQ.ofF32 (r.cval h 0 e)))

def texlWork (r : TexRun) (h : Hart) (e : Nat) : TexWork :=
  r.sample h e (lamOr r.v.tick e (XQ.ofF32 (r.cval h 0 e)))

def texdWork (r : TexRun) (h : Hart) (e : Nat) : TexWork := r.sample h e (r.gradLam h e)

/-- Results on which the spec is silent. -/
def openVals (tick e : Nat) : TexWork :=
  .vals ((List.range 4).map (fun c => (Config.free tick (2 ^ 28 + 4 * e + c) 32).toNat))

/-- VTEXF: integer coordinates; those of a cube are not stated. -/
def texfWork (r : TexRun) (h : Hart) (e : Nat) : TexWork :=
  let t := r.t
  let c := fun i => intOf true 32 (r.coord h i e)
  let lv := intOf true 32 (r.cval h 0 e)
  if t.cube then openVals r.v.tick e
  else if lv < 0 ∨ (t.levels : Int) ≤ lv then .vals [0, 0, 0, 0]
  else
    let m := lv.toNat
    let y := if texDims t.dim = 1 then 0 else c 1
    let z := if t.dim = 2 ∨ t.dim = 5 then c 2 else if t.dim = 4 then c 1 else 0
    let in_ := fun (i : Int) (n : Nat) => decide (0 ≤ i ∧ i < (n : Int))
    if in_ (c 0) (t.w m) && in_ y (t.h m) && in_ z (t.n m) then
      .fetch (texelAt t m (some (c 0).toNat) (some y.toNat) (some z.toNat))
    else .vals [0, 0, 0, 0]

/-- VTEXG4: the four texels of a linear footprint; a footprint that is not of two dimensions is not stated. -/
def texgWork (ch : Nat) (r : TexRun) (h : Hart) (e : Nat) : TexWork :=
  match r.coords h e with
  | none => .vals [0, 0, 0, 0]
  | some cs =>
      let p := texPoint r.t r.v.tick e cs
      match texDims r.t.dim, p.v with
      | 2, some pv =>
          let lv := nearLevel r.m (lamClamp r.t r.m (r.quadLam h e (.fin Q.zero)))
          let i0 := fun (c : Q) (n : Nat) => ((texCoord r.m c n).sub ⟨1, 2⟩).rne8.floor
          let i := i0 p.u (r.t.w lv)
          let j := i0 pv (r.t.h lv)
          let tx := fun (di dj : Int) =>
            texelAt r.t lv (texIndex (r.t.mode r.m 0) (i + di) (r.t.w lv))
              (texIndex (r.t.mode r.m 1) (j + dj) (r.t.h lv)) (some p.slice)
          .gather ch [tx 0 1, tx 1 1, tx 1 0, tx 0 0]
      | _, _ => openVals r.v.tick e

/-- VTEXQ op=size. -/
def texqSizeWork (r : TexRun) (h : Hart) (e : Nat) : TexWork :=
  let m := intOf true 32 (r.coord h 0 e)
  if 0 ≤ m ∧ m < (r.t.levels : Int) then .vals [r.t.w m.toNat, r.t.h m.toNat, r.t.n m.toNat, r.t.levels]
  else .vals [0, 0, 0, r.t.levels]

/-- VTEXQ op=lod. -/
def texqLodWork (r : TexRun) (h : Hart) (e : Nat) : TexWork :=
  let lam := r.quadLam h e (.fin Q.zero)
  .vals [(lamClamp r.t r.m lam).toF32 .rne, lam.toF32 .rne]

/-- Places of an element's texels, checked in order (R265). -/
def texLocs (s : State) (bytes : Nat) : List TexelRef → Except Stop (List (Option (Loc × Nat × Nat)))
  | [] => .ok []
  | .border :: t =>
      match texLocs s bytes t with
      | .error e => .error e
      | .ok r => .ok (none :: r)
  | .mem va x y :: t =>
      match elemLoc s .load va bytes with
      | .error e => .error e
      | .ok l =>
          match texLocs s bytes t with
          | .error e => .error e
          | .ok r => .ok (some (l, x, y) :: r)

/-- The active elements of a slice: their work and places, or the first failing check. -/
def texChecks (s : State) (r : TexRun) (work : Hart → Nat → TexWork) (act : Nat → Bool) :
    List Nat → Except (Nat × Stop) (List (Nat × TexWork × List (Option (Loc × Nat × Nat))))
  | [] => .ok []
  | e :: t =>
      if !act e then texChecks s r work act t
      else if (List.range r.nco).any (fun i => (r.grp r.o.a i).pois s.h r.v e) then
        .error (e, Stop.of 24 (Config.free r.v.tick (2 ^ 29 + e) 64))
      else
        let w := work s.h e
        match texLocs s r.t.elemBytes w.refs with
        | .error x => .error (e, x)
        | .ok ls =>
            match texChecks s r work act t with
            | .error x => .error x
            | .ok q => .ok ((e, w, ls) :: q)

/-- An element as the sampler reads it: from a line that it caches for the hart, else from memory (R266). -/
def texelRaw (s : State) (l : Loc) (bytes : Nat) : Nat :=
  match l with
  | .mem pa _ =>
      match s.h.texels.find? (fun e => decide (e.1 = pa / 128)) with
      | some c => lineBytes c.2 (pa % 128) bytes
      | none => readLe s.mem.mem pa bytes
  | .spad a => readLe s.mem.spad a bytes
  | .dev _ => 0

/-- The channels of one texel, and whether its read touches poison. -/
def texelRead (s : State) (r : TexRun) : Option (Loc × Nat × Nat) → List TexChan × Bool
  | none => ((borderVals r.t r.m).map TexChan.ofBits, false)
  | some (l, x, y) =>
      (texelVals r.t.layout r.t.ty (texelRaw s l r.t.elemBytes) x y, poisonedLoc s l r.t.elemBytes)

/-- The destination groups. -/
def TexRun.dests (r : TexRun) (nd : Nat) : List OLoc := (List.range nd).map (r.grp r.o.d)

/-- Tails of destination groups. -/
def groupTails (v : VEnv) (ds : List OLoc) (s : State) : State :=
  if v.vl = 0 then s else ds.foldl (fun t d => putTail t { o := d, full := false } v v.vl) s

/-- Results of a slice's elements written to their groups; element poison beside the mask's. -/
def putGroups (s : State) (v : VEnv) (ds : List OLoc) (msk : Msk) (q : Nat) (es : List Nat)
    (val : Nat → Nat → Nat) (pois : Nat → Bool) : State :=
  let h := s.h
  (ds.zipIdx).foldl (fun (t : State) p =>
    putGroup t { o := p.1, full := decide (msk = .none_) } v (maskBit h v msk 0)
      (fun e => exact (val e p.2))
      (fun e => maskPois h v msk 0 e || (maskBit h v msk 0 e && pois e)) (min v.vl ((q + 1) * v.ege)) es) s

/-- A slice of a texture word; `cg` is the number of C groups. -/
def texSlice (r : TexRun) (nd cg : Nat) (work : TexRun → Hart → Nat → TexWork) : SliceRun := fun s _ q n =>
  let es := r.v.laneElems q n
  match texChecks s r (work r) (maskBit s.h r.v r.o.msk 0) es with
  | .error e => .error e
  | .ok ws =>
      let got := ws.map (fun p =>
        let ts := p.2.2.map (texelRead s r)
        (p.1, p.2.1.result (ts.map (fun x => x.1)), ts.any (fun x => x.2)))
      let find := fun e => (got.find? (fun p => decide (p.1 = e))).map (fun p => p.2)
      .ok (putGroups s r.v (r.dests nd) r.o.msk q es
        (fun e c => (((find e).map (fun p => p.1)).getD [])[c]?.getD 0)
        (fun e => ((find e).map (fun p => p.2)).getD false
          || (List.range cg).any (fun i => (r.grp r.o.c i).pois s.h r.v e)))

/-! ## Checks (R253 to R255) -/

/-- A group of `n` registers: at most 8, up to v31, at a multiple of LMUL. -/
def texGroupOk (v : VEnv) (o : Opnd) (n : Nat) : Bool :=
  o.file = .none_ || (decide (n ≤ 8) && decide (o.ix.toNat % v.lmul = 0) && decide (o.ix.toNat + n ≤ 32))

/-- Two register groups share a register. -/
def groupsMeet (o : Opnd) (n : Nat) (p : Opnd) (m : Nat) : Bool :=
  decide (o.file ≠ .none_) && decide (p.file ≠ .none_) && rangesMeet o.ix.toNat n p.ix.toNat m

/-- Rules of R255 over the destination and the sources with their register counts. -/
def texCfgOk (v : VEnv) (d : Opnd × Nat) (srcs : List (Opnd × Nat)) : Bool :=
  decide (v.sew = 32) && decide (v.passes = 1) && texGroupOk v d.1 d.2
    && srcs.all (fun p => texGroupOk v p.1 p.2) && srcs.all (fun p => !groupsMeet d.1 d.2 p.1 p.2)

/-- No register of any operand is bound. -/
def texUnbound (h : Hart) (os : List (Opnd × Nat)) : Bool := os.all (fun p => !h.anyBound p.1 p.2)

/-- nc, nco, ng and the addresses of the descriptors. -/
def texNc (o : VOp) : Nat := fieldOf o.imm16 5 4 + 1
def texNcoOf (o : VOp) : Nat := fieldOf o.imm16 7 6 + 1
def texNg (o : VOp) : Nat := fieldOf o.imm16 9 8 + 1
def texKt (o : VOp) (b : Block) : Word :=
  match o.b with
  | .reg r => b.k[(r.ix.extractLsb' 0 3).toNat]'((r.ix.extractLsb' 0 3).isLt)
  | .k n => b.k[n.toNat]'(n.isLt)
  | .imm _ => 0
def texKs (o : VOp) (b : Block) : Word := b.k[(o.imm16.extractLsb' 0 3).toNat]'((o.imm16.extractLsb' 0 3).isLt)

/-- A sampler that a word without one never consults. -/
def noSamp : SampDesc :=
  { mode := [], filt := 0, bias := 0, minLod := 0, maxLod := 0, border := 0, unnorm := false, val := [] }

/-- What distinguishes the texture words: C groups, whether DIM is held to nco and to ng, and whether a sampler
is read. -/
structure TexShape where
  cg : Nat
  anyDim : Bool
  grads : Bool
  samp : Bool

def TexShape.srcs (sh : TexShape) (v : VEnv) (o : VOp) : List (Opnd × Nat) :=
  [(o.a, texNcoOf o * v.lmul), (o.c, sh.cg * v.lmul)]

/-- The descriptors, read and checked (R256). -/
def texDescs (sh : TexShape) (o : VOp) (s : State) (b : Block) : Except Stop (TexDesc × SampDesc) :=
  match readTex s (texKt o b) (if sh.anyDim then none else some (texNcoOf o))
      (if sh.grads then some (texNg o) else none) with
  | .error e => .error e
  | .ok t =>
      if !sh.samp then .ok (t, noSamp)
      else
        match readSamp s (texKs o b) t.dim with
        | .error e => .error e
        | .ok m => .ok (t, m)

/-- A texture word: the checks of R42 and R255, its descriptors, then its slices. -/
def texExec (i : Instr) (o : VOp) (sh : TexShape) (work : TexRun → Hart → Nat → TexWork) (s : State) :
    Host.Outcome State Fault Refusal :=
  blockWord s
    (fun b =>
      let v := venvOf s b
      let d := (o.d, texNc o * v.lmul)
      match wordGuard s b i o.rm (texCfgOk v d (sh.srcs v o)) (texUnbound s.h (d :: sh.srcs v o)) with
      | some e => some e
      | none =>
          match texDescs sh o s b with
          | .error e => some e
          | .ok _ => none)
    (fun b =>
      let v := venvOf s b
      match texDescs sh o s b with
      | .error _ => s
      | .ok d =>
          let r : TexRun := { v := v, t := d.1, m := d.2, o := o, nco := texNcoOf o }
          laneWord s v v.plan (v.neg * v.gp)
            (texSlice r (texNc o) (if o.c.file = .none_ then 0 else sh.cg) work)
            (fun _ _ _ _ => false) (groupTails v (r.dests (texNc o))))

/-- VTEXS: filtered sample, λ from the quad. -/
def execVtexs (o : VOp) (s : State) : Host.Outcome State Fault Refusal :=
  texExec (.vtexs o) o { cg := 1, anyDim := false, grads := false, samp := true } texsWork s

/-- VTEXL: filtered sample at λ = C. -/
def execVtexl (o : VOp) (s : State) : Host.Outcome State Fault Refusal :=
  texExec (.vtexl o) o { cg := 1, anyDim := false, grads := false, samp := true } texlWork s

/-- VTEXD: filtered sample, λ from the gradients in C. -/
def execVtexd (o : VOp) (s : State) : Host.Outcome State Fault Refusal :=
  texExec (.vtexd o) o { cg := 2 * texNg o, anyDim := false, grads := true, samp := true } texdWork s

/-- VTEXF: the texel at integer coordinates and level. -/
def execVtexf (o : VOp) (s : State) : Host.Outcome State Fault Refusal :=
  texExec (.vtexf o) o { cg := 1, anyDim := false, grads := false, samp := false } texfWork s

/-- VTEXG4: one channel of the four texels of a linear footprint. -/
def execVtexg4 (ch : BitVec 2) (o : VOp) (s : State) : Host.Outcome State Fault Refusal :=
  texExec (.vtexg4 ch o) o { cg := 1, anyDim := false, grads := false, samp := true } (texgWork ch.toNat) s

/-- VTEXQ: sizes of a level, or λc and λ. -/
def execVtexq (op : TexqOp) (o : VOp) (s : State) : Host.Outcome State Fault Refusal :=
  match op with
  | .size =>
      texExec (.vtexq op o) o { cg := 1, anyDim := true, grads := false, samp := false } texqSizeWork s
  | .lod => texExec (.vtexq op o) o { cg := 1, anyDim := false, grads := false, samp := true } texqLodWork s

/-! ## Ray queries (R254, R267, R268) -/

/-- FP32 field `i` of a record. -/
def recF (x i : Nat) : Nat := x / 2 ^ (32 * i) % 2 ^ 32

/-- -0 lies below +0 where a maximum or minimum chooses between equal values. -/
def f32Max (a b : Nat) : Nat :=
  if a = 0x80000000 ∧ b = 0 then b
  else if (XQ.ofF32 b).le (XQ.ofF32 a) then a else b
def f32Min (a b : Nat) : Nat :=
  if a = 0 ∧ b = 0x80000000 then b
  else if (XQ.ofF32 a).le (XQ.ofF32 b) then a else b

/-- Near and far of one axis of a box. -/
inductive AxisHit where
  | miss
  | open_
  | hit (near far : Nat)
  deriving DecidableEq, Repr

def boxAxis (o q lo hi : Nat) : AxisHit :=
  let xo := XQ.ofF32 o
  let xq := XQ.ofF32 q
  let xl := XQ.ofF32 lo
  let xh := XQ.ofF32 hi
  if xo.isNan || xq.isNan || xl.isNan || xh.isNan || !xl.le xh then .miss
  else if !xq.isFin then
    (if xl.le xo && xo.le xh then .hit (fp32.signed true fp32.infCode) fp32.infCode else .miss)
  else
    let t1 := (xl.sub xo).mul xq
    let t2 := (xh.sub xo).mul xq
    if t1.isNan || t2.isNan then .open_
    else if t1.le t2 then .hit (t1.toF32 .rdn) (t2.toF32 .rup)
    else .hit (t2.toF32 .rdn) (t1.toF32 .rup)

/-- The result of one box: the entry, +inf on a miss, or none where an exact product has no value. -/
def boxHit (ray : Nat → Nat) (lo hi : Nat → Nat) : Option Nat :=
  let tmin := ray 6
  let tmax := ray 7
  let ax := (List.range 3).map (fun a => boxAxis (ray a) (ray (3 + a)) (lo a) (hi a))
  if (XQ.ofF32 tmin).isNan || (XQ.ofF32 tmax).isNan || ax.any (fun a => decide (a = .miss)) then
    some fp32.infCode
  else
    match ax with
    | [.hit n0 f0, .hit n1 f1, .hit n2 f2] =>
        let enter := f32Max (f32Max (f32Max n0 n1) n2) tmin
        let exit := f32Min (f32Min (f32Min f0 f1) f2) tmax
        some (if (XQ.ofF32 enter).le (XQ.ofF32 exit) then enter else fp32.infCode)
    | _ => none

/-- The three results of a triangle, or none where an input is infinite. -/
def triHit (op : TriCull) (ray : Nat → Nat) (pt : Nat → Nat) : Option (List Nat) :=
  let miss := [fp32.infCode, 0, 0]
  let xs := ((List.range 6).map ray ++ (List.range 9).map pt).map XQ.ofF32
  let tmin := XQ.ofF32 (ray 6)
  let tmax := XQ.ofF32 (ray 7)
  if xs.any XQ.isNan || tmin.isNan || tmax.isNan then some miss
  else if !xs.all XQ.isFin then none
  else
    let vec := fun i => (XQ.ofF32 (pt (3 * i)) |>.val, XQ.ofF32 (pt (3 * i + 1)) |>.val,
      XQ.ofF32 (pt (3 * i + 2)) |>.val)
    let r3 := fun i => ((XQ.ofF32 (ray i)).val, (XQ.ofF32 (ray (i + 1))).val, (XQ.ofF32 (ray (i + 2))).val)
    let o := r3 0
    let q := r3 3
    let sub := fun (a b : Q × Q × Q) => (a.1.sub b.1, a.2.1.sub b.2.1, a.2.2.sub b.2.2)
    let dot := fun (a b : Q × Q × Q) => ((a.1.mul b.1).add (a.2.1.mul b.2.1)).add (a.2.2.mul b.2.2)
    let cross := fun (a b : Q × Q × Q) =>
      ((a.2.1.mul b.2.2).sub (a.2.2.mul b.2.1), (a.2.2.mul b.1).sub (a.1.mul b.2.2),
       (a.1.mul b.2.1).sub (a.2.1.mul b.1))
    let p0 := vec 0
    let p1 := vec 1
    let p2 := vec 2
    let e0 := dot q (cross (sub p1 o) (sub p2 o))
    let e1 := dot q (cross (sub p2 o) (sub p0 o))
    let e2 := dot q (cross (sub p0 o) (sub p1 o))
    let det := (e0.add e1).add e2
    let pos := Q.zero.le e0 && Q.zero.le e1 && Q.zero.le e2
    let neg := e0.le Q.zero && e1.le Q.zero && e2.le Q.zero
    let culled :=
      match op with
      | .none_ => false
      | .back => det.lt Q.zero
      | .front => Q.zero.lt det
    if (pos || neg) && !det.isZero && !culled then
      let pick := fun (f : Q × Q × Q → Q) =>
        ((((e0.mul (f p0)).add (e1.mul (f p1))).add (e2.mul (f p2))).div det).sub (f o)
      let hitp := (pick (fun a => a.1), pick (fun a => a.2.1), pick (fun a => a.2.2))
      let t := (dot hitp q).div (dot q q)
      if tmin.le (.fin t) && (XQ.fin t).le tmax then
        some [t.toF32 .rne, (e1.div det).toF32 .rne, (e2.div det).toF32 .rne]
      else some miss
    else some miss

/-- A ray word: record bytes, the pieces it is checked in, results, and its function of ray and record. -/
structure RayShape where
  bytes : Nat
  piece : Nat
  align : Nat
  nd : Nat
  fn : (Nat → Nat) → Nat → List (Option Nat)

/-- The record of element `e`. -/
def rayAddr (sh : RayShape) (base : Word) (c : Nat) : Word := base + BitVec.ofNat 64 (c * sh.bytes)

/-- Places of a record's pieces. -/
def recordLocs (s : State) (sh : RayShape) (va : Word) : Except Stop (List (Loc × Nat)) :=
  pieceLocs s .load ((List.range (sh.bytes / sh.piece)).map (fun i => (va + BitVec.ofNat 64 (i * sh.piece), sh.piece)))

/-- The active elements of a slice with their records' places, or the first failing check (R265). -/
def rayChecks (s : State) (v : VEnv) (sh : RayShape) (base : Word) (c : OLoc) (act : Nat → Bool) :
    List Nat → Except (Nat × Stop) (List (Nat × List (Loc × Nat)))
  | [] => .ok []
  | e :: t =>
      let va := rayAddr sh base (c.get s.h v e)
      if !act e then rayChecks s v sh base c act t
      else if c.pois s.h v e then .error (e, Stop.of 24 va)
      else
        match recordLocs s sh va with
        | .error x => .error (e, x)
        | .ok ls =>
            match rayChecks s v sh base c act t with
            | .error x => .error x
            | .ok q => .ok ((e, ls) :: q)

/-- A record as the sampler reads it, and whether it touches poison. -/
def readRecord (s : State) : List (Loc × Nat) → Nat × Bool
  | [] => (0, false)
  | (l, n) :: t =>
      let q := readRecord s t
      (texelRaw s l n + 2 ^ (8 * n) * q.1, poisonedLoc s l n || q.2)

/-- A slice of a ray word. -/
def raySlice (v : VEnv) (o : VOp) (sh : RayShape) (base : Word) : SliceRun := fun s _ q n =>
  let es := v.laneElems q n
  let reg := fun (p : Opnd) i => ({ file := .v, ix := p.ix.toNat + i, w := 32 } : OLoc)
  match rayChecks s v sh base (reg o.c 0) (maskBit s.h v o.msk 0) es with
  | .error e => .error e
  | .ok rs =>
      let h := s.h
      let got := rs.map (fun p =>
        let x := readRecord s p.2
        (p.1, sh.fn (fun i => (reg o.a i).get h v p.1) x.1, x.2))
      let find := fun e => (got.find? (fun p => decide (p.1 = e))).map (fun p => p.2)
      .ok (putGroups s v ((List.range sh.nd).map (reg o.d)) o.msk q es
        (fun e i => ((((find e).map (fun p => p.1)).getD [])[i]?.bind id).getD
          (Config.free v.tick (2 ^ 28 + 4 * e + i) 32).toNat)
        (fun e => ((find e).map (fun p => p.2)).getD false
          || (List.range 8).any (fun i => (reg o.a i).pois h v e)))

/-- A ray word: the checks of R42 and R255, the alignment of its base, then its slices. -/
def rayExec (i : Instr) (o : VOp) (sh : RayShape) (s : State) : Host.Outcome State Fault Refusal :=
  blockWord s
    (fun b =>
      let v := venvOf s b
      let srcs := [(o.a, 8), (o.c, 1)]
      match wordGuard s b i o.rm (decide (v.lmul = 1) && texCfgOk v (o.d, sh.nd) srcs)
          (texUnbound s.h ((o.d, sh.nd) :: srcs)) with
      | some e => some e
      | none =>
          if (texKt o b).toNat % sh.align ≠ 0 then some (Stop.of 4 (texKt o b)) else none)
    (fun b =>
      let v := venvOf s b
      laneWord s v v.plan (v.neg * v.gp) (raySlice v o sh (texKt o b)) (fun _ _ _ _ => false)
        (groupTails v ((List.range sh.nd).map (fun i => { file := .v, ix := o.d.ix.toNat + i, w := 32 }))))

/-- The four boxes of a node. -/
def boxFn (ray : Nat → Nat) (x : Nat) : List (Option Nat) :=
  (List.range 4).map (fun i => boxHit ray (fun a => recF x (6 * i + a)) (fun a => recF x (6 * i + 3 + a)))

/-- VRQBOX: one ray against the four boxes of a node. -/
def execVrqbox (o : VOp) (s : State) : Host.Outcome State Fault Refusal :=
  rayExec (.vrqbox o) o { bytes := 128, piece := 128, align := 128, nd := 4, fn := boxFn } s

/-- VRQTRI: one ray against one triangle. -/
def execVrqtri (op : TriCull) (o : VOp) (s : State) : Host.Outcome State Fault Refusal :=
  rayExec (.vrqtri op o) o
    { bytes := 48, piece := 16, align := 16, nd := 3,
      fn := fun ray x =>
        match triHit op ray (recF x) with
        | none => [none, none, none]
        | some l => l.map some } s

end Sys2Proof.Machine
end

