-- ==== Sys2Proof/Machine/Raster.lean ====
section
/-! DEFINITION. The graphics agents: passes and draws, primitives and their ferrying, coverage, depth and stencil,
fragment streams, exports and blending (15). -/

namespace Sys2Proof.Machine

/-! ## Render contexts -/

/-- The raster dies of a partition, ascending (R317). -/
def rasterDies (s : State) (p : Nat) : List Nat :=
  (List.range 8).filter (fun d => s.dieOn d
    && s.sched.clusters.any (fun c => decide (c.2 = p) && decide (c.1 / 10 = d)))

/-- The resident render context of a die. -/
def State.findGfx (s : State) (d c : Nat) : Option RenderCtx :=
  s.gfx.find? (fun x => decide (x.die = d) && decide (x.ctx = c) && !x.saved)

/-- The pass of a render context. -/
def RenderCtx.ref (c : RenderCtx) : PassRef := { die := c.die, ctx := c.ctx, queue := c.queue, pktix := c.pktix }

/-- The render context of an open pass, saved or not. -/
def State.findPass (s : State) (r : PassRef) : Option RenderCtx := s.gfx.find? (fun c => decide (c.ref = r))

/-- Change the resident render context of a die. -/
def State.updGfx (s : State) (d c : Nat) (f : RenderCtx → RenderCtx) : State :=
  { s with gfx := s.gfx.map (fun x => if x.die = d ∧ x.ctx = c ∧ x.saved = false then f x else x) }

/-- Change every render context of a queue's pass. -/
def State.updPass (s : State) (q : Nat) (f : RenderCtx → RenderCtx) : State :=
  { s with gfx := s.gfx.map (fun x => if x.queue = q then f x else x) }

def State.passOf (s : State) (q : Nat) : List RenderCtx := s.gfx.filter (fun c => decide (c.queue = q))

/-- Wrong pass state (R319). -/
def badPass : Bad := { cause := 4, boff := 0, d0 := 0, d1 := 0 }

/-! ## BEGINPASS (R320, R321, R332) -/

/-- An entry of the target table: base and format; absent where its base is 0. -/
def targetOk (i nrt base fmt rest : Nat) : Bool :=
  let l := fmt % 256
  let ty := fmt / 256
  decide (base % 128 = 0) && decide (rest = 0) &&
    (if i < nrt then
      decide (base = 0) || (((texBlock l).map (fun b => decide (b.2.1 = 1))).getD false && decide (l ≠ 0x0B)
        && (texTypes l).contains ty)
     else if i < 4 then decide (base = 0) && decide (fmt = 0)
     else if i = 4 then decide (base = 0) || decide (fmt = 0x0407)
     else decide (base = 0) || decide (fmt = 0x0201))

/-- The six entries of the target table. -/
def readTargets (s : State) (part : Nat) (satp va : Word) (nrt : Nat) :
    List Nat → Except Bad (List (Word × BitVec 16))
  | [] => .ok []
  | i :: t =>
      let a := va + BitVec.ofNat 64 (16 * i)
      match spaceRead s part satp a 16 with
      | .error c => .error (Bad.read 16 a c)
      | .ok x =>
          if targetOk i nrt (descField x 0 8) (descField x 8 2) (descField x 10 6) then
            match readTargets s part satp va nrt t with
            | .error b => .error b
            | .ok r => .ok ((BitVec.ofNat 64 (descField x 0 8), BitVec.ofNat 16 (descField x 8 2)) :: r)
          else .error (Bad.field 16)

/-- The bytes of the ownership table, each below k. -/
def readOwn (s : State) (part : Nat) (satp va : Word) (k : Nat) : List Nat → Except Bad (List Nat)
  | [] => .ok []
  | i :: t =>
      let a := va + BitVec.ofNat 64 i
      match spaceRead s part satp a 1 with
      | .error c => .error (Bad.read 24 a c)
      | .ok x =>
          if x < k then
            match readOwn s part satp va k t with
            | .error b => .error b
            | .ok r => .ok (x :: r)
          else .error (Bad.field 24)

def tilesOf (n : Nat) : Nat := (n + 63) / 64

/-- Fields of BEGINPASS (Table 15.2). -/
def beginFields (s : State) (q x : Nat) : List (Nat × Bool) :=
  let f := descField x
  let dies := rasterDies s (s.qPart q)
  [(8, decide (f 8 1 ≤ 15) && decide (dies ≠ [])
      && dies.all (fun d => s.sched.renders.contains (d * 16 + f 8 1, s.qPart q))),
   (9, decide (f 9 1 ≤ 3)), (10, decide (f 10 1 ≤ 4)),
   (11, decide (f 11 1 ≤ (if s.qRev q = 1 then 0 else 1))), (12, decide (1 ≤ f 12 2 ∧ f 12 2 ≤ 16384)),
   (14, decide (1 ≤ f 14 2 ∧ f 14 2 ≤ 16384)), (16, decide (f 16 8 % 64 = 0)),
   (24, decide (f 11 1 = 1) || decide (f 24 8 = 0)), (32, decide (f 32 8 % 2 ^ 21 = 0))] ++ zeros x 40 24

/-- The whole check of BEGINPASS: its targets and its ownership table. -/
def beginCheck (s : State) (q x : Nat) : Except Bad (List (Word × BitVec 16) × Option (List Nat)) :=
  if s.passOf q ≠ [] then .error badPass
  else
    match badField (beginFields s q x) with
    | some b => .error b
    | none =>
        match readTargets s (s.qPart q) (s.qSatp q) (BitVec.ofNat 64 (descField x 16 8)) (descField x 10 1)
            (List.range 6) with
        | .error b => .error b
        | .ok ts =>
            if descField x 11 1 = 0 then .ok (ts, none)
            else
              match readOwn s (s.qPart q) (s.qSatp q) (BitVec.ofNat 64 (descField x 24 8))
                  (rasterDies s (s.qPart q)).length
                  (List.range (tilesOf (descField x 12 2) * tilesOf (descField x 14 2))) with
              | .error b => .error b
              | .ok o => .ok (ts, some o)

/-- The render context that BEGINPASS opens on die slot `i`. -/
def newPass (s : State) (q x d i : Nat) (ts : List (Word × BitVec 16)) (own : Option (List Nat)) : RenderCtx :=
  { die := d, ctx := descField x 8 1, queue := q, part := s.qPart q, pktix := s.qRdix q,
    tag := pktTag x, dieSlot := i,
    k := (rasterDies s (s.qPart q)).length, satp := s.qSatp q, samples := 2 ^ descField x 9 1,
    nrt := descField x 10 1, width := descField x 12 2, height := descField x 14 2, targets := ts, own := own,
    work := BitVec.ofNat 64 (descField x 32 8), cur := none, draws := [], nextSeq := 0, ring := [], landing := [],
    landed := [], closures := [], quad := 0, frags := [], failed := false, saved := false }

/-- BEGINPASS waits while another pass holds its context on one of its dies. -/
def startBegin (s : State) (q x : Nat) : Start :=
  match beginCheck s q x with
  | .error b => .bad b
  | .ok (ts, own) =>
      let dies := rasterDies s (s.qPart q)
      if fenceOk s q x = false ∨ dies.any (fun d => (s.findGfx d (descField x 8 1)).isSome) = true then .wait
      else
        .go (advanceQ { s with gfx := s.gfx ++ dies.zipIdx.map (fun d => newPass s q x d.1 d.2 ts own) } q)

/-- BEGINPASS. -/
def execBeginpass (q : QNum) (s : State) : Host.Outcome State Fault Refusal :=
  event "BEGINPASS" (packetEvent 0x40 startBegin s q.toNat)

/-! ## STATE (R322, R336) -/

/-- A blend word of target `t` (R336). -/
def blendOk (c : RenderCtx) (t : Nat) (b : BitVec 32) : Bool :=
  let fmt := ((c.targets[t]?).map (fun e => e.2.toNat)).getD 0
  let int := decide (fmt / 256 = 2) || decide (fmt / 256 = 3)
  decide (fieldOf b 31 27 = 0) && decide (fieldOf b 4 1 ≤ 9) && decide (fieldOf b 8 5 ≤ 9)
    && decide (fieldOf b 11 9 ≤ 4) && decide (fieldOf b 15 12 ≤ 9) && decide (fieldOf b 19 16 ≤ 9)
    && decide (fieldOf b 22 20 ≤ 4) && (!b.getLsbD 0 || (decide (t < c.nrt) && !int))

/-- A target of the pass is there. -/
def RenderCtx.has (c : RenderCtx) (i : Nat) : Bool := ((c.targets[i]?).map (fun e => decide (e.1 ≠ 0))).getD false

/-- Fields of STATE (Table 15.3). -/
def stateFields (c : RenderCtx) (x : Nat) : List (Nat × Bool) :=
  let f := descField x
  let ds := f 12 1
  [(8, decide (f 8 1 ≤ 2)), (9, decide (f 9 1 ≤ 1)), (10, decide (f 10 1 ≤ 1)), (11, decide (f 11 1 ≤ 7)),
   (12, decide (ds ≤ 7) && (!(ds.testBit 0 || ds.testBit 1) || c.has 4) && (!ds.testBit 2 || c.has 5)),
   (13, decide (f 13 1 ≤ 7)), (17, decide (f 17 1 = 0)), (18, decide (f 18 2 < 512))]
    ++ (List.range 4).map (fun t => (20 + 4 * t, blendOk c t (BitVec.ofNat 32 (f (20 + 4 * t) 4))))
    ++ zeros x 36 4 ++ zeros x 56 8

def drawStateOf (x : Nat) (k : Kernel) : DrawState :=
  let f := descField x
  { cull := f 8 1, front := f 9 1, zmode := f 10 1, depthFn := f 11 1, dsflags := BitVec.ofNat 8 (f 12 1),
    sfunc := f 13 1, sref := BitVec.ofNat 8 (f 14 1), smask := BitVec.ofNat 8 (f 15 1),
    swmask := BitVec.ofNat 8 (f 16 1), sops := BitVec.ofNat 16 (f 18 2),
    blend := Vector.ofFn (fun (t : Fin 4) => BitVec.ofNat 32 (f (20 + 4 * t.val) 4)),
    fragkd := BitVec.ofNat 64 (f 40 8), frag := k, fragargs := BitVec.ofNat 64 (f 48 8) }

/-- STATE applies to the draws after it. -/
def startState (s : State) (q x : Nat) : Start :=
  match s.passOf q with
  | [] => .bad badPass
  | c :: _ =>
      match badField (stateFields c x) with
      | some b => .bad b
      | none =>
          match readKernel s (s.qPart q) (s.qSatp q) (BitVec.ofNat 64 (descField x 40 8)) 40 with
          | .error b => .bad b
          | .ok k =>
              if k.spad < 32 then .bad (Bad.field 40)
              else if fenceOk s q x = false then .wait
              else .go (advanceQ (s.updPass q (fun y => { y with cur := some (drawStateOf x k) })) q)

/-- STATE. -/
def execState (q : QNum) (s : State) : Host.Outcome State Fault Refusal :=
  event "STATE" (packetEvent 0x41 startState s q.toNat)

/-! ## Draws (R318, R323) -/

/-- Primitives or gangs, batch size, and the checks of a draw packet of one type. -/
def drawCounts (s : State) (q x : Nat) : Except Bad (Nat × Nat) :=
  let f := descField x
  let ty := f 0 1
  if ty = 0x42 then
    match badField ([(12, decide (1 ≤ f 12 2 ∧ f 12 2 ≤ 4096))] ++ zeros x 14 2 ++ zeros x 32 32) with
    | some b => .error b
    | none => .ok (f 8 4, f 12 2)
  else if ty = 0x43 then
    match badField ([(8, decide (f 8 4 ≤ 2 ^ 20))] ++ zeros x 12 4 ++ zeros x 32 32) with
    | some b => .error b
    | none => .ok (f 8 4, 4096)
  else
    match badField (zeros x 8 8 ++ [(32, decide (f 32 8 % 8 = 0))] ++ zeros x 40 24) with
    | some b => .error b
    | none =>
        let va := BitVec.ofNat 64 (f 32 8)
        match spaceRead s (s.qPart q) (s.qSatp q) va 8 with
        | .error c => .error (Bad.read 32 va c)
        | .ok r =>
            if 1 ≤ descField r 4 2 ∧ descField r 4 2 ≤ 4096 ∧ descField r 6 2 = 0 then
              .ok (descField r 0 4, descField r 4 2)
            else .error (Bad.field 32)

/-- A draw takes its sequence and captures the state in force; every raster die knows of it. -/
def startDraw (s : State) (q x : Nat) : Start :=
  match (s.passOf q).head?.bind (fun c => c.cur) with
  | none => .bad badPass
  | some st =>
      match drawCounts s q x with
      | .error b => .bad b
      | .ok (n, batch) =>
          match readKernel s (s.qPart q) (s.qSatp q) (BitVec.ofNat 64 (descField x 16 8)) 16 with
          | .error b => .bad b
          | .ok k =>
              if fenceOk s q x = false then .wait
              else
                .go (advanceQ (s.updPass q (fun c => { c with
                  nextSeq := c.nextSeq + 1,
                  draws := c.draws ++ [{
                    seq := c.nextSeq, mesh := decide (descField x 0 1 = 0x43), count := n, batch := batch,
                    kern := k, args := BitVec.ofNat 64 (descField x 24 8), st := st, launched := 0,
                    closed := [] }] })) q)

/-- DRAW. -/
def execDraw (q : QNum) (s : State) : Host.Outcome State Fault Refusal :=
  event "DRAW" (packetEvent 0x42 startDraw s q.toNat)

/-- DRAWMESH. -/
def execDrawmesh (q : QNum) (s : State) : Host.Outcome State Fault Refusal :=
  event "DRAWMESH" (packetEvent 0x43 startDraw s q.toNat)

/-- DRAWIND: the record is read once, as the draw begins. -/
def execDrawind (q : QNum) (s : State) : Host.Outcome State Fault Refusal :=
  event "DRAWIND" (packetEvent 0x44 startDraw s q.toNat)

/-! ## Tickets and batches (R318, R325 to R327) -/

/-- [63:32] draw sequence, [31:0] primitive index. -/
def ticketOf (n i : Nat) : Nat := n * 2 ^ 32 + i

/-- First index and count of batch `b` of a draw. -/
def Draw.range (d : Draw) (b : Nat) : Nat × Nat :=
  if d.mesh then (b * 4096, 4096) else (b * d.batch, min d.batch (d.count - b * d.batch))

/-- The draws whose gangs a die launches (R317). -/
def RenderCtx.owns (c : RenderCtx) (d : Draw) : Bool := decide (d.seq % c.k = c.dieSlot)

/-- Slots of the primitive ring that launched batches hold until they close (R326). -/
def RenderCtx.reserved (c : RenderCtx) : Nat :=
  (c.draws.filter c.owns).foldl (fun acc d =>
    ((List.range d.launched).filter (fun b => !d.closed.contains b)).foldl (fun a b => a + (d.range b).2) acc) 0

/-- Change one draw of a context. -/
def RenderCtx.updDraw (c : RenderCtx) (n : Nat) (f : Draw → Draw) : RenderCtx :=
  { c with draws := c.draws.map (fun d => if d.seq = n then f d else d) }

/-- The next batch in ticket order is launched once its ring slots fit. -/
def geometryLaunch (d ctx : Nat) (places : List Place) (s : State) : Option State :=
  match s.findGfx d ctx with
  | none => none
  | some c =>
      match c.draws.find? (fun x => c.owns x && decide (x.launched < x.batches)) with
      | none => none
      | some x =>
          let r := x.range x.launched
          if 16384 < c.reserved + r.2 ∨ places.any (fun p => decide (p.die.toNat ≠ d)) = true then none
          else
            (launchGang s
              { part := c.part, satp := c.satp, kernel := x.kern, a0 := x.args,
                a1 := BitVec.ofNat 64 (ticketOf x.seq r.1), a2 := BitVec.ofNat 64 r.2,
                kind := .geometry c.ref x.seq x.launched r.1 r.2, job := none, ix := 0, binds := [] } places).map
              (fun t => t.updGfx d ctx (fun y => y.updDraw x.seq (fun z => { z with launched := z.launched + 1 })))

/-- GEOMETRY_GANG_LAUNCH. -/
def execGeometryGangLaunch (die : DieNo) (ctx : BitVec 4) (places : List Place) (s : State) :
    Host.Outcome State Fault Refusal :=
  event "GEOMETRY_GANG_LAUNCH" (geometryLaunch die.toNat ctx.toNat places s)

/-- The gang of a batch has retired. -/
def batchRetired (s : State) (r : PassRef) (n b : Nat) : Bool :=
  s.gangs.any (fun g => !g.live && decide (g.retired.length = g.size) &&
    (match g.kind with
     | .geometry r' n' b' _ _ => decide (r' = r ∧ n' = n ∧ b' = b)
     | .compute => false
     | .fragment _ _ _ _ => false))

/-- A batch closes once its gang has retired and none of its primitives waits in the ring. -/
def batchCloseRun (d ctx n b : Nat) (s : State) : Option State :=
  match s.findGfx d ctx with
  | none => none
  | some c =>
      match c.draws.find? (fun x => decide (x.seq = n)) with
      | none => none
      | some x =>
          let r := x.range b
          let lo := ticketOf n r.1
          if !c.owns x || x.closed.contains b || decide (x.launched ≤ b) || !batchRetired s c.ref n b
              || c.ring.any (fun p => decide (lo ≤ p.ticket) && decide (p.ticket < lo + r.2)) then none
          else
            some ((s.updPass c.queue (fun y => { y with closures := y.closures ++ [(lo, lo + r.2)] })).updGfx d ctx
              (fun y => y.updDraw n (fun z => { z with closed := setAdd z.closed b })))

/-- BATCH_CLOSE. -/
def execBatchClose (die : DieNo) (ctx : BitVec 4) (draw batch : BitVec 32) (s : State) :
    Host.Outcome State Fault Refusal :=
  event "BATCH_CLOSE" (batchCloseRun die.toNat ctx.toNat draw.toNat batch.toNat s)

/-! ## Setup (R331, R332) -/

/-- A vertex in fixed point: X and Y of 256ths of a pixel. -/
def Prim.fx (p : Prim) (v c : Nat) : Int :=
  ((XQ.ofF32 ((p.xyz[3 * v + c]?.map (fun b => b.toNat)).getD 0)).val.mul ⟨256, 1⟩).rne

def Prim.x (p : Prim) (v : Nat) : Int := p.fx v 0
def Prim.y (p : Prim) (v : Nat) : Int := p.fx v 1
def Prim.z (p : Prim) (v : Nat) : Q := (XQ.ofF32 ((p.xyz[3 * v + 2]?.map (fun b => b.toNat)).getD 0)).val

/-- Eab at a point. -/
def Prim.edge (p : Prim) (a b : Nat) (px py : Int) : Int :=
  (p.x b - p.x a) * (py - p.y a) - (p.y b - p.y a) * (px - p.x a)

/-- A = E01(v2). -/
def Prim.area (p : Prim) : Int := p.edge 0 1 (p.x 2) (p.y 2)

def min3 (a b c : Int) : Int := min a (min b c)
def max3 (a b c : Int) : Int := max a (max b c)

/-- The snapped bounding box in pixels, clipped to the render area: first and last x, first and last y. -/
def Prim.box (p : Prim) (c : RenderCtx) : Option (Nat × Nat × Nat × Nat) :=
  let x0 := min3 (p.x 0) (p.x 1) (p.x 2) / 256
  let x1 := max3 (p.x 0) (p.x 1) (p.x 2) / 256
  let y0 := min3 (p.y 0) (p.y 1) (p.y 2) / 256
  let y1 := max3 (p.y 0) (p.y 1) (p.y 2) / 256
  if x1 < 0 ∨ y1 < 0 ∨ (c.width : Int) ≤ x0 ∨ (c.height : Int) ≤ y0 then none
  else some ((max 0 x0).toNat, min x1.toNat (c.width - 1), (max 0 y0).toNat, min y1.toNat (c.height - 1))

/-- The primitive is front-facing under FRONT. -/
def Prim.isFront (p : Prim) (st : DrawState) : Bool := if st.front = 0 then decide (0 < p.area) else decide (p.area < 0)

/-- The primitive is culled. -/
def Prim.culled (p : Prim) (c : RenderCtx) (st : DrawState) : Bool :=
  p.xyz.toList.any (fun b => !(XQ.ofF32 b.toNat).isFin)
    || (List.range 3).any (fun v => (List.range 2).any (fun k =>
        (Q.ofInt 32768).lt (XQ.ofF32 ((p.xyz[3 * v + k]?.map (fun b => b.toNat)).getD 0)).val.abs))
    || decide (p.area = 0) || (decide (st.cull = 1) && !p.isFront st) || (decide (st.cull = 2) && p.isFront st)
    || (p.box c).isNone

/-- Owning die slot of a tile. -/
def RenderCtx.owner (c : RenderCtx) (tx ty : Nat) : Nat :=
  match c.own with
  | none => (tx + 5 * ty + (tx ^^^ ty) / 8) % c.k
  | some l => (l[ty * tilesOf c.width + tx]?).getD 0

/-- Tiles that the primitive's box touches, row by row. -/
def Prim.tiles (p : Prim) (c : RenderCtx) : List (Nat × Nat) :=
  match p.box c with
  | none => []
  | some (x0, x1, y0, y1) =>
      (List.range' (y0 / 64) (y1 / 64 - y0 / 64 + 1)).flatMap (fun ty =>
        (List.range' (x0 / 64) (x1 / 64 - x0 / 64 + 1)).map (fun tx => (tx, ty)))

/-- Die slots to which a primitive is ferried. -/
def Prim.slots (p : Prim) (c : RenderCtx) : List Nat :=
  (p.tiles c).foldl (fun l t => setAdd l (c.owner t.1 t.2)) []

/-! ## Landing (R333) -/

/-- Every ticket below `t` of one draw has landed or belongs to a closed batch. -/
def drawClear (c : RenderCtx) (t : Nat) (d : Draw) : Bool :=
  (List.range d.batches).all (fun b =>
    let r := d.range b
    let lo := ticketOf d.seq r.1
    decide (t ≤ lo) || c.closures.contains (lo, lo + r.2)
      || (List.range (min r.2 (t - lo))).all (fun i => c.landed.contains (lo + i)))

/-- The landing buffer may release ticket `t`. -/
def RenderCtx.releases (c : RenderCtx) (t : Nat) : Bool := c.draws.all (fun d => drawClear c t d)

/-- Keep primitives in ticket order. -/
def primAdd : List Prim → Prim → List Prim
  | [], p => [p]
  | x :: t, p => if p.ticket < x.ticket then p :: x :: t else x :: primAdd t p

/-- The buffer accepts a primitive: more than one entry is free, or exactly one and nothing lower is lacking. -/
def RenderCtx.accepts (c : RenderCtx) (t : Nat) : Bool :=
  decide (c.landing.length + 1 < 4096) || (decide (c.landing.length + 1 = 4096) && c.releases t)

/-- Every die slot of `slots` holds the ticket. -/
def landedOn (s : State) (q t : Nat) (slots : List Nat) : Bool :=
  slots.all (fun i => (s.passOf q).any (fun y => decide (y.dieSlot = i) && y.landed.contains t))

/-- A primitive of the pass lands on a die that owns a tile of it; its ring slot is free once it has landed on
every such die. -/
def landRun (d ctx t : Nat) (s : State) : Option State :=
  match s.findGfx d ctx with
  | none => none
  | some c =>
      match (s.passOf c.queue).find? (fun y => y.ring.any (fun p => decide (p.ticket = t))) with
      | none => none
      | some src =>
          match src.ring.find? (fun p => decide (p.ticket = t)) with
          | none => none
          | some p =>
              let slots := p.slots c
              if src.saved || c.landed.contains t || !slots.contains c.dieSlot || !c.accepts t then none
              else
                let s1 := (s.cross src.die d).updGfx d ctx (fun y => { y with
                  landing := primAdd y.landing p, landed := y.landed ++ [t] })
                some (if landedOn s1 c.queue t slots then
                    s1.updGfx src.die ctx (fun y => { y with ring := y.ring.erase p })
                  else s1)

/-- PRIMITIVE_LAND. -/
def execPrimitiveLand (die : DieNo) (ctx : BitVec 4) (ticket : Word) (s : State) :
    Host.Outcome State Fault Refusal :=
  event "PRIMITIVE_LAND" (landRun die.toNat ctx.toNat ticket.toNat s)

/-! ## Coverage and depth (R334) -/

/-- Sample positions in sixteenths (Table 15.5). -/
def samplePos (n : Nat) : List (Nat × Nat) :=
  match n with
  | 1 => [(8, 8)]
  | 2 => [(4, 11), (12, 5)]
  | 4 => [(2, 6), (6, 13), (10, 2), (14, 9)]
  | _ => [(1, 10), (3, 3), (5, 13), (7, 6), (9, 1), (11, 11), (13, 8), (15, 4)]

/-- Inside an edge, or on a top or left one. -/
def Prim.inside (p : Prim) (px py : Int) (e : Nat × Nat) : Bool :=
  let v := p.edge e.1 e.2 px py
  decide (0 < v) || (decide (v = 0)
    && ((decide (p.y e.2 = p.y e.1) && decide (p.x e.1 < p.x e.2)) || decide (p.y e.2 < p.y e.1)))

/-- The sample at a fixed-point place is covered. -/
def Prim.covers (p : Prim) (px py : Int) : Bool :=
  (if 0 < p.area then [(0, 1), (1, 2), (2, 0)] else [(0, 2), (2, 1), (1, 0)]).all (p.inside px py)

/-- Fixed-point place of sample `i` of a pixel. -/
def sampleAt (n x y i : Nat) : Int × Int :=
  let o := ((samplePos n)[i]?).getD (8, 8)
  ((256 * x + 16 * o.1 : Nat), (256 * y + 16 * o.2 : Nat))

/-- Covered samples of a pixel of the render area. -/
def Prim.cover (p : Prim) (c : RenderCtx) (x y : Nat) : BitVec 8 :=
  if c.width ≤ x ∨ c.height ≤ y then 0
  else
    BitVec.ofNat 8 ((List.range c.samples).foldl (fun acc i =>
      let q := sampleAt c.samples x y i
      if p.covers q.1 q.2 then acc + 2 ^ i else acc) 0)

/-- b1 and b2 at a place, exact. -/
def Prim.bary (p : Prim) (px py : Int) : Q × Q :=
  ((Q.ofInt (p.edge 2 0 px py)).div (Q.ofInt p.area), (Q.ofInt (p.edge 0 1 px py)).div (Q.ofInt p.area))

/-- Interpolated depth as FP32. -/
def Prim.depth (p : Prim) (px py : Int) : BitVec 32 :=
  let b := p.bary px py
  BitVec.ofNat 32 (((p.z 0).add ((b.1.mul ((p.z 1).sub (p.z 0))).add (b.2.mul ((p.z 2).sub (p.z 0))))).toF32 .rne)

/-- A compare function on two numbers: less, equal. -/
def compareFn (fn : Nat) (lt eq : Bool) (ordered : Bool) : Bool :=
  match fn with
  | 0 => false
  | 1 => lt
  | 2 => eq
  | 3 => lt || eq
  | 4 => ordered && !lt && !eq
  | 5 => !eq
  | 6 => ordered && !lt
  | _ => true

/-- DEPTHFN of a new depth against the stored one. -/
def depthPass (fn : Nat) (z old : BitVec 32) : Bool :=
  let a := XQ.ofF32 z.toNat
  let b := XQ.ofF32 old.toNat
  compareFn fn (a.le b && !b.le a) (a.le b && b.le a) (!a.isNan && !b.isNan)

/-- SFUNC of the masked reference against the masked stored value. -/
def stencilPass (st : DrawState) (old : BitVec 8) : Bool :=
  let a := (st.sref &&& st.smask).toNat
  let b := (old &&& st.smask).toNat
  compareFn st.sfunc (decide (a < b)) (decide (a = b)) true

/-- A stencil operation (Table 15.3). -/
def stencilOp (op : Nat) (ref old : BitVec 8) : BitVec 8 :=
  match op with
  | 0 => old
  | 1 => 0
  | 2 => ref
  | 3 => if old = 0xFF then old else old + 1
  | 4 => if old = 0 then old else old - 1
  | 5 => ~~~old
  | 6 => old + 1
  | _ => old - 1

/-! ## Target accesses (R321, R337, R466) -/

/-- Address of sample `i` of a pixel in target `t`. -/
def RenderCtx.sampleAddr (c : RenderCtx) (t x y i : Nat) : Word :=
  let e := (c.targets[t]?).getD (0, 0)
  let d : TexDesc := { base := e.1, layout := e.2.toNat % 256, ty := e.2.toNat / 256, dim := 5, levels := 1,
                       width := c.width, height := c.height, depth := c.samples }
  d.addr 0 x y i

/-- Element bytes of target `t`. -/
def RenderCtx.sampleBytes (c : RenderCtx) (t : Nat) : Nat :=
  ((texBlock (((c.targets[t]?).map (fun e => e.2.toNat % 256)).getD 0)).map (fun b => b.1)).getD 1

/-- A sample access of an agent: its physical address, or the failing address and cause. -/
def targetAccess (s : State) (c : RenderCtx) (k : AKind) (t x y i : Nat) : Except (Word × BitVec 8) Nat :=
  let va := c.sampleAddr t x y i
  match spaceAccess s c.part c.satp k va with
  | .error e => .error (va, e)
  | .ok pa => .ok pa

/-- Every access of a list passes, or the first failure. -/
def firstBadAccess (s : State) (c : RenderCtx) (x y i : Nat) : List (AKind × Nat) → Option (Word × BitVec 8)
  | [] => none
  | (k, t) :: r =>
      match targetAccess s c k t x y i with
      | .error e => some e
      | .ok _ => firstBadAccess s c x y i r

/-- A failed access: the first of the pass on this die is reported (R466). -/
def targetFail (s : State) (c : RenderCtx) (e : Word × BitVec 8) : State :=
  match s.findGfx c.die c.ctx with
  | none => s
  | some y =>
      if y.failed then s
      else
        (s.postReport { cause := 11, queue := c.queue, part := c.part, tag := c.tag, pktix := c.pktix, boff := 0,
                        lcnt := s.lcntOf c.die, d0 := e.1, d1 := zext64 e.2 }).updGfx c.die c.ctx
          (fun z => { z with failed := true })

/-- Read a sample. -/
def readSample (s : State) (c : RenderCtx) (t x y i : Nat) : Nat :=
  match targetAccess s c .load t x y i with
  | .ok pa => agentRead s pa (c.sampleBytes t)
  | .error _ => 0

/-- Write a sample, poisoned where the fragment's values are. -/
def writeSample (s : State) (c : RenderCtx) (t x y i v : Nat) (p : Bool) : State :=
  match targetAccess s c .store t x y i with
  | .error _ => s
  | .ok pa =>
      let n := c.sampleBytes t
      let s1 := s.writePa pa n v
      if p then s1.setMem { s1.mem with pois := (granules pa n).foldl setAdd s1.mem.pois } else s1

/-- Depth and stencil accesses of a draw state. -/
def dsAccesses (st : DrawState) : List (AKind × Nat) :=
  (if st.dsflags.getLsbD 0 then [(.load, 4)] else [])
    ++ (if st.dsflags.getLsbD 0 && st.dsflags.getLsbD 1 then [(.store, 4)] else [])
    ++ (if st.dsflags.getLsbD 2 then [(.load, 5), (.store, 5)] else [])

/-- Stencil and depth tests of one sample with their updates: whether it passes. -/
def dsTest (s : State) (c : RenderCtx) (st : DrawState) (x y i : Nat) (z : BitVec 32) (p : Bool) : State × Bool :=
  let old8 := BitVec.ofNat 8 (readSample s c 5 x y i)
  let sOn := st.dsflags.getLsbD 2
  let dOn := st.dsflags.getLsbD 0
  let sOk := !sOn || stencilPass st old8
  let dOk := !dOn || depthPass st.depthFn z (BitVec.ofNat 32 (readSample s c 4 x y i))
  let op := if !sOk then fieldOf st.sops 2 0 else if !dOk then fieldOf st.sops 5 3 else fieldOf st.sops 8 6
  let new := (old8 &&& ~~~st.swmask) ||| (stencilOp op st.sref old8 &&& st.swmask)
  let s1 := if sOn then writeSample s c 5 x y i new.toNat p else s
  let ok := sOk && dOk
  let s2 := if ok && dOn && st.dsflags.getLsbD 1 then writeSample s1 c 4 x y i z.toNat p else s1
  (s2, ok)

/-- Tests of the samples of a pixel: the state and the samples that pass. -/
def dsSamples (c : RenderCtx) (st : DrawState) (x y : Nat) (z : Nat → BitVec 32) (extra : List (AKind × Nat))
    (run p : Bool) : List Nat → State × List Nat → State × List Nat
  | [], r => r
  | i :: t, r =>
      match firstBadAccess r.1 c x y i ((if run then dsAccesses st else []) ++ extra) with
      | some e => dsSamples c st x y z extra run p t (targetFail r.1 c e, r.2)
      | none =>
          if !run then dsSamples c st x y z extra run p t (r.1, r.2 ++ [i])
          else
            let u := dsTest r.1 c st x y i (z i) p
            dsSamples c st x y z extra run p t (u.1, if u.2 then r.2 ++ [i] else r.2)

/-! ## Emission (R335, R338) -/

/-- Quads of a primitive on a die: tile by tile, row by row. -/
def Prim.quads (p : Prim) (c : RenderCtx) : List (Nat × Nat) :=
  match p.box c with
  | none => []
  | some (x0, x1, y0, y1) =>
      ((p.tiles c).filter (fun t => decide (c.owner t.1 t.2 = c.dieSlot))).flatMap (fun t =>
        let ax := max (x0 / 2) (t.1 * 32)
        let bx := min (x1 / 2) (t.1 * 32 + 31)
        let ay := max (y0 / 2) (t.2 * 32)
        let by_ := min (y1 / 2) (t.2 * 32 + 31)
        (List.range' ay (by_ + 1 - ay)).flatMap (fun y => (List.range' ax (bx + 1 - ax)).map (fun x => (x, y))))

/-- The four pixels of a quad, in its positions. -/
def quadPixels (q : Nat × Nat) : List (Nat × Nat) :=
  [(2 * q.1, 2 * q.2), (2 * q.1 + 1, 2 * q.2), (2 * q.1, 2 * q.2 + 1), (2 * q.1 + 1, 2 * q.2 + 1)]

/-- The first quad from position `n` that the primitive covers at all, with its position. -/
def nextQuad (p : Prim) (c : RenderCtx) : List (Nat × Nat) → Nat → Option ((Nat × Nat) × Nat)
  | [], _ => none
  | q :: t, n =>
      if (quadPixels q).any (fun x => decide (p.cover c x.1 x.2 ≠ 0)) then some (q, n) else nextQuad p c t (n + 1)

/-- The oldest released primitive. -/
def RenderCtx.head (c : RenderCtx) : Option Prim :=
  match c.landing with
  | [] => none
  | p :: _ => if c.releases p.ticket then some p else none

/-- The draw of a ticket. -/
def RenderCtx.drawOf (c : RenderCtx) (t : Nat) : Option Draw := c.draws.find? (fun d => decide (d.seq = t / 2 ^ 32))

/-- An earlier fragment whose late operations on one of the samples are still to come: early tests wait for it,
since every sample's operations are applied in ticket order. -/
def lateWaits (c : RenderCtx) (x y : Nat) (cov : BitVec 8) : Bool :=
  c.frags.any (fun f => decide (f.x = x ∧ f.y = y) && decide (f.cover &&& cov ≠ 0)
    && ((c.drawOf f.ticket).map (fun d => decide (d.st.zmode = 1))).getD false)

/-- Early tests of the four pixels: the state and the samples left of each. -/
def quadTests (c : RenderCtx) (st : DrawState) (p : Prim) : List (Nat × Nat) → State → State × List (BitVec 8)
  | [], s => (s, [])
  | (x, y) :: t, s =>
      let cov := p.cover c x y
      let is_ := (List.range c.samples).filter (fun i => cov.getLsbD i)
      let r := dsSamples c st x y (fun i => let q := sampleAt c.samples x y i; p.depth q.1 q.2) []
        (decide (st.zmode = 0)) false is_ (s, [])
      let u := quadTests c st p t r.1
      (u.1, BitVec.ofNat 8 (r.2.foldl (fun a i => a + 2 ^ i) 0) :: u.2)

/-- The 32 bytes of a fragment record (Table 15.6). -/
def fragRecord (p : Prim) (st : DrawState) (x y : Nat) (cov : BitVec 8) : Nat :=
  let cx : Int := 256 * x + 128
  let cy : Int := 256 * y + 128
  let b := p.bary cx cy
  x + y * 2 ^ 16 + cov.toNat * 2 ^ 32
    + ((if p.isFront st then 1 else 0) + (if cov = 0 then 2 else 0)) * 2 ^ 40
    + b.1.toF32 .rne * 2 ^ 64 + b.2.toF32 .rne * 2 ^ 96 + (p.depth cx cy).toNat * 2 ^ 128 + p.ticket * 2 ^ 192

/-- Byte offset in the grant of record `i` of a fragment ring: the top 32 KiB. -/
def recordOff (h : Hart) (i : Nat) : Nat := h.id.spadKib * 1024 - 32768 + 32 * i

/-- The first four free records of a member. -/
def freeRecords (c : RenderCtx) (h : Hart) : List Nat :=
  let live := (c.frags.filter (fun f => decide (f.tag = h.id.tag))).map (fun f => f.off)
  (((List.range 1024).map (recordOff h)).filter (fun o => !live.contains o)).take 4

/-- A member of a fragment gang that serves a tile and the pair of a draw state, with a stream that has not
ended. -/
def memberServes (s : State) (c : RenderCtx) (st : DrawState) (tx ty : Nat) (h : Hart) : Bool :=
  decide (h.run ≠ .retired) && h.id.spadCore.isSome && ((h.frag.map (fun f => !f.ended)).getD false) &&
    (match ((h.id.gang.bind s.findGang).map (fun (g : Gang) => g.kind) : Option GangKind) with
     | some (.fragment r n tx' ty') =>
         decide (r = c.ref ∧ tx' = tx ∧ ty' = ty) &&
           ((c.draws.find? (fun x => decide (x.seq = n))).map (fun x =>
             decide (x.st.fragkd = st.fragkd ∧ x.st.fragargs = st.fragargs))).getD false
     | _ => false)

/-- Give the fragments of a quad to a member: its records, its stream, and the order buffer. -/
def giveQuad (s : State) (c : RenderCtx) (st : DrawState) (p : Prim) (h : Hart) :
    List (((Nat × Nat) × BitVec 8) × Nat) → State
  | [] => s
  | ((px, cov), off) :: t =>
      let a := (h.id.spadCore.getD 0) * 2 ^ 19 + h.id.spadOff + off
      let s1 := writeLoc s h.id.coreNo (.spad a) 32 (fragRecord p st px.1 px.2 cov) false
      let f : Frag := { ticket := p.ticket, x := px.1, y := px.2, cover := cov, helper := decide (cov = 0),
                        tag := h.id.tag, off := off, prim := p, result := .pending }
      let s2 := s1.updGfx c.die c.ctx (fun y => { y with frags := y.frags ++ [f] })
      giveQuad (s2.mapHarts (fun k => k.same h) (fun k => { k with
        frag := k.frag.map (fun z => { z with queue := z.queue ++ [off], got := z.got + 1 }) })) c st p h t

/-- The oldest released primitive is done on this die. -/
def finishPrim (s : State) (c : RenderCtx) : State :=
  s.updGfx c.die c.ctx (fun y => { y with landing := y.landing.tail, quad := 0 })

/-- One quad of the oldest released primitive: early tests, then its fragments where any coverage is left. -/
def emitQuad (s : State) (c : RenderCtx) (p : Prim) (d : Draw) (q : Nat × Nat) (n : Nat) (member : ContId) :
    Option State :=
  let pxs := quadPixels q
  if decide (d.st.zmode = 0) && pxs.any (fun x => lateWaits c x.1 x.2 (p.cover c x.1 x.2)) then none
  else
    let r := quadTests c d.st p pxs s
    let s1 := r.1.updGfx c.die c.ctx (fun y => { y with quad := n + 1 })
    if r.2.all (fun v => decide (v = 0)) then some s1
    else
      match s.findCont member with
      | none => none
      | some h =>
          let offs := freeRecords c h
          if memberServes s c d.st (q.1 / 32) (q.2 / 32) h && decide (offs.length = 4) then
            some (giveQuad s1 c d.st p h ((pxs.zip r.2).zip offs))
          else none

def emitRun (d ctx : Nat) (member : ContId) (s : State) : Option State :=
  match s.findGfx d ctx with
  | none => none
  | some c =>
      match c.head with
      | none => none
      | some p =>
          match c.drawOf p.ticket with
          | none => none
          | some dr =>
              match nextQuad p c ((p.quads c).drop c.quad) c.quad with
              | none => some (finishPrim s c)
              | some (q, n) => emitQuad s c p dr q n member

/-- FRAGMENT_EMIT. -/
def execFragmentEmit (die : DieNo) (ctx : BitVec 4) (member : ContId) (s : State) :
    Host.Outcome State Fault Refusal :=
  event "FRAGMENT_EMIT" (emitRun die.toNat ctx.toNat member s)

/-- A fragment gang for a tile and a draw's pair (R338). -/
def fragmentLaunch (d ctx n tx ty : Nat) (places : List Place) (s : State) : Option State :=
  match s.findGfx d ctx with
  | none => none
  | some c =>
      match c.draws.find? (fun x => decide (x.seq = n)) with
      | none => none
      | some x =>
          if decide (tilesOf c.width ≤ tx) || decide (tilesOf c.height ≤ ty)
              || decide (c.owner tx ty ≠ c.dieSlot) || places.any (fun p => decide (p.die.toNat ≠ d)) then none
          else
            launchGang s
              { part := c.part, satp := c.satp, kernel := x.st.frag, a0 := x.st.fragargs,
                a1 := BitVec.ofNat 64 (tx + ty * 2 ^ 16), a2 := BitVec.ofNat 64 c.samples,
                kind := .fragment c.ref n tx ty, job := none, ix := 0, binds := [] } places

/-- FRAGMENT_GANG_LAUNCH. -/
def execFragmentGangLaunch (die : DieNo) (ctx : BitVec 4) (draw : BitVec 32) (tx ty : BitVec 16)
    (places : List Place) (s : State) : Host.Outcome State Fault Refusal :=
  event "FRAGMENT_GANG_LAUNCH"
    (fragmentLaunch die.toNat ctx.toNat draw.toNat tx.toNat ty.toNat places s)

/-- End the streams of a gang. -/
def endStreams (s : State) (g : Nat) : State :=
  s.mapHarts (fun h => decide (h.id.gang = some g)) (fun h => { h with
    frag := h.frag.map (fun f => { f with ended := true }) })

/-- The rasteriser ends a gang's streams at some moment after its first quad. -/
def streamEndRun (member : ContId) (s : State) : Option State :=
  match (s.findCont member).bind (fun h => h.id.gang) with
  | none => none
  | some g =>
      if s.harts.any (fun h => decide (h.id.gang = some g)
          && ((h.frag.map (fun f => decide (0 < f.got) && !f.ended)).getD false)) then
        some (endStreams s g)
      else none

/-- FRAGMENT_STREAM_END. -/
def execFragmentStreamEnd (member : ContId) (s : State) : Host.Outcome State Fault Refusal :=
  event "FRAGMENT_STREAM_END" (streamEndRun member s)

/-! ## Blending (R335, R336) -/

/-- The sRGB encoding of x lies at or above v; `strict`: above it. -/
def srgbAbove (x v : Q) (strict : Bool) : Bool :=
  let cmp := fun (a b : Q) => if strict then b.lt a else b.le a
  if x.le ⟨31308, 10000000⟩ then cmp (x.mul ⟨1292, 100⟩) v
  else
    let r := (v.add ⟨55, 1000⟩).div ⟨1055, 1000⟩
    let r2 := r.mul r
    let r4 := r2.mul r2
    let r12 := (r4.mul r4).mul r4
    let x2 := x.mul x
    cmp ((x2.mul x2).mul x) r12

/-- round_rne(255 × the sRGB encoding of x), for x in [0, 1]. -/
def srgbCode (x : Q) : Nat :=
  ((List.range 255).filter (fun k => srgbAbove x ⟨((2 * k + 1 : Nat) : Int), 510⟩ (decide (k % 2 = 0)))).length

/-- x clamped to [lo, 1]; a NaN becomes 0. -/
def clampUnit (lo : Int) (x : XQ) : Q :=
  match x with
  | .nan => Q.zero
  | .ninf => Q.ofInt lo
  | .pinf => Q.one
  | .fin q => Q.max (Q.ofInt lo) (Q.min q Q.one)

/-- A float stored in `n` bits: 11 and 10 have no sign. -/
def storeFloat (n : Nat) (x : XQ) : Nat :=
  if n = 16 ∨ n = 32 then
    let f := if n = 16 then fp16 else fp32
    match x with
    | .nan => f.nan
    | .pinf => f.infCode
    | .ninf => f.signed true f.infCode
    | .fin q =>
        if q.num = 0 then 0
        else
          let d := divSticky q.num.natAbs q.den 26
          (roundWith f 0 .rne false false (decide (q.num < 0)) d.1 d.2).bits
  else
    let m := n - 5
    let f : FFmt := ⟨5, m, .ieee⟩
    match x with
    | .nan => f.infCode + 2 ^ (m - 1)
    | .pinf => f.infCode
    | .ninf => 0
    | .fin q =>
        if q.num ≤ 0 then 0
        else
          let d := divSticky q.num.natAbs q.den 26
          (roundWith f 0 .rne false false false d.1 d.2).bits

/-- A channel of `n` bits stored from an exact value (R336). -/
def storeChan (ty n : Nat) (alpha : Bool) (x : XQ) : Nat :=
  if ty = 0 ∨ (ty = 5 ∧ alpha) then ((clampUnit 0 x).mul ⟨2 ^ n - 1, 1⟩).rne.toNat
  else if ty = 1 then intBits n ((clampUnit (-1) x).mul ⟨2 ^ (n - 1) - 1, 1⟩).rne
  else if ty = 5 then srgbCode (clampUnit 0 x)
  else storeFloat n x

/-- A channel stored unblended from the export's bits: a float keeps the sign of a zero; an integer is clamped. -/
def storeBits (ty n : Nat) (alpha : Bool) (b : BitVec 32) : Nat :=
  if ty = 2 then min b.toNat (2 ^ n - 1)
  else if ty = 3 then intBits n (max (-(2 ^ (n - 1) : Int)) (min (2 ^ (n - 1) - 1) b.toInt))
  else if ty = 4 ∧ n = 16 ∧ b = 0x80000000 then 0x8000
  else if ty = 4 ∧ n = 32 ∧ b = 0x80000000 then 0x80000000
  else storeChan ty n alpha (XQ.ofF32 b.toNat)

/-- A blend factor for channel `c`. -/
def blendFactor (code c : Nat) (s d : Nat → XQ) : XQ :=
  let one : XQ := .fin Q.one
  match code with
  | 0 => .fin Q.zero
  | 1 => one
  | 2 => s c
  | 3 => one.sub (s c)
  | 4 => s 3
  | 5 => one.sub (s 3)
  | 6 => d c
  | 7 => one.sub (d c)
  | 8 => d 3
  | _ => one.sub (d 3)

/-- A blend operation; min and max ignore the factors. -/
def blendOp (op : Nat) (s d fs fd : XQ) : XQ :=
  match op with
  | 0 => (s.mul fs).add (d.mul fd)
  | 1 => (s.mul fs).sub (d.mul fd)
  | 2 => (d.mul fd).sub (s.mul fs)
  | 3 => if s.isNan || d.isNan then .nan else if s.le d then s else d
  | _ => if s.isNan || d.isNan then .nan else if s.le d then d else s

/-- The element that a fragment stores over `old` in a target. -/
def blendElem (l ty : Nat) (b : BitVec 32) (src : Nat → BitVec 32) (old : Nat) : Nat :=
  let dv := texelVals l ty old 0 0
  let d := fun c => ((dv[c]?).map (fun t => t.val)).getD (.fin Q.zero)
  let s := fun c => XQ.ofF32 (src c).toNat
  ((texChans l).zipIdx.foldl (fun (acc : BitVec 128) p =>
    let c := p.2
    let n := p.1.2
    let a := decide (c = 3)
    if !b.getLsbD (23 + c) then acc
    else
      let v :=
        if b.getLsbD 0 then
          storeChan ty n a (blendOp (if a then fieldOf b 22 20 else fieldOf b 11 9) (s c) (d c)
            (blendFactor (if a then fieldOf b 15 12 else fieldOf b 4 1) c s d)
            (blendFactor (if a then fieldOf b 19 16 else fieldOf b 8 5) c s d))
        else storeBits ty n a (src c)
      setField acc (p.1.1 + n - 1) p.1.1 v) (BitVec.ofNat 128 old)).toNat

/-- Colour targets that a fragment of `n` exported targets writes. -/
def colorTargets (c : RenderCtx) (st : DrawState) (n : Nat) : List Nat :=
  (List.range (min n c.nrt)).filter (fun t =>
    c.has t && decide (fieldOf ((st.blend[t]?).getD 0) 26 23 ≠ 0))

/-- Accesses of a colour target: the destination value is read where blending is enabled. -/
def colorAccess (st : DrawState) (t : Nat) : List (AKind × Nat) :=
  (if ((st.blend[t]?).getD 0).getLsbD 0 then [(.load, t)] else []) ++ [(.store, t)]

/-- One sample's colour operations. -/
def blendSample (c : RenderCtx) (st : DrawState) (colors : List (BitVec 32)) (x y i : Nat) (p : Bool) :
    List Nat → State → State
  | [], s => s
  | t :: r, s =>
      let fmt := ((c.targets[t]?).map (fun e => e.2.toNat)).getD 0
      let v := blendElem (fmt % 256) (fmt / 256) ((st.blend[t]?).getD 0)
        (fun k => (colors[4 * t + k]?).getD 0) (readSample s c t x y i)
      blendSample c st colors x y i p r (writeSample s c t x y i v p)

/-- The fragments of a tile's order buffer, in emission order. -/
def tileFrags (c : RenderCtx) (tx ty : Nat) : List Frag :=
  c.frags.filter (fun f => decide (f.x / 64 = tx ∧ f.y / 64 = ty))

/-- The fragment's operations: late tests under ZMODE 1, then its colours, sample by sample. -/
def applyFrag (s : State) (c : RenderCtx) (f : Frag) (st : DrawState) (colors : List (BitVec 32))
    (z : Option (BitVec 32)) (p : Bool) : State :=
  let ts := colorTargets c st (colors.length / 4)
  let is_ := (List.range c.samples).filter (fun i => f.cover.getLsbD i)
  let depth := fun i => z.getD (let q := sampleAt c.samples f.x f.y i; f.prim.depth q.1 q.2)
  let r := dsSamples c st f.x f.y depth (ts.flatMap (colorAccess st))
    (decide (st.zmode = 1)) p is_ (s, [])
  r.2.foldl (fun t i => blendSample c st colors f.x f.y i p ts t) r.1

/-- The `i`-th fragment of a tile is applied once every earlier one on its samples is done with. -/
def blendRun (d ctx tx ty i : Nat) (s : State) : Option State :=
  match s.findGfx d ctx with
  | none => none
  | some c =>
      match (tileFrags c tx ty)[i]? with
      | none => none
      | some f =>
          match f.result, c.drawOf f.ticket with
          | .exported colors z p, some dr =>
              if ((tileFrags c tx ty).take i).any (fun g => decide (g.x = f.x ∧ g.y = f.y)
                  && decide (g.cover &&& f.cover ≠ 0)) then none
              else
                some ((applyFrag s c f dr.st colors z p).updGfx d ctx
                  (fun y => { y with frags := y.frags.erase f }))
          | _, _ => none

/-- BLEND_APPLY. -/
def execBlendApply (die : DieNo) (ctx : BitVec 4) (tx ty : BitVec 16) (i : BitVec 16) (s : State) :
    Host.Outcome State Fault Refusal :=
  event "BLEND_APPLY" (blendRun die.toNat ctx.toNat tx.toNat ty.toNat i.toNat s)

/-! ## ENDPASS (R324) -/

/-- Everything of the pass is done on one die. -/
def passDone (c : RenderCtx) : Bool :=
  (c.draws.filter c.owns).all Draw.isClosed && decide (c.landing = []) && decide (c.frags = [])

/-- The gangs of fragments of a pass. -/
def passGangs (s : State) (q : Nat) : List Nat :=
  (s.gangs.filter (fun g => g.kind.isFrag && gangOfQueue s q g)).map (fun g => g.gid)

/-- ENDPASS completes once the pass is done; its streams have all ended, and VALUE goes to SIGNAL. -/
def startEnd (s : State) (q x : Nat) : Start :=
  match s.passOf q with
  | [] => .bad badPass
  | cs =>
      match badField ([(8, decide (descField x 8 8 % 8 = 0))] ++ zeros x 24 40) with
      | some b => .bad b
      | none =>
          if fenceOk s q x && cs.all passDone then
            let s1 := (passGangs s q).foldl endStreams s
            let s2 := signalStore s1 (s.qPart q) (s.qSatp q) q (s.qRdix q) (pktTag x) (BitVec.ofNat 64 (descField x 8 8))
              (BitVec.ofNat 64 (descField x 16 8))
            .go (advanceQ { s2 with gfx := s2.gfx.filter (fun c => decide (c.queue ≠ q)) } q)
          else .wait

/-- ENDPASS. -/
def execEndpass (q : QNum) (s : State) : Host.Outcome State Fault Refusal :=
  event "ENDPASS" (packetEvent 0x45 startEnd s q.toNat)

/-! ## Saving a render context (R339) -/

/-- Another pass needs the context number on the die: a BEGINPASS that waits, or a saved pass. -/
def ctxWanted (s : State) (d ctx : Nat) (c : RenderCtx) : Bool :=
  s.gfx.any (fun y => decide (y.die = d ∧ y.ctx = ctx) && y.saved && decide (y.queue ≠ c.queue)) ||
    (List.range 4096).any (fun q => decide (s.qType q = 1) && queueRunning s q && decide (s.passOf q = [])
      && (rasterDies s (s.qPart q)).contains d &&
      (match curPacket s q with
       | .ok x => decide (descField x 0 1 = 0x40) && decide (descField x 8 1 = ctx)
       | .error _ => false))

/-- RENDER_CONTEXT_SAVE. -/
def execRenderContextSave (die : DieNo) (ctx : BitVec 4) (s : State) : Host.Outcome State Fault Refusal :=
  event "RENDER_CONTEXT_SAVE"
    (match s.findGfx die.toNat ctx.toNat with
     | none => none
     | some c =>
         if ctxWanted s die.toNat ctx.toNat c then
           some (s.updGfx die.toNat ctx.toNat (fun y => { y with saved := true }))
         else none)

/-- Restore the first saved context of a list. -/
def restoreFirst (d ctx : Nat) : List RenderCtx → List RenderCtx
  | [] => []
  | c :: t => if c.die = d ∧ c.ctx = ctx ∧ c.saved = true then { c with saved := false } :: t
              else c :: restoreFirst d ctx t

/-- RENDER_CONTEXT_RESTORE. -/
def execRenderContextRestore (die : DieNo) (ctx : BitVec 4) (s : State) : Host.Outcome State Fault Refusal :=
  event "RENDER_CONTEXT_RESTORE"
    (if (s.findGfx die.toNat ctx.toNat).isSome
        || !s.gfx.any (fun c => decide (c.die = die.toNat ∧ c.ctx = ctx.toNat) && c.saved) then none
     else some { s with gfx := restoreFirst die.toNat ctx.toNat s.gfx })

/-! ## VEXPORT (R328 to R330) -/

/-- The export kind of a word. -/
def exportKind (o : VOp) : Nat := fieldOf o.imm16 1 0
def exportN (o : VOp) : Nat := fieldOf o.imm16 3 2 + 1

/-- Registers of A. -/
def exportRegs (o : VOp) : Nat := if exportKind o = 0 then 9 else 4 * exportN o

def vreg32 (o : Opnd) (i : Nat) : OLoc := { file := .v, ix := o.ix.toNat + i, w := 32 }

/-- The gang of the hart has the kind that the word needs. -/
def exportGangOk (s : State) (o : VOp) : Bool :=
  match (s.myGang.map (fun (g : Gang) => g.kind) : Option GangKind) with
  | some (.geometry _ _ _ _ _) => decide (exportKind o = 0)
  | some (.fragment _ _ _ _) => decide (exportKind o ≠ 0)
  | _ => false

/-- Pass, draw and indices of the hart's gang, and the indices that it has exported. -/
structure ExportGang where
  pass : PassRef
  draw : Nat
  first : Nat
  count : Nat
  done : List Nat
  deriving DecidableEq, Repr

def exportGang (s : State) : Option ExportGang :=
  s.myGang.bind (fun g =>
    match g.kind with
    | .geometry r n _ f k => some { pass := r, draw := n, first := f, count := k, done := g.exported }
    | .fragment r n _ _ => some { pass := r, draw := n, first := 0, count := 0, done := [] }
    | .compute => none)

/-- Offsets of the hart's live records; none once the pass has closed. -/
def liveRecords (s : State) (r : PassRef) : List Nat :=
  ((((s.findPass r).map (fun c => c.frags)).getD []).filter (fun f => decide (f.tag = s.h.id.tag) && decide (f.result = .pending))).map (fun f => f.off)

/-- raster export fault. -/
def exportFault (v : Nat) : Stop := Stop.of 36 (BitVec.ofNat 64 v)

/-- The checks of a slice's active elements, in order; `seen` holds the values of lower ones. -/
def exportChecks (s : State) (v : VEnv) (o : VOp) (ok : Nat → Bool) : List Nat → List Nat → Option (Nat × Stop)
  | [], _ => none
  | e :: t, seen =>
      let x := (vreg32 o.c 0).get s.h v e
      if !maskBit s.h v o.msk 0 e then exportChecks s v o ok t seen
      else if (vreg32 o.c 0).pois s.h v e
          || (decide (exportKind o = 0) && (List.range 9).any (fun i => (vreg32 o.a i).pois s.h v e)) then
        some (e, Stop.of 24 (Config.free v.tick (2 ^ 29 + e) 64))
      else if exportKind o ≠ 0 ∧ x = 0xFFFFFFFF then exportChecks s v o ok t seen
      else if !ok x || seen.contains x then some (e, exportFault x)
      else exportChecks s v o ok t (x :: seen)

/-- One primitive exported: kept in the ring unless setup culls it (R331). -/
def exportPrim (s : State) (v : VEnv) (o : VOp) (g : ExportGang) (e : Nat) : State :=
  let x := (vreg32 o.c 0).get s.h v e
  let p : Prim := { ticket := ticketOf g.draw x,
                    xyz := Vector.ofFn (fun (i : Fin 9) => BitVec.ofNat 32 ((vreg32 o.a i.val).get s.h v e)) }
  let s1 := s.updGang (s.h.id.gang.getD 0) (fun y => { y with exported := setAdd y.exported x })
  match s1.findPass g.pass with
  | none => s1
  | some c =>
      match c.drawOf p.ticket with
      | none => s1
      | some d =>
          if p.culled c d.st then s1 else s1.updGfx g.pass.die g.pass.ctx (fun y => { y with ring := y.ring ++ [p] })

/-- One fragment exported or discarded. -/
def exportFrag (s : State) (v : VEnv) (o : VOp) (g : ExportGang) (act : Bool) (pois : Bool) (e : Nat) : State :=
  let x := (vreg32 o.c 0).get s.h v e
  let mine := fun (f : Frag) => decide (f.tag = s.h.id.tag) && decide (f.off = x) && decide (f.result = .pending)
  let colors := (List.range (4 * exportN o)).map (fun i => BitVec.ofNat 32 ((vreg32 o.a i).get s.h v e))
  let z : Option (BitVec 32) :=
    if exportKind o = 2 then some (BitVec.ofNat 32 ((vreg32 (bOpnd o.b) 0).get s.h v e)) else none
  s.updGfx g.pass.die g.pass.ctx (fun y => { y with
    frags := y.frags.filterMap (fun f =>
      if !mine f then some f
      else if act && !f.helper then some { f with result := .exported colors z pois }
      else none) })

/-- A slice of VEXPORT. While the pass is saved, the word waits (R339). -/
def exportSlice (v : VEnv) (o : VOp) (g : ExportGang) : SliceRun := fun s _ q n =>
  let es := v.laneElems q n
  if ((s.findPass g.pass).map (fun c => c.saved)).getD false then .error (q * v.ege, .retry)
  else
      let now := (exportGang s).getD g
      let ok : Nat → Bool := fun x =>
        if exportKind o = 0 then
          decide (g.first ≤ x) && decide (x < g.first + g.count) && !now.done.contains x
        else (liveRecords s g.pass).contains x
      match exportChecks s v o ok es [] with
      | some f => .error f
      | none =>
          .ok (es.foldl (fun (t : State) e =>
            let act := maskBit s.h v o.msk 0 e
            if exportKind o = 0 then (if act then exportPrim t v o g e else t)
            else
              exportFrag t v o g act
                (maskPois s.h v o.msk 0 e || (List.range (4 * exportN o)).any (fun i => (vreg32 o.a i).pois s.h v e)
                  || (decide (exportKind o = 2) && (vreg32 (bOpnd o.b) 0).pois s.h v e)) e) s)

/-- Operands of VEXPORT with their register counts. -/
def exportOpnds (o : VOp) : List (Opnd × Nat) := [(o.a, exportRegs o), (bOpnd o.b, 1), (o.c, 1)]

/-- VEXPORT: primitives to the ring, or fragment results to the order buffers. -/
def execVexport (o : VOp) (s : State) : Host.Outcome State Fault Refusal :=
  blockWord s
    (fun b =>
      let v := venvOf s b
      wordGuard s b (.vexport o) o.rm
        (decide (v.sew = 32) && decide (v.lmul = 1) && decide (v.passes = 1) && exportGangOk s o)
        (texUnbound s.h (exportOpnds o)))
    (fun b =>
      let v := venvOf s b
      match exportGang s with
      | none => s
      | some g => laneWord s v v.plan (v.neg * v.gp) (exportSlice v o g) (fun _ _ _ _ => false) id)

end Sys2Proof.Machine
end

