-- ==== Sys2Proof/Machine/Context.lean ====
section
/-! DEFINITION. CTXSAVE, CTXLOAD and PWFLUSH, the save that ends a notice window, and the power gating of a core
(19 R412 to R422; 17 R381; 14 R315). -/

namespace Sys2Proof.Machine

/-! ## The layout of a save (19 Tables 19.3 to 19.5, R418) -/

/-- Register `i` of a save: v0 to v31, w0 to w7, b0 to b3. -/
def Hart.saveReg (k : Hart) (i : Nat) : VReg :=
  if i < 32 then k.vreg .v i else if i < 40 then k.vreg .w (i - 32) else k.vreg .b (i - 40)

/-- Bytes stored of a register (R415). -/
def storedLen (k : Hart) (portable : Bool) (i : Nat) : Nat :=
  if portable then min (k.saveReg i).hwm ((k.c.vl.toNat * sewOf k.c.vcfg + 127) / 128 * 16)
  else (k.saveReg i).hwm

/-- The bits that a predicate gives, from bit 0. -/
def bitsNat (n : Nat) (p : Nat → Bool) : Nat :=
  (List.range n).foldl (fun x i => if p i then x + 2 ^ i else x) 0

/-- Slice poison of `len` bytes whose lane groups have poison `p` (R414). -/
def slicePois (groups len : Nat) (p : BitVec 8) : Nat :=
  bitsNat 32 (fun t => decide (64 * t < len) && p.getLsbD (t % groups))

/-- Lane-group poison from slice poison. -/
def groupsPois (groups w : Nat) : BitVec 8 :=
  BitVec.ofNat 8 (bitsNat groups (fun n => (List.range 32).any (fun t => w.testBit t && decide (t % groups = n))))

/-- A list of values side by side, `n` bytes each from offset `o`. -/
def rowFields (o n : Nat) (xs : List Nat) : List (Nat × Nat × Nat) :=
  xs.zipIdx.map (fun x => (o + n * x.2, n, x.1))

/-- FLAGS of a header. -/
def saveFlags (k : Hart) : Nat :=
  (match k.run with
   | .faultWait _ => 1
   | .held => 128
   | .empty | .created | .running | .parked _ | .saved _ | .retired => 0)
  + (if k.c.vstat.getLsbD 1 then 2 else 0) + (if k.c.vstat.getLsbD 3 then 4 else 0)
  + (if k.c.vstat.getLsbD 4 then 8 else 0) + (if k.c.uiActive then 16 else 0)
  + (if k.mat.fault.isSome then 32 else 0)

/-- CSRS and SCSRS. -/
def saveCsrs (k : Hart) : List Nat :=
  [k.fcsr, k.c.fcompat, k.c.vlut0, k.c.vlut1, k.c.vcfg, k.c.vl, k.c.vgoff, k.c.vgshare, k.c.vstat, k.c.uivec,
   k.c.uiepc, k.c.uicause, k.uistatus, k.c.aotbase, k.c.vtrec, k.sc.satp, k.sc.sepc, k.sc.scause, k.sc.stval,
   k.sc.sstatus].map BitVec.toNat

/-- One entry of PINLIST. -/
def pinNat (p : PinEntry) : Nat :=
  fieldsNat [(0, 1, p.origin.toNat), (1, 1, shapeCode p.side), (2, 1, if p.state = .resident then 1 else 2),
             (4, 4, p.handle.toNat), (8, 2, p.gen.toNat), (10, 2, p.core)]

/-- The header and scalar state. -/
def headerPiece (k : Hart) (portable : Bool) : Piece :=
  let fs := [(0, 4, 0x4E4B5853), (4, 2, 1), (6, 1, if portable then 1 else 0), (7, 1, k.id.shape), (8, 2, k.id.tag),
      (0xA, 1, k.id.part), (0xB, 1, k.s.depth), (0xC, 1, saveFlags k),
      (0xD, 1, if k.s.priv = .u then 0 else 1), (0xE, 2, k.fseq.toNat), (0x14, 4, k.id.vlen),
      (0x18, 2, k.id.spadKib), (0x1A, 1, k.id.mtN), (0x1B, 1, k.id.maN), (0x1C, 2, k.id.spadCore.getD 0xFFFF),
      (0x20, 8, k.s.pc.toNat), (0x28, 8, k.c.ctxarea.toNat)]
    ++ rowFields 0x100 8 ((0 : Nat) :: (k.s.x.toList.tail.map BitVec.toNat))
    ++ rowFields 0x200 8 (k.s.f.toList.map BitVec.toNat)
    ++ rowFields 0x300 8 (k.s.shadow.toList.map BitVec.toNat)
    ++ rowFields 0x320 8 (saveCsrs k)
    ++ rowFields 0x3C0 8 (k.vu.j.toList.map (fun j => j.val.toNat))
    ++ [(0x3E0, 1, bitsNat 4 (fun n => ((k.vu.j[n]?).map (fun j => j.pois)).getD false))]
    ++ rowFields 0x3E1 1 (k.y.toList.map (fun y => y.unread + (if y.blk ∧ y.unread ≠ 0 then 128 else 0)))
    ++ rowFields 0x400 64 (k.y.toList.map (fun y => y.val.toNat))
    ++ rowFields 0x500 16 (k.posts.map (fun p => p.code.toNat + p.info.toNat * 2 ^ 64))
    ++ rowFields 0x600 16 (k.mat.pins.map pinNat)
    ++ rowFields 0x700 2 ((List.range 44).map (storedLen k portable))
    ++ rowFields 0x760 4 ((List.range 44).map (fun i =>
         slicePois k.id.groups (storedLen k portable i) (k.saveReg i).pois))
    ++ [(0x810, 1, k.vu.ms.length)]
    ++ rowFields 0x820 4 (k.vu.ms.reverse.flatMap (fun e =>
         [slicePois k.id.groups (k.id.vlen / 8) e.mPois, slicePois k.id.groups (k.id.vlen / 8) e.rPois]))
    ++ [(0x8A0, 8, k.mat.mcfg.toNat), (0x8A8, 8, k.mat.mtscale.toNat)]
  { off := 0, size := 4096, val := sealHeader (fieldsNat fs) }

/-- A fetched block (R418). -/
def blockNat (b : Block) : Nat :=
  fieldsNat ([(0, 8, b.base.toNat), (72, 8, b.vcfg.toNat), (80, 8, b.vl.toNat), (88, 1, b.frm.toNat),
    (96, 8, b.fcompat.toNat), (104, 8, b.vlut0.toNat), (112, 8, b.vlut1.toNat)]
    ++ rowFields 8 8 (b.k.toList.map BitVec.toNat))

/-- The in-flight section: the record of the stop, the blocks and NBLK; zero in a portable save. -/
def inflightPiece (s : State) (k : Hart) (portable : Bool) : Piece :=
  if portable then { off := 0x2000, size := 0x1000, val := 0 }
  else
    let entries := stopEntries k k.vu.blocks
    let st := (if k.status.getLsbD 8 then 1 else 0) + (if k.status.getLsbD 5 then 2 else 0)
    let r := recordNat k 0 { cause := 0, tval := 0, sub := 0 } 0 (decide (entries ≠ [])) false entries st
      ((k.vu.blocks.head?.map (fun b => b.base)).getD 0) k.vu.wix 0 (s.lcntOf k.id.die)
    { off := 0x2000, size := 0x1000,
      val := fieldsNat ((0, 512, r) :: (0x400, 1, k.vu.blocks.length)
        :: rowFields 0x200 128 (k.vu.blocks.map blockNat)) }

/-- A stream descriptor's 64 bytes (06 Table 6.5). -/
def StreamDesc.toNat (d : StreamDesc) : Nat :=
  fieldsNat [(0, 8, d.base.toNat), (8, 8, d.str0.toNat), (16, 8, d.str1.toNat), (24, 8, d.str2.toNat),
    (32, 8, d.str3.toNat), (40, 4, d.cnt0.toNat), (44, 4, d.cnt1.toNat), (48, 4, d.cnt2.toNat),
    (52, 4, d.cnt3.toNat), (56, 1, d.fmt.toNat)]

/-- One binding record; a portable save writes stream bindings only. -/
def bindNat (portable : Bool) (b : Option Binding) : Nat :=
  match b with
  | none => 0
  | some (.streamIn ss d p) => fieldsNat [(0, 1, 1), (1, 1, ss.toNat), (8, 8, p), (16, 64, d.toNat)]
  | some (.streamOut ss d p) => fieldsNat [(0, 1, 2), (1, 1, ss.toNat), (8, 8, p), (16, 64, d.toNat)]
  | some (.chan ss) => if portable then 0 else fieldsNat [(0, 1, 3), (1, 1, ss.toNat)]
  | some (.frag ss p e) =>
      if portable then 0
      else fieldsNat [(0, 1, 4), (1, 1, ss.toNat), (16, 8, p % 2 ^ 32 + (if e then 2 ^ 32 else 0))]

/-- The ring into a member, and the one that it sends into. -/
def ringsOf (s : State) (k : Hart) : Option Ring × Option Ring :=
  match k.id.gang.bind s.findGang with
  | none => (none, none)
  | some g => (g.rings[k.id.member]?, g.rings[(k.id.member + 1) % g.size]?)

/-- The bindings section. -/
def bindingsPiece (s : State) (k : Hart) (portable : Bool) : Piece :=
  let r := ringsOf s k
  let gs := (r.1.map (fun x => x.groups)).getD []
  let chan := k.vu.bind.toList.any (fun b => (b.map Binding.isChan).getD false)
  let rings := if portable then [] else
    [(0x200, 1, (if (r.1.map (fun x => x.recvOpen && !x.recvClosed)).getD false then 1 else 0)
       + (if chan && (r.2.map (fun x => !x.sendClosed)).getD false then 2 else 0)),
     (0x201, 1, gs.length)] ++ rowFields 0x202 1 (gs.map (fun g => g.pois.toNat))
    ++ rowFields 0x400 512 (gs.map (fun g => g.bits.toNat % 2 ^ (128 * k.id.lanes)))
  { off := 0x3000, size := 0x1000,
    val := fieldsNat (rowFields 0 128 (k.vu.bind.toList.map (bindNat portable)) ++ rings) }

/-- A saved matrix-queue entry (Table 19.5). -/
def mqNat (e : MqEntry) (stopped : Bool) : Nat :=
  fieldsNat [(0, 4, e.word.toNat), (4, 4, if stopped then 1 else 0), (8, 8, e.pc.toNat), (16, 8, e.xa.toNat),
    (24, 8, e.xb.toNat), (32, 8, e.mcfg.toNat), (40, 4, e.mtscale.toNat), (44, 1, e.frm.toNat), (45, 1, e.bpos),
    (48, 8, e.vcfg.toNat), (56, 8, e.vl.toNat)]

/-- Tiles of the grant, but for those of pinned groups. -/
def tilePieces (k : Hart) : List Piece :=
  (List.range k.id.mtN).map (fun t =>
    { off := 0x2A000 + 2048 * t, size := 2048, val := (k.mat.tile t).bits.toNat })
  ++ ((List.range k.id.maN).filter (fun a => (k.mat.pinOf a).isNone)).map (fun a =>
    { off := 0x2E000 + 4096 * a, size := 4096, val := (k.mat.acc a).bits.toNat })

/-- Everything that CTXSAVE writes. -/
def savePieces (s : State) (k : Hart) (portable : Bool) : List Piece :=
  let regs : List Piece := (List.range 44).map (fun i =>
    { off := 0x4000 + 2048 * i, size := storedLen k portable i,
      val := (k.saveReg i).bits.toNat % 2 ^ (8 * storedLen k portable i) })
  let n := k.id.vlen / 8
  let ms : List Piece := k.vu.ms.reverse.zipIdx.flatMap (fun e =>
    [{ off := 0x1A000 + 4096 * e.2, size := n, val := e.1.m.toNat % 2 ^ (8 * n) },
     { off := 0x1A000 + 4096 * e.2 + 2048, size := n, val := e.1.r.toNat % 2 ^ (8 * n) }])
  let mq : List Piece := if portable then [] else
    [{ off := 0x3E000, size := 0x400, val := fieldsNat (rowFields 0 64
        (k.mat.queue.zipIdx.map (fun e => mqNat e.1 (decide (e.2 = 0) && k.mat.fault.isSome)))) }]
  [headerPiece k portable, inflightPiece s k portable, bindingsPiece s k portable] ++ regs ++ ms ++ tilePieces k
    ++ mq ++ [{ off := 0x3E400, size := 0x60, val := fieldsNat (rowFields 0 4
        (k.mat.mt.toList.map (fun t => t.pois.toNat) ++ k.mat.ma.toList.map (fun a => a.pois.toNat))) }]

/-! ## CTXSAVE (R419, R420) -/

/-- The context as its stop leaves the vector unit: VSTOP words at the front are skipped (R410). -/
def stopForSave (s : State) (k : Hart) : Hart :=
  if k.vu.halt ≠ 0 then k
  else
    let p := dropStops s k k.vu.blocks k.vu.wix
    k.setBlocks p.1 p.2

/-- A context is saved and switched out; none where its area cannot be written. -/
def saveContext (s : State) (k : Hart) (portable : Bool) : Option State :=
  let h := stopForSave s k
  (writePieces k.id.part k.c.ctxarea.toNat (savePieces s h portable) s).map (fun t =>
    t.mapHarts k.same (fun g =>
      { stopForSave s g with
        run := .saved (match g.run with
          | .faultWait w => some w
          | .saved w => w
          | .empty | .created | .running | .parked _ | .held | .retired => none),
        s := { g.s with resv := none } }))

/-- context operation refused, with a code of Table 19.6. -/
def ctxRefuse (code : Nat) : Stop := .exc { cause := 37, tval := BitVec.ofNat 64 code, sub := BitVec.ofNat 16 code }

/-- The 16-byte context command at an address: two doublewords, as scalar loads. -/
def ctxCommand (s : State) (va : Word) : Except Stop (Nat × Nat) :=
  if va.toNat % 16 ≠ 0 then .error (Stop.of 4 va)
  else
    match scalarLoadBytes s .plain va 8 with
    | .error e => .error e
    | .ok a =>
        match scalarLoadBytes s .plain (va + 8) 8 with
        | .error e => .error e
        | .ok b => .ok (a, b)

/-- The partition holds the cluster of a core (R419). -/
def clusterHeld (s : State) (part die cluster : Nat) : Bool := s.sched.clusters.contains (die * 10 + cluster, part)

/-- A context that CTXSAVE may name: a vector hart's that stands on a core, or has been saved. -/
def saveTarget (s : State) (c : ContId) : Option Hart :=
  match s.findCont c with
  | none => none
  | some k => if k.id.isVector && k.live && decide (k.run ≠ .created) then some k else none

/-- A parked context that its save may make portable (17 R381). -/
def Run.parksPortable : Run → Bool
  | .parked p => p
  | .empty | .created | .running | .faultWait _ | .saved _ | .held | .retired => false

/-- Why CTXSAVE is refused, by code. -/
def ctxsaveBad (s : State) (portable : Bool) (cmd : Nat × Nat) (k : Option Hart) : Option Nat :=
  match k with
  | none => some 1
  | some k =>
      if (s.h.s.priv = .s ∧ k.id.part ≠ s.h.id.part) ∨ descField cmd.1 4 1 ≠ 0 ∨ cmd.2 ≠ 0 then some 1
      else if k.isSaved then some 2
      else if portable ∧ k.run.parksPortable = false then some 3
      else if (saveContext s k portable).isNone then some 7
      else none

def ctxsaveRun (portable : Bool) (rs1 : Reg) (s : State) : Except Stop State :=
  match ctxCommand s (s.h.xr rs1) with
  | .error e => .error e
  | .ok cmd =>
      let k := saveTarget s (BitVec.ofNat 32 cmd.1)
      match ctxsaveBad s portable cmd k with
      | some c => .error (ctxRefuse c)
      | none => .ok ((k.bind (fun k => saveContext s.advance k portable)).getD s)

/-- CTXSAVE runs at S and M. -/
def execCtxsave (portable : Bool) (rs1 : Reg) (s : State) : Host.Outcome State Fault Refusal :=
  if s.h.s.priv = .u then .next (raise (illegal (Instr.ctxsave portable rs1).word) s)
  else finish (ctxsaveRun portable rs1 s) s

/-- NOTICE_WINDOW_EXPIRY: the context takes an exact save (17 R381). -/
def noticeExpiry (target : ContId) (s : State) : Option State :=
  match saveTarget s target with
  | none => none
  | some k => if k.isSaved || !k.c.vstat.getLsbD 1 then none else saveContext s k false

def execNoticeWindowExpiry (target : ContId) (s : State) : Host.Outcome State Fault Refusal :=
  event "NOTICE_WINDOW_EXPIRY" (noticeExpiry target s)

/-! ## What CTXLOAD reads -/

/-- The place that a command names. -/
structure LoadAt where
  die : Nat
  cluster : Nat
  core : Nat
  slot : Nat
  tag : Nat
  part : Nat
  area : Nat
  deriving DecidableEq, Repr

def LoadAt.of (cmd : Nat × Nat) : LoadAt :=
  let c : BitVec 32 := BitVec.ofNat 32 cmd.1
  { die := fieldOf c 31 29, cluster := fieldOf c 28 25, core := fieldOf c 24 21, slot := fieldOf c 20 18,
    tag := fieldOf c 17 2, part := descField cmd.1 4 1, area := cmd.2 }

def LoadAt.coreNo (l : LoadAt) : Nat := Machine.coreNo l.die l.cluster l.core

/-- `n` bytes at an offset of the area. -/
def LoadAt.rd (s : State) (l : LoadAt) (o n : Nat) : Nat := areaRead s l.part (l.area + o) n

/-- A list of values of `n` bytes each from offset `o`. -/
def LoadAt.row (s : State) (l : LoadAt) (o n c : Nat) : List Nat := (List.range c).map (fun i => l.rd s (o + n * i) n)

/-- A shape that the destination core is set to; 8 stands in where none is. -/
def LoadAt.shape (s : State) (l : LoadAt) : Nat := (s.coreShape l.coreNo).getD 8

/-- The ranges of an area that a load needs. -/
def loadRanges (s : State) (l : LoadAt) : List (Nat × Nat) :=
  let lens := l.row s 0x700 2 44
  [(0, 4096), (0x1000, 0x1000), (0x2000, 0x1000), (0x3000, 0x1000), (0x3E400, 0x60)]
  ++ lens.zipIdx.map (fun x => (0x4000 + 2048 * x.2, x.1))
  ++ (List.range (l.rd s 0x810 1)).map (fun e => (0x1A000 + 4096 * e, 4096))
  ++ (List.range (l.rd s 0x1A 1)).map (fun t => (0x2A000 + 2048 * t, 2048))
  ++ (List.range (l.rd s 0x1B 1)).map (fun a => (0x2E000 + 4096 * a, 4096))
  ++ (if l.rd s 6 1 = 0 then [(0x3E000, 0x400)] else [])
  ++ (if l.rd s 0x18 2 = 0 then [] else [(0x40000, l.rd s 0x18 2 * 1024), (0xC0000, 0x400)])

def rangesOk (s : State) (l : LoadAt) : Bool :=
  (loadRanges s l).all (fun r => decide (r.2 = 0) || partRangeOk s.mem l.part (l.area + r.1) r.2 .load)

/-- The context that a load names. -/
def LoadAt.ctx (s : State) (l : LoadAt) : Option Hart :=
  s.harts.find? (fun h => h.isCtx l.part l.tag && h.id.isVector)

/-- Why CTXLOAD is refused, in code order (Table 19.6). -/
def ctxloadBad (s : State) (portable : Bool) (l : LoadAt) (readable : Bool) : Option Nat :=
  let n := l.shape s
  let rd := l.rd s
  if !s.dieOn l.die || decide (9 < l.cluster) || ((s.coreShape l.coreNo).isSome && decide (n ≤ l.slot))
      || decide (79 < l.part) || decide (l.area % 4096 ≠ 0)
      || (decide (s.h.s.priv = .s) && (decide (l.part ≠ s.h.id.part) || !clusterHeld s l.part l.die l.cluster)) then
    some 1
  else if s.harts.any (fun h => s.holdsSlot h && decide (h.id.coreNo = l.coreNo) && decide (h.id.slot = l.slot))
      || (s.coreShape l.coreNo).isNone || (readable && !portable && decide (rd 7 1 ≠ n))
      || !((l.ctx s).map Hart.isSaved).getD false then some 2
  else if !readable then some 7
  else if rd 0 4 ≠ 0x4E4B5853 ∨ rd 0x10 4 ≠ descField (sealHeader (rd 0 4096)) 0x10 4 ∨ rd 8 2 ≠ l.tag
      ∨ rd 0xA 1 ≠ l.part ∨ rd 6 1 ≠ (if portable then 1 else 0) then some 4
  else if (l.row s 0x700 2 44).any (fun x => decide (2048 / n < x)) then some 5
  else if 512 / n < rd 0x18 2 ∨ 8 < rd 0x1A 1 * n ∨ 16 < rd 0x1B 1 * n then some 6
  else if !rangesOk s l then some 7
  else none

/-! ## Restoring (R414, R418, R421) -/

/-- Bytes above a stored length are undefined after a restore (assumption 5). -/
def restoreReg (s : State) (l : LoadAt) (groups i : Nat) : VReg :=
  let n := l.rd s (0x700 + 2 * i) 2
  let x := l.rd s (0x4000 + 2048 * i) n
  let free := (Config.free s.tick (2 ^ 35 + 64 * l.tag + i) 16384).toNat / 2 ^ (8 * n) * 2 ^ (8 * n)
  { bits := BitVec.ofNat 16384 (if n = 0 then free else x + free), pois := groupsPois groups (l.rd s (0x760 + 4 * i) 4),
    hwm := n }

/-- A register file of a save, from register `i`. -/
def restoreFile (s : State) (l : LoadAt) (groups i n : Nat) : Vector VReg n :=
  Vector.ofFn (fun (k : Fin n) => restoreReg s l groups (i + k.val))

/-- Mask-stack entry `e` (1 is the oldest). -/
def restoreMs (s : State) (l : LoadAt) (groups vlen e : Nat) : MsEntry :=
  { m := BitVec.ofNat 16384 (l.rd s (0x1A000 + 4096 * (e - 1)) (vlen / 8)),
    r := BitVec.ofNat 16384 (l.rd s (0x1A000 + 4096 * (e - 1) + 2048) (vlen / 8)),
    mPois := groupsPois groups (l.rd s (0x820 + 8 * (e - 1)) 4),
    rPois := groupsPois groups (l.rd s (0x824 + 8 * (e - 1)) 4) }

/-- The binding of v28 + n. -/
def restoreBind (s : State) (l : LoadAt) (n : Nat) : Option Binding :=
  let o := 0x3000 + 128 * n
  let ss : BitVec 3 := BitVec.ofNat 3 (l.rd s (o + 1) 1)
  let kind := l.rd s o 1
  if kind = 1 then some (.streamIn ss (descOf (l.rd s (o + 16) 64)) (l.rd s (o + 8) 8))
  else if kind = 2 then some (.streamOut ss (descOf (l.rd s (o + 16) 64)) (l.rd s (o + 8) 8))
  else if kind = 3 then some (.chan ss)
  else if kind = 4 then
    some (.frag ss (l.rd s (o + 16) 8 % 2 ^ 32) (decide (l.rd s (o + 16) 8 / 2 ^ 32 % 2 = 1)))
  else none

/-- Block `i` of the in-flight section. -/
def restoreBlock (s : State) (l : LoadAt) (i : Nat) : Block :=
  let o := 0x2200 + 128 * i
  let w := fun a => BitVec.ofNat 64 (l.rd s (o + a) 8)
  { base := w 0, k := Vector.ofFn (fun (j : Fin 8) => w (8 + 8 * j.val)), vcfg := w 72, vl := w 80,
    frm := BitVec.ofNat 3 (l.rd s (o + 88) 1), fcompat := w 96, vlut0 := w 104, vlut1 := w 112 }

/-- The trap level at which the vector unit stands stopped: that whose record lists stopped instructions, for
the depths of the context (assumption 35). -/
def restoreHalt (s : State) (part depth vtrec : Nat) : Nat :=
  if 1 ≤ depth ∧ areaRead s part (vtrec + 28) 1 ≠ 0 then 1
  else if 2 ≤ depth ∧ areaRead s part (vtrec + 512 + 28) 1 ≠ 0 then 2
  else 0

/-- The in-flight blocks with their progress. -/
def restoreVec (s : State) (l : LoadAt) (groups vlen : Nat) (portable : Bool) : Vec :=
  let rd := l.rd s
  { v := restoreFile s l groups 0 32, w := restoreFile s l groups 32 8, b := restoreFile s l groups 40 4,
    j := Vector.ofFn (fun (i : Fin 4) =>
      { val := BitVec.ofNat 64 (rd (0x3C0 + 8 * i.val) 8), pois := (rd 0x3E0 1).testBit i.val }),
    ms := ((List.range (rd 0x810 1)).map (fun e => restoreMs s l groups vlen (e + 1))).reverse,
    bind := Vector.ofFn (fun (i : Fin 4) => restoreBind s l i.val),
    blocks := if portable then [] else (List.range (rd 0x2400 1)).map (restoreBlock s l),
    wix := if portable then 0 else rd (0x2000 + 40) 2,
    prog := if portable then [] else
      (List.range (rd (0x2000 + 28) 1)).map (fun i => l.row s (0x2000 + 64 + 16 * i) 2 8),
    halt := restoreHalt s l.part (rd 0xB 1) (rd 0x390 8), ringWait := false }

/-- A restored matrix-queue entry; it takes the privilege of the save (assumption 34). -/
def restoreMq (s : State) (l : LoadAt) (priv : Priv) (i : Nat) : MqEntry :=
  let o := 0x3E000 + 64 * i
  let w := fun a => BitVec.ofNat 64 (l.rd s (o + a) 8)
  { word := BitVec.ofNat 32 (l.rd s o 4), pc := w 8, xa := w 16, xb := w 24, mcfg := w 32,
    mtscale := BitVec.ofNat 32 (l.rd s (o + 40) 4), frm := BitVec.ofNat 3 (l.rd s (o + 44) 1),
    vcfg := w 48, vl := w 56, bpos := l.rd s (o + 45) 1, priv := priv }

/-- The saved entries: those before the first that is all zero. -/
def restoreQueue (s : State) (l : LoadAt) (priv : Priv) (portable : Bool) : List MqEntry :=
  if portable then []
  else ((List.range 16).takeWhile (fun i => decide (l.rd s (0x3E000 + 64 * i) 4 ≠ 0))).map (restoreMq s l priv)

/-- The pinned-group list; a group whose tiles lie outside the grant is dropped (14 R312). -/
def restorePins (s : State) (l : LoadAt) : List PinEntry :=
  let e := fun i : Nat =>
    let o := 0x600 + 16 * i
    let side := if l.rd s (o + 1) 1 = 0 then 1 else if l.rd s (o + 1) 1 = 1 then 2 else 4
    let st := l.rd s (o + 2) 1
    ({ origin := BitVec.ofNat 4 (l.rd s o 1), side := side, handle := BitVec.ofNat 32 (l.rd s (o + 4) 4),
       gen := BitVec.ofNat 16 (l.rd s (o + 8) 2), state := if st = 1 then .resident else .spilled,
       core := l.rd s (o + 10) 2 } : PinEntry)
  ((List.range 16).filter (fun i => decide (l.rd s (0x600 + 16 * i + 2) 1 ≠ 0))).map e
    |>.filter (fun p => decide (p.origin.toNat + p.side * p.side ≤ l.rd s 0x1B 1))

/-- Tiles of the grant from the area; those of resident groups stay as they are. -/
def restoreMat (s : State) (l : LoadAt) (k : Hart) (priv : Priv) (portable : Bool) : Mat :=
  let pins := restorePins s l
  let m0 : Mat := { k.mat with pins := pins }
  let pois := fun i => BitVec.ofNat 32 (l.rd s (0x3E400 + 4 * i) 4)
  { mt := Vector.ofFn (fun (t : Fin 8) =>
      if t.val < l.rd s 0x1A 1 then
        { bits := BitVec.ofNat 16384 (l.rd s (0x2A000 + 2048 * t.val) 2048), pois := pois t.val }
      else { bits := 0, pois := 0 }),
    ma := Vector.ofFn (fun (a : Fin 16) =>
      if (m0.pinOf a.val).isSome then k.mat.acc a.val
      else if a.val < l.rd s 0x1B 1 then
        { bits := BitVec.ofNat 32768 (l.rd s (0x2E000 + 4096 * a.val) 4096), pois := pois (8 + a.val) }
      else { bits := 0, pois := 0 }),
    mcfg := BitVec.ofNat 64 (l.rd s 0x8A0 8), mtscale := BitVec.ofNat 32 (l.rd s 0x8A8 4),
    queue := restoreQueue s l priv portable,
    fault := if (l.rd s 0xC 1).testBit 5 then some .retry else none, pins := pins }

/-- The CSRs of a save; NOTICE clears, and a portable load sets VSTALE. -/
def restoreCsrs (s : State) (l : LoadAt) (portable : Bool) : Csrs :=
  let w := fun i : Nat => BitVec.ofNat 64 (l.rd s (0x320 + 8 * i) 8)
  let st : Word := setField (w 8) 1 1 0
  { vcfg := w 4, vl := w 5, vgoff := w 6, vgshare := w 7, vstat := if portable then setField st 0 0 1 else st,
    vlut0 := w 2, vlut1 := w 3, uivec := w 9, uiepc := w 10, uicause := w 11, uie := (w 12).getLsbD 0,
    uiActive := (w 12).getLsbD 1, vtrec := w 14, fcompat := w 1, aotbase := w 13,
    ctxarea := BitVec.ofNat 64 (l.rd s 0x28 8) }

def restoreScalar (s : State) (l : LoadAt) (k : Hart) : Scalar :=
  let w := fun o (i : Nat) => BitVec.ofNat 64 (l.rd s (o + 8 * i) 8)
  { k.s with
    x := Vector.ofFn (fun (i : Fin 32) => w 0x100 i.val), f := Vector.ofFn (fun (i : Fin 32) => w 0x200 i.val),
    shadow := Vector.ofFn (fun (i : Fin 4) => w 0x300 i.val), pc := w 0x20 0,
    priv := if l.rd s 0xD 1 = 0 then .u else .s, depth := l.rd s 0xB 1,
    frm := BitVec.ofNat 3 (l.rd s 0x320 8 / 32), fflags := BitVec.ofNat 5 (l.rd s 0x320 8), resv := none }

/-- Queued posts of a save, then those held meanwhile (17 R379; assumption 29). -/
def restorePosts (s : State) (l : LoadAt) (k : Hart) : List Post × List Post :=
  let n := l.rd s (0x320 + 8 * 12) 8 / 4 % 32
  let ps := (List.range (min n 16)).map (fun i =>
    ({ code := BitVec.ofNat 8 (l.rd s (0x500 + 16 * i) 1), info := BitVec.ofNat 32 (l.rd s (0x508 + 16 * i) 4) } : Post))
  (ps ++ k.heldPosts.take (16 - ps.length), k.heldPosts.drop (16 - ps.length))

/-- What the loaded context does next: held, in fault wait, or running. -/
def restoreRun (s : State) (l : LoadAt) (k : Hart) : Run :=
  let fl := l.rd s 0xC 1
  if fl.testBit 7 then .held
  else if fl.testBit 0 then
    match k.run with
    | .saved (some w) => .faultWait w
    | _ => .faultWait { seq := BitVec.ofNat 16 (l.rd s 0xE 2), cause := Config.free s.tick (2 ^ 36) 8,
                        va := Config.free s.tick (2 ^ 36 + 1) 64, mq := false }
  else .running

/-- The context at its place. -/
def restoreHart (s : State) (l : LoadAt) (portable : Bool) (k : Hart) : Hart :=
  let n := l.shape s
  let id : Ident := { k.id with
    die := l.die, cluster := l.cluster, core := l.core, slot := l.slot, shape := n, spadKib := l.rd s 0x18 2,
    spadOff := l.slot * (2 ^ 19 / n), mtN := l.rd s 0x1A 1, maN := l.rd s 0x1B 1,
    spadCore := if l.rd s 0x1C 2 = l.coreNo then some l.coreNo else none }
  let sc := restoreScalar s l k
  let w := fun i : Nat => BitVec.ofNat 64 (l.rd s (0x3A0 + 8 * i) 8)
  let ps := restorePosts s l k
  { k with
    id := id, run := restoreRun s l k, s := sc, c := restoreCsrs s l portable,
    sc := { k.sc with satp := BitVec.ofNat 64 (l.rd s 0x398 8), sepc := w 0, scause := w 1, stval := w 2,
                      sstatus := w 3 },
    vu := restoreVec s l id.groups id.vlen portable, mat := restoreMat s l k sc.priv portable,
    y := Vector.ofFn (fun (i : Fin 4) =>
      { val := BitVec.ofNat 512 (l.rd s (0x400 + 64 * i.val) 64), unread := l.rd s (0x3E1 + i.val) 1 % 16,
        blk := decide (128 ≤ l.rd s (0x3E1 + i.val) 1) }),
    posts := ps.1, heldPosts := ps.2, fseq := BitVec.ofNat 16 (l.rd s 0xE 2), texels := [] }

/-- The saved groups of the inbound ring in place of those that were there at the save, and its end. -/
def restoreRing (s : State) (l : LoadAt) (portable : Bool) (r : Ring) : Ring :=
  if portable then r
  else
    let n := l.rd s 0x3201 1
    let gs := (List.range n).map (fun j =>
      ({ bits := BitVec.ofNat 16384 (l.rd s (0x3400 + 512 * j) 512), pois := BitVec.ofNat 8 (l.rd s (0x3202 + j) 1) }
        : RingGroup))
    { r with groups := gs ++ r.groups.drop n, recvOpen := r.recvOpen || (l.rd s 0x3200 1).testBit 0 }

/-- The reply in the `j`-th entry of the loaded context's inbox acts, and leaves it. -/
def applyReply (s : State) (j : Nat) : State :=
  let p : Word := (inboxEntry s s.h j).payload.truncate 64
  let t := inboxShift s s.h j
  match t.h.run with
  | .faultWait w => if replyFits w p then dropPagerMsg (replyEffect w p t) t.h.id.cont p else t
  | .empty | .created | .running | .parked _ | .saved _ | .held | .retired => t

/-- The reply in the entry given, where there is one, acts and leaves. -/
def applyReplyAt (o : Option Nat) (s : State) : State :=
  match o with
  | none => s
  | some j => applyReply s j

/-- The oldest fault reply of an inbox leaves it, and one that fits acts (R417). -/
def applyOldestReply (s : State) : State :=
  applyReplyAt ((inboxEntries s s.h).findIdx? (fun e => decide (e.kind = 2))) s

/-- The fault replies of an inbox, in order; an inbox holds at most 31. -/
def applyReplies (s : State) : State := (List.range 31).foldl (fun t _ => applyOldestReply t) s

/-- Steps 2 to 6 of R421 for a context whose place is free and vacated. -/
def placeContext (s : State) (l : LoadAt) (portable : Bool) (k : Hart) : State :=
  let s1 := s.dropL1 l.coreNo
  let h := restoreHart s1 l portable k
  let s2 := (s1.mapHarts k.same (fun _ => h)).tickUp
  let s3 := match h.id.gang with
    | none => s2
    | some g => s2.updGang g (fun x => x.updRing h.id.member (restoreRing s2 l portable))
  let s4 := if 0 < h.id.spadKib ∧ h.id.spadCore ≠ some h.id.coreNo then
      (spadIn s3 h h.id.coreNo).mapHarts h.same
        (fun x => { x with id := { x.id with spadCore := some x.id.coreNo } })
    else s3
  s4.onHart h.same (fun t => inboxTakeAll (applyReplies t))

/-- Groups of the context that its new place would not back are spilled, and its grant leaves another core
(14 R312, 06 R127). -/
def leaveOldPlace (s : State) (l : LoadAt) (k : Hart) : Option State :=
  let i : Ident := { k.id with slot := l.slot, shape := l.shape s }
  let gone := k.mat.pins.filter (fun p => decide (p.state = .resident) &&
    (decide (p.core ≠ l.coreNo) || decide (k.id.physAcc p.origin.toNat ≠ i.physAcc p.origin.toNat)
      || decide (l.rd s 0x1B 1 < p.origin.toNat + p.side * p.side)))
  let s1 := gone.foldl (fun (t : Option State) p => t.bind (evictPin k p)) (some s)
  if k.id.spadCore.isSome ∧ 0 < k.id.spadKib
      ∧ (k.id.spadCore ≠ some l.coreNo ∨ k.id.spadOff ≠ l.slot * (2 ^ 19 / l.shape s)) then
    s1.bind (fun t => evictSpad t k)
  else s1

/-- CTXLOAD once its checks have passed; none while an eviction waits, or the core is power-gated. -/
def loadContext (s : State) (l : LoadAt) (portable : Bool) : Option State :=
  match l.ctx s with
  | none => none
  | some k =>
      if s.sched.gated.contains l.coreNo then none
      else
        let n := l.shape s
        let i : Ident := { k.id with slot := l.slot, shape := n }
        ((leaveOldPlace s l k).bind (fun t =>
          vacate t l.coreNo (l.slot * (2 ^ 19 / n)) (l.rd s 0x18 2 * 1024) (i.physAcc 0) (l.rd s 0x1B 1) k.same)).bind
          (fun t => (l.ctx t).map (fun k' => placeContext t l portable k'))

/-- VERSION is read with the header page, before every check. -/
def ctxloadRun (portable : Bool) (rs1 : Reg) (s : State) : Except Stop State :=
  match ctxCommand s (s.h.xr rs1) with
  | .error e => .error e
  | .ok cmd =>
      let l := LoadAt.of cmd
      let readable := partRangeOk s.mem l.part l.area 4096 .load
      if readable && decide (l.rd s 4 2 ≠ 1) then .error (Stop.of 32 (BitVec.ofNat 64 l.area))
      else
        match ctxloadBad s portable l readable with
        | some c => .error (ctxRefuse c)
        | none => .ok ((loadContext s.advance l portable).getD s)

/-- CTXLOAD runs at S and M. -/
def execCtxload (portable : Bool) (rs1 : Reg) (s : State) : Host.Outcome State Fault Refusal :=
  if s.h.s.priv = .u then .next (raise (illegal (Instr.ctxload portable rs1).word) s)
  else finish (ctxloadRun portable rs1 s) s

/-! ## PWFLUSH (R422) -/

/-- The windows of a partition as they stand in the table come into effect. -/
def flushPart (win dev : SMap 64) (p : Nat) : SMap 64 :=
  (List.range 32).foldl (fun w j =>
    mapSet w (windowBase + 0x100 * p + 8 * j) (mapGet dev (windowBase + 0x100 * p + 8 * j))) win

def pwflushGuard (i : Instr) (h : Hart) (x : Word) : Option Stop :=
  if h.s.priv ≠ .m then some (illegal i.word)
  else if fieldOf x 63 8 ≠ 0 ∨ (x.getLsbD 7 = false ∧ 79 < fieldOf x 6 0) then some (illegal i.word)
  else none

/-- The partitions that the operand names. -/
def pwflushParts (x : Word) : List Nat := if x.getLsbD 7 then List.range 80 else [fieldOf x 6 0]

def pwflushEffect (s : State) (x : Word) : State :=
  (s.setMem { s.mem with win := (pwflushParts x).foldl (fun w p => flushPart w s.mem.dev p) s.mem.win }).advance

def execPwflush (rs1 : Reg) (s : State) : Host.Outcome State Fault Refusal :=
  guarded (pwflushGuard (.pwflush rs1) s.h (s.h.xr rs1)) s (pwflushEffect s (s.h.xr rs1))

/-! ## Power gating (14 R315) -/

/-- A core is gated while no context is placed on it and every other accumulator and grant has been saved; its
pinned accumulators and its ownership table stay. -/
def powerGate (core : Nat) (s : State) : Option State :=
  if core < 1280 ∧ s.sched.gated.contains core = false
      ∧ s.harts.all (fun h => !(s.holdsSlot h && decide (h.id.coreNo = core))
          && (decide (h.id.spadCore ≠ some core) || decide (h.id.spadKib = 0))) = true then
    some { s.dropL1 core with sched := { s.sched with gated := setAdd s.sched.gated core } }
  else none

def execCorePowerGate (core : BitVec 11) (s : State) : Host.Outcome State Fault Refusal :=
  event "CORE_POWER_GATE" (powerGate core.toNat s)

def powerRestore (core : Nat) (s : State) : Option State :=
  if s.sched.gated.contains core then
    some { s with sched := { s.sched with gated := setDel s.sched.gated core } }
  else none

def execCorePowerRestore (core : BitVec 11) (s : State) : Host.Outcome State Fault Refusal :=
  event "CORE_POWER_RESTORE" (powerRestore core.toNat s)

end Sys2Proof.Machine
end

