-- ==== Sys2Proof/Machine/Crypto.lean ====
section
/-! DEFINITION. AES-256 in Galois/Counter Mode with a 96-bit IV and no additional data, over bytes as
numbers: the cipher that the crypto engine names (05 R116, R117; assumption 18). -/

namespace Sys2Proof.Machine

/-- Multiplication by x in GF(2^8). -/
def gfDouble (b : Nat) : Nat := if b < 128 then 2 * b else (2 * b) ^^^ 0x11B

/-- Product in GF(2^8), over the low `n` bits of `b`. -/
def gfMulBits : Nat → Nat → Nat → Nat
  | 0, _, _ => 0
  | n + 1, a, b => (if b % 2 = 1 then a else 0) ^^^ gfMulBits n (gfDouble a) (b / 2)

def gfMul (a b : Nat) : Nat := gfMulBits 8 a b

/-- x^254, the inverse. -/
def gfInv (x : Nat) : Nat :=
  let x2 := gfMul x x
  let x4 := gfMul x2 x2
  let x8 := gfMul x4 x4
  let x16 := gfMul x8 x8
  let x32 := gfMul x16 x16
  let x64 := gfMul x32 x32
  gfMul (gfMul (gfMul x2 x4) (gfMul x8 x16)) (gfMul (gfMul x32 x64) (gfMul x64 x64))

def rotByte (b n : Nat) : Nat := (b * 2 ^ n + b / 2 ^ (8 - n)) % 256

def aesSbox (x : Nat) : Nat :=
  let b := gfInv x
  b ^^^ rotByte b 1 ^^^ rotByte b 2 ^^^ rotByte b 3 ^^^ rotByte b 4 ^^^ 0x63

def xorBytes (a b : List Nat) : List Nat := List.zipWith (fun x y => x ^^^ y) a b

/-- x^(n − 1) in GF(2^8). -/
def aesRcon : Nat → Nat
  | 0 => 1
  | 1 => 1
  | n + 1 => gfDouble (aesRcon n)

/-- Words of the key schedule from number `i` on, newest first. -/
def aesExpand : Nat → Nat → List (List Nat) → List (List Nat)
  | 0, _, ws => ws
  | n + 1, i, ws =>
      let t := ws.headD []
      let u :=
        if i % 8 = 0 then
          xorBytes ((t.drop 1 ++ t.take 1).map aesSbox) [aesRcon (i / 8), 0, 0, 0]
        else if i % 8 = 4 then t.map aesSbox else t
      aesExpand n (i + 1) (xorBytes (ws[7]?.getD []) u :: ws)

/-- Groups of `k` of a list. -/
def chunks (k : Nat) : Nat → List Nat → List (List Nat)
  | 0, _ => []
  | n + 1, l => l.take k :: chunks k n (l.drop k)

/-- The fifteen round keys of a 32-byte key. -/
def aesRoundKeys (key : List Nat) : List (List Nat) :=
  chunks 16 15 ((aesExpand 52 8 (chunks 4 8 key).reverse).reverse.flatten)

def aesShiftRows (s : List Nat) : List Nat :=
  (List.range 16).map (fun i => (s[(i + 4 * (i % 4)) % 16]?).getD 0)

def aesMixColumn (col : List Nat) : List Nat :=
  let a := fun i => (col[i % 4]?).getD 0
  (List.range 4).map (fun i => gfDouble (a i) ^^^ gfDouble (a (i + 1)) ^^^ a (i + 1) ^^^ a (i + 2) ^^^ a (i + 3))

/-- The rounds after the first key addition. -/
def aesRounds : List (List Nat) → List Nat → List Nat
  | [], s => s
  | [k], s => xorBytes (aesShiftRows (s.map aesSbox)) k
  | k :: t, s => aesRounds t (xorBytes ((chunks 4 4 (aesShiftRows (s.map aesSbox))).flatMap aesMixColumn) k)

/-- One block under the round keys. -/
def aesBlock (ks : List (List Nat)) (b : List Nat) : List Nat := aesRounds ks.tail (xorBytes b (ks.headD []))

/-! ## GCM -/

/-- Bytes as a number, the first most significant. -/
def ofBytesBe (l : List Nat) : Nat := l.foldl (fun a b => a * 256 + b) 0

/-- `n` bytes of a number, the first most significant. -/
def toBytesBe (n x : Nat) : List Nat := (List.range n).map (fun i => x / 256 ^ (n - 1 - i) % 256)

/-- `n` bytes of a number, the first least significant. -/
def toBytesLe (n x : Nat) : List Nat := (List.range n).map (fun i => x / 256 ^ i % 256)

def ofBytesLe (l : List Nat) : Nat := l.foldr (fun b a => b + 256 * a) 0

/-- Product in GF(2^128), over the `n` bits of `x` from bit `n - 1` down. -/
def ghashMul : Nat → Nat → Nat → Nat
  | 0, _, _ => 0
  | n + 1, x, v =>
      (if x.testBit n then v else 0) ^^^
        ghashMul n x (if v % 2 = 1 then (v / 2) ^^^ (0xE1 * 2 ^ 120) else v / 2)

/-- GHASH of blocks. -/
def ghash (h : Nat) (bs : List Nat) : Nat := bs.foldl (fun y b => ghashMul 128 (y ^^^ b) h) 0

/-- Counter block `i` of an IV: block 1 encrypts the tag. -/
def gcmCounter (iv : List Nat) (i : Nat) : List Nat := iv ++ toBytesBe 4 (i % 2 ^ 32)

/-- The key stream of `nblk` blocks of data. -/
def gcmStream (ks : List (List Nat)) (iv : List Nat) (nblk : Nat) : List Nat :=
  (List.range nblk).flatMap (fun i => aesBlock ks (gcmCounter iv (i + 2)))

/-- The tag of ciphertext bytes, a whole number of blocks. -/
def gcmTag (ks : List (List Nat)) (iv c : List Nat) : List Nat :=
  let h := ofBytesBe (aesBlock ks (List.replicate 16 0))
  let bs := (chunks 16 (c.length / 16) c).map ofBytesBe
  xorBytes (toBytesBe 16 (ghash h (bs ++ [8 * c.length]))) (aesBlock ks (gcmCounter iv 1))

end Sys2Proof.Machine
end

