-- ==== Sys2Proof/Machine/Engine.lean ====
section
/-! DEFINITION. The engine harts: the E-extension's commands, EWAITK, kicks and microcode (05 R101 to R120). -/

namespace Sys2Proof.Machine

/-! ## Commands and engine command blocks (R108, R109) -/

/-- The six commands, in the order of Table 5.5. -/
inductive EOp where
  | cpy | cpys | gath | scat | red | gcm
  deriving DecidableEq, Repr

/-- A command: its instruction, its ECB's 128 bytes, the partition selector, the engine's die, and for EGCM
the key stream. -/
structure Cmd where
  op : EOp
  x : Nat
  p : Nat
  die : Nat
  ks : List Nat
  deriving DecidableEq, Repr

/-- Field of an ECB (Table 5.4). -/
def Cmd.fld (c : Cmd) (o n : Nat) : Nat := descField c.x o n
def Cmd.addr (c : Cmd) (o : Nat) : Word := BitVec.ofNat 64 (c.fld o 8)
def Cmd.src (c : Cmd) : Word := c.addr 0
def Cmd.dst (c : Cmd) : Word := c.addr 8
def Cmd.len (c : Cmd) : Nat := c.fld 16 8
def Cmd.satp (c : Cmd) : Word := c.addr 24
def Cmd.cont (c : Cmd) : ContId := BitVec.ofNat 32 (c.fld 32 4)
def Cmd.tag (c : Cmd) : Nat := c.fld 36 4
def Cmd.mbox (c : Cmd) : Word := c.addr 40
def Cmd.amode (c : Cmd) : Nat := c.fld 48 2 % 4
def Cmd.pbdec (c : Cmd) : Bool := (c.fld 48 2).testBit 2
def Cmd.uipost (c : Cmd) : Bool := (c.fld 48 2).testBit 3
def Cmd.mb (c : Cmd) : Bool := (c.fld 48 2).testBit 4
def Cmd.esize (c : Cmd) : Nat := c.fld 50 1
/-- Element bytes of EGATH and ESCAT. -/
def Cmd.ebytes (c : Cmd) : Nat := 2 ^ c.esize
def Cmd.ixBytes (c : Cmd) : Nat := if c.fld 51 1 = 0 then 4 else 8
def Cmd.rows (c : Cmd) : Nat := c.fld 52 4
def Cmd.count (c : Cmd) : Nat := c.fld 80 4
def Cmd.rop (c : Cmd) : Nat := c.fld 84 1
def Cmd.rfmt (c : Cmd) : Nat := c.fld 85 1
def Cmd.srcStr (c : Cmd) : Bool := (c.fld 106 2).testBit 15
def Cmd.dstStr (c : Cmd) : Bool := (c.fld 108 2).testBit 15
def Cmd.srcEntry (c : Cmd) : Nat := c.fld 106 1
def Cmd.dstEntry (c : Cmd) : Nat := c.fld 108 1
/-- GDIR = 1, copy-out. -/
def Cmd.out (c : Cmd) : Bool := decide (c.fld 104 1 = 1)

/-! ## Checks (R110) -/

/-- Fields that some command reads: offset and size. -/
def ecbFields : List (Nat × Nat) :=
  [(0, 8), (8, 8), (16, 8), (50, 1), (51, 1), (52, 4), (56, 8), (64, 8), (72, 8), (80, 4), (84, 1), (85, 1),
   (86, 2), (88, 8), (96, 8), (104, 1), (106, 2), (108, 2)]

/-- Offsets of the fields that a command reads (Table 5.5). -/
def EOp.reads : EOp → List Nat
  | .cpy => [0, 8, 16, 106, 108]
  | .cpys => [0, 8, 16, 52, 56, 64]
  | .gath | .scat => [0, 8, 50, 51, 72, 80]
  | .red => [0, 8, 16, 84, 85, 88, 106]
  | .gcm => [0, 8, 16, 86, 96, 104]

/-- A ROP and RFMT that name a reduction (R115). -/
def redOk (rop rfmt : Nat) : Bool := decide (rop ≤ 5) && decide (rfmt ≤ 6) && (decide (rop ≤ 2) || decide (3 ≤ rfmt))

/-- No reserved field or value: check 1. `w` is rs2. -/
def Cmd.fieldOk (c : Cmd) (w : Word) : Bool :=
  decide (w.toNat < 80 ∨ w.toNat = 127)
    && ecbFields.all (fun f => c.op.reads.contains f.1 || decide (c.fld f.1 f.2 = 0))
    && decide (c.len < 2 ^ 40) && decide (c.fld 48 2 < 32) && decide (c.amode ≠ 3)
    && decide (c.fld 105 1 = 0) && decide (c.fld 111 17 = 0)
    && (if c.amode = 2 then decide (fieldOf c.satp 63 60 = 0 ∨ fieldOf c.satp 63 60 = 10) else decide (c.satp = 0))
    && (c.mb || decide (c.mbox = 0))
    && (!(c.pbdec || c.uipost) || decide (c.cont ≠ 0))
    && decide (c.fld 107 1 % 128 = 0) && decide (c.fld 109 1 % 128 = 0)
    && decide (c.fld 51 1 ≤ 1) && decide (c.fld 86 2 < 64) && decide (c.fld 104 1 ≤ 1)
    && (decide (c.op ≠ .red) || redOk c.rop c.rfmt)
    && (decide (c.op ≠ .gcm) || decide (c.amode ≠ 0))

/-- Length, count, row and element-size limits: check 2. -/
def Cmd.lenOk (c : Cmd) : Bool :=
  match c.op with
  | .cpy => decide (c.len % 16 = 0) && decide (16 ≤ c.len)
  | .cpys => decide (c.len % 16 = 0) && decide (16 ≤ c.len) && decide (1 ≤ c.rows) && decide (c.rows ≤ 2 ^ 20)
      && decide (c.rows * c.len < 2 ^ 40)
  | .gath | .scat => decide (2 ≤ c.esize) && decide (c.esize ≤ 7) && decide (1 ≤ c.count) && decide (c.count ≤ 2 ^ 24)
  | .red => decide (c.len % 16 = 0)
  | .gcm => decide (c.len % 16 = 0) && decide (16 ≤ c.len) && decide (c.len ≤ 2 ^ 32)

/-- Alignment limits: check 3. An address that a stream replaces is none. -/
def Cmd.alignOk (c : Cmd) : Bool :=
  let al := fun (a : Word) (n : Nat) => decide (a.toNat % n = 0)
  (!c.mb || al c.mbox 32) &&
  (match c.op with
   | .cpy => (c.srcStr || al c.src 16) && (c.dstStr || al c.dst 16)
   | .cpys => al c.src 16 && al c.dst 16 && al (c.addr 56) 16 && al (c.addr 64) 16
   | .gath | .scat => al c.src c.ebytes && al c.dst c.ebytes && al (c.addr 72) c.ixBytes
   | .red => al c.src 16 && al c.dst 16 && (c.srcStr || al (c.addr 88) 16)
   | .gcm => al (c.addr 96) 32)

/-- Partition selector against AMODE and stream owners: check 4. -/
def Cmd.accessOk (c : Cmd) (s : State) : Bool :=
  decide ((c.amode = 0) = (c.p = 127))
    && (!c.srcStr || decide (connOwner (connW0 s c.srcEntry) = c.p))
    && (!c.dstStr || decide (connOwner (connW0 s c.dstEntry) = c.p))

/-- The STATUS that the first failed check fixes (Table 5.7). -/
def Cmd.check (c : Cmd) (w : Word) (s : State) : Option Nat :=
  if !c.fieldOk w then some 4
  else if !c.lenOk then some 3
  else if !c.alignOk then some 2
  else if !c.accessOk s then some 6
  else none

/-! ## Addresses and accesses (R111) -/

/-- A failure on the way: STATUS and the faulting address. -/
abbrev EFault := Nat × Word

/-- The place of an ECB address under AMODE. -/
def Cmd.loc (c : Cmd) (s : State) (k : AKind) (a : Word) : Except EFault Loc :=
  if c.amode = 0 then
    (match (if a.toNat < 2 ^ 52 then physLoc s.mem.dev a.toNat true else none) with
     | some l => .ok l
     | none => .error (6, a))
  else if c.amode = 1 then
    (match partLoc s.mem c.p a.toNat k with
     | some (.mem pa nc) => .ok (.mem pa nc)
     | _ => .error (6, a))
  else if inAperture a then .error (6, a)
  else
    match spaceAccess s c.p c.satp k a with
    | .ok pa => .ok (.mem pa true)
    | .error f => .error (if f = k.pageFault then 5 else 6, a)

/-- A device register that an engine may copy: all but the kick and notify registers, which take a hart's
doubleword accesses alone (R103, 18 R383). -/
def engineDev (pa : Nat) : Bool :=
  match devReg pa with
  | some (.kick _) | some (.notify _) | none => false
  | _ => true

/-- Doublewords, or the one shorter piece, of `n` bytes. -/
def devParts (pa n : Nat) : List (Nat × Nat) :=
  if n ≤ 8 then [(pa, n)] else (List.range (n / 8)).map (fun i => (pa + 8 * i, 8))

/-- Device bytes as an M-mode reader gets them. -/
def devBytes (s : State) : List (Nat × Nat) → Option Nat
  | [] => some 0
  | (pa, n) :: t =>
      match (if engineDev pa then devRead s .m 127 pa n .plain else none), devBytes s t with
      | some v, some w => some (v + 2 ^ (8 * n) * w)
      | _, _ => none

/-- Device bytes written at M. -/
def devPut (v : Nat) (k : Kicker) (src : Nat) : List (Nat × Nat) → State → Option State
  | [], s => some s
  | (pa, n) :: t, s =>
      match (if engineDev pa then devWrite s .m k src pa n (v % 2 ^ (8 * n)) else none) with
      | none => none
      | some u => devPut (v / 2 ^ (8 * n)) k src t u

/-- `n` bytes at a place and whether any was poisoned. -/
def engineRead (s : State) (l : Loc) (n : Nat) : Option (Nat × Bool) :=
  match l with
  | .mem pa _ => some (agentRead s pa n, poisonedLoc s l n)
  | .dev pa => (devBytes s (devParts pa n)).map (fun v => (v, false))
  | .spad _ => none

/-- `n` bytes, all in one line, written at a place. -/
def engineWrite (s : State) (l : Loc) (n v : Nat) (pois : Bool) : Option State :=
  match l with
  | .mem _ _ => some (writeLoc s s.h.id.coreNo l n v pois)
  | .dev pa => devPut v s.h.kicker s.h.id.die (devParts pa n) s
  | .spad _ => none

/-- Read `n` bytes at an ECB address. -/
def Cmd.read (c : Cmd) (s : State) (a : Word) (n : Nat) : Except EFault (Loc × Nat × Bool) :=
  match c.loc s .load a with
  | .error e => .error e
  | .ok l =>
      match engineRead s l n with
      | none => .error (6, a)
      | some r => .ok (l, r)

/-! ## Streams (R114) -/

def streamOf (s : State) (i : Nat) : List Byte := ((s.fab.streams.find? (fun e => decide (e.1 = i))).map (fun e => e.2)).getD []

/-- The bytes in a peer circuit become `bs`. -/
def streamPut (s : State) (i : Nat) (bs : List Byte) : State :=
  { s with fab := { s.fab with
      streams := (if bs = [] then [] else [(i, bs)]) ++ s.fab.streams.filter (fun e => decide (e.1 ≠ i)) } }

/-- The named circuit is up, between this die and a peer port, in the direction used. -/
def streamOk (s : State) (die i : Nat) (inbound : Bool) : Bool :=
  let w := connW0 s i
  decide (connState w = 2) &&
    (if inbound then decide (8 ≤ connSrc w) && decide (connDst w = die)
     else decide (connSrc w = die) && decide (8 ≤ connDst w))

/-! ## Destination writes in command order (Table 5.5) -/

inductive ESrc where
  | mem (a : Word)
  | stream (i : Nat)
  deriving DecidableEq, Repr

inductive EDst where
  | mem (a : Word)
  | stream (i : Nat)
  deriving DecidableEq, Repr

/-- One write of `n` bytes and the sources that it reads. -/
structure EPiece where
  srcs : List ESrc
  dst : EDst
  n : Nat
  deriving DecidableEq, Repr

/-- Number of writes: 16-byte pieces, shorter elements, or single bytes of EGCM, whose addresses have no
alignment. -/
def Cmd.pieces (c : Cmd) : Nat :=
  match c.op with
  | .cpy | .red => c.len / 16
  | .cpys => c.rows * (c.len / 16)
  | .gath | .scat => c.count * ((c.ebytes + 15) / 16)
  | .gcm => c.len

/-- Index `i`, signed, times the element size. -/
def Cmd.index (c : Cmd) (s : State) (i : Nat) : Except EFault Word :=
  match c.read s (c.addr 72 + BitVec.ofNat 64 (i * c.ixBytes)) c.ixBytes with
  | .error e => .error e
  | .ok r =>
      let ix : Int := if c.ixBytes = 4 then (BitVec.ofNat 32 r.2.1).toInt else (BitVec.ofNat 64 r.2.1).toInt
      .ok (BitVec.ofInt 64 (ix * c.ebytes))

/-- Write number `i`. -/
def Cmd.piece (c : Cmd) (s : State) (i : Nat) : Except EFault EPiece :=
  let at_ := fun (a : Word) (o : Nat) => a + BitVec.ofNat 64 o
  match c.op with
  | .cpy =>
      .ok { srcs := [if c.srcStr then .stream c.srcEntry else .mem (at_ c.src (16 * i))],
            dst := if c.dstStr then .stream c.dstEntry else .mem (at_ c.dst (16 * i)), n := 16 }
  | .cpys =>
      let per := max 1 (c.len / 16)
      let r := BitVec.ofNat 64 (i / per)
      .ok { srcs := [.mem (at_ (c.src + r * c.addr 56) (16 * (i % per)))],
            dst := .mem (at_ (c.dst + r * c.addr 64) (16 * (i % per))), n := 16 }
  | .gath =>
      let per := (c.ebytes + 15) / 16
      match c.index s (i / per) with
      | .error e => .error e
      | .ok x => .ok { srcs := [.mem (at_ (c.src + x) (16 * (i % per)))],
                       dst := .mem (at_ c.dst (i / per * c.ebytes + 16 * (i % per))), n := min 16 c.ebytes }
  | .scat =>
      let per := (c.ebytes + 15) / 16
      match c.index s (i / per) with
      | .error e => .error e
      | .ok x => .ok { srcs := [.mem (at_ c.src (i / per * c.ebytes + 16 * (i % per)))],
                       dst := .mem (at_ (c.dst + x) (16 * (i % per))), n := min 16 c.ebytes }
  | .red =>
      .ok { srcs := [.mem (at_ c.src (16 * i)),
                     if c.srcStr then .stream c.srcEntry else .mem (at_ (c.addr 88) (16 * i))],
            dst := .mem (at_ c.dst (16 * i)), n := 16 }
  | .gcm => .ok { srcs := [.mem (at_ c.src i)], dst := .mem (at_ c.dst i), n := 1 }

/-! ## Reduction (R115) -/

/-- Bits of an element of a reduction format. -/
def redBits (rfmt : Nat) : Nat :=
  if rfmt = 0 ∨ rfmt = 4 ∨ rfmt = 6 then 64 else if rfmt = 2 then 16 else 32

/-- The float format of RFMT 0 to 2. -/
def redFmt (rfmt : Nat) : FFmt := if rfmt = 0 then fp64 else if rfmt = 1 then fp32 else bf16

/-- One element. -/
def redElem (rop rfmt x y : Nat) : Nat :=
  let w := redBits rfmt
  if rfmt ≤ 2 then
    let f := redFmt rfmt
    if rop = 0 then (rneEnv.add f x y).bits
    else (rneEnv.minMax .number (decide (rop = 2)) f x y).bits
  else
    let lt : Bool := if rfmt ≤ 4 then decide (intOf true w x < intOf true w y) else decide (x < y)
    if rop = 0 then (x + y) % 2 ^ w
    else if rop = 1 then (if lt then x else y)
    else if rop = 2 then (if lt then y else x)
    else if rop = 3 then x &&& y else if rop = 4 then x ||| y else x ^^^ y

/-- The elements of a 16-byte piece. -/
def redPiece (rop rfmt x y : Nat) : Nat :=
  let w := redBits rfmt
  (List.range (128 / w)).foldr (fun i a =>
    redElem rop rfmt (x / 2 ^ (w * i) % 2 ^ w) (y / 2 ^ (w * i) % 2 ^ w) + 2 ^ w * a) 0

/-- What write `i` writes, from its sources. -/
def Cmd.value (c : Cmd) (i : Nat) (vs : List Nat) : Nat :=
  match c.op with
  | .red => redPiece c.rop c.rfmt (vs[0]?.getD 0) (vs[1]?.getD 0)
  | .gcm => (vs[0]?.getD 0) ^^^ (c.ks[i]?.getD 0)
  | .cpy | .cpys | .gath | .scat => vs[0]?.getD 0

/-! ## Running a command (R112, R113, R119) -/

/-- The context that CONT names: by its place, or where it now is by its tag in the command's partition. -/
def Cmd.target (c : Cmd) (s : State) : Option Hart :=
  match s.findCont c.cont with
  | some k => some k
  | none => if fieldOf c.cont 28 25 ≤ 9 then s.findCtx c.p (fieldOf c.cont 17 2) else none

/-- A decrement of `n` bytes, and whether the counter held fewer (R119). -/
def Cmd.decrement (c : Cmd) (n : Nat) (s : State) : State × Bool :=
  match c.target s with
  | none => (s, false)
  | some k =>
      match k.id.gang with
      | none => (s, true)
      | some g =>
          match s.findGang g with
          | none => (s, false)
          | some x =>
              if x.live then
                (s.updGang g (fun y => ({ y with pend := y.pend - n }).settle), decide (x.pend < n))
              else (s, false)

/-- How a command stands: bytes done, the failure, whether poison was written, the barrier fell short or
stream bytes are missing; the memory read and written; each write's source and result, latest first. -/
structure EngRun where
  st : State
  done : Nat
  fault : Option EFault
  pois : Bool
  under : Bool
  wait : Bool
  reads : List (Nat × Nat)
  writes : List (Nat × Nat)
  ins : List Nat
  outs : List Nat
  deriving DecidableEq, Repr

def EngRun.start (s : State) : EngRun :=
  { st := s, done := 0, fault := none, pois := false, under := false, wait := false, reads := [], writes := [],
    ins := [], outs := [] }

/-- Why a write is not made: a failure, or bytes that have not arrived. -/
inductive ENot where
  | fault (f : EFault)
  | wait
  deriving DecidableEq, Repr

def Loc.range (l : Loc) (n : Nat) : List (Nat × Nat) :=
  match l with
  | .mem pa _ => [(pa, n)]
  | .spad _ | .dev _ => []

/-- The sources of a write: the state without the stream bytes taken, values, poison, ranges read. -/
def Cmd.sources (c : Cmd) (n : Nat) : List ESrc → State → Except ENot (State × List Nat × Bool × List (Nat × Nat))
  | [], s => .ok (s, [], false, [])
  | .mem a :: t, s =>
      match c.read s a n with
      | .error e => .error (.fault e)
      | .ok (l, v, p) =>
          match c.sources n t s with
          | .error e => .error e
          | .ok (u, vs, q, rs) => .ok (u, v :: vs, p || q, l.range n ++ rs)
  | .stream i :: t, s =>
      let bs := streamOf s i
      if bs.length < n then .error .wait
      else
        match c.sources n t (streamPut s i (bs.drop n)) with
        | .error e => .error e
        | .ok (u, vs, q, rs) => .ok (u, ofBytesLe ((bs.take n).map (fun b => b.toNat)) :: vs, q, rs)

/-- Make a write; `force` says that it is written poisoned (R117). -/
def Cmd.write (c : Cmd) (force : Bool) (i : Nat) (r : EngRun) : Except ENot EngRun :=
  match c.piece r.st i with
  | .error e => .error (.fault e)
  | .ok q =>
      match c.sources q.n q.srcs r.st with
      | .error e => .error e
      | .ok (s1, vs, p, rs) =>
          let v := c.value i vs
          let r1 := { r with
            reads := rs ++ r.reads, pois := r.pois || p, ins := vs[0]?.getD 0 :: r.ins, outs := v :: r.outs }
          match q.dst with
          | .stream j =>
              .ok { r1 with st := streamPut s1 j (streamOf s1 j ++ (toBytesLe q.n v).map (BitVec.ofNat 8)) }
          | .mem a =>
              match c.loc s1 .store a with
              | .error e => .error (.fault e)
              | .ok l =>
                  match engineWrite s1 l q.n v (p || force) with
                  | none => .error (.fault (6, a))
                  | some s2 => .ok { r1 with st := s2, writes := l.range q.n ++ r.writes }

/-- Bytes of a write. -/
def Cmd.pieceBytes (c : Cmd) : Nat :=
  match c.op with
  | .cpy | .cpys | .red => 16
  | .gath | .scat => min 16 c.ebytes
  | .gcm => 1

/-- Open points of a command (assumption 5): whether a write above `done` was made, and overlapped bytes. -/
def aboveSlot (i : Nat) : Nat := 2 ^ 37 + i
def overlapSlot (i : Nat) : Nat := 2 ^ 38 + i

/-- Write `i` of the run. Above `done` each write is made or not, as the open choice has it; stream bytes are
left (R112). -/
def Cmd.stepRun (c : Cmd) (force dec : Bool) (i : Nat) (r : EngRun) : EngRun :=
  if r.wait then r
  else
    match r.fault with
    | none =>
        (match c.write force i r with
         | .error (.fault f) => { r with fault := some f }
         | .error .wait => { r with wait := true }
         | .ok u =>
             let d := if dec && c.pbdec then c.decrement c.pieceBytes u.st else (u.st, false)
             { u with st := d.1, under := u.under || d.2, done := u.done + c.pieceBytes })
    | some _ =>
        if !c.srcStr && !c.dstStr && decide ((Config.free r.st.tick (aboveSlot i) 1 : BitVec 1) = 1) then
          (match c.write force i r with
           | .error _ => r
           | .ok u => { u with ins := r.ins, outs := r.outs })
        else r

/-- Writes `i` to `i + n - 1`. -/
def Cmd.runFrom (c : Cmd) (force dec : Bool) : Nat → Nat → EngRun → EngRun
  | 0, _, r => r
  | n + 1, i, r => c.runFrom force dec n (i + 1) (c.stepRun force dec i r)

/-- Destination bytes that the command also read are undefined (R112). -/
def overlapFree (tick : Nat) (reads writes : List (Nat × Nat)) (m : SMap 8) : SMap 8 :=
  (writes.flatMap (fun w => (List.range w.2).map (fun i => w.1 + i))).foldl (fun (m : SMap 8) b =>
    if reads.any (fun r => decide (r.1 ≤ b) && decide (b < r.1 + r.2)) then
      mapSet m b (Config.free tick (overlapSlot b) 8)
    else m) m

def EngRun.overlapped (r : EngRun) : EngRun :=
  { r with st := r.st.setMem { r.st.mem with mem := overlapFree r.st.tick r.reads r.writes r.st.mem.mem } }

/-- All writes of the command, after the streams have been checked. -/
def Cmd.run (c : Cmd) (force dec : Bool) (s : State) : EngRun :=
  if (c.srcStr && !streamOk s c.die c.srcEntry true) || (c.dstStr && !streamOk s c.die c.dstEntry false) then
    { EngRun.start s with fault := some (0xA, 0) }
  else (c.runFrom force dec c.pieces 0 (EngRun.start s)).overlapped

/-! ## EGCM (R116, R117) -/

/-- An outcome of a command: state, STATUS without POIS, done, FADDR, POIS. -/
structure EResult where
  st : State
  status : Nat
  done : Nat
  faddr : Word
  pois : Bool
  deriving DecidableEq, Repr

/-- STATUS of a run (Table 5.7): a failure, a barrier that fell short, or OK. -/
def EngRun.result (r : EngRun) : EResult :=
  match r.fault with
  | some f => { st := r.st, status := f.1, done := r.done, faddr := f.2, pois := r.pois }
  | none => { st := r.st, status := if r.under then 0xB else 1, done := r.done, faddr := 0, pois := r.pois }

def updKey (s : State) (n : Nat) (f : KeySlot → KeySlot) : State :=
  { s with pkg := { s.pkg with keys := s.pkg.keys.map (fun k => if k.slot = n then f k else k) } }

/-- The slot that the command may use. -/
def Cmd.key (c : Cmd) (s : State) : Option KeySlot :=
  s.pkg.keys.find? (fun k => decide (k.slot = c.fld 86 2) && decide (k.owner = c.p)
    && !(c.out && decide (k.txctr = BitVec.allOnes 64)))

/-- Round keys of a slot; byte i of the key is bits [8i+7:8i]. -/
def KeySlot.rounds (k : KeySlot) : List (List Nat) := aesRoundKeys (toBytesLe 32 k.key.toNat)

/-- FIX ‖ CTR, the most significant byte first. -/
def gcmIv (fix : BitVec 32) (ctr : Word) : List Nat := toBytesBe 4 fix.toNat ++ toBytesBe 8 ctr.toNat

/-- The granules of a list of ranges. -/
def rangeGranules (ws : List (Nat × Nat)) : List Nat := (ws.flatMap (fun w => granules w.1 w.2)).foldl setAdd []

def egcmOut (c : Cmd) (k : KeySlot) (s : State) : EResult :=
  let ctr := k.txctr + 1
  let iv := gcmIv k.txfix ctr
  let s1 := updKey s k.slot (fun x => { x with txctr := ctr })
  let r := { c with ks := gcmStream k.rounds iv (c.len / 16) }.run false true s1
  let e := r.result
  if r.fault.isSome then e
  else
    let tag := ofBytesLe (gcmTag k.rounds iv r.outs.reverse ++ iv)
    match c.loc e.st .store (c.addr 96) with
    | .error f => { e with status := f.1, faddr := f.2 }
    | .ok l =>
        match engineWrite e.st l 32 tag false with
        | none => { e with status := 6, faddr := c.addr 96 }
        | some u => { e with st := u }

/-- The end of a copy-in whose data came through: one check of the tag and of the counter. -/
def egcmCheck (c : Cmd) (k : KeySlot) (iv tag : List Nat) (r : EngRun) : EResult :=
  let gs := rangeGranules r.writes
  let ctr := ofBytesBe (iv.drop 4)
  let bad := fun (n : Nat) =>
    ({ st := r.st.setMem { r.st.mem with mem := gs.foldl (fun (m : SMap 8) g => writeLe m (64 * g) 64 0) r.st.mem.mem },
       status := n, done := 0, faddr := 0, pois := r.pois } : EResult)
  if gcmTag k.rounds iv r.ins.reverse ≠ tag then bad 7
  else if ctr ≤ k.rxhi.toNat then bad 8
  else
    let s1 := updKey r.st k.slot (fun x => { x with rxhi := BitVec.ofNat 64 ctr })
    let s2 := s1.setMem { s1.mem with
      pois := gs.foldl setDel s1.mem.pois, locked := s1.mem.locked.filter (fun g => !gs.contains g) }
    let d := if c.pbdec then c.decrement c.len s2 else (s2, false)
    { st := d.1, status := if d.2 then 0xB else 1, done := r.done, faddr := 0, pois := r.pois }

def egcmIn (c : Cmd) (k : KeySlot) (s : State) : EResult :=
  match c.read s (c.addr 96) 32 with
  | .error f => { st := s, status := f.1, done := 0, faddr := f.2, pois := false }
  | .ok (_, v, _) =>
      let iv := toBytesLe 12 (v / 2 ^ 128)
      if ofBytesBe (iv.take 4) ≠ k.rxfix.toNat then { st := s, status := 7, done := 0, faddr := 0, pois := false }
      else
        let r := { c with ks := gcmStream k.rounds iv (c.len / 16) }.run true false s
        if r.fault.isSome then r.result else egcmCheck c k iv (toBytesLe 16 v) r

def egcmRun (c : Cmd) (s : State) : EResult :=
  match c.key s with
  | none => { st := s, status := 9, done := 0, faddr := 0, pois := false }
  | some k => if c.out then egcmOut c k s else egcmIn c k s

/-! ## Completion (R118, R120) -/

/-- The die that is home of a physical address; host memory lies behind the Pontoon die. -/
def homeDie (s : State) (pa : Nat) : Nat := (ownerUnder s (BitVec.ofNat 16 s.rtGen) pa).getD 8

/-- The mailbox record as a number (Table 5.6). -/
def mailboxNat (c : Cmd) (e : EResult) (lcnt : BitVec 48) : Nat :=
  fieldsNat [(0, 4, e.status + if e.pois then 2 ^ 31 else 0), (4, 4, c.tag), (8, 8, e.done), (16, 8, e.faddr.toNat),
    (24, 6, lcnt.toNat)]

/-- The mailbox write: the state, or the STATUS that rd gets instead. -/
def mailboxWrite (c : Cmd) (e : EResult) : Except Nat State :=
  match c.loc e.st .store c.mbox with
  | .error f => .error f.1
  | .ok l =>
      let s1 :=
        match l with
        | .mem pa _ => if homeDie e.st pa = c.die then e.st else e.st.message c.die (homeDie e.st pa)
        | .spad _ | .dev _ => e.st
      match engineWrite s1 l 32 (mailboxNat c e (s1.lcntOf c.die)) false with
      | none => .error 6
      | some u => .ok u

/-- The post to CONT. -/
def completionPost (c : Cmd) (s : State) : State :=
  match c.target s with
  | none => s
  | some k =>
      let s1 := if k.id.holder = c.die then s else s.message c.die k.id.holder
      s1.postTo k.id.cont { code := 1, info := BitVec.ofNat 32 c.tag }

/-- Mailbox, interrupt, rd; `ran` is false for a command that a check turned away. An ECB of reserved AMODE has
no address. -/
def complete (c : Cmd) (ran : Bool) (rd : Reg) (e : EResult) : State :=
  let m : Except Nat State :=
    if c.mb && decide (c.mbox.toNat % 32 = 0) && decide (c.amode ≠ 3) then mailboxWrite c e else .ok e.st
  let p := if e.pois then 2 ^ 31 else 0
  let r : State × Nat :=
    match m with
    | .error n => (e.st, n + p)
    | .ok u => (u, e.status + p)
  let s2 := if ran && c.uipost then completionPost c r.1 else r.1
  ((s2.setX rd (BitVec.ofNat 64 r.2)).advance).tickUp

/-! ## The command instructions -/

/-- The ECB at a physical address; none where no register or memory answers. -/
def readEcb (s : State) (a : Word) : Option Nat :=
  if 2 ^ 52 ≤ a.toNat then none
  else (physLoc s.mem.dev a.toNat true).bind (fun l => (engineRead s l 128).map (fun r => r.1))

/-- Why a command instruction stops (R108). -/
def engineGuard (i : Instr) (rs1 : Reg) (s : State) : Option Stop :=
  let a := s.h.xr rs1
  if s.h.id.kind ≠ .engine then some (illegal i.word)
  else if a.toNat % 128 ≠ 0 then some (Stop.of 4 a)
  else if readEcb s a = none then some (Stop.of 5 a)
  else none

/-- The command that an instruction gives. -/
def engineCmd (op : EOp) (rs1 rs2 : Reg) (s : State) : Cmd :=
  { op := op, x := (readEcb s (s.h.xr rs1)).getD 0, p := (s.h.xr rs2).toNat % 128, die := s.h.id.die, ks := [] }

/-- Outbound lines that the command put on its circuit (R93). -/
def countOut (c : Cmd) (e : EResult) : EResult :=
  if c.dstStr then { e with st := carryLines e.st c.dstEntry ((e.done + 127) / 128) } else e

/-- A command, with its checks and its completion; one that waits for stream bytes is met again. -/
def commandEffect (op : EOp) (rd rs1 rs2 : Reg) (s : State) : State :=
  let c := engineCmd op rs1 rs2 s
  match c.check (s.h.xr rs2) s with
  | some n => complete c false rd { st := s, status := n, done := 0, faddr := 0, pois := false }
  | none =>
      if op = .gcm then complete c true rd (egcmRun c s)
      else
        let r := c.run false true s
        if r.wait then s else complete c true rd (countOut c r.result)

def execEcpy (rd rs1 rs2 : Reg) (s : State) : Host.Outcome State Fault Refusal :=
  guarded (engineGuard (.ecpy rd rs1 rs2) rs1 s) s (commandEffect .cpy rd rs1 rs2 s)

def execEcpys (rd rs1 rs2 : Reg) (s : State) : Host.Outcome State Fault Refusal :=
  guarded (engineGuard (.ecpys rd rs1 rs2) rs1 s) s (commandEffect .cpys rd rs1 rs2 s)

def execEgath (rd rs1 rs2 : Reg) (s : State) : Host.Outcome State Fault Refusal :=
  guarded (engineGuard (.egath rd rs1 rs2) rs1 s) s (commandEffect .gath rd rs1 rs2 s)

def execEscat (rd rs1 rs2 : Reg) (s : State) : Host.Outcome State Fault Refusal :=
  guarded (engineGuard (.escat rd rs1 rs2) rs1 s) s (commandEffect .scat rd rs1 rs2 s)

def execEred (rd rs1 rs2 : Reg) (s : State) : Host.Outcome State Fault Refusal :=
  guarded (engineGuard (.ered rd rs1 rs2) rs1 s) s (commandEffect .red rd rs1 rs2 s)

def execEgcm (rd rs1 rs2 : Reg) (s : State) : Host.Outcome State Fault Refusal :=
  guarded (engineGuard (.egcm rd rs1 rs2) rs1 s) s (commandEffect .gcm rd rs1 rs2 s)

/-! ## EWAITK and kicks (R103 to R106) -/

def Hart.setEng (h : Hart) (e : Engine) : Hart := { h with eng := e }

/-- Free the previous record, then take the oldest filled one, or wait for it. The kick is acquired at package
scope (16 R358). -/
def ewaitkEffect (rd : Reg) (s : State) : State :=
  let e := s.h.eng
  match e.filled with
  | [] => s.setH (s.h.setEng { e with cur := none })
  | r :: t =>
      let h := s.h.setEng { e with filled := t, cur := some r }
      (((s.setH h).setX rd (BitVec.ofNat 64 (kickRecordAddr s.h.id.engineNo r))).acquire .package).advance

def ewaitkGuard (i : Instr) (s : State) : Option Stop :=
  if s.h.id.kind ≠ .engine then some (illegal i.word) else none

def execEwaitk (rd : Reg) (s : State) : Host.Outcome State Fault Refusal :=
  guarded (ewaitkGuard (.ewaitk rd) s) s (ewaitkEffect rd s)

/-- A kick by the current hart reaches the register of an engine of an enabled die. -/
def kickRun (engine : Nat) (payload : Word) (s : State) : Option State :=
  if engine < 320 ∧ s.dieOn (engineDie engine) then some (doKick s engine payload s.h.kicker s.h.id.holder) else none

def execKick (engine : BitVec 9) (payload : Word) (s : State) : Host.Outcome State Fault Refusal :=
  event "KICK" (kickRun engine.toNat payload s)

def execKickRecordFill (engine : BitVec 9) (s : State) : Host.Outcome State Fault Refusal :=
  event "KICK_RECORD_FILL" (if engine.toNat < 320 then kickRecordTake s engine.toNat else none)

/-! ## Microcode (R102) -/

/-- The word at an engine's pc. -/
def engineWord (s : State) (n : Nat) : Option (BitVec 32) :=
  let pc := (s.engine n).s.pc.toNat
  match physLoc s.mem.dev pc true with
  | some l => (engineRead s l 4).map (fun r => BitVec.ofNat 32 r.1)
  | none => none

/-- The engine stands at an EWAITK, or has no microcode yet. -/
def engineIdle (s : State) (n : Nat) : Bool :=
  let isWait : Bool :=
    match (engineWord s n).bind decodeScalar with
    | some (.ewaitk _) => true
    | _ => false
  isWait || decide (s.devGet (engineRamBase + 0x10000 * n) = 0)

/-- Doublewords of an image from offset `o`. -/
def writeImage (base : Nat) (s : State) : Nat → List Byte → State
  | 0, _ => s
  | n + 1, bs =>
      if bs = [] then s
      else writeImage (base + 8) (s.devSet base (BitVec.ofNat 64 (ofBytesLe ((bs.take 8).map (fun b => b.toNat))))) n
        (bs.drop 8)

/-- Doublewords of an image, as a measurement takes them. -/
def imageWords : Nat → List Byte → List Word
  | 0, _ => []
  | n + 1, bs =>
      if bs = [] then []
      else BitVec.ofNat 64 (ofBytesLe ((bs.take 8).map (fun b => b.toNat))) :: imageWords n (bs.drop 8)

/-- The image is written and the engine restarts at offset 0 with its kicks kept; the partitions that hold the
engine measure it (21 R442). -/
def loadMicrocode (s : State) (n : Nat) (image : List Byte) : State :=
  let base := engineRamBase + 0x10000 * n
  let s1 := (writeImage base s 0x1800 image).updEngine n (fun h =>
    { h with s := { h.s with pc := BitVec.ofNat 64 base, priv := .m, resv := none }, eng := { h.eng with cur := none } })
  (s.sched.engines.filter (fun e => decide (e.1 = n))).foldl (fun t e =>
    t.measure (16 + e.2) (BitVec.ofNat 64 n :: imageWords 0x1800 image)) s1

/-- A refused image, or one that the RAM cannot hold, changes nothing. -/
def microcodeRun (n : Nat) (verified : Bool) (image : List Byte) (s : State) : Option State :=
  if 320 ≤ n ∨ ¬ s.dieOn (engineDie n) then none
  else if !verified || decide (0xC000 < image.length) then some s
  else if engineIdle s n then some (loadMicrocode s n image)
  else none

def execMicrocodeLoad (engine : BitVec 9) (verified : Bool) (image : List (BitVec 8)) (s : State) :
    Host.Outcome State Fault Refusal :=
  event "MICROCODE_LOAD" (microcodeRun engine.toNat verified image s)

end Sys2Proof.Machine
end

