-- ==== Sys2Proof/Machine/Fabric.lean ====
section
/-! DEFINITION. The region table's swap, requests in flight across it, partition windows, the circuits, and
plain register writes (00 R8; 04 R70 to R78; 05 R92 to R94). -/

namespace Sys2Proof.Machine

/-! ## The region table (04 R73, R74) -/

def execShadowEntryWrite (i : BitVec 8) (second : Bool) (v : Word) (s : State) :
    Host.Outcome State Fault Refusal :=
  .next (shadowWrite s i.toNat second v (BitVec.allOnes 64))

def execSwap (s : State) : Host.Outcome State Fault Refusal := .next (doSwap s)

def State.genOf (s : State) (d : Nat) : BitVec 16 := s.fab.dieGen[d % 8]'(Nat.mod_lt _ (by decide))

def State.setGen (s : State) (d : Nat) (g : BitVec 16) : State :=
  { s with fab := { s.fab with dieGen := s.fab.dieGen.set (d % 8) g (Nat.mod_lt _ (by decide)) } }

/-- Generation of the active table. -/
def State.curGen (s : State) : BitVec 16 := BitVec.ofNat 16 s.rtGen

/-- Die `d` has acknowledged the drain. -/
def State.acked (s : State) (d : Nat) : Bool := (s.devGet rtctlAddr).getLsbD (32 + d)

/-- The broadcast reaches a die, which switches its routing; requests held for it can be served. -/
def broadcastArrive (d : Nat) (s : State) : Option State :=
  if s.rtBusy ∧ s.dieOn d ∧ s.genOf d ≠ s.curGen then some ((s.message 8 d).setGen d s.curGen) else none

def execSwapBroadcastArrival (die : DieNo) (s : State) : Host.Outcome State Fault Refusal :=
  event "SWAP_BROADCAST_ARRIVAL" (broadcastArrive die.toNat s)

/-- Every enabled die has acknowledged. -/
def allAcked (s : State) : Bool := (List.range 8).all (fun d => !s.dieOn d || s.acked d)

/-- A die whose old requests have completed acknowledges; BUSY clears on the last. -/
def dieAck (d : Nat) (s : State) : Option State :=
  if s.rtBusy ∧ s.dieOn d ∧ s.genOf d = s.curGen ∧ ¬ s.acked d then
    let s0 := s.message d 8
    let s1 := s0.devSet rtctlAddr (setField (s0.devGet rtctlAddr) (32 + d) (32 + d) 1)
    some (if allAcked s1 then s1.devSet rtctlAddr (setField (s1.devGet rtctlAddr) 1 1 0) else s1)
  else none

def execDieAcknowledge (die : DieNo) (s : State) : Host.Outcome State Fault Refusal :=
  event "DIE_ACKNOWLEDGE" (dieAck die.toNat s)

/-! ## Requests in flight (04 R75) -/

/-- What happens to a request at a die. -/
inductive Arrival where
  | serve
  /-- The die has not yet switched to the request's generation. -/
  | hold
  /-- The request goes back to its origin, which routes it again. -/
  | bounce
  deriving DecidableEq, Repr

/-- A request of generation `r.gen` at die `d`; none where it was not routed there. -/
def arrivalOf (s : State) (r : InFlight) (d : Nat) : Option Arrival :=
  if r.gen = s.curGen then
    (if ownerUnder s r.gen r.addr ≠ some d then none
     else if s.genOf d = r.gen then some .serve else some .hold)
  else if s.acked d ∨ ¬ s.rtBusy then
    (if ownerUnder s s.curGen r.addr = some d then some .serve else some .bounce)
  else if ownerUnder s r.gen r.addr = some d then some .serve
  else none

/-- The request is served by the die: a store is performed at its home. -/
def serveRequest (s : State) (i : Nat) (r : InFlight) : State :=
  let s1 := { s with fab := { s.fab with flights := s.fab.flights.eraseIdx i } }
  match r.store with
  | none => s1
  | some v => s1.writePa r.addr 8 v.toNat

def requestArrive (i d : Nat) (s : State) : Option State :=
  match s.fab.flights[i]? with
  | none => none
  | some r =>
      if !s.dieOn d then none
      else
        match arrivalOf s r d with
        | none => none
        | some .hold => some s
        | some .serve => some (serveRequest s i r)
        | some .bounce =>
            some { s with fab := { s.fab with
              flights := s.fab.flights.set i { r with gen := s.genOf r.origin } } }

def execRoutedRequestArrival (i : BitVec 16) (die : DieNo) (s : State) : Host.Outcome State Fault Refusal :=
  event "ROUTED_REQUEST_ARRIVAL" (requestArrive i.toNat die.toNat s)

/-! ## Partition windows (04 R77) -/

def winBase (w0 : Word) : Nat := fieldOf w0 51 21
def winSize (w1 : Word) : Nat := fieldOf w1 30 0
def winTarget (w1 : Word) : Nat := fieldOf w1 62 32

/-- A window that firmware may write as entry `i` of partition `p`: no other valid window of the partition
overlaps it, and it lies below 2^52 on both sides. -/
def windowOk (s : State) (p i : Nat) (w0 w1 : Word) : Bool :=
  !w0.getLsbD 0 ||
    (decide (winBase w0 + winSize w1 ≤ 2 ^ 31) && decide (winTarget w1 + winSize w1 ≤ 2 ^ 31)
     && (List.range 16).all (fun j =>
          let v0 := s.devGet (windowBase + 0x100 * p + 16 * j)
          let v1 := s.devGet (windowBase + 0x100 * p + 16 * j + 8)
          decide (j = i) || !v0.getLsbD 0 || !overlap (winBase w0) (winSize w1) (winBase v0) (winSize v1)))

/-- Firmware writes a window on driver command, or refuses it; the partition's measurement is extended (21 R442,
R443). -/
def windowWrite (p i : Nat) (w0 w1 : Word) (s : State) : State :=
  if s.tdiLocked p || !windowOk s p i w0 w1 then s
  else
    let a := windowBase + 0x100 * p + 16 * i
    ((s.devSet a (w0 &&& (regBits (.window p i false)).1)).devSet (a + 8)
      (w1 &&& (regBits (.window p i true)).1)).measure (16 + p) [BitVec.ofNat 64 i, w0, w1]

def execWindowTableWrite (p : BitVec 7) (i : BitVec 4) (w0 w1 : Word) (s : State) :
    Host.Outcome State Fault Refusal :=
  event "WINDOW_TABLE_WRITE" (if p.toNat < 80 then some (windowWrite p.toNat i.toNat w0 w1 s) else none)

/-! ## Circuits (05 R94) -/

/-- Firmware does not change the circuits of a partition whose TDI is locked (21 R443). -/
def ownerLocked (s : State) (w : Word) : Bool := s.tdiLocked (connOwner w)

def circuitSetUp (i : Nat) (w0 : Word) (s : State) : State :=
  if ownerLocked s w0 then s else doConnWrite s i (w0 ||| 1) (BitVec.allOnes 64)

def execCircuitSetUp (i : BitVec 8) (w0 : Word) (s : State) : Host.Outcome State Fault Refusal :=
  .next (circuitSetUp i.toNat w0 s)

def circuitTearDown (i : Nat) (s : State) : State :=
  if connState (connW0 s i) = 2 ∧ ownerLocked s (connW0 s i) then s else doConnWrite s i 0 1

def execCircuitTearDown (i : BitVec 8) (s : State) : Host.Outcome State Fault Refusal :=
  .next (circuitTearDown i.toNat s)

/-- Set-up completes: STATE becomes up, and LINES counts from 0. -/
def circuitUpRun (i : Nat) (s : State) : Option State :=
  if connState (connW0 s i) = 1 then
    some ((s.devSet (connBase + 16 * i) (setField (connW0 s i) 2 1 2)).devSet (connBase + 16 * i + 8) 0)
  else none

def execCircuitUp (i : BitVec 8) (s : State) : Host.Outcome State Fault Refusal :=
  event "CIRCUIT_UP" (circuitUpRun i.toNat s)

/-- The entry becomes free: V and STATE read 0, and no byte of its stream is left. -/
def freeCircuit (s : State) (i : Nat) : State :=
  let s1 := s.devSet (connBase + 16 * i) (setField (connW0 s i) 2 0 0)
  { s1 with fab := { s1.fab with streams := s1.fab.streams.filter (fun e => decide (e.1 ≠ i)) },
            pkg := { s1.pkg with peerSeq := s1.pkg.peerSeq.filter (fun e => decide (e.1 ≠ i)) } }

def circuitDownRun (i : Nat) (s : State) : Option State :=
  if connState (connW0 s i) = 3 then some (freeCircuit s i) else none

def execCircuitDown (i : BitVec 8) (s : State) : Host.Outcome State Fault Refusal :=
  event "CIRCUIT_DOWN" (circuitDownRun i.toNat s)

/-! ## Registers without behaviour of their own (00 R8) -/

/-- Firmware as a writer. -/
def firmware : Kicker := { cont := 0, part := 127, priv := 3, satp := 0 }

/-- A doubleword write at M. -/
def registerWriteRun (pa : Nat) (v : Word) (s : State) : Option State :=
  if pa % 8 = 0 then devWrite s .m firmware 8 pa 8 v.toNat else none

def execRegisterWrite (pa : BitVec 52) (v : Word) (s : State) : Host.Outcome State Fault Refusal :=
  event "REGISTER_WRITE" (registerWriteRun pa.toNat v s)

end Sys2Proof.Machine
end

