-- ==== Sys2Proof/Machine/Package.lean ====
section
/-! DEFINITION. The package: errors and poison lists, far and peer ports, boot, trust, the host link, heat and
the host port (04 R87, R88; 16 R359; 21). -/

namespace Sys2Proof.Machine

/-! ## Errors and poison (04 R87, R88) -/

/-- Die and channel of a near-tier granule. -/
def nearChannel (s : State) (g : Nat) : Option (Nat × Nat) :=
  if 64 * g < 0x10000000000 then
    (route s.mem.dev activeBase (64 * g)).map (fun r => (r.1, r.2.2 / 8))
  else none

/-- Entries of a channel's poison list. -/
def channelUse (s : State) (c : Nat × Nat) : Nat :=
  (s.mem.plist.filter (fun g => decide (nearChannel s g = some c))).length

/-- The L2 writes a poisoned granule back: it enters its channel's list, or stays locked in its slice and is
reported when the list is full. -/
def poisonWriteBack (s : State) (g : Nat) : State :=
  match nearChannel s g with
  | none => s
  | some c =>
      if !s.mem.pois.contains g || s.mem.plist.contains g || s.mem.locked.contains g then s
      else if channelUse s c < 1024 then s.setMem { s.mem with plist := setAdd s.mem.plist g }
      else (s.setMem { s.mem with locked := setAdd s.mem.locked g }).ras 2 4 c.1 (64 * g)

/-- An uncorrectable error: what it strikes is poisoned, or an L1 line discarded, and it is reported. -/
def eccError (s : State) (e : EccSite) : State :=
  let d := s.h.id.die
  match e with
  | .l1 core line =>
      (s.setMem { s.mem with
        l1 := s.mem.l1.filter (fun x => !(decide (x.1 = core) && decide (x.2.1 = line))) }).ras 1 0 (core / 160) 0
  | .spad g => (s.setMem { s.mem with spadPois := setAdd s.mem.spadPois g }).ras 2 1 (g / 8192 / 160) 0
  | .reg f ix n =>
      if n < s.h.id.groups then
        (s.setH (s.h.setVreg f ix { (s.h.vreg f ix) with
          pois := (s.h.vreg f ix).pois ||| (1 : BitVec 8) <<< n })).ras 2 2 d 0
      else s
  | .acc t r =>
      if h : t < 16 then
        (s.setH { s.h with mat := { s.h.mat with
          ma := s.h.mat.ma.set t { s.h.mat.ma[t] with pois := s.h.mat.ma[t].pois ||| (1 : BitVec 32) <<< r } h } }).ras 2 3 d 0
      else s
  | .mem g =>
      if 64 * g < 0x10000000000 then
        (s.setMem { s.mem with pois := setAdd s.mem.pois g }).ras 2 5 (((nearChannel s g).map (fun c => c.1)).getD 8) (64 * g)
      else if 64 * g < 0x200000000000 then (s.setMem { s.mem with pois := setAdd s.mem.pois g }).ras 2 6 8 (64 * g)
      else s

/-- Patrol scrub meets an error in a granule of the near tier: corrected and reported, or poisoned and
reported. -/
def patrolRun (g : Nat) (correctable : Bool) (s : State) : Option State :=
  (nearChannel s g).map (fun c =>
    if correctable then s.ras 1 5 c.1 (64 * g)
    else
      let s1 := (s.setMem { s.mem with pois := setAdd s.mem.pois g }).ras 2 5 c.1 (64 * g)
      poisonWriteBack s1 g)

def execPatrolScrub (granule : BitVec 46) (correctable : Bool) (s : State) : Host.Outcome State Fault Refusal :=
  event "PATROL_SCRUB" (patrolRun granule.toNat correctable s)

/-- List entries whose granules have been overwritten are freed, and locked granules take the room. -/
def poisonFree (gs : List Nat) (s : State) : State :=
  let s1 := s.setMem { s.mem with
    plist := s.mem.plist.filter (fun g => !(gs.contains g && !s.mem.pois.contains g)) }
  s1.mem.locked.foldl (fun (t : State) g =>
    match nearChannel t g with
    | none => t
    | some c =>
        if channelUse t c < 1024 then
          t.setMem { t.mem with plist := setAdd t.mem.plist g, locked := setDel t.mem.locked g }
        else t) s1

def execPoisonListFree (granules : List (BitVec 46)) (s : State) : Host.Outcome State Fault Refusal :=
  .next (poisonFree (granules.map (fun g => g.toNat)) s)

/-! ## Far and peer ports (21 R446, R447) -/

def cxlDownRun (p : BitVec 2) (s : State) : Option State :=
  if s.pkg.cxlDown.getLsbD p.toNat then none
  else some (({ s with pkg := { s.pkg with cxlDown := s.pkg.cxlDown ||| (1 : BitVec 4) <<< p.toNat } }).ras 3 6 8 0)

def execCxlPortDown (port : BitVec 2) (s : State) : Host.Outcome State Fault Refusal :=
  event "CXL_PORT_DOWN" (cxlDownRun port s)

/-- Next sequence number of a circuit's frames. -/
def frameSeq (s : State) (i : Nat) : BitVec 32 :=
  ((s.pkg.peerSeq.find? (fun e => decide (e.1 = i))).map (fun e => e.2)).getD 0

/-- A frame that checks is delivered once, in order; any other is sent again. -/
def frameRun (port i : Nat) (seq : BitVec 32) (crcOk : Bool) (bs : List Byte) (s : State) : Option State :=
  let w := connW0 s i
  if connState w ≠ 2 ∨ connSrc w ≠ 8 + port ∨ s.pkg.peerDown.getLsbD port then none
  else if bs.length < 16 ∨ 128 < bs.length then none
  else if !crcOk || decide (seq ≠ frameSeq s i) then some s
  else
    let s1 := carryLines (streamPut s i (streamOf s i ++ bs)) i 1
    some { s1 with pkg := { s1.pkg with
      peerSeq := (i, seq + 1) :: s1.pkg.peerSeq.filter (fun e => decide (e.1 ≠ i)) } }

def execPeerFrameReceive (port : BitVec 3) (entry : BitVec 8) (seq : BitVec 32) (crcOk : Bool)
    (payload : List (BitVec 8)) (s : State) : Host.Outcome State Fault Refusal :=
  event "PEER_FRAME_RECEIVE" (frameRun port.toNat entry.toNat seq crcOk payload s)

/-- Circuits with an endpoint at port `p` go down with its link. -/
def linkFail (p : Nat) (s : State) : Option State :=
  if s.pkg.peerDown.getLsbD p then none
  else
    let s1 := (List.range 256).foldl (fun (t : State) i =>
      let w := connW0 t i
      if connState w ≠ 0 ∧ (connSrc w = 8 + p ∨ connDst w = 8 + p) then freeCircuit t i else t) s
    some (({ s1 with pkg := { s1.pkg with peerDown := s1.pkg.peerDown ||| (1 : BitVec 8) <<< p } }).ras 3 7 8 0)

def execPeerLinkFail (port : BitVec 3) (s : State) : Host.Outcome State Fault Refusal :=
  event "PEER_LINK_FAIL" (linkFail port.toNat s)

/-! ## Boot (21 R438 to R441) -/

def bootStage (s : State) : Nat := fieldOf (s.devGet bootstatAddr) 3 0
def bootErr (s : State) : Nat := fieldOf (s.devGet bootstatAddr) 7 4
def setBoot (s : State) (stage err : Nat) : State :=
  s.devSet bootstatAddr (BitVec.ofNat 64 (stage % 16 + 16 * (err % 16)))

/-- The ROM's checks of an image; `trip` is the error of a trip before, which a good image leaves shown. -/
def romCheck (ecdsaOk lmsOk versionOk : Bool) (trip : Nat) (s : State) : State :=
  if !ecdsaOk || !lmsOk then setBoot s 0 1
  else if !versionOk then setBoot s 0 2
  else ((setBoot s 1 trip).measure 1 []).measure 2 []

/-- Host memory, which is not the package's to lose. -/
def hostBytes (m : SMap 8) : SMap 8 := m.filter (fun e => decide (0x4000000000000 ≤ e.1))

/-- The machine as power comes up. -/
def powerUp (s : State) : State :=
  { State.reset with
    mem := { MemSys.reset with mem := hostBytes s.mem.mem }, tick := s.tick, agenda := s.agenda,
    pkg := { Pkg.reset with tripOwed := s.pkg.tripped || s.pkg.tripOwed } }

def coldResetRun (ecdsaOk lmsOk versionOk : Bool) (s : State) : State :=
  romCheck ecdsaOk lmsOk versionOk (if s.pkg.tripped then 4 else 0) (powerUp s)

def execColdReset (ecdsaOk lmsOk versionOk : Bool) (s : State) : Host.Outcome State Fault Refusal :=
  .next (coldResetRun ecdsaOk lmsOk versionOk s)

/-- The host's replacement image, while the ROM waits for one. -/
def execRecoveryImageWrite (ecdsaOk lmsOk versionOk : Bool) (s : State) : Host.Outcome State Fault Refusal :=
  event "RECOVERY_IMAGE_WRITE"
    (if bootStage s = 0 ∧ (bootErr s = 1 ∨ bootErr s = 2) then
      some (romCheck ecdsaOk lmsOk versionOk 0 s) else none)

/-- What training found and the host asked for. -/
structure Training where
  enabled : BitVec 8
  farMode : Nat
  farGib : List Nat
  power : Nat
  timeHz : Word
  ebudget : List Nat
  peers : BitVec 8
  hostW : Nat
  hostGt : Nat
  fwVer : BitVec 32
  deriving DecidableEq, Repr

/-- A region-table entry (Table 4.2). -/
def rtEntry (far : Bool) (dies : BitVec 8) (base count : Nat) : Word :=
  BitVec.ofNat 64 (1 + (if far then 2 else 0) + dies.toNat * 4 + base % 2 ^ 22 * 2 ^ 16 + count % 2 ^ 15 * 2 ^ 38)

/-- Far extents, one for each populated port, or one for an interleaved set. -/
def farEntries (dies : BitVec 8) : List Nat → Nat → List Word
  | [], _ => []
  | g :: t, base =>
      if g = 0 then farEntries dies t base
      else rtEntry true dies base g :: farEntries dies t (base + g)

/-- The initial region table (R440). -/
def initialTable (t : Training) : List Word :=
  let k := (bitsOf t.enabled.toNat 8).length
  rtEntry false t.enabled 0 (64 * k) ::
    (if t.farMode = 0 then farEntries t.enabled t.farGib 0x4000
     else farEntries t.enabled [t.farGib.foldl (· + ·) 0] 0x4000)

/-- The capability table's first 84 bytes (Table 21.2). -/
def capTable (t : Training) : Nat :=
  let k := (bitsOf t.enabled.toNat 8).length
  fieldsNat ([(0, 4, 0x4E4B4350), (4, 2, 1), (6, 1, k), (7, 1, t.enabled.toNat), (8, 2, 160 * k), (10, 1, 10 * k),
    (11, 1, t.farMode), (28, 4, t.power), (32, 8, t.timeHz.toNat), (72, 1, t.peers.toNat), (73, 1, t.hostW),
    (74, 1, t.hostGt), (76, 2, 0x690), (78, 2, 0x780), (80, 4, t.fwVer.toNat)]
    ++ (List.range 4).map (fun i => (12 + 4 * i, 4, t.farGib[i]?.getD 0))
    ++ (List.range 8).map (fun d => (40 + 4 * d, 4, if t.enabled.getLsbD d then t.ebudget[d]?.getD 0 else 0)))

/-- Doublewords from an address. -/
def devPutAll (s : State) : Nat → List Word → State
  | _, [] => s
  | a, w :: t => devPutAll (s.devSet a w) (a + 8) t

/-- Doublewords of a number. -/
def wordsOf (x n : Nat) : List Word := (List.range n).map (fun i => BitVec.ofNat 64 (x / 2 ^ (64 * i)))

/-- Entries of a region table from number `i`. -/
def tablePut (s : State) : Nat → List Word → State
  | _, [] => s
  | i, w :: t => tablePut (s.devSet (activeBase + 16 * i) w) (i + 1) t

/-- A power limit within the module's range (00 R4). -/
def clampTo (x lo hi : Nat) : Nat := if x < lo then lo else if hi < x then hi else x

/-- Values that Table 21.2 gives the fields. -/
def trainingOk (t : Training) : Bool :=
  decide (t.farMode ≤ 2) && decide (t.farGib.length = 4) && decide (t.ebudget.length = 8)
    && decide (1 ≤ t.hostW) && decide (t.hostW ≤ 16) && [2, 5, 8, 16, 32, 64].contains t.hostGt
    && decide (t.farGib.foldl (· + ·) 0 ≤ 16384)

/-- Registers and tables that training leaves (R440, R441; 18 Table 18.10). -/
def trained (t : Training) (s : State) : State :=
  let s1 := { s with pkg := { s.pkg with dies := t.enabled } }
  let s2 := tablePut s1 0 (initialTable t)
  let s3 := devPutAll s2 capBase (wordsOf (capTable t) 11)
  let s4 := (bitsOf t.enabled.toNat 8).foldl (fun (u : State) d =>
    u.devSet (powerBase + 0x100 * d) (BitVec.ofNat 64 ((t.ebudget[d]?).getD 0 % 2 ^ 32))) s3
  setBoot ((s4.measure 3 (wordsOf (capTable t) 11)).measure 4 (initialTable t)) 5 (bootErr s)

def dieTrainingRun (t : Training) (s : State) : Option State :=
  if bootStage s ≠ 1 ∨ trainingOk t = false then none
  else if t.enabled = 0 then some (setBoot s 1 3)
  else some (trained t s)

def execDieTraining (ports caches : BitVec 8) (farMode : BitVec 8) (farGib : List (BitVec 32))
    (powerReq powerLo powerHi : BitVec 32) (timeHz : Word) (ebudget : List (BitVec 32))
    (peers hostW hostGt : BitVec 8) (fwVer : BitVec 32) (s : State) : Host.Outcome State Fault Refusal :=
  event "DIE_TRAINING"
    (dieTrainingRun
      { enabled := ports &&& caches, farMode := farMode.toNat, farGib := farGib.map (fun g => g.toNat),
        power := clampTo powerReq.toNat powerLo.toNat powerHi.toNat, timeHz := timeHz,
        ebudget := ebudget.map (fun b => b.toNat), peers := peers, hostW := hostW.toNat, hostGt := hostGt.toNat,
        fwVer := fwVer } s)

/-! ## Trust (21 R442 to R444) -/

/-- Blocks that exist (Table 21.3). -/
def measurementIndex (i : Nat) : Bool := decide (1 ≤ i ∧ i ≤ 4) || decide (16 ≤ i ∧ i < 96)

def getMeasurements (i : Nat) (s : State) : State :=
  if measurementIndex i then
    let a := (s.pkg.measured.filter (fun m => decide (m.1 = i))).map (fun m => m.2)
    { s with pkg := { s.pkg with answers := (i, a) :: s.pkg.answers } }
  else s

def execGetMeasurements (ix : BitVec 8) (s : State) : Host.Outcome State Fault Refusal :=
  .next (getMeasurements ix.toNat s)

def State.tdiOf (s : State) (p : Nat) : TdiState :=
  ((s.pkg.tdi.find? (fun t => decide (t.1 = p))).map (fun t => t.2)).getD .unlocked

def State.setTdi (s : State) (p : Nat) (t : TdiState) : State :=
  { s with pkg := { s.pkg with tdi := (p, t) :: s.pkg.tdi.filter (fun e => decide (e.1 ≠ p)) } }

/-- Key-slot owners, as a measurement takes them. -/
def slotOwners (s : State) : List Word := s.pkg.keys.map (fun k => BitVec.ofNat 64 (k.slot + 256 * k.owner))

/-- SETKEY from the session of partition `p`'s TDI (R444). -/
def setkeyRun (p slot : Nat) (key : BitVec 256) (txfix rxfix : BitVec 32) (s : State) : State :=
  if !s.tdiLocked p || s.pkg.keys.any (fun k => decide (k.slot = slot) && decide (k.owner ≠ p)) then s
  else
    let k : KeySlot := { slot := slot, key := key, owner := p, txfix := txfix, txctr := 0, rxfix := rxfix, rxhi := 0 }
    let s1 := { s with pkg := { s.pkg with keys := k :: s.pkg.keys.filter (fun x => decide (x.slot ≠ slot)) } }
    s1.measure (16 + p) (slotOwners s1)

def execSetkey (part : BitVec 7) (slot : BitVec 6) (key : BitVec 256) (txfix rxfix : BitVec 32) (s : State) :
    Host.Outcome State Fault Refusal :=
  event "SETKEY" (if part.toNat < 80 then some (setkeyRun part.toNat slot.toNat key txfix rxfix s) else none)

/-- Moves between the states other than ERROR, and out of ERROR (TDISP; assumption 19). -/
def tdiMove : TdiState → TdiState → Bool
  | .unlocked, .locked | .locked, .run | .locked, .unlocked | .run, .unlocked | .error, .unlocked => true
  | _, _ => false

def execTdispStateChange (part : BitVec 7) (st : TdiState) (s : State) : Host.Outcome State Fault Refusal :=
  event "TDISP_STATE_CHANGE"
    (if part.toNat < 80 ∧ tdiMove (s.tdiOf part.toNat) st then some (s.setTdi part.toNat st) else none)

/-- Entry to ERROR: the partition's key slots empty, and a RAS record is posted (R443). -/
def tdiFail (p : Nat) (s : State) : State :=
  let s1 := s.setTdi p .error
  let s2 := { s1 with pkg := { s1.pkg with keys := s1.pkg.keys.filter (fun k => decide (k.owner ≠ p)) } }
  let s3 := if s.pkg.keys.any (fun k => decide (k.owner = p)) then s2.measure (16 + p) (slotOwners s2) else s2
  s3.ras 4 8 8 0

def execTdiError (part : BitVec 7) (s : State) : Host.Outcome State Fault Refusal :=
  event "TDI_ERROR"
    (if part.toNat < 80 ∧ s.tdiOf part.toNat ≠ .error then some (tdiFail part.toNat s) else none)

/-! ## The host link (21 R445) -/

def ideOf (s : State) (i : Nat) : IdeStream :=
  (s.pkg.ide.find? (fun e => decide (e.stream = i))).getD { stream := i, set := false, oldLive := false, flits := [] }

def idePut (s : State) (e : IdeStream) : State :=
  { s with pkg := { s.pkg with ide := e :: s.pkg.ide.filter (fun x => decide (x.stream ≠ e.stream)) } }

/-- A flit is sent under the key set in use and stays in the replay buffer. -/
def flitSend (s : State) (i : Nat) (seq : BitVec 16) : State :=
  let e := ideOf s i
  if 16 ≤ i ∨ e.flits.any (fun f => decide (f.1 = seq)) then s
  else idePut s { e with flits := e.flits ++ [(seq, e.set)] }

/-- A flit has been accepted and leaves the buffer. -/
def flitAck (s : State) (i : Nat) (seq : BitVec 16) : State :=
  let e := ideOf s i
  if 16 ≤ i then s else idePut s { e with flits := e.flits.filter (fun f => decide (f.1 ≠ seq)) }

/-- The sender goes over to the other key set, once the set before it has been retired. -/
def keySwitch (s : State) (i : Nat) : State :=
  let e := ideOf s i
  if 16 ≤ i ∨ e.oldLive then s else idePut s { e with set := !e.set, oldLive := true }

/-- The receiver holds the key set of a flit. -/
def setLive (e : IdeStream) (k : Bool) : Bool := decide (k = e.set) || e.oldLive

/-- A NAKed flit is replayed under the set that it was first sent under, and is accepted. -/
def flitReplayRun (i : Nat) (seq : BitVec 16) (s : State) : Option State :=
  match (ideOf s i).flits.find? (fun f => decide (f.1 = seq)) with
  | none => none
  | some f => if setLive (ideOf s i) f.2 then some (flitAck s i seq) else none

def execFlitReplay (stream : BitVec 4) (seq : BitVec 16) (s : State) : Host.Outcome State Fault Refusal :=
  event "FLIT_REPLAY" (flitReplayRun stream.toNat seq s)

/-- K_SET_STOP for the old set, which is sent only when the buffer holds no flit of it: the receiver retires
the set. -/
def setStopRun (i : Nat) (set : Bool) (s : State) : Option State :=
  let e := ideOf s i
  if e.oldLive ∧ set ≠ e.set ∧ e.flits.all (fun f => decide (f.2 ≠ set)) = true then
    some (idePut s { e with oldLive := false })
  else none

def execKSetStop (stream : BitVec 4) (set : Bool) (s : State) : Host.Outcome State Fault Refusal :=
  event "K_SET_STOP" (setStopRun stream.toNat set s)

/-! ## RAS ring (21 R448) -/

/-- The driver gives the ring at boot; the record of a trip before the power-up follows (R450). -/
def giveRing (s : State) (base lg : Nat) : State :=
  if base % 4096 ≠ 0 ∨ base < 0x4000000000000 ∨ 0x8000000000000 ≤ base + 64 * 2 ^ lg ∨ s.pkg.rasRing.isSome then s
  else
    let s1 := { s with pkg := { s.pkg with rasRing := some (base, lg), rasFree := 2 ^ lg } }
    if s1.pkg.tripOwed then { s1 with pkg := { s1.pkg with tripOwed := false } }.ras 5 8 8 0 else s1

/-- The host has read `n` more entries. -/
def ringRead (s : State) (n : Nat) : State :=
  match s.pkg.rasRing with
  | none => s
  | some (_, lg) => { s with pkg := { s.pkg with rasFree := min (2 ^ lg) (s.pkg.rasFree + n) } }

/-! ## Heat (21 R449, R450) -/

def sensorAddr (d i : Nat) : Nat := powerBase + 0x80 + 0x100 * d + 8 * i

/-- Die `d` has sensors: an enabled die, or the Pontoon die. -/
def sensorOk (s : State) (d i : Nat) : Bool := (s.dieOn d || decide (d = 8)) && decide (i < 16)

/-- A reading of one sensor, with its peak (Table 21.5). -/
def senseReg (old : Word) (temp : BitVec 16) : Word :=
  let peak : BitVec 16 := old.extractLsb' 32 16
  let p := if (old.getLsbD 16 = false ∧ peak = 0) ∨ peak.toInt < temp.toInt then temp else peak
  setField (setField (setField old 15 0 temp.toNat) 16 16 1) 47 32 p.toNat

/-- Hottest valid reading of a die. -/
def hottest (s : State) (d : Nat) : Option Int :=
  (List.range 16).foldl (fun (m : Option Int) i =>
    let w := s.devGet (sensorAddr d i)
    let t : Int := (w.extractLsb' 0 16 : BitVec 16).toInt
    if w.getLsbD 16 then some (match m with | none => t | some x => if x < t then t else x) else m) none

/-- HEADROOM: the hottest sensor's margin below the junction limit (18 Table 18.10). -/
def headroom (s : State) (d : Nat) : Nat :=
  match hottest s d with
  | none => 0
  | some t => (0x690 - t).toNat % 2 ^ 16

/-- A sensor takes a reading. -/
def senseDie (s : State) (d i : Nat) (temp : BitVec 16) : State :=
  if !sensorOk s d i then s
  else
    let s1 := s.devSet (sensorAddr d i) (senseReg (s.devGet (sensorAddr d i)) temp)
    if d < 8 then
      let a := powerBase + 0x100 * d + 0x20
      s1.devSet a (setField (s1.devGet a) 15 0 (headroom s1 d))
    else s1

/-- Above TJMAX firmware lowers the die's clock and sets THT; the Pontoon die has no such clock. -/
def throttleRun (d i : Nat) (temp : BitVec 16) (mhz : BitVec 12) (s : State) : Option State :=
  if sensorOk s d i = false ∨ temp.toInt ≤ 0x690 then none
  else
    let s1 := senseDie s d i temp
    if d = 8 then some s1
    else
      let a := powerBase + 0x100 * d + 0x18
      let w := s1.devGet a
      if fieldOf w 11 0 ≤ mhz.toNat then none
      else some (s1.devSet a (setField (setField w 11 0 mhz.toNat) 13 13 1))

def execThermalThrottle (die : BitVec 4) (sensor : BitVec 4) (temp : BitVec 16) (mhz : BitVec 12) (s : State) :
    Host.Outcome State Fault Refusal :=
  event "THERMAL_THROTTLE" (throttleRun die.toNat sensor.toNat temp mhz s)

/-- A sensor reaches TJTRIP: the package powers off. -/
def tripRun (d i : Nat) (s : State) : Option State :=
  if sensorOk s d i then some { s with pkg := { s.pkg with powered := false, tripped := true } } else none

def execThermalTrip (die : BitVec 4) (sensor : BitVec 4) (s : State) : Host.Outcome State Fault Refusal :=
  event "THERMAL_TRIP" (tripRun die.toNat sensor.toNat s)

/-! ## The host port (16 R359; 04 Table 4.4 CONF; 21 R443) -/

/-- Partitions with a confidential window over a physical address. -/
def confOwners (s : State) (pa : Nat) : List Nat :=
  (List.range 80).filter (fun p => (List.range 16).any (fun i =>
    let w0 := s.devGet (windowBase + 0x100 * p + 16 * i)
    let w1 := s.devGet (windowBase + 0x100 * p + 16 * i + 8)
    w0.getLsbD 0 && w0.getLsbD 5 && decide (winTarget w1 * 2 ^ 21 ≤ pa)
      && decide (pa < (winTarget w1 + winSize w1) * 2 ^ 21)))

/-- The host's access to a confidential window is refused: it does not come from the partition's TDI, or that
TDI is in ERROR. -/
def confRefused (s : State) (tdi : Option (BitVec 7)) (p : Nat) : Bool :=
  decide (tdi.map (fun t => t.toNat) ≠ some p) || decide (s.tdiOf p = .error)

/-- A refused access sends every partition's TDI that did not issue it to ERROR. -/
def confFault (s : State) (tdi : Option (BitVec 7)) (ps : List Nat) : State :=
  ps.foldl (fun (t : State) p =>
    if tdi.map (fun x => x.toNat) ≠ some p ∧ t.tdiOf p ≠ .error then tdiFail p t else t) s

/-- A doubleword that the host may read: memory, a notify register, or BOOTSTAT. -/
def hostRead (s : State) (pa : Nat) : Option Nat :=
  match physLoc s.mem.dev pa true with
  | some (.mem a _) => some (agentRead s a 8)
  | some (.dev a) =>
      match devReg a with
      | some (.notify _) => devRead s .u 127 a 8 .plain
      | some .bootstat => some (s.devGet bootstatAddr).toNat
      | _ => none
  | _ => none

/-- A posted write to memory or to a notify register. -/
def hostWrite (s : State) (pa v : Nat) : Option State :=
  match physLoc s.mem.dev pa true with
  | some (.mem a _) => some (s.writePa a 8 v)
  | some (.dev a) =>
      match devReg a with
      | some (.notify _) => devWrite s .u firmware 8 a 8 v
      | _ => none
  | _ => none

def pushHostRead (s : State) (pa : Nat) (v : Option Word) : State :=
  { s with pkg := { s.pkg with hostReads := (pa, v) :: s.pkg.hostReads } }

/-- One access of the host port. One that is refused, or that nothing answers, returns no data and writes
nothing. -/
def hostAccess (pa : Nat) (write : Option Word) (tdi : Option (BitVec 7)) (s : State) : State :=
  let ps := confOwners s pa
  let refused := ps.any (confRefused s tdi)
  match write with
  | none =>
      if refused then pushHostRead (confFault s tdi ps) pa none
      else pushHostRead s pa ((hostRead s pa).map (BitVec.ofNat 64))
  | some w => if refused then confFault s tdi ps else (hostWrite s pa w.toNat).getD s

def execHostPortAccess (pa : BitVec 52) (write : Option Word) (tdi : Option (BitVec 7)) (s : State) :
    Host.Outcome State Fault Refusal :=
  event "HOST_PORT_ACCESS" (if pa.toNat % 8 = 0 then some (hostAccess pa.toNat write tdi s) else none)

end Sys2Proof.Machine
end

