-- ==== Sys2Proof/Machine/ScalarFp.lean ====
section
/-! DEFINITION. The scalar F and D computations (02 R31, 03 Table 3.7), with the effects of the RISC-V
unprivileged specification (assumption 21). -/

namespace Sys2Proof.Machine

def fwFmt (fw : FW) : FFmt :=
  match fw with
  | .s => fp32
  | .d => fp64

/-- An operand: a single must be boxed by ones, or it reads as the default NaN. -/
def fpRead (fw : FW) (w : Word) : Nat :=
  match fw with
  | .d => w.toNat
  | .s => if w.toNat / 2 ^ 32 = 2 ^ 32 - 1 then w.toNat % 2 ^ 32 else fp32.nan

/-- A result as an f register holds it. -/
def fpBox (fw : FW) (x : Nat) : Word :=
  match fw with
  | .d => BitVec.ofNat 64 x
  | .s => nanBox (BitVec.ofNat 32 x)

/-- Width and signedness of an integer side. -/
def cvtIntOf (i : CvtInt) : Bool × Nat :=
  match i with
  | .w => (true, 32)
  | .wu => (false, 32)
  | .l => (true, 64)
  | .lu => (false, 64)

/-- An integer of a conversion as x holds it: words are sign-extended. -/
def intToX (w : Nat) (x : Nat) : Word :=
  if w = 32 then sext64 (BitVec.ofNat 32 x) else BitVec.ofNat 64 x

def fArithRes (env : FEnv) (op : FArith) (f : FFmt) (a b : Nat) : FRes :=
  match op with
  | .add => env.add f a b
  | .sub => env.sub f a b
  | .mul => env.mul f a b
  | .div => env.div f a b

def fMulAddRes (env : FEnv) (op : FMulAdd) (f : FFmt) (a b c : Nat) : FRes :=
  match op with
  | .madd => env.muladd f f false false a b c
  | .msub => env.muladd f f false true a b c
  | .nmsub => env.muladd f f true false a b c
  | .nmadd => env.muladd f f true true a b c

def fSelectRes (op : FSelect) (f : FFmt) (a b : Nat) : FRes :=
  let env : FEnv := { mode := .rne, fcompat := 0 }
  match op with
  | .sgnj => { bits := fsgnj f 0 a b, flags := 0 }
  | .sgnjn => { bits := fsgnj f 1 a b, flags := 0 }
  | .sgnjx => { bits := fsgnj f 2 a b, flags := 0 }
  | .min => env.minMax .number false f a b
  | .max => env.minMax .number true f a b

def fCmpRes (op : FCmp) (f : FFmt) (a b : Nat) : Bool × BitVec 5 :=
  let env : FEnv := { mode := .rne, fcompat := 0 }
  match op with
  | .eq => env.compare .eq f a b
  | .lt => env.compare .lt f a b
  | .le => env.compare .le f a b

/-- A float result into f[rd]. -/
def putF (h : Hart) (fw : FW) (rd : Reg) (r : FRes) : Hart := (h.setF rd (fpBox fw r.bits)).addFlags r.flags

/-- An integer result into x[rd]. -/
def putX (h : Hart) (rd : Reg) (v : Word) (fl : BitVec 5) : Hart := (h.setX rd v).addFlags fl

/-- The instruction's effect on the registers and the flags; none when its rounding mode is reserved. -/
def fpResult (f : FpForm) (h : Hart) : Option Hart :=
  match f with
  | .arith op fw rd rs1 rs2 rm =>
      (scalarEnv h rm).map (fun env =>
        putF h fw rd (fArithRes env op (fwFmt fw) (fpRead fw (h.fr rs1)) (fpRead fw (h.fr rs2))))
  | .sqrt fw rd rs1 rm =>
      (scalarEnv h rm).map (fun env => putF h fw rd (env.sqrt (fwFmt fw) (fpRead fw (h.fr rs1))))
  | .fma op fw rd rs1 rs2 rs3 rm =>
      (scalarEnv h rm).map (fun env =>
        putF h fw rd (fMulAddRes env op (fwFmt fw) (fpRead fw (h.fr rs1)) (fpRead fw (h.fr rs2))
          (fpRead fw (h.fr rs3))))
  | .select op fw rd rs1 rs2 =>
      some (putF h fw rd (fSelectRes op (fwFmt fw) (fpRead fw (h.fr rs1)) (fpRead fw (h.fr rs2))))
  | .cmp op fw rd rs1 rs2 =>
      let r := fCmpRes op (fwFmt fw) (fpRead fw (h.fr rs1)) (fpRead fw (h.fr rs2))
      some (putX h rd (if r.1 then 1 else 0) r.2)
  | .class_ fw rd rs1 => some (putX h rd (BitVec.ofNat 64 (fclass (fwFmt fw) (fpRead fw (h.fr rs1)))) 0)
  | .toInt i fw rd rs1 rm =>
      (scalarEnv h rm).map (fun env =>
        let r := env.toInt (fwFmt fw) (cvtIntOf i).1 (cvtIntOf i).2 (fpRead fw (h.fr rs1))
        putX h rd (intToX (cvtIntOf i).2 r.bits) r.flags)
  | .ofInt i fw rd rs1 rm =>
      (scalarEnv h rm).map (fun env =>
        putF h fw rd (env.ofInt (fwFmt fw) (cvtIntOf i).1 (cvtIntOf i).2
          ((h.xr rs1).toNat % 2 ^ (cvtIntOf i).2)))
  | .toFloat .s rd rs1 rm =>
      (scalarEnv h rm).map (fun env =>
        putF h .s rd (env.convert fp64 fp32 false false (fp64.unpack (h.fr rs1).toNat)))
  | .toFloat .d rd rs1 rm =>
      (scalarEnv h rm).map (fun env =>
        putF h .d rd (env.convert fp32 fp64 false false (fp32.unpack (fpRead .s (h.fr rs1)))))
  | .mvToX .s rd rs1 => some (putX h rd (sext64 ((h.fr rs1).truncate 32 : BitVec 32)) 0)
  | .mvToX .d rd rs1 => some (putX h rd (h.fr rs1) 0)
  | .mvToF .s rd rs1 => some (h.setF rd (nanBox ((h.xr rs1).truncate 32)))
  | .mvToF .d rd rs1 => some (h.setF rd (h.xr rs1))

/-- A scalar float computation; a reserved rounding mode in frm raises illegal-instruction. -/
def execFpOp (f : FpForm) (s : State) : Host.Outcome State Fault Refusal :=
  match fpResult f s.h with
  | none => .next (raise (illegal ((Instr.fpOp f).word)) s)
  | some h => .next (s.setH h).advance

end Sys2Proof.Machine
end

