-- ==== Sys2Proof/Machine/ScalarInt.lean ====
section
/-! DEFINITION. RV64I, M, Zba and Zbb integer computation (02 R31, 03 Table 3.7), as the RISC-V
unprivileged specification defines it. -/

namespace Sys2Proof.Machine

abbrev lo32 (a : Word) : BitVec 32 := a.truncate 32

/-- Signed division truncating toward zero; x ÷ 0 = -1; overflow gives the dividend. -/
def divS {w : Nat} (a b : BitVec w) : BitVec w :=
  if b = 0 then BitVec.allOnes w else BitVec.ofInt w (Int.tdiv a.toInt b.toInt)

def remS {w : Nat} (a b : BitVec w) : BitVec w :=
  if b = 0 then a else BitVec.ofInt w (Int.tmod a.toInt b.toInt)

def divU {w : Nat} (a b : BitVec w) : BitVec w :=
  if b = 0 then BitVec.allOnes w else BitVec.ofNat w (a.toNat / b.toNat)

def remU {w : Nat} (a b : BitVec w) : BitVec w :=
  if b = 0 then a else BitVec.ofNat w (a.toNat % b.toNat)

/-- Leading zero bits, counted from bit `n - 1` down. -/
def clzFrom {w : Nat} (a : BitVec w) : Nat → Nat
  | 0 => 0
  | n + 1 => if a.getLsbD n then 0 else 1 + clzFrom a n

def clzOf {w : Nat} (a : BitVec w) : Nat := clzFrom a w

/-- Trailing zero bits from bit `i`, of `n` bits left. -/
def ctzFrom {w : Nat} (a : BitVec w) : Nat → Nat → Nat
  | _, 0 => 0
  | i, n + 1 => if a.getLsbD i then 0 else 1 + ctzFrom a (i + 1) n

def ctzOf {w : Nat} (a : BitVec w) : Nat := ctzFrom a 0 w

/-- One bits below bit `n`. -/
def popFrom {w : Nat} (a : BitVec w) : Nat → Nat
  | 0 => 0
  | n + 1 => (if a.getLsbD n then 1 else 0) + popFrom a n

def popOf {w : Nat} (a : BitVec w) : Nat := popFrom a w

/-- Bytes of a word combined one at a time, lowest first. -/
def mapBytes (f : Nat → Nat) (a : Word) : Word :=
  BitVec.ofNat 64 ((List.range 8).foldl (fun acc i => acc + f (a.toNat / 256 ^ i % 256) * 256 ^ i) 0)

def revBytes (a : Word) : Word :=
  BitVec.ofNat 64 ((List.range 8).foldl (fun acc i => acc + a.toNat / 256 ^ i % 256 * 256 ^ (7 - i)) 0)

abbrev shamt (b : Word) : Nat := b.toNat % 64
abbrev shamt32 (b : Word) : Nat := b.toNat % 32

def boolWord (b : Bool) : Word := if b then 1 else 0

/-- A register-register result. -/
def rrResult (op : RrOp) (a b : Word) : Word :=
  match op with
  | .add => a + b
  | .sub => a - b
  | .sll => a <<< shamt b
  | .slt => boolWord (a.slt b)
  | .sltu => boolWord (a.ult b)
  | .xor => a ^^^ b
  | .srl => a >>> shamt b
  | .sra => a.sshiftRight (shamt b)
  | .or => a ||| b
  | .and => a &&& b
  | .addw => sext64 (lo32 a + lo32 b)
  | .subw => sext64 (lo32 a - lo32 b)
  | .sllw => sext64 (lo32 a <<< shamt32 b)
  | .srlw => sext64 (lo32 a >>> shamt32 b)
  | .sraw => sext64 ((lo32 a).sshiftRight (shamt32 b))
  | .mul => a * b
  | .mulh => BitVec.ofInt 64 (a.toInt * b.toInt / 2 ^ 64)
  | .mulhsu => BitVec.ofInt 64 (a.toInt * (b.toNat : Int) / 2 ^ 64)
  | .mulhu => BitVec.ofNat 64 (a.toNat * b.toNat / 2 ^ 64)
  | .div => divS a b
  | .divu => divU a b
  | .rem => remS a b
  | .remu => remU a b
  | .mulw => sext64 (lo32 a * lo32 b)
  | .divw => sext64 (divS (lo32 a) (lo32 b))
  | .divuw => sext64 (divU (lo32 a) (lo32 b))
  | .remw => sext64 (remS (lo32 a) (lo32 b))
  | .remuw => sext64 (remU (lo32 a) (lo32 b))
  | .sh1add => b + (a <<< 1)
  | .sh2add => b + (a <<< 2)
  | .sh3add => b + (a <<< 3)
  | .addUw => b + zext64 (lo32 a)
  | .sh1addUw => b + (zext64 (lo32 a) <<< 1)
  | .sh2addUw => b + (zext64 (lo32 a) <<< 2)
  | .sh3addUw => b + (zext64 (lo32 a) <<< 3)
  | .andn => a &&& ~~~b
  | .orn => a ||| ~~~b
  | .xnor => ~~~(a ^^^ b)
  | .max => if a.slt b then b else a
  | .maxu => if a.ult b then b else a
  | .min => if a.slt b then a else b
  | .minu => if a.ult b then a else b
  | .rol => a.rotateLeft (shamt b)
  | .ror => a.rotateRight (shamt b)
  | .rolw => sext64 ((lo32 a).rotateLeft (shamt32 b))
  | .rorw => sext64 ((lo32 a).rotateRight (shamt32 b))

def riResult (op : RiOp) (a : Word) (imm : BitVec 12) : Word :=
  match op with
  | .addi => a + sext64 imm
  | .slti => boolWord (a.slt (sext64 imm))
  | .sltiu => boolWord (a.ult (sext64 imm))
  | .xori => a ^^^ sext64 imm
  | .ori => a ||| sext64 imm
  | .andi => a &&& sext64 imm
  | .addiw => sext64 (lo32 (a + sext64 imm))

def shResult (op : ShOp) (a : Word) (n : Nat) : Word :=
  match op with
  | .slli => a <<< n
  | .srli => a >>> n
  | .srai => a.sshiftRight n
  | .rori => a.rotateRight n
  | .slliUw => zext64 (lo32 a) <<< n

def shwResult (op : ShwOp) (a : Word) (n : Nat) : Word :=
  match op with
  | .slliw => sext64 (lo32 a <<< n)
  | .srliw => sext64 (lo32 a >>> n)
  | .sraiw => sext64 ((lo32 a).sshiftRight n)
  | .roriw => sext64 ((lo32 a).rotateRight n)

def unResult (op : UnOp) (a : Word) : Word :=
  match op with
  | .clz => BitVec.ofNat 64 (clzOf a)
  | .ctz => BitVec.ofNat 64 (ctzOf a)
  | .cpop => BitVec.ofNat 64 (popOf a)
  | .clzw => BitVec.ofNat 64 (clzOf (lo32 a))
  | .ctzw => BitVec.ofNat 64 (ctzOf (lo32 a))
  | .cpopw => BitVec.ofNat 64 (popOf (lo32 a))
  | .sextb => sext64 (a.truncate 8 : BitVec 8)
  | .sexth => sext64 (a.truncate 16 : BitVec 16)
  | .zexth => zext64 (a.truncate 16 : BitVec 16)
  | .orcb => mapBytes (fun b => if b = 0 then 0 else 255) a
  | .rev8 => revBytes a

/-- Destination register and value of an integer instruction. -/
def intResult (f : IntForm) (h : Hart) : Reg × Word :=
  match f with
  | .rr op rd rs1 rs2 => (rd, rrResult op (h.xr rs1) (h.xr rs2))
  | .ri op rd rs1 imm => (rd, riResult op (h.xr rs1) imm)
  | .sh op rd rs1 n => (rd, shResult op (h.xr rs1) n.toNat)
  | .shw op rd rs1 n => (rd, shwResult op (h.xr rs1) n.toNat)
  | .un op rd rs1 => (rd, unResult op (h.xr rs1))
  | .lui rd imm => (rd, sext64 (imm ++ (0 : BitVec 12)))
  | .auipc rd imm => (rd, h.s.pc + sext64 (imm ++ (0 : BitVec 12)))

/-- An integer instruction writes its destination and advances. -/
def execIntegerOp (f : IntForm) (s : State) : Host.Outcome State Fault Refusal :=
  .next (s.setX (intResult f s.h).1 (intResult f s.h).2).advance

/-! ## Control transfer (02 R32, 03 Table 3.7) -/

def brTaken (op : BrOp) (a b : Word) : Bool :=
  match op with
  | .eq => decide (a = b)
  | .ne => decide (a ≠ b)
  | .lt => a.slt b
  | .ge => !a.slt b
  | .ltu => a.ult b
  | .geu => !a.ult b

/-- Next pc, and the link register with its value. -/
def jumpResult (f : JumpForm) (h : Hart) : Word × Reg × Word :=
  match f with
  | .br op rs1 rs2 off =>
      (if brTaken op (h.xr rs1) (h.xr rs2) then h.s.pc + sext64 (off ++ (0 : BitVec 1)) else h.s.pc + 4,
       0, 0)
  | .jal rd off => (h.s.pc + sext64 (off ++ (0 : BitVec 1)), rd, h.s.pc + 4)
  | .jalr rd rs1 off => ((h.xr rs1 + sext64 off) &&& ~~~(1 : Word), rd, h.s.pc + 4)

/-- A target that is not a multiple of 4 raises instruction-address-misaligned on the jump itself; the
trap value is the target (02 R32, 19 Table 19.1). -/
def jumpGuard (f : JumpForm) (h : Hart) : Option Stop :=
  if (jumpResult f h).1.toNat % 4 = 0 then none else some (Stop.of 0 (jumpResult f h).1)

def jumpEffect (f : JumpForm) (s : State) : State :=
  let r := jumpResult f s.h
  s.setH ((s.h.setX r.2.1 r.2.2).retireTo r.1)

def execBranchJump (f : JumpForm) (s : State) : Host.Outcome State Fault Refusal :=
  guarded (jumpGuard f s.h) s (jumpEffect f s)

end Sys2Proof.Machine
end

