-- ==== Sys2Proof/Machine/Dispatch.lean ====
section
/-! DEFINITION. One arm for each constructor of `Instr`: the call of its meaning, or a refusal by name. -/

namespace Sys2Proof.Machine

def exec (i : Instr) (s : State) : Host.Outcome State Fault Refusal :=
  match i with
  | .vsetl rd rs1 cfg => Sys2Proof.Machine.execVsetl rd rs1 cfg s
  | .vsetli rd n cfg => Sys2Proof.Machine.execVsetli rd n cfg s
  | .vfetchPcrel imm => Sys2Proof.Machine.execVfetchPcrel imm s
  | .vfetchReg rs1 imm => Sys2Proof.Machine.execVfetchReg rs1 imm s
  | .vget rd j => Sys2Proof.Machine.execVget rd j s
  | .vwait => Sys2Proof.Machine.execVwait s
  | .vfenceSv => Sys2Proof.Machine.execVfenceSv s
  | .vfenceVs => Sys2Proof.Machine.execVfenceVs s
  | .vfenceVv => Sys2Proof.Machine.execVfenceVv s
  | .xfence sc => Sys2Proof.Machine.execXfence sc s
  | .xlda sc wd rd rs1 => Sys2Proof.Machine.execXlda sc wd rd rs1 s
  | .xstl sc wd rs1 rs2 => Sys2Proof.Machine.execXstl sc wd rs1 rs2 s
  | .xlook rd rs1 => Sys2Proof.Machine.execXlook rd rs1 s
  | .psetvl rd rs1 cfg => Sys2Proof.Machine.execPsetvl rd rs1 cfg s
  | .gbar => Sys2Proof.Machine.execGbar s
  | .gbara rd => Sys2Proof.Machine.execGbara rd s
  | .gbarw rs1 => Sys2Proof.Machine.execGbarw rs1 s
  | .gbarx rs1 => Sys2Proof.Machine.execGbarx rs1 s
  | .hcont rd y => Sys2Proof.Machine.execHcont rd y s
  | .hsend rs1 rs2 => Sys2Proof.Machine.execHsend rs1 rs2 s
  | .hsendb rs1 rs2 => Sys2Proof.Machine.execHsendb rs1 rs2 s
  | .hwait rd y => Sys2Proof.Machine.execHwait rd y s
  | .uiret => Sys2Proof.Machine.execUiret s
  | .park => Sys2Proof.Machine.execPark s
  | .mcfg rs1 rs2 => Sys2Proof.Machine.execMcfg rs1 rs2 s
  | .msync => Sys2Proof.Machine.execMsync s
  | .mldt t rs1 rs2 => Sys2Proof.Machine.execMldt t rs1 rs2 s
  | .mstt t rs1 rs2 => Sys2Proof.Machine.execMstt t rs1 rs2 s
  | .mlda t rs1 rs2 => Sys2Proof.Machine.execMlda t rs1 rs2 s
  | .msta t rs1 rs2 => Sys2Proof.Machine.execMsta t rs1 rs2 s
  | .mzero t => Sys2Proof.Machine.execMzero t s
  | .mma d a b => Sys2Proof.Machine.execMma d a b s
  | .mmas d a b => Sys2Proof.Machine.execMmas d a b s
  | .mma64 d a b => Sys2Proof.Machine.execMma64 d a b s
  | .mmal d a rs2 => Sys2Proof.Machine.execMmal d a rs2 s
  | .mcvt fmt rm d acc => Sys2Proof.Machine.execMcvt fmt rm d acc s
  | .maccv d acc rs2 => Sys2Proof.Machine.execMaccv d acc rs2 s
  | .mvtile d acc => Sys2Proof.Machine.execMvtile d acc s
  | .mpin o g rs1 => Sys2Proof.Machine.execMpin o g rs1 s
  | .munpin o => Sys2Proof.Machine.execMunpin o s
  | .mgdr o k rs1 => Sys2Proof.Machine.execMgdr o k rs1 s
  | .mgdrq o k rs1 d => Sys2Proof.Machine.execMgdrq o k rs1 d s
  | .mqry o q d => Sys2Proof.Machine.execMqry o q d s
  | .mspill o => Sys2Proof.Machine.execMspill o s
  | .mfill o rs1 => Sys2Proof.Machine.execMfill o rs1 s
  | .matrixEntryExecute => Sys2Proof.Machine.execMatrixEntryExecute s
  | .ecpy rd rs1 rs2 => Sys2Proof.Machine.execEcpy rd rs1 rs2 s
  | .ecpys rd rs1 rs2 => Sys2Proof.Machine.execEcpys rd rs1 rs2 s
  | .egath rd rs1 rs2 => Sys2Proof.Machine.execEgath rd rs1 rs2 s
  | .escat rd rs1 rs2 => Sys2Proof.Machine.execEscat rd rs1 rs2 s
  | .ered rd rs1 rs2 => Sys2Proof.Machine.execEred rd rs1 rs2 s
  | .egcm rd rs1 rs2 => Sys2Proof.Machine.execEgcm rd rs1 rs2 s
  | .ewaitk rd => Sys2Proof.Machine.execEwaitk rd s
  | .ctxsave portable rs1 => Sys2Proof.Machine.execCtxsave portable rs1 s
  | .ctxload portable rs1 => Sys2Proof.Machine.execCtxload portable rs1 s
  | .pwflush rs1 => Sys2Proof.Machine.execPwflush rs1 s
  | .scalarLoad k rd rs1 imm => Sys2Proof.Machine.execScalarLoad k rd rs1 imm s
  | .scalarStore k rs1 rs2 imm => Sys2Proof.Machine.execScalarStore k rs1 rs2 imm s
  | .fence fm pred succ rs1 rd => Sys2Proof.Machine.execFence fm pred succ rs1 rd s
  | .fenceTso rs1 rd => Sys2Proof.Machine.execFenceTso rs1 rd s
  | .fenceI imm rs1 rd => Sys2Proof.Machine.execFenceI imm rs1 rd s
  | .lr dbl aq rl rd rs1 => Sys2Proof.Machine.execLr dbl aq rl rd rs1 s
  | .sc dbl aq rl rd rs1 rs2 => Sys2Proof.Machine.execSc dbl aq rl rd rs1 rs2 s
  | .amo op dbl aq rl rd rs1 rs2 => Sys2Proof.Machine.execAmo op dbl aq rl rd rs1 rs2 s
  | .amocasW aq rl rd rs1 rs2 => Sys2Proof.Machine.execAmocasW aq rl rd rs1 rs2 s
  | .amocasD aq rl rd rs1 rs2 => Sys2Proof.Machine.execAmocasD aq rl rd rs1 rs2 s
  | .amocasQ aq rl rd rs1 rs2 => Sys2Proof.Machine.execAmocasQ aq rl rd rs1 rs2 s
  | .integerOp f => Sys2Proof.Machine.execIntegerOp f s
  | .fpOp f => Sys2Proof.Machine.execFpOp f s
  | .branchJump f => Sys2Proof.Machine.execBranchJump f s
  | .ecall => Sys2Proof.Machine.execEcall s
  | .ebreak => Sys2Proof.Machine.execEbreak s
  | .sret => Sys2Proof.Machine.execSret s
  | .mret => Sys2Proof.Machine.execMret s
  | .wfi => Sys2Proof.Machine.execWfi s
  | .sfenceVma rs1 rs2 => Sys2Proof.Machine.execSfenceVma rs1 rs2 s
  | .csrInstruction op csr rd src => Sys2Proof.Machine.execCsrInstruction op csr rd src s
  | .fcsrAccess op csr rd src => Sys2Proof.Machine.execFcsrAccess op csr rd src s
  | .vlutAccess op csr rd src => Sys2Proof.Machine.execVlutAccess op csr rd src s
  | .vle o => Sys2Proof.Machine.execVle o s
  | .vse o => Sys2Proof.Machine.execVse o s
  | .vlse o => Sys2Proof.Machine.execVlse o s
  | .vsse o => Sys2Proof.Machine.execVsse o s
  | .vlxe o => Sys2Proof.Machine.execVlxe o s
  | .vsxe o => Sys2Proof.Machine.execVsxe o s
  | .vlseg o => Sys2Proof.Machine.execVlseg o s
  | .vsseg o => Sys2Proof.Machine.execVsseg o s
  | .vlff o => Sys2Proof.Machine.execVlff o s
  | .vlwr o => Sys2Proof.Machine.execVlwr o s
  | .vswr o => Sys2Proof.Machine.execVswr o s
  | .vpref o => Sys2Proof.Machine.execVpref o s
  | .vamo op o => Sys2Proof.Machine.execVamo op o s
  | .faultReply target p => Sys2Proof.Machine.execFaultReply target p s
  | .vadd o => Sys2Proof.Machine.execVadd o s
  | .vsub o => Sys2Proof.Machine.execVsub o s
  | .vrsub o => Sys2Proof.Machine.execVrsub o s
  | .vmul o => Sys2Proof.Machine.execVmul o s
  | .vmulh o => Sys2Proof.Machine.execVmulh o s
  | .vmulhu o => Sys2Proof.Machine.execVmulhu o s
  | .vmulhsu o => Sys2Proof.Machine.execVmulhsu o s
  | .vmacc o => Sys2Proof.Machine.execVmacc o s
  | .vnmsac o => Sys2Proof.Machine.execVnmsac o s
  | .vmadd o => Sys2Proof.Machine.execVmadd o s
  | .vdiv o => Sys2Proof.Machine.execVdiv o s
  | .vdivu o => Sys2Proof.Machine.execVdivu o s
  | .vrem o => Sys2Proof.Machine.execVrem o s
  | .vremu o => Sys2Proof.Machine.execVremu o s
  | .vmin o => Sys2Proof.Machine.execVmin o s
  | .vmax o => Sys2Proof.Machine.execVmax o s
  | .vminu o => Sys2Proof.Machine.execVminu o s
  | .vmaxu o => Sys2Proof.Machine.execVmaxu o s
  | .vand o => Sys2Proof.Machine.execVand o s
  | .vor o => Sys2Proof.Machine.execVor o s
  | .vxor o => Sys2Proof.Machine.execVxor o s
  | .vandn o => Sys2Proof.Machine.execVandn o s
  | .vsll o => Sys2Proof.Machine.execVsll o s
  | .vsrl o => Sys2Proof.Machine.execVsrl o s
  | .vsra o => Sys2Proof.Machine.execVsra o s
  | .vsadd o => Sys2Proof.Machine.execVsadd o s
  | .vsaddu o => Sys2Proof.Machine.execVsaddu o s
  | .vssub o => Sys2Proof.Machine.execVssub o s
  | .vssubu o => Sys2Proof.Machine.execVssubu o s
  | .vavg o => Sys2Proof.Machine.execVavg o s
  | .vavgu o => Sys2Proof.Machine.execVavgu o s
  | .vabsd o => Sys2Proof.Machine.execVabsd o s
  | .vwadd o => Sys2Proof.Machine.execVwadd o s
  | .vwaddu o => Sys2Proof.Machine.execVwaddu o s
  | .vwsub o => Sys2Proof.Machine.execVwsub o s
  | .vwmul o => Sys2Proof.Machine.execVwmul o s
  | .vwmulu o => Sys2Proof.Machine.execVwmulu o s
  | .vwmacc o => Sys2Proof.Machine.execVwmacc o s
  | .vnsrl o => Sys2Proof.Machine.execVnsrl o s
  | .vnclip o => Sys2Proof.Machine.execVnclip o s
  | .vnclipu o => Sys2Proof.Machine.execVnclipu o s
  | .vsext o => Sys2Proof.Machine.execVsext o s
  | .vzext o => Sys2Proof.Machine.execVzext o s
  | .vcmp cc o => Sys2Proof.Machine.execVcmp cc o s
  | .vmerge o => Sys2Proof.Machine.execVmerge o s
  | .vmv o => Sys2Proof.Machine.execVmv o s
  | .vclz o => Sys2Proof.Machine.execVclz o s
  | .vctz o => Sys2Proof.Machine.execVctz o s
  | .vpopc o => Sys2Proof.Machine.execVpopc o s
  | .vdot op o => Sys2Proof.Machine.execVdot op o s
  | .vlut4 o => Sys2Proof.Machine.execVlut4 o s
  | .vfadd o => Sys2Proof.Machine.execVfadd o s
  | .vfsub o => Sys2Proof.Machine.execVfsub o s
  | .vfmul o => Sys2Proof.Machine.execVfmul o s
  | .vfdiv o => Sys2Proof.Machine.execVfdiv o s
  | .vfsqrt o => Sys2Proof.Machine.execVfsqrt o s
  | .vfmadd o => Sys2Proof.Machine.execVfmadd o s
  | .vfmsub o => Sys2Proof.Machine.execVfmsub o s
  | .vfnmadd o => Sys2Proof.Machine.execVfnmadd o s
  | .vfnmsub o => Sys2Proof.Machine.execVfnmsub o s
  | .vfmin o => Sys2Proof.Machine.execVfmin o s
  | .vfmax o => Sys2Proof.Machine.execVfmax o s
  | .vfminmax op o => Sys2Proof.Machine.execVfminmax op o s
  | .vfcmp cc o => Sys2Proof.Machine.execVfcmp cc o s
  | .vfclass o => Sys2Proof.Machine.execVfclass o s
  | .vfsgnj o => Sys2Proof.Machine.execVfsgnj o s
  | .vfsgnjn o => Sys2Proof.Machine.execVfsgnjn o s
  | .vfsgnjx o => Sys2Proof.Machine.execVfsgnjx o s
  | .vfcvt op o => Sys2Proof.Machine.execVfcvt op o s
  | .vfrcp o => Sys2Proof.Machine.execVfrcp o s
  | .vfrsqrt o => Sys2Proof.Machine.execVfrsqrt o s
  | .vfdot2 o => Sys2Proof.Machine.execVfdot2 o s
  | .vfwma o => Sys2Proof.Machine.execVfwma o s
  | .vfrnd o => Sys2Proof.Machine.execVfrnd o s
  | .vslideup o => Sys2Proof.Machine.execVslideup o s
  | .vslidedn o => Sys2Proof.Machine.execVslidedn o s
  | .vslide1up o => Sys2Proof.Machine.execVslide1up o s
  | .vslide1dn o => Sys2Proof.Machine.execVslide1dn o s
  | .vperm o => Sys2Proof.Machine.execVperm o s
  | .vcompress o => Sys2Proof.Machine.execVcompress o s
  | .viota o => Sys2Proof.Machine.execViota o s
  | .vid o => Sys2Proof.Machine.execVid o s
  | .vred op o => Sys2Proof.Machine.execVred op o s
  | .vfredsum o => Sys2Proof.Machine.execVfredsum o s
  | .vfredosum o => Sys2Proof.Machine.execVfredosum o s
  | .vfredmin o => Sys2Proof.Machine.execVfredmin o s
  | .vfredmax o => Sys2Proof.Machine.execVfredmax o s
  | .vxget o => Sys2Proof.Machine.execVxget o s
  | .vmlog op o => Sys2Proof.Machine.execVmlog op o s
  | .vmpopc o => Sys2Proof.Machine.execVmpopc o s
  | .vmfirst o => Sys2Proof.Machine.execVmfirst o s
  | .vmsbf o => Sys2Proof.Machine.execVmsbf o s
  | .vmsif o => Sys2Proof.Machine.execVmsif o s
  | .vmsof o => Sys2Proof.Machine.execVmsof o s
  | .vmspush o => Sys2Proof.Machine.execVmspush o s
  | .vmselse o => Sys2Proof.Machine.execVmselse o s
  | .vmspop o => Sys2Proof.Machine.execVmspop o s
  | .vmsbrk o => Sys2Proof.Machine.execVmsbrk o s
  | .vmsany o => Sys2Proof.Machine.execVmsany o s
  | .vtexs o => Sys2Proof.Machine.execVtexs o s
  | .vtexl o => Sys2Proof.Machine.execVtexl o s
  | .vtexd o => Sys2Proof.Machine.execVtexd o s
  | .vtexf o => Sys2Proof.Machine.execVtexf o s
  | .vtexg4 ch o => Sys2Proof.Machine.execVtexg4 ch o s
  | .vtexq op o => Sys2Proof.Machine.execVtexq op o s
  | .vrqbox o => Sys2Proof.Machine.execVrqbox o s
  | .vrqtri op o => Sys2Proof.Machine.execVrqtri op o s
  | .vexport o => Sys2Proof.Machine.execVexport o s
  | .vbind d src => Sys2Proof.Machine.execVbind d src s
  | .vunbind d => Sys2Proof.Machine.execVunbind d s
  | .vlsync => Sys2Proof.Machine.execVlsync s
  | .vstop => Sys2Proof.Machine.execVstop s
  | .channelRingTransfer => Sys2Proof.Machine.execChannelRingTransfer s
  | .trapEntry cause tval sub => Sys2Proof.Machine.execTrapEntry cause tval sub s
  | .uiPost target code info => Sys2Proof.Machine.execUiPost target code info s
  | .uiEntry => Sys2Proof.Machine.execUiEntry s
  | .shapeChangeNotice target window => Sys2Proof.Machine.execShapeChangeNotice target window s
  | .noticeWindowExpiry target => Sys2Proof.Machine.execNoticeWindowExpiry target s
  | .messageDelivery sender target blk payload => Sys2Proof.Machine.execMessageDelivery sender target blk payload s
  | .messageDivert sender target blk payload => Sys2Proof.Machine.execMessageDivert sender target blk payload s
  | .inboxDelivery target => Sys2Proof.Machine.execInboxDelivery target s
  | .hartRetire target => Sys2Proof.Machine.execHartRetire target s
  | .pinnedRefill o => Sys2Proof.Machine.execPinnedRefill o s
  | .pinnedEvict target o => Sys2Proof.Machine.execPinnedEvict target o s
  | .scratchpadEvict target => Sys2Proof.Machine.execScratchpadEvict target s
  | .scratchpadStreamIn target => Sys2Proof.Machine.execScratchpadStreamIn target s
  | .apertureRetry => Sys2Proof.Machine.execApertureRetry s
  | .corePowerGate core => Sys2Proof.Machine.execCorePowerGate core s
  | .shadowEntryWrite ix second v => Sys2Proof.Machine.execShadowEntryWrite ix second v s
  | .swap => Sys2Proof.Machine.execSwap s
  | .swapBroadcastArrival die => Sys2Proof.Machine.execSwapBroadcastArrival die s
  | .dieAcknowledge die => Sys2Proof.Machine.execDieAcknowledge die s
  | .routedRequestArrival ix die => Sys2Proof.Machine.execRoutedRequestArrival ix die s
  | .windowTableWrite p ix w0 w1 => Sys2Proof.Machine.execWindowTableWrite p ix w0 w1 s
  | .circuitSetUp ix w0 => Sys2Proof.Machine.execCircuitSetUp ix w0 s
  | .circuitTearDown ix => Sys2Proof.Machine.execCircuitTearDown ix s
  | .circuitUp ix => Sys2Proof.Machine.execCircuitUp ix s
  | .circuitDown ix => Sys2Proof.Machine.execCircuitDown ix s
  | .kick engine payload => Sys2Proof.Machine.execKick engine payload s
  | .kickRecordFill engine => Sys2Proof.Machine.execKickRecordFill engine s
  | .microcodeLoad engine verified image => Sys2Proof.Machine.execMicrocodeLoad engine verified image s
  | .registerWrite pa v => Sys2Proof.Machine.execRegisterWrite pa v s
  | .queueCreate q create desc => Sys2Proof.Machine.execQueueCreate q create desc s
  | .notify q v => Sys2Proof.Machine.execNotify q v s
  | .reportQueueNotify q v => Sys2Proof.Machine.execReportQueueNotify q v s
  | .dispatch q => Sys2Proof.Machine.execDispatch q s
  | .streamjob q => Sys2Proof.Machine.execStreamjob q s
  | .waitsig q => Sys2Proof.Machine.execWaitsig q s
  | .setsig q => Sys2Proof.Machine.execSetsig q s
  | .indirect q => Sys2Proof.Machine.execIndirect q s
  | .copy q => Sys2Proof.Machine.execCopy q s
  | .copyComplete q pktix => Sys2Proof.Machine.execCopyComplete q pktix s
  | .drainMode0 q => Sys2Proof.Machine.execDrainMode0 q s
  | .drainMode1 q => Sys2Proof.Machine.execDrainMode1 q s
  | .drainMode2 q => Sys2Proof.Machine.execDrainMode2 q s
  | .drainComplete q => Sys2Proof.Machine.execDrainComplete q s
  | .destroyMode0 q => Sys2Proof.Machine.execDestroyMode0 q s
  | .destroyMode1 q => Sys2Proof.Machine.execDestroyMode1 q s
  | .destroyComplete q => Sys2Proof.Machine.execDestroyComplete q s
  | .resetpart q => Sys2Proof.Machine.execResetpart q s
  | .timerset q => Sys2Proof.Machine.execTimerset q s
  | .reportWrite q => Sys2Proof.Machine.execReportWrite q s
  | .jobPick part spread => Sys2Proof.Machine.execJobPick part spread s
  | .gangPlace job gang places => Sys2Proof.Machine.execGangPlace job gang places s
  | .jobComplete job => Sys2Proof.Machine.execJobComplete job s
  | .energyWindowStart die => Sys2Proof.Machine.execEnergyWindowStart die s
  | .watchdogExpiry q pktix => Sys2Proof.Machine.execWatchdogExpiry q pktix s
  | .clockChange die mhz => Sys2Proof.Machine.execClockChange die mhz s
  | .beginpass q => Sys2Proof.Machine.execBeginpass q s
  | .state q => Sys2Proof.Machine.execState q s
  | .draw q => Sys2Proof.Machine.execDraw q s
  | .drawmesh q => Sys2Proof.Machine.execDrawmesh q s
  | .drawind q => Sys2Proof.Machine.execDrawind q s
  | .endpass q => Sys2Proof.Machine.execEndpass q s
  | .geometryGangLaunch die ctx places => Sys2Proof.Machine.execGeometryGangLaunch die ctx places s
  | .batchClose die ctx draw batch => Sys2Proof.Machine.execBatchClose die ctx draw batch s
  | .primitiveLand die ctx ticket => Sys2Proof.Machine.execPrimitiveLand die ctx ticket s
  | .fragmentEmit die ctx member => Sys2Proof.Machine.execFragmentEmit die ctx member s
  | .fragmentGangLaunch die ctx draw tx ty places => Sys2Proof.Machine.execFragmentGangLaunch die ctx draw tx ty places s
  | .fragmentStreamEnd member => Sys2Proof.Machine.execFragmentStreamEnd member s
  | .blendApply die ctx tx ty ix => Sys2Proof.Machine.execBlendApply die ctx tx ty ix s
  | .renderContextSave die ctx => Sys2Proof.Machine.execRenderContextSave die ctx s
  | .renderContextRestore die ctx => Sys2Proof.Machine.execRenderContextRestore die ctx s
  | .patrolScrub granule correctable => Sys2Proof.Machine.execPatrolScrub granule correctable s
  | .poisonListFree granules => Sys2Proof.Machine.execPoisonListFree granules s
  | .cxlPortDown port => Sys2Proof.Machine.execCxlPortDown port s
  | .peerFrameReceive port entry seq crcOk payload => Sys2Proof.Machine.execPeerFrameReceive port entry seq crcOk payload s
  | .peerLinkFail port => Sys2Proof.Machine.execPeerLinkFail port s
  | .coldReset ecdsaOk lmsOk versionOk => Sys2Proof.Machine.execColdReset ecdsaOk lmsOk versionOk s
  | .recoveryImageWrite ecdsaOk lmsOk versionOk => Sys2Proof.Machine.execRecoveryImageWrite ecdsaOk lmsOk versionOk s
  | .dieTraining ports caches farMode farGib powerReq powerLo powerHi timeHz ebudget peers hostW hostGt fwVer => Sys2Proof.Machine.execDieTraining ports caches farMode farGib powerReq powerLo powerHi timeHz ebudget peers hostW hostGt fwVer s
  | .getMeasurements ix => Sys2Proof.Machine.execGetMeasurements ix s
  | .setkey part slot key txfix rxfix => Sys2Proof.Machine.execSetkey part slot key txfix rxfix s
  | .tdispStateChange part st => Sys2Proof.Machine.execTdispStateChange part st s
  | .tdiError part => Sys2Proof.Machine.execTdiError part s
  | .flitReplay stream seq => Sys2Proof.Machine.execFlitReplay stream seq s
  | .kSetStop stream set => Sys2Proof.Machine.execKSetStop stream set s
  | .thermalThrottle die sensor temp mhz => Sys2Proof.Machine.execThermalThrottle die sensor temp mhz s
  | .thermalTrip die sensor => Sys2Proof.Machine.execThermalTrip die sensor s
  | .hostPortAccess pa write tdi => Sys2Proof.Machine.execHostPortAccess pa write tdi s
  | .corePowerRestore core => Sys2Proof.Machine.execCorePowerRestore core s

end Sys2Proof.Machine
end

