-- ==== Sys2Proof/Machine/Fetch.lean ====
section
/-! DEFINITION. Fetching the next instruction of each stream, who moves next, and how a program comes to
run. -/

namespace Sys2Proof.Machine

/-- Bytes of a scalar word: from memory, or from an engine's RAM (05 R101). -/
def fetchAt (s : State) (l : Loc) (va : Word) : Except Stop (BitVec 32) :=
  match l with
  | .mem pa nc =>
      if poisonedLoc s (.mem pa nc) 4 then .error (Stop.of 1 va)
      else .ok (BitVec.ofNat 32 (readLe s.mem.mem pa 4))
  | .dev pa =>
      if engineRamBase ≤ pa ∧ pa < engineRamBase + 320 * 65536 ∧ (pa - engineRamBase) % 65536 < 0xC000 then
        .ok (BitVec.ofNat 32 ((mapGet s.mem.dev (pa / 8 * 8)).toNat / 2 ^ (8 * (pa % 8))))
      else .error (Stop.of 1 va)
  | .spad _ => .error (Stop.of 1 va)

/-- The scalar word at the current hart's pc (02 R32, R44; 04 R69, R78, R79, R89). -/
def fetchScalar (s : State) : Except Stop (BitVec 32) :=
  match addrOf s s.h .fetch s.h.s.pc with
  | .error e => .error e
  | .ok l => fetchAt s l s.h.s.pc

/-- The oldest block word of the current hart, with its address (17 R368). -/
def fetchBlock (s : State) : Except Stop Word :=
  match s.h.vu.blocks with
  | [] => .error (illegal 0)
  | b :: _ => fetchBlockWord s s.h (b.wordAt s.h.vu.wix)

/-- The matrix-synchronising instructions (13 R281). -/
def isMatrixSync : Instr → Bool
  | .msync | .vfenceVs | .vfenceVv | .park | .ecall => true
  | _ => false

/-- One word of the scalar stream: the events of 19 R409 in their order, then the instruction. -/
def scalarStep (s : State) : Host.Outcome State Fault Refusal :=
  if s.h.run ≠ .running then .next s
  else
    match fetchScalar s with
    | .error e => if uiDue s then exec .uiEntry s else .next (raise e s)
    | .ok w =>
        match decodeScalar w with
        | none => if uiDue s then exec .uiEntry s else .next (raise (illegal (zext64 w)) s)
        | some i =>
            if uiDue s && !(isMatrixSync i && s.h.mat.fault.isSome) then exec .uiEntry s else exec i s

/-- v registers that an operand of a block word may reach: eight from its index on, or sixteen. -/
def opndSpan (n : Nat) (o : Opnd) : List Nat :=
  if o.file = .v then (List.range' o.ix.toNat n).filter (fun r => decide (r < 32)) else []

/-- v registers that a block word may name: what the scoreboard holds it for (13 R278). -/
def wordVregs (i : Instr) : List Nat :=
  match i with
  | .vbind d _ => [28 + d.toNat]
  | .vunbind d => [28 + d.toNat]
  | _ =>
      match blockParts i with
      | none => []
      | some (opc, _, o) =>
          let n := if 0x80 ≤ opc.toNat then 16 else 8
          (if o.msk = .none_ then [] else List.range 8) ++ opndSpan n o.d ++ opndSpan n o.a ++
            opndSpan n (bOpnd o.b) ++ opndSpan n o.c

/-- v registers that a matrix entry names, its groups of LMUL registers. -/
def entryVregs (e : MqEntry) : List Nat :=
  let g := fun (r : BitVec 5) => List.range' r.toNat (lmulOf e.vcfg)
  match e.instr with
  | .maccv d _ _ => g d
  | .mvtile _ v => g v
  | .mgdr _ k _ => g k
  | .mgdrq _ k _ d => g k ++ g d
  | .mqry _ q d => g q ++ g d
  | _ => []

/-- v registers of the entries that committed before the oldest block was fetched. -/
def heldVregs (h : Hart) : List Nat :=
  (h.mat.queue.filter (fun e => decide (e.bpos = 0))).flatMap entryVregs

/-- The oldest block word waits for such an entry (13 R278; assumption 2). -/
def vectorHeld (s : State) : Bool :=
  let rs := heldVregs s.h
  decide (rs ≠ []) &&
    (match fetchBlock s with
     | .error _ => false
     | .ok w => ((decodeBlock w).map (fun i => (wordVregs i).any (fun r => rs.contains r))).getD false)

/-- The vector unit has a word that it can run. -/
def vectorReady (s : State) : Bool :=
  decide (s.h.run = .running) && decide (s.h.vu.blocks ≠ []) && decide (s.h.vu.halt = 0)
    && !s.h.vu.ringWait && !vectorHeld s

/-- One word of the oldest block (06 R132, 17 R369). -/
def vectorStep (s : State) : Host.Outcome State Fault Refusal :=
  if !vectorReady s then .next s
  else
    match fetchBlock s with
    | .error e => .next (raiseV e 0 s)
    | .ok w =>
        if 4096 ≤ s.h.vu.wix then .next (raiseV (illegal w) 0 s)
        else
          match decodeBlock w with
          | none => .next (raiseV (illegal w) 0 s)
          | some i => exec i s

/-- The matrix stream has an entry that it can execute (13 R276 to R278). -/
def matrixReady (s : State) : Bool :=
  match s.h.mat.queue with
  | [] => false
  | e :: _ => entryReady s.h e

/-- The current hart's next stream when the agenda names none (assumption 2). -/
def defaultStep (s : State) : Host.Outcome State Fault Refusal :=
  if vectorReady s then vectorStep s
  else if matrixReady s then exec .matrixEntryExecute s
  else scalarStep s

/-- The translation of a page that the current hart's TLB comes to hold (04 R80). -/
def fillTlb (s : State) (va : Word) : State :=
  if fieldOf s.h.sc.satp 63 60 = 0 then s
  else
    match walk s.mem s.h.id.part (va.toNat % 2 ^ 57) 5 (fieldOf s.h.sc.satp 43 0 * 4096) with
    | .error _ => s
    | .ok l => s.setH { s.h with
        tlb := ({ vpage := va.toNat / 2 ^ l.lg, lg := l.lg, frame := l.frame, flags := l.flags } :: s.h.tlb).take 64 }

/-- A core's L1 comes to hold a line of near or far memory (06 R121); host memory is held in none (16 R359). -/
def fillL1 (s : State) (core line : Nat) : State :=
  if 0x200000000000 ≤ line * 128 then s
  else s.setMem { s.mem with
    l1 := (core, line, BitVec.ofNat 1024 (readLe s.mem.mem (line * 128) 128)) ::
      s.mem.l1.filter (fun e => !(decide (e.1 = core) && decide (e.2.1 = line))) }

/-- A core's L1 drops a line. -/
def dropLine (s : State) (core line : Nat) : State :=
  s.setMem { s.mem with l1 := s.mem.l1.filter (fun e => !(decide (e.1 = core) && decide (e.2.1 = line))) }

/-- The sampler comes to hold a line's texels for the current hart (12 R266). -/
def fillTexel (s : State) (line : Nat) : State :=
  s.setH { s.h with
    texels := (line, BitVec.ofNat 1024 (readLe s.mem.mem (line * 128) 128)) ::
      s.h.texels.filter (fun e => decide (e.1 ≠ line)) }

/-- A request sets out, tagged with its die's routing generation (04 R75). -/
def sendRequest (s : State) (origin addr : Nat) (store : Option Word) : State :=
  { s with fab := { s.fab with flights := s.fab.flights ++
      [{ origin := origin, addr := addr, gen := s.fab.dieGen[origin % 8]'(Nat.mod_lt _ (by decide)),
         store := store }] } }

/-- An event row's instruction: it has no word. -/
def isEvent (i : Instr) : Bool := decide (encode i = none)

/-- The turn that the agenda names. -/
def runTurn (t : Turn) (s : State) : Host.Outcome State Fault Refusal :=
  match t with
  | .event i => if isEvent i then exec i s else .refused (.notEnabled "not an event")
  | .scalar => scalarStep s
  | .vector => vectorStep s
  | .matrix => exec .matrixEntryExecute s
  | .hart n => .next (s.swapHart n)
  | .tlbFill va => .next (fillTlb s va)
  | .l1Fill core line => .next (fillL1 s core line)
  | .l1Drop core line => .next (dropLine s core line)
  | .texFill line => .next (fillTexel s line)
  | .elapse us => .next (elapse s us)
  | .grantCluster p n => .next (grantCluster s p n)
  | .grantEngine p n => .next (grantEngine s p n)
  | .grantRender p n => .next (grantRender s p n)
  | .runtime p e t => .next (setRuntime s p e t)
  | .setShape c n => .next (supervisorShape s c n)
  | .createGang j g => .next (createJobGang s j g)
  | .message src dst => .next (s.message src dst)
  | .request origin addr store => .next (sendRequest s origin addr store)
  | .carry src dst part addr => .next (carryLine s src dst part addr)
  | .ecc site => .next (eccError s site)
  | .poisonWriteBack g => .next (poisonWriteBack s g)
  | .rasRing base lg => .next (giveRing s base lg)
  | .rasRead n => .next (ringRead s n)
  | .flitSend i seq => .next (flitSend s i seq)
  | .flitAck i seq => .next (flitAck s i seq)
  | .keySwitch i => .next (keySwitch s i)
  | .sense d i t => .next (senseDie s d i t)

/-- What a step adds around the stream it runs: the cycle counter moves (03 Table 3.7). -/
def countCycle (s : State) : State :=
  s.setH { s.h with s := { s.h.s with cycle := s.h.s.cycle + 1 } }

/-- A package that is powered off does nothing until a cold reset (21 R450). -/
def offStep (s : State) : Host.Outcome State Fault Refusal :=
  match s.agenda with
  | .event (.coldReset a b c) :: rest => exec (.coldReset a b c) { s with agenda := rest }
  | _ :: rest => .next { s with agenda := rest }
  | [] => .next s

/-- The next step: the turn at the head of the agenda, or the current hart's own. -/
def stepOnce (s : State) : Host.Outcome State Fault Refusal :=
  if !s.pkg.powered then offStep s
  else
    match s.agenda with
    | [] => defaultStep (countCycle s)
    | t :: rest => runTurn t { countCycle s with agenda := rest }

/-! ## How a program comes to run -/

/-- Where a loaded program stands: physical and partition address. -/
def loadAddr : Nat := 0x1000

/-- The context that a load installs: a vector hart of shape 8 in hart slot 0 of core 0 at U, with the
largest matrix grant of its shape, or an engine hart at M. -/
def loadedHart (engine : Bool) : Hart :=
  { Hart.reset with
    id := { kind := if engine then .engine else .vector, die := 0, cluster := if engine then 14 else 0,
            core := 0, slot := if engine then 3 else 0, tag := 0, part := 0, gang := some 0, member := 0,
            shape := 8, spadKib := 0, spadOff := 0, spadCore := none, mtN := 1, maN := 2 },
    run := .running,
    s := { Scalar.reset with pc := BitVec.ofNat 64 loadAddr, priv := if engine then .m else .u } }

/-- The loaded hart's gang of one. -/
def loadedGang : Gang :=
  { gid := 0, job := none, ix := 0, part := 0, size := 1, tags := [0], kind := .compute, arrived := [],
    phase := false, pend := 0, retired := [],
    rings := [{ groups := [], recvOpen := false, recvClosed := false, sendClosed := false }],
    exported := [], live := true }

/-- A block at the load address, with vl 0 and elements of 8 bits. -/
def loadedBlock : Block :=
  { base := BitVec.ofNat 64 loadAddr, k := Vector.replicate 8 0, vcfg := 0, vl := 0, frm := 0,
    fcompat := 0, vlut0 := 0, vlut1 := 0 }

/-- Region-table entry 0 (near, die 0, one region) and window 0 of partition 0 (R, W and X on its first
2 MiB, mapped to physical address 0). -/
def loadMap (m : MemSys) : MemSys :=
  { m with
    dev := mapSet m.dev activeBase (BitVec.ofNat 64 (1 + 1 * 2 ^ 2 + 1 * 2 ^ 38)),
    win := mapSet (mapSet m.win windowBase 0xF) (windowBase + 8) 1 }

/-- Load one instruction and the context that runs it next. -/
def loadWord (s : State) (nbits w : Nat) : State :=
  let w := w % 2 ^ nbits
  let m := loadMap s.mem
  if nbits ≤ 32 then
    { s with h := loadedHart (decide (w % 128 = 0x7B)), gangs := [loadedGang], agenda := [],
             mem := { m with mem := writeLe m.mem loadAddr 4 w, pois := [] } }
  else
    let h := loadedHart false
    { s with h := { h with vu := { h.vu with blocks := [loadedBlock] } }, gangs := [loadedGang],
             agenda := [], mem := { m with mem := writeLe m.mem loadAddr 8 w, pois := [] } }

end Sys2Proof.Machine
end

