-- ==== Sys2Proof/Safety.lean ====
section
/-! DEFINITION. What counts as a safe step, and what a step leaves as it was, in the terms that claims use. -/

namespace Sys2Proof.Machine

/-- x[rd] has become `v` and no other x register has changed; a write to x0 is discarded. -/
def XAfter (s t : State) (rd : Reg) (v : Word) : Prop :=
  ∀ r, t.h.xr r = if r = rd ∧ rd ≠ 0 then v else s.h.xr r

/-- f[rd] has become `v` and no other f register has changed. -/
def FAfter (s t : State) (rd : Reg) (v : Word) : Prop :=
  ∀ r, t.h.fr r = if r = rd then v else s.h.fr r

/-- Nothing but x registers, the pc and instret has changed: the pc is `pc`, and one more instruction has
completed. -/
def OnlyX (s t : State) (pc : Word) : Prop :=
  t = { s with h := { s.h with
    s := { s.h.s with x := t.h.s.x, pc := pc, instret := s.h.s.instret + 1 } } }

/-- Nothing but x registers, f registers, flags, the pc and instret has changed. -/
def OnlyXF (s t : State) (pc : Word) : Prop :=
  t = { s with h := { s.h with
    s := { s.h.s with x := t.h.s.x, f := t.h.s.f, fflags := t.h.s.fflags, pc := pc,
                      instret := s.h.s.instret + 1 } } }

/-- Of memory nothing has changed but the bytes, poison, locks and L1 copies that a store reaches; of the other
harts nothing but reservations. -/
def OnlyStore (s t : State) : Prop :=
  t = { s with
    h := t.h, others := t.others
    mem := { s.mem with mem := t.mem.mem, pois := t.mem.pois, locked := t.mem.locked, l1 := t.mem.l1 } } ∧
  t.others.map (fun k => { k with s := { k.s with resv := none } }) =
    s.others.map (fun k => { k with s := { k.s with resv := none } })

/-- Every byte of near, far and host memory outside `n` bytes from `a` reads as before. -/
def MemElsewhere (s t : State) (a n : Nat) : Prop :=
  ∀ b, b < a ∨ a + n ≤ b → mapGet t.mem.mem b = mapGet s.mem.mem b

end Sys2Proof.Machine
end

