-- ==== Sys2Proof/Certificates/Slice0/Obligations.lean ====
section
/-! DEFINITION. The statements for the provers. -/

open Sys2Proof Sys2Proof.Machine

/-- For every well-formed instruction that has a word in either stream, with every operand at every value that
its encoding admits, the decoder reads the encoder's word as that very instruction. (02 Table 2.2; 02 Table 2.3;
03 Tables 3.1 to 3.7.) -/
def Obligations.EncodedWordDecodesBack : Prop :=
  ∀ (i : Instr) (w : CodeWord), i.wf = true → encode i = some w → decode w = some i

/-- From every state in which the sparse maps of memory, scratchpads, device registers and window copies are in
their canonical form (addresses strictly rising, no entry equal to what an unlisted address reads as), every
step that gives a next state gives one in which they are too, whatever moves next: an instruction of any stream,
an event, or another agent. (04 Table 4.1; 00 Table 0.2.) -/
def Obligations.EveryStepKeepsMemoryForm : Prop :=
  ∀ s t : State, Memory.wf s.mem = true → step s = .next t → Memory.wf t.mem = true

/-- After reset the memory is in canonical form and no byte of memory is listed; vcfg has VILL = 1 and every
other bit 0; sstatus has FS = 11, UXL = 10 and SD = 1; MHZ of every die is 1300; and no reservation is held. (02
Table 2.8; 13 Table 13.2; 18 Table 18.10; 19 Table 19.8.) -/
def Obligations.ResetValuesOfTheSpec : Prop :=
  Memory.wf State.reset.mem = true ∧ State.reset.mem.mem = [] ∧
  State.reset.h.c.vcfg.getLsbD 63 = true ∧ State.reset.h.c.vcfg.toNat % 2 ^ 63 = 0 ∧
  fieldOf State.reset.h.sc.sstatus 14 13 = 3 ∧ fieldOf State.reset.h.sc.sstatus 33 32 = 2 ∧
  State.reset.h.sc.sstatus.getLsbD 63 = true ∧
  (∀ d : Fin 8, State.reset.devGet (0xF000000001018 + 0x100 * d.val) = 1300) ∧
  State.reset.h.s.resv = none

/-- With the package powered, the current hart running and its scalar stream the one that moves (the agenda
names it, or names nobody while no block word and no matrix entry can run), if the pc's address goes to memory
that is not poisoned and the four bytes there, little-endian, decode to an instruction i, and no user interrupt
is due, then the step is exec of i in the state with the cycle counter one higher and the agenda's head gone.
With the same word and a user interrupt due, the step takes the interrupt in place of i, unless i is a
matrix-synchronising instruction of a hart whose matrix queue has stopped. (Which agent moves next is assumption
2.) (02 R32 and Table 2.1; 03 Table 3.7; 19 R409.) -/
def Obligations.StepRunsScalarWord : Prop :=
  ∀ (s : State) (i : Instr) (pa : Nat) (nc : Bool) (rest : List Turn) (c : State),
    s.pkg.powered = true → s.h.run = .running →
    addrOf s s.h .fetch s.h.s.pc = .ok (.mem pa nc) → poisonedLoc s (.mem pa nc) 4 = false →
    decodeScalar (BitVec.ofNat 32 (readLe s.mem.mem pa 4)) = some i →
    c = { s with agenda := rest, h := { s.h with s := { s.h.s with cycle := s.h.s.cycle + 1 } } } →
    (s.agenda = .scalar :: rest ∨ (s.agenda = [] ∧ rest = [] ∧ vectorReady c = false ∧ matrixReady c = false)) →
    step s = if uiDue c = true ∧ ¬ (isMatrixSync i = true ∧ s.h.mat.fault.isSome = true) then exec .uiEntry c
             else exec i c

/-- With the package powered and the vector unit ready (the hart runs and holds a block, the unit is not
stopped, the oldest word does not wait for a channel ring nor for a matrix entry), if the oldest block's next
word lies in memory that is not poisoned and its eight bytes, little-endian, decode to a block instruction i,
the step of the vector stream is exec of i in the state with the cycle counter one higher and the agenda's head
gone. (Which agent moves next is assumption 2.) (02 R35 and R44; 06 R132; 17 R369.) -/
def Obligations.StepRunsBlockWord : Prop :=
  ∀ (s : State) (i : Instr) (b : Block) (bs : List Block) (pa : Nat) (nc : Bool) (rest : List Turn) (c : State),
    s.pkg.powered = true → s.h.vu.blocks = b :: bs → s.h.vu.wix < 4096 →
    addrOf s s.h .fetch (b.wordAt s.h.vu.wix) = .ok (.mem pa nc) → poisonedLoc s (.mem pa nc) 8 = false →
    decodeBlock (BitVec.ofNat 64 (readLe s.mem.mem pa 8)) = some i →
    c = { s with agenda := rest, h := { s.h with s := { s.h.s with cycle := s.h.s.cycle + 1 } } } →
    vectorReady c = true →
    (s.agenda = .vector :: rest ∨ (s.agenda = [] ∧ rest = [])) →
    step s = exec i c

/-- The words that the matrix chapter prints decode as it says: mcfg a0, a1; mzero ma5; mvtile mt2, v4; maccv
v8, ma1, t0; mcvt mt1, ma2, fmt=e4m3, rm=rne; mma64 ma4, mt0, mt1; mmas ma0, mt2, mt3; mmal ma0, mt0, (a2); and
the block word 0x9F is VSTOP while OPC 0x00, OPC 0xFF and 0x9F with another bit set decode to nothing. (13 R275;
13 R283; 13 R284; 13 R285; 13 R286; 13 R289; 13 R290; 13 R291; 02 R41.) -/
def Obligations.SpecWordsDecode : Prop :=
  decodeScalar 0x00B5005B = some (.mcfg 10 11) ∧ decodeScalar 0x080012DB = some (.mzero 5) ∧
  decodeScalar 0x0402315B = some (.mvtile 2 4) ∧ decodeScalar 0x0250B45B = some (.maccv 8 1 5) ∧
  decodeScalar 0x300130DB = some (.mcvt 3 .rne 1 2) ∧ decodeScalar 0x0410225B = some (.mma64 4 0 1) ∧
  decodeScalar 0x0231205B = some (.mmas 0 2 3) ∧ decodeScalar 0x06C0205B = some (.mmal 0 0 12) ∧
  decodeBlock 0x9F = some .vstop ∧ decodeBlock 0 = none ∧ decodeBlock 0xFF = none ∧ decodeBlock 0x19F = none

namespace Sys2Proof.Claims

/-- A product's high 64 bits from 128-bit operands. -/
def hi128 (a b : BitVec 128) : Word := (a * b).extractLsb' 64 64

/-- Values of the register-register instructions, from the RISC-V unprivileged specification (R31). -/
def rr (op : RrOp) (a b : Word) : Word :=
  let a32 : BitVec 32 := a.setWidth 32
  let b32 : BitVec 32 := b.setWidth 32
  match op with
  | .add => a + b
  | .sub => a - b
  | .sll => a <<< (b.toNat % 64)
  | .slt => if a.toInt < b.toInt then 1 else 0
  | .sltu => if a.toNat < b.toNat then 1 else 0
  | .xor => a ^^^ b
  | .srl => a >>> (b.toNat % 64)
  | .sra => a.sshiftRight (b.toNat % 64)
  | .or => a ||| b
  | .and => a &&& b
  | .addw => (a32 + b32).signExtend 64
  | .subw => (a32 - b32).signExtend 64
  | .sllw => (a32 <<< (b.toNat % 32)).signExtend 64
  | .srlw => (a32 >>> (b.toNat % 32)).signExtend 64
  | .sraw => (a32.sshiftRight (b.toNat % 32)).signExtend 64
  | .mul => a * b
  | .mulh => hi128 (a.signExtend 128) (b.signExtend 128)
  | .mulhsu => hi128 (a.signExtend 128) (b.setWidth 128)
  | .mulhu => hi128 (a.setWidth 128) (b.setWidth 128)
  | .div => if b = 0 then -1 else a.sdiv b
  | .divu => if b = 0 then -1 else a / b
  | .rem => if b = 0 then a else a.srem b
  | .remu => if b = 0 then a else a % b
  | .mulw => (a32 * b32).signExtend 64
  | .divw => if b32 = 0 then -1 else (a32.sdiv b32).signExtend 64
  | .divuw => if b32 = 0 then -1 else (a32 / b32).signExtend 64
  | .remw => if b32 = 0 then a32.signExtend 64 else (a32.srem b32).signExtend 64
  | .remuw => if b32 = 0 then a32.signExtend 64 else (a32 % b32).signExtend 64
  | .sh1add => b + a * 2
  | .sh2add => b + a * 4
  | .sh3add => b + a * 8
  | .addUw => b + a32.setWidth 64
  | .sh1addUw => b + a32.setWidth 64 * 2
  | .sh2addUw => b + a32.setWidth 64 * 4
  | .sh3addUw => b + a32.setWidth 64 * 8
  | .andn => a &&& ~~~b
  | .orn => a ||| ~~~b
  | .xnor => a ^^^ ~~~b
  | .max => if a.toInt < b.toInt then b else a
  | .maxu => if a.toNat < b.toNat then b else a
  | .min => if a.toInt < b.toInt then a else b
  | .minu => if a.toNat < b.toNat then a else b
  | .rol => a.rotateLeft (b.toNat % 64)
  | .ror => a.rotateRight (b.toNat % 64)
  | .rolw => (a32.rotateLeft (b.toNat % 32)).signExtend 64
  | .rorw => (a32.rotateRight (b.toNat % 32)).signExtend 64

/-- Values of the one-source instructions that have no counting in them. -/
def un (op : UnOp) (a : Word) : Option Word :=
  match op with
  | .sextb => some ((a.setWidth 8 : BitVec 8).signExtend 64)
  | .sexth => some ((a.setWidth 16 : BitVec 16).signExtend 64)
  | .zexth => some ((a.setWidth 16 : BitVec 16).setWidth 64)
  | .clz | .ctz | .cpop | .clzw | .ctzw | .cpopw | .orcb | .rev8 => none

/-- Destination and value of an integer instruction whose value is one expression. -/
def int (f : IntForm) (h : Hart) : Option (Reg × Word) :=
  match f with
  | .rr op rd rs1 rs2 => some (rd, rr op (h.xr rs1) (h.xr rs2))
  | .ri op rd rs1 imm =>
      let i : Word := imm.signExtend 64
      some (rd, match op with
        | .addi => h.xr rs1 + i
        | .slti => if (h.xr rs1).toInt < i.toInt then 1 else 0
        | .sltiu => if (h.xr rs1).toNat < i.toNat then 1 else 0
        | .xori => h.xr rs1 ^^^ i
        | .ori => h.xr rs1 ||| i
        | .andi => h.xr rs1 &&& i
        | .addiw => ((h.xr rs1 + i).setWidth 32 : BitVec 32).signExtend 64)
  | .sh op rd rs1 n => some (rd, match op with
      | .slli => rr .sll (h.xr rs1) (n.setWidth 64)
      | .srli => rr .srl (h.xr rs1) (n.setWidth 64)
      | .srai => rr .sra (h.xr rs1) (n.setWidth 64)
      | .rori => rr .ror (h.xr rs1) (n.setWidth 64)
      | .slliUw => ((h.xr rs1).setWidth 32 : BitVec 32).setWidth 64 <<< n.toNat)
  | .shw op rd rs1 n => some (rd, match op with
      | .slliw => rr .sllw (h.xr rs1) (n.setWidth 64)
      | .srliw => rr .srlw (h.xr rs1) (n.setWidth 64)
      | .sraiw => rr .sraw (h.xr rs1) (n.setWidth 64)
      | .roriw => rr .rorw (h.xr rs1) (n.setWidth 64))
  | .un op rd rs1 => (un op (h.xr rs1)).map (fun v => (rd, v))
  | .lui rd imm => some (rd, (imm.signExtend 64 : Word) * 4096)
  | .auipc rd imm => some (rd, h.s.pc + (imm.signExtend 64 : Word) * 4096)

/-- Next pc, link register and its value of a control transfer. -/
def jump (f : JumpForm) (h : Hart) : Word × Reg × Word :=
  match f with
  | .br op rs1 rs2 off =>
      let a := h.xr rs1
      let b := h.xr rs2
      let taken := match op with
        | .eq => decide (a = b)
        | .ne => decide (a ≠ b)
        | .lt => decide (a.toInt < b.toInt)
        | .ge => decide (b.toInt ≤ a.toInt)
        | .ltu => decide (a.toNat < b.toNat)
        | .geu => decide (b.toNat ≤ a.toNat)
      (if taken then h.s.pc + (off.signExtend 64 : Word) * 2 else h.s.pc + 4, 0, 0)
  | .jal rd off => (h.s.pc + (off.signExtend 64 : Word) * 2, rd, h.s.pc + 4)
  | .jalr rd rs1 off => ((h.xr rs1 + off.signExtend 64) - (h.xr rs1 + off.signExtend 64) % 2, rd, h.s.pc + 4)

end Sys2Proof.Claims

/-- For every operand, every RV64I, M, Zba and Zbb integer instruction but the counting and byte-permuting ones
completes: x[rd] takes the value that the RISC-V specification gives (high products from 128-bit multiplication,
division by zero and overflow as it defines them), x0 discards it, the pc moves on by 4, and no other register,
flag, control register or byte of memory changes. (02 R31; 03 Table 3.7.) -/
def Obligations.IntegerInstructionResults : Prop :=
  ∀ (f : IntForm) (s : State) (rd : Reg) (v : Word), Claims.int f s.h = some (rd, v) →
    ∃ t, exec (.integerOp f) s = .next t ∧ XAfter s t rd v ∧ OnlyX s t (s.h.s.pc + 4)

namespace Sys2Proof.Claims

/-- `n` is the number of zero bits at the top of the low `w` bits of `a`. -/
def Leading (a : Word) (w n : Nat) : Prop :=
  n ≤ w ∧ (∀ i, w - n ≤ i → i < w → a.getLsbD i = false) ∧ (n < w → a.getLsbD (w - 1 - n) = true)

/-- `n` is the number of zero bits at the bottom of the low `w` bits of `a`. -/
def Trailing (a : Word) (w n : Nat) : Prop :=
  n ≤ w ∧ (∀ i, i < n → a.getLsbD i = false) ∧ (n < w → a.getLsbD n = true)

/-- Byte `i` of a word. -/
def byteAt (a : Word) (i : Nat) : Nat := a.toNat / 256 ^ i % 256

/-- What a counting or byte instruction of Zbb leaves in rd. -/
def Counts (op : UnOp) (a v : Word) : Prop :=
  match op with
  | .clz => Leading a 64 v.toNat
  | .clzw => Leading a 32 v.toNat
  | .ctz => Trailing a 64 v.toNat
  | .ctzw => Trailing a 32 v.toNat
  | .cpop => v.toNat = (List.range 64).countP (fun i => a.getLsbD i)
  | .cpopw => v.toNat = (List.range 32).countP (fun i => a.getLsbD i)
  | .orcb => ∀ i, i < 8 → byteAt v i = if byteAt a i = 0 then 0 else 255
  | .rev8 => ∀ i, i < 8 → byteAt v i = byteAt a (7 - i)
  | .sextb => v = (a.setWidth 8 : BitVec 8).signExtend 64
  | .sexth => v = (a.setWidth 16 : BitVec 16).signExtend 64
  | .zexth => v = (a.setWidth 16 : BitVec 16).setWidth 64

end Sys2Proof.Claims

/-- For every operand, the one-source instructions of Zbb complete: CLZ, CTZ and CPOP and their word forms leave
the number of leading zeros, trailing zeros and ones of the 64 or 32 low bits, ORC.B makes each non-zero byte
0xFF, REV8 reverses the bytes, and SEXT.B, SEXT.H and ZEXT.H extend; x0 discards the result, the pc moves on by
4 and nothing else changes. (02 R31; 03 Table 3.7.) -/
def Obligations.CountingInstructionResults : Prop :=
  ∀ (op : UnOp) (rd rs1 : Reg) (s : State), ∃ t v, exec (.integerOp (.un op rd rs1)) s = .next t ∧
    Claims.Counts op (s.h.xr rs1) v ∧ XAfter s t rd v ∧ OnlyX s t (s.h.s.pc + 4)

/-- For every branch, JAL and JALR: where the next pc that the RISC-V specification gives is a multiple of 4,
the instruction completes with that pc, x[rd] of a jump holds the address of the following word (x0 discards it)
and nothing else changes; where it is not, the instruction writes no register and raises
instruction-address-misaligned (cause 0) with the target as the trap value. (02 R32; 03 Table 3.7; 19 Table
19.1.) -/
def Obligations.ControlTransferResults : Prop :=
  ∀ (f : JumpForm) (s : State),
    ((Claims.jump f s.h).1.toNat % 4 = 0 → ∃ t, exec (.branchJump f) s = .next t ∧
      XAfter s t (Claims.jump f s.h).2.1 (Claims.jump f s.h).2.2 ∧ OnlyX s t (Claims.jump f s.h).1) ∧
    ((Claims.jump f s.h).1.toNat % 4 ≠ 0 →
      exec (.branchJump f) s = .next (takeTrap s { cause := 0, tval := (Claims.jump f s.h).1, sub := 0 } none))

namespace Sys2Proof.Claims

/-- `n` bytes as x holds them, sign-extended. -/
def signed (n v : Nat) : Word :=
  match n with
  | 1 => (BitVec.ofNat 8 v).signExtend 64
  | 2 => (BitVec.ofNat 16 v).signExtend 64
  | 4 => (BitVec.ofNat 32 v).signExtend 64
  | _ => BitVec.ofNat 64 v

/-- The bytes that a load or a store moves. -/
def loadSize : LoadKind → Nat
  | .lb | .lbu => 1
  | .lh | .lhu => 2
  | .lw | .lwu | .flw => 4
  | .ld | .fld => 8

def accSize : AccW → Nat
  | .b => 1
  | .h => 2
  | .w => 4
  | .d => 8

def storeSize : StoreKind → Nat
  | .sb => 1
  | .sh => 2
  | .sw | .fsw => 4
  | .sd | .fsd => 8

/-- What a load of `v` leaves in its destination, and in nothing else. -/
def Loaded (k : LoadKind) (rd : Reg) (v : Nat) (s t : State) : Prop :=
  match k with
  | .lb | .lh | .lw | .ld => XAfter s t rd (signed (loadSize k) v) ∧ t.h.s.f = s.h.s.f
  | .lbu | .lhu | .lwu => XAfter s t rd (BitVec.ofNat 64 v) ∧ t.h.s.f = s.h.s.f
  | .flw => FAfter s t rd (BitVec.ofNat 64 (v + (2 ^ 32 - 1) * 2 ^ 32)) ∧ t.h.s.x = s.h.s.x
  | .fld => FAfter s t rd (BitVec.ofNat 64 v) ∧ t.h.s.x = s.h.s.x

/-- The register that a store takes its bytes from. -/
def stored (k : StoreKind) (rs2 : Reg) (h : Hart) : Nat :=
  match k with
  | .sb | .sh | .sw | .sd => (h.xr rs2).toNat
  | .fsw | .fsd => (h.fr rs2).toNat

/-- The bytes of memory that `n` bytes at `a` hold are those of `v`, and every other byte reads as before. -/
def StoredAt (s t : State) (a n v : Nat) : Prop :=
  (Memory.wf s.mem = true → readLe t.mem.mem a n = v % 256 ^ n) ∧ MemElsewhere s t a n

/-- The hart after an instruction that leaves all but x registers, the pc, instret and, where it acquires wider
than hart scope, the sampler's texels. -/
def HartX (s t : State) (acq : Bool) (resv : Option Resv) : Prop :=
  t.h = { s.h with
    s := { s.h.s with x := t.h.s.x, pc := s.h.s.pc + 4, instret := s.h.s.instret + 1, resv := resv }
    texels := if acq then [] else s.h.texels }

/-- A place from which a load of the current hart reads memory and not a copy in its core's L1. -/
def PastL1 (s : State) (pa : Nat) (nc : Bool) : Prop :=
  nc = true ∨ l1Find s.mem.l1 s.h.id.coreNo (pa / 128) = none

/-- The new value of an AMO on `w` bits. -/
def amo {w : Nat} (op : AmoOp) (m r : BitVec w) : BitVec w :=
  match op with
  | .swap => r
  | .add => m + r
  | .xor => m ^^^ r
  | .and => m &&& r
  | .or => m ||| r
  | .min => if m.toInt < r.toInt then m else r
  | .max => if m.toInt < r.toInt then r else m
  | .minu => if m.toNat < r.toNat then m else r
  | .maxu => if m.toNat < r.toNat then r else m

/-- The pair of registers at an even number, as 128 bits; the pair of x0 reads 0. -/
def pairOf (h : Hart) (r : Reg) : Nat :=
  if r = 0 then 0 else (h.xr r).toNat + (h.xr (r + 1)).toNat * 2 ^ 64

/-- The instructions of the scalar side that access one address, with the access, the register that holds the
address, the bytes moved, and whether the access reads data. -/
def accessOf : Instr → Option (AKind × Reg × BitVec 12 × Nat × Bool)
  | .scalarLoad k _ rs1 imm => some (.load, rs1, imm, loadSize k, true)
  | .scalarStore k rs1 _ imm => some (.store, rs1, imm, storeSize k, false)
  | .lr dbl _ _ _ rs1 => some (.load, rs1, 0, if dbl then 8 else 4, true)
  | .sc dbl _ _ _ rs1 _ => some (.store, rs1, 0, if dbl then 8 else 4, false)
  | .amo _ dbl _ _ _ rs1 _ => some (.amo, rs1, 0, if dbl then 8 else 4, true)
  | .amocasW _ _ _ rs1 _ => some (.amo, rs1, 0, 4, true)
  | .amocasD _ _ _ rs1 _ => some (.amo, rs1, 0, 8, true)
  | .amocasQ _ _ _ rs1 _ => some (.amo, rs1, 0, 16, true)
  | .xlda _ wd _ rs1 => some (.load, rs1, 0, accSize wd, true)
  | .xstl _ wd rs1 _ => some (.store, rs1, 0, accSize wd, false)
  | _ => none

end Sys2Proof.Claims

/-- Where the address of a load is a multiple of its size and goes to memory that is not poisoned, and the
core's L1 holds no copy that the load would read, the load completes: its destination takes the bytes there,
little-endian, sign- or zero-extended, or boxed with ones for FLW; XLDA also acquires at its scope; LR reserves
the 128-byte line of its address and, with aq, acquires at system scope. No other register, flag or control
register changes, no byte of memory changes, and the pc moves on by 4. (02 R31; 03 Table 3.7; 00 R7; 05 R98.) -/
def Obligations.ScalarLoadResults : Prop :=
  (∀ (k : LoadKind) (rd rs1 : Reg) (imm : BitVec 12) (s : State) (pa : Nat) (nc : Bool),
    (s.h.xr rs1 + imm.signExtend 64).toNat % Claims.loadSize k = 0 →
    addrOf s s.h .load (s.h.xr rs1 + imm.signExtend 64) = .ok (.mem pa nc) →
    poisonedLoc s (.mem pa nc) (Claims.loadSize k) = false → Claims.PastL1 s pa nc →
    ∃ t, exec (.scalarLoad k rd rs1 imm) s = .next t ∧
      Claims.Loaded k rd (readLe s.mem.mem pa (Claims.loadSize k)) s t ∧
      OnlyXF s t (s.h.s.pc + 4) ∧ t.h.s.fflags = s.h.s.fflags) ∧
  (∀ (sc : Scope) (wd : AccW) (rd rs1 : Reg) (n : Nat) (s : State) (pa : Nat) (nc : Bool),
    n = Claims.accSize wd → (s.h.xr rs1).toNat % n = 0 →
    addrOf s s.h .load (s.h.xr rs1) = .ok (.mem pa nc) →
    poisonedLoc s (.mem pa nc) n = false → Claims.PastL1 s pa nc →
    ∃ t, exec (.xlda sc wd rd rs1) s = .next t ∧ XAfter s t rd (Claims.signed n (readLe s.mem.mem pa n)) ∧
      Claims.HartX s t (decide (sc ≠ .hart)) s.h.s.resv ∧
      t = { s with h := t.h, mem := { s.mem with
        l1 := if sc = .hart then s.mem.l1 else s.mem.l1.filter (fun e => decide (e.1 ≠ s.h.id.coreNo)) } }) ∧
  (∀ (dbl aq rl : Bool) (rd rs1 : Reg) (n : Nat) (s : State) (pa : Nat) (nc : Bool),
    n = (if dbl then 8 else 4) → (s.h.xr rs1).toNat % n = 0 →
    addrOf s s.h .load (s.h.xr rs1) = .ok (.mem pa nc) → poisonedLoc s (.mem pa nc) n = false →
    ∃ t, exec (.lr dbl aq rl rd rs1) s = .next t ∧ XAfter s t rd (Claims.signed n (readLe s.mem.mem pa n)) ∧
      Claims.HartX s t aq (some (.mem (pa / 128))) ∧
      t = { s with h := t.h, mem := { s.mem with
        l1 := if aq then s.mem.l1.filter (fun e => decide (e.1 ≠ s.h.id.coreNo)) else s.mem.l1 } })

/-- Where the address of a store is a multiple of its size and goes to memory behind a port that is up, the
store completes: those bytes of memory are the low bytes of its register, little-endian, every other byte reads
as before, every register of the hart but the pc is unchanged, and elsewhere only poison of the granules, core
copies of the line and other harts' reservations may change. SC does so and writes 0 to rd where the hart holds
a reservation of the line; otherwise it leaves memory alone and writes 1; either way it ends the reservation
and, with aq, acquires at system scope. (02 R31; 03 Table 3.7; 00 R7; 04 R90; 05 R98.) -/
def Obligations.ScalarStoreResults : Prop :=
  (∀ (k : StoreKind) (rs1 rs2 : Reg) (imm : BitVec 12) (s : State) (pa : Nat) (nc : Bool),
    (s.h.xr rs1 + imm.signExtend 64).toNat % Claims.storeSize k = 0 →
    addrOf s s.h .store (s.h.xr rs1 + imm.signExtend 64) = .ok (.mem pa nc) → farPortDown s pa = false →
    ∃ t, exec (.scalarStore k rs1 rs2 imm) s = .next t ∧
      Claims.StoredAt s t pa (Claims.storeSize k) (Claims.stored k rs2 s.h) ∧ OnlyStore s t ∧
      t.h = { s.h with s := { s.h.s with pc := s.h.s.pc + 4, instret := s.h.s.instret + 1 } }) ∧
  (∀ (sc : Scope) (wd : AccW) (rs1 rs2 : Reg) (n : Nat) (s : State) (pa : Nat) (nc : Bool),
    n = Claims.accSize wd → (s.h.xr rs1).toNat % n = 0 →
    addrOf s s.h .store (s.h.xr rs1) = .ok (.mem pa nc) → farPortDown s pa = false →
    ∃ t, exec (.xstl sc wd rs1 rs2) s = .next t ∧ Claims.StoredAt s t pa n (s.h.xr rs2).toNat ∧ OnlyStore s t ∧
      t.h = { s.h with s := { s.h.s with pc := s.h.s.pc + 4, instret := s.h.s.instret + 1 } }) ∧
  (∀ (dbl aq rl : Bool) (rd rs1 rs2 : Reg) (n : Nat) (s : State) (pa : Nat) (nc : Bool),
    n = (if dbl then 8 else 4) → (s.h.xr rs1).toNat % n = 0 →
    addrOf s s.h .store (s.h.xr rs1) = .ok (.mem pa nc) → farPortDown s pa = false →
    ∃ t, exec (.sc dbl aq rl rd rs1 rs2) s = .next t ∧ OnlyStore s t ∧ Claims.HartX s t aq none ∧
      (s.h.s.resv = some (.mem (pa / 128)) → Claims.StoredAt s t pa n (s.h.xr rs2).toNat ∧ XAfter s t rd 0) ∧
      (s.h.s.resv ≠ some (.mem (pa / 128)) → t.mem.mem = s.mem.mem ∧ t.mem.pois = s.mem.pois ∧
        t.others = s.others ∧ XAfter s t rd 1))

/-- Where the address of an AMO is a multiple of its size and goes to memory that is not poisoned and whose port
is up, it completes: rd takes the old word or doubleword, sign-extended, and memory takes the operation's
result. AMOCAS compares the old bytes with rd (for .Q the pair at an even rd, the pair of x0 reading 0) and
stores rs2 only when they are equal; rd or its pair takes the old bytes. Every other byte of memory reads as
before; no other register changes; with aq the hart acquires at system scope; the pc moves on by 4. (02 R31; 03
Table 3.7; 16 R343.) -/
def Obligations.AtomicResults : Prop :=
  ∀ (s : State) (rs1 : Reg) (n pa : Nat) (nc aq rl : Bool), (s.h.xr rs1).toNat % n = 0 →
    addrOf s s.h .amo (s.h.xr rs1) = .ok (.mem pa nc) → poisonedLoc s (.mem pa nc) n = false → farPortDown s pa = false →
    (∀ (op : AmoOp) (dbl : Bool) (rd rs2 : Reg), n = (if dbl then 8 else 4) →
      ∃ t, exec (.amo op dbl aq rl rd rs1 rs2) s = .next t ∧ OnlyStore s t ∧ Claims.HartX s t aq s.h.s.resv ∧
        XAfter s t rd (Claims.signed n (readLe s.mem.mem pa n)) ∧
        Claims.StoredAt s t pa n
          (if dbl then (Claims.amo op (BitVec.ofNat 64 (readLe s.mem.mem pa n)) (s.h.xr rs2)).toNat
           else (Claims.amo op (BitVec.ofNat 32 (readLe s.mem.mem pa n)) ((s.h.xr rs2).setWidth 32)).toNat)) ∧
    (∀ (i : Instr) (rd rs2 : Reg),
      (i = .amocasW aq rl rd rs1 rs2 ∧ n = 4) ∨ (i = .amocasD aq rl rd rs1 rs2 ∧ n = 8) →
      ∃ t, exec i s = .next t ∧ OnlyStore s t ∧ Claims.HartX s t aq s.h.s.resv ∧
        XAfter s t rd (Claims.signed n (readLe s.mem.mem pa n)) ∧
        (if readLe s.mem.mem pa n = (s.h.xr rd).toNat % 256 ^ n then Claims.StoredAt s t pa n (s.h.xr rs2).toNat
         else t.mem.mem = s.mem.mem)) ∧
    (∀ rd rs2 : Reg, n = 16 → rd.toNat % 2 = 0 → rs2.toNat % 2 = 0 →
      ∃ t, exec (.amocasQ aq rl rd rs1 rs2) s = .next t ∧ OnlyStore s t ∧ Claims.HartX s t aq s.h.s.resv ∧
        (∀ r, t.h.xr r = if r = rd ∧ rd ≠ 0 then BitVec.ofNat 64 (readLe s.mem.mem pa 16)
          else if r = rd + 1 ∧ rd ≠ 0 then BitVec.ofNat 64 (readLe s.mem.mem pa 16 / 2 ^ 64) else s.h.xr r) ∧
        (readLe s.mem.mem pa 16 = Claims.pairOf s.h rd → Claims.StoredAt s t pa 16 (Claims.pairOf s.h rs2)) ∧
        (readLe s.mem.mem pa 16 ≠ Claims.pairOf s.h rd → t.mem.mem = s.mem.mem))

/-- For every scalar load, store, LR, SC, AMO, AMOCAS, XLDA and XSTL: at an address that is no multiple of its
size it takes load- or store-address-misaligned (causes 4 and 6) with that address; where translation or the
windows stop the access, the stop is raised, an exception being taken and a page fault offered to the pager of a
vector hart; and an access that reads poisoned memory takes cause 19. In each case the whole next state is that
of the exception: nothing is written. (03 Table 3.7; 04 R79, R83, R89; 19 Table 19.1.) -/
def Obligations.ScalarAccessTraps : Prop :=
  ∀ (i : Instr) (k : AKind) (rs1 : Reg) (imm : BitVec 12) (n : Nat) (rd : Bool) (s : State) (va : Word),
    Claims.accessOf i = some (k, rs1, imm, n, rd) → va = s.h.xr rs1 + imm.signExtend 64 →
    (va.toNat % n ≠ 0 →
      exec i s = .next (takeTrap s { cause := if k = .load then 4 else 6, tval := va, sub := 0 } none)) ∧
    (∀ e, va.toNat % n = 0 → addrOf s s.h k va = .error e → exec i s = .next (raise e s)) ∧
    (∀ pa nc, va.toNat % n = 0 → rd = true → addrOf s s.h k va = .ok (.mem pa nc) →
      poisonedLoc s (.mem pa nc) n = true →
      exec i s = .next (takeTrap s { cause := 19, tval := va, sub := 0 } none))

/-- XFENCE at a scope wider than hart, FENCE whose pred includes r and FENCE.TSO drop the copies in their core's
L1 and the sampler's texels of the hart; XFENCE at hart scope, another FENCE, FENCE.I and VFENCE.SV change
nothing. VWAIT waits while blocks run; VFENCE.VS while a block or a matrix entry is unfinished; VFENCE.VV and
MSYNC while a matrix entry is; VFENCE.VV also drops the texels. A waiting instruction leaves the whole state as
it was, to execute again; one that completes changes nothing else but the pc and instret. (That scalar accesses
are performed at once, so that none is waited for, is assumption 3.) (16 R351 to R354; 17 R371; 13 R281; 06
R122; 12 R266; 02 R44.) -/
def Obligations.FencesAndWaits : Prop :=
  ∀ (s d v : State),
    d = { s with
      h := { s.h with
        s := { s.h.s with pc := s.h.s.pc + 4, instret := s.h.s.instret + 1 } } } →
    v = { d with
      h := { d.h with texels := [] }
      mem := { s.mem with l1 := s.mem.l1.filter (fun e => decide (e.1 ≠ s.h.id.coreNo)) } } →
    (∀ sc, exec (.xfence sc) s = .next (if sc = .hart then d else v)) ∧
    (∀ fm pred succ rs1 rd, exec (.fence fm pred succ rs1 rd) s = .next (if pred.getLsbD 1 then v else d)) ∧
    (∀ rs1 rd, exec (.fenceTso rs1 rd) s = .next v) ∧
    (∀ imm rs1 rd, exec (.fenceI imm rs1 rd) s = .next d) ∧
    exec .vfenceSv s = .next d ∧
    (s.h.vu.blocks = [] ∨ s.h.vu.halt ≠ 0 → exec .vwait s = .next d) ∧
    (s.h.vu.blocks ≠ [] → s.h.vu.halt = 0 → exec .vwait s = .next s) ∧
    (s.h.mat.fault = none → s.h.mat.queue = [] →
      exec .vfenceVs s = .next (if s.h.vu.blocks = [] then d else s) ∧ exec .msync s = .next d ∧
      exec .vfenceVv s = .next { d with h := { d.h with texels := [] } }) ∧
    (s.h.mat.fault = none → s.h.mat.queue ≠ [] →
      exec .vfenceVs s = .next s ∧ exec .msync s = .next s ∧ exec .vfenceVv s = .next s)

/-- At depth 0, or at depth 1 for a cause other than illegal-instruction, where the 512 bytes of the record of
the next level pass the windows for a store, a trap of a vector hart sets the mode to S, the depth one higher,
the pc to stvec, sepc to the pc, scause and stval to the exception's, SPP to the mode, SPIE to SIE and SIE to 0,
and ends the reservation; the record's first fields hold the pc, the cause and the trap value; no byte of memory
outside the record changes; every x, f, v, w, b, j, mask-stack and accumulator value is kept. At depth 2, and at
depth 1 for illegal-instruction, the hart is held, takes no trap, and REPORT cause 10 names it and its pc. (19
R405, R407, R410; 19 Tables 19.2, 19.8; 03 Table 3.7.) -/
def Obligations.TrapEntryOfVectorHart : Prop :=
  ∀ (s : State) (x : Exc) (mpc : Option Word), s.h.id.isVector = true →
    (∀ pa : Nat, s.h.s.depth = 0 ∨ (s.h.s.depth = 1 ∧ x.cause ≠ 2) →
      (∀ i < 8, ∃ nc, partLoc s.mem s.h.id.part (s.h.c.vtrec.toNat + 512 * s.h.s.depth + 64 * i) .store =
        some (.mem (pa + 64 * i) nc)) →
      ∃ t, takeTrap s x mpc = t ∧ MemElsewhere s t pa 512 ∧
        (Memory.wf s.mem = true → (∀ i < 8, farPortDown s (pa + 64 * i) = false) →
          readLe t.mem.mem pa 8 = s.h.s.pc.toNat ∧ readLe t.mem.mem (pa + 8) 8 = x.cause.toNat ∧
          readLe t.mem.mem (pa + 16) 8 = x.tval.toNat ∧ readLe t.mem.mem (pa + 24) 2 = x.sub.toNat) ∧
        t.h.s = { s.h.s with
          priv := .s, depth := s.h.s.depth + 1, pc := s.h.sc.stvec - s.h.sc.stvec % 4, resv := none } ∧
        t.h.sc = { s.h.sc with
          sepc := s.h.s.pc, scause := x.cause.setWidth 64, stval := x.tval, sstatus := t.h.sc.sstatus } ∧
        (t.h.sc.sstatus.getLsbD 8 = decide (s.h.s.priv = .s) ∧
          t.h.sc.sstatus.getLsbD 5 = s.h.sc.sstatus.getLsbD 1 ∧ t.h.sc.sstatus.getLsbD 1 = false ∧
          ∀ b, b ≠ 1 → b ≠ 5 → b ≠ 8 → t.h.sc.sstatus.getLsbD b = s.h.sc.sstatus.getLsbD b) ∧
        t.h.vu.v = s.h.vu.v ∧ t.h.vu.w = s.h.vu.w ∧ t.h.vu.b = s.h.vu.b ∧ t.h.vu.j = s.h.vu.j ∧
        t.h.vu.ms = s.h.vu.ms ∧ t.h.mat.mt = s.h.mat.mt ∧ t.h.mat.ma = s.h.mat.ma ∧ t.h.c = s.h.c ∧
        t.h.run = s.h.run) ∧
    (s.h.s.depth = 2 ∨ (s.h.s.depth = 1 ∧ x.cause = 2) → ∃ t r, takeTrap s x mpc = t ∧
      t = { s with h := { s.h with run := .held }, sched := { s.sched with reports := s.sched.reports ++ [r] } } ∧
      r.cause = 10 ∧ r.part = s.h.id.part ∧ r.d0 = s.h.id.cont.setWidth 64 ∧ r.d1 = s.h.s.pc)

namespace Sys2Proof.Claims

/-- The hart after an instruction that only moves the pc and counts itself. -/
def moved (h : Hart) (pc : Word) : Hart :=
  { h with s := { h.s with pc := pc, instret := h.s.instret + 1 } }

/-- Every bit of a status word outside a list is as it was. -/
def SameBits (a b : Word) (l : List Nat) : Prop := ∀ i, i ∉ l → a.getLsbD i = b.getLsbD i

/-- Cause of an ECALL. -/
def ecallCause : Priv → BitVec 8
  | .u => 8
  | .s => 9
  | .m => 11

end Sys2Proof.Claims

/-- EBREAK takes the breakpoint exception (cause 3) with the pc as trap value. ECALL, where the hart's matrix
queue is empty, takes cause 8 at U, 9 at S and 11 at M with trap value 0; while the queue has an entry to
execute it waits with the state unchanged; where the queue has stopped at an exception, that exception is taken
in its place, with the failing word's pc for the record, and the entry is left to execute again. (03 Table 3.7;
19 Table 19.1; 13 R281, R292, R294.) -/
def Obligations.EnvironmentCallsTrap : Prop :=
  ∀ s : State,
    exec .ebreak s = .next (takeTrap s { cause := 3, tval := s.h.s.pc, sub := 0 } none) ∧
    (s.h.mat.fault = none → s.h.mat.queue = [] →
      exec .ecall s = .next (takeTrap s { cause := Claims.ecallCause s.h.s.priv, tval := 0, sub := 0 } none)) ∧
    (s.h.mat.fault = none → s.h.mat.queue ≠ [] → exec .ecall s = .next s) ∧
    (∀ x e q, s.h.mat.fault = some (.exc x) → s.h.mat.queue = e :: q →
      exec .ecall s = .next (takeTrap { s with h := { s.h with mat := { s.h.mat with fault := some .retry } } } x (some e.pc)))

/-- WFI at S or M, with TW clear on a hart that has mstatus, completes and changes nothing else. SFENCE.VMA
likewise (TVM) removes every cached translation of the hart. MRET at M sets the mode to MPP, MIE to MPIE, MPIE
to 1 and MPP to U and the pc to mepc. SRET of a hart that is no vector hart, at S with TSR clear or at M, sets
the mode to SPP, SIE to SPIE, SPIE to 1 and SPP to U and the pc to sepc. At U each of them raises
illegal-instruction with the word as trap value, and so does MRET at S, and SRET of a vector hart at depth 0.
(The machine-level rules are the RISC-V privileged specification's, assumption 12.) (03 Table 3.7; 04 R80; 19
R404, R405.) -/
def Obligations.PrivilegedInstructions : Prop :=
  ∀ (s : State) (rs1 rs2 : Reg),
    (s.h.s.priv = .m ∨ (s.h.s.priv = .s ∧ (s.h.id.isVector = true ∨ s.h.mc.mstatus.getLsbD 21 = false)) →
      exec .wfi s = .next { s with h := Claims.moved s.h (s.h.s.pc + 4) }) ∧
    (s.h.s.priv = .m ∨ (s.h.s.priv = .s ∧ (s.h.id.isVector = true ∨ s.h.mc.mstatus.getLsbD 20 = false)) →
      exec (.sfenceVma rs1 rs2) s = .next { s with h := { Claims.moved s.h (s.h.s.pc + 4) with tlb := [] } }) ∧
    (s.h.s.priv = .m → ∃ t, exec .mret s = .next t ∧
      t = { s with h := { s.h with s := t.h.s, mc := { s.h.mc with mstatus := t.h.mc.mstatus } } } ∧
      t.h.s = { (Claims.moved s.h s.h.mc.mepc).s with
        priv := match fieldOf s.h.mc.mstatus 12 11 with | 3 => .m | 1 => .s | _ => .u } ∧
      t.h.mc.mstatus.getLsbD 3 = s.h.mc.mstatus.getLsbD 7 ∧ t.h.mc.mstatus.getLsbD 7 = true ∧
      fieldOf t.h.mc.mstatus 12 11 = 0 ∧ Claims.SameBits t.h.mc.mstatus s.h.mc.mstatus [3, 7, 11, 12, 17]) ∧
    (s.h.id.isVector = false → s.h.s.priv = .m ∨ (s.h.s.priv = .s ∧ s.h.mc.mstatus.getLsbD 22 = false) →
      ∃ t, exec .sret s = .next t ∧
      t = { s with h := { s.h with s := t.h.s, mc := { s.h.mc with mstatus := t.h.mc.mstatus } } } ∧
      t.h.s = { (Claims.moved s.h s.h.sc.sepc).s with priv := if s.h.mc.mstatus.getLsbD 8 then .s else .u } ∧
      t.h.mc.mstatus.getLsbD 1 = s.h.mc.mstatus.getLsbD 5 ∧ t.h.mc.mstatus.getLsbD 5 = true ∧
      t.h.mc.mstatus.getLsbD 8 = false ∧ Claims.SameBits t.h.mc.mstatus s.h.mc.mstatus [1, 5, 8, 17]) ∧
    (∀ i w, (i, w) ∈ [(Instr.wfi, (0x10500073 : Word)), (.sret, 0x10200073), (.mret, 0x30200073)] →
      s.h.s.priv = .u → exec i s = .next (takeTrap s { cause := 2, tval := w, sub := 0 } none)) ∧
    (s.h.s.priv = .u → exec (.sfenceVma rs1 rs2) s = .next (takeTrap s
      { cause := 2, tval := 0x12000073 + rs1.setWidth 64 * 2 ^ 15 + rs2.setWidth 64 * 2 ^ 20, sub := 0 } none)) ∧
    (s.h.s.priv = .s → exec .mret s = .next (takeTrap s { cause := 2, tval := 0x30200073, sub := 0 } none)) ∧
    (s.h.id.isVector = true → s.h.s.depth = 0 →
      exec .sret s = .next (takeTrap s { cause := 2, tval := 0x10200073, sub := 0 } none))

/-- At S with the 512 bytes of its level-1 record passing the windows: at depth 1, where every entry is as
written or marked done, SRET goes to U at depth 0 with the pc at sepc, SPIE = 1 and SPP = U, and the vector unit
runs again; where an entry was changed otherwise it raises illegal-instruction. At depth 2 it goes to depth 1 at
S with the pc at sepc and loads sepc, scause and stval from the record's EPC, CAUSE and TVAL and SPP and SPIE
from SSTAT. No memory, x, f, v, w or b value changes. Where the record does not pass, a load access fault is
taken (assumption log: SRET record). (19 R405, R406, R411; 19 Table 19.2.) -/
def Obligations.ReturnFromVectorTrap : Prop :=
  ∀ (s : State), s.h.id.isVector = true → s.h.s.priv = .s →
    (recReadable s = true → s.h.s.depth = 1 → ∀ new, recEntries s = some new →
      (entriesOk s new = true → ∃ t, exec .sret s = .next t ∧
        t = { s with h := t.h } ∧
        t.h.s = { (Claims.moved s.h s.h.sc.sepc).s with priv := .u, depth := 0 } ∧
        t.h.sc = { s.h.sc with sstatus := t.h.sc.sstatus } ∧ t.h.sc.sstatus.getLsbD 5 = true ∧
        t.h.sc.sstatus.getLsbD 8 = false ∧ Claims.SameBits t.h.sc.sstatus s.h.sc.sstatus [5, 8] ∧
        t.h.vu = { s.h.vu with blocks := t.h.vu.blocks, wix := t.h.vu.wix, prog := t.h.vu.prog, halt := 0 } ∧
        t.h.c = s.h.c ∧ t.h.mat.ma = s.h.mat.ma) ∧
      (entriesOk s new = false →
        exec .sret s = .next (takeTrap s { cause := 2, tval := 0x10200073, sub := 0 } none))) ∧
    (recReadable s = true → s.h.s.depth = 2 → ∀ epc cause tval sst : Nat,
      s.readPart s.h.id.part (s.h.c.vtrec.toNat + 0) 8 = some epc →
      s.readPart s.h.id.part (s.h.c.vtrec.toNat + 8) 8 = some cause →
      s.readPart s.h.id.part (s.h.c.vtrec.toNat + 16) 8 = some tval →
      s.readPart s.h.id.part (s.h.c.vtrec.toNat + 30) 1 = some sst →
      ∃ t, exec .sret s = .next t ∧ t = { s with h := t.h } ∧
        t.h.s = { (Claims.moved s.h s.h.sc.sepc).s with priv := .s, depth := 1 } ∧
        t.h.sc = { s.h.sc with
          sepc := BitVec.ofNat 64 epc, scause := BitVec.ofNat 64 cause, stval := BitVec.ofNat 64 tval,
          sstatus := t.h.sc.sstatus } ∧
        t.h.sc.sstatus.getLsbD 8 = sst.testBit 0 ∧ t.h.sc.sstatus.getLsbD 5 = sst.testBit 1 ∧
        Claims.SameBits t.h.sc.sstatus s.h.sc.sstatus [5, 8] ∧
        t.h.vu = { s.h.vu with halt := t.h.vu.halt } ∧ t.h.c = s.h.c ∧ t.h.mat = s.h.mat) ∧
    (recReadable s = false → s.h.s.depth ≠ 0 → ∃ tval,
      exec .sret s = .next (takeTrap s { cause := 5, tval := tval, sub := 0 } none))

/-- A block word whose OPC is 0x00 or 0xFF decodes to nothing whatever its other fields hold; VSTOP is the word
0x9F and no other, and any other word with OPC 0x9F decodes to nothing. When the vector unit of a running hart
reaches such a word, of which eight bytes of zeros in memory are one, the step takes illegal-instruction with
the whole word as trap value (a page of erased memory with every bit 1 likewise). (R41.) -/
def Obligations.IllegalBlockOpcodes : Prop :=
  (∀ w : BitVec 64, w.toNat % 256 = 0x00 ∨ w.toNat % 256 = 0xFF → decodeBlock w = none) ∧
  (∀ w : BitVec 64, decodeBlock w = some .vstop ↔ w = 0x9F) ∧
  (∀ w : BitVec 64, w.toNat % 256 = 0x9F → w ≠ 0x9F → decodeBlock w = none) ∧
  (∀ (s c : State) (rest : List Turn) (b : Block) (bs : List Block) (pa : Nat) (nc : Bool) (w : BitVec 64),
    s.pkg.powered = true → s.agenda = .vector :: rest →
    c = { s with agenda := rest, h := { s.h with s := { s.h.s with cycle := s.h.s.cycle + 1 } } } →
    vectorReady c = true → s.h.vu.blocks = b :: bs →
    addrOf c c.h .fetch (b.wordAt s.h.vu.wix) = .ok (.mem pa nc) → poisonedLoc c (.mem pa nc) 8 = false →
    w = BitVec.ofNat 64 (readLe s.mem.mem pa 8) →
    w.toNat % 256 = 0x00 ∨ w.toNat % 256 = 0xFF ∨ (w.toNat % 256 = 0x9F ∧ w ≠ 0x9F) →
    step s = .next (takeTrap c { cause := 2, tval := w, sub := 0 } none))

/-- A clock change of an enabled die to a frequency from 600 to 1,600 MHz is a step of its own, between the
steps of every stream: it puts the frequency into MHZ of that die's power registers and changes no other device
register, no memory, no hart, no instruction in flight and no other part of the state but the model's own
counter of open points. (R27.) -/
def Obligations.ClockChangeHasNoArchitecturalEffect : Prop :=
  ∀ (die : DieNo) (mhz : BitVec 12) (s : State), 600 ≤ mhz.toNat → mhz.toNat ≤ 1600 →
    s.pkg.dies.getLsbD die.toNat = true →
    ∃ t, exec (.clockChange die mhz) s = .next t ∧
      t = { s with tick := s.tick + 1, mem := { s.mem with dev := t.mem.dev } } ∧
      (Memory.wf s.mem = true →
        fieldOf (t.devGet (0xF000000001018 + 0x100 * die.toNat)) 11 0 = mhz.toNat ∧
        fieldOf (t.devGet (0xF000000001018 + 0x100 * die.toNat)) 63 12 =
          fieldOf (s.devGet (0xF000000001018 + 0x100 * die.toNat)) 63 12) ∧
      ∀ a, a ≠ 0xF000000001018 + 0x100 * die.toNat → t.devGet a = s.devGet a
end

