-- ==== Sys2Proof/Laws/Memory.lean ====
section
/-! SUPPORT. The laws of sparse maps and of little-endian memory: what a write leaves, what a read after it
gives, and that every operation keeps the canonical form. -/

namespace Sys2Proof.Machine

/-! ## Canonical form -/

theorem mapWfFrom_mono {w : Nat} {m : SMap w} {lo lo' : Nat} (h : lo' ≤ lo) (hm : mapWfFrom lo m = true) :
    mapWfFrom lo' m = true := by
  cases m with
  | nil => rfl
  | cons e t => obtain ⟨a, v⟩ := e; simp only [mapWfFrom, Bool.and_eq_true, decide_eq_true_eq] at hm ⊢
                exact ⟨⟨by omega, hm.1.2⟩, hm.2⟩

theorem mapSet_wfFrom {w : Nat} (m : SMap w) (a : Nat) (v : BitVec w) : ∀ lo, lo ≤ a → mapWfFrom lo m = true →
    mapWfFrom lo (mapSet m a v) = true := by
  induction m with
  | nil =>
      intro lo h _
      rw [mapSet]
      split
      · rfl
      · rename_i hv
        simp only [mapWfFrom, Bool.and_eq_true, decide_eq_true_eq]
        exact ⟨⟨h, hv⟩, trivial⟩
  | cons e t ih =>
      obtain ⟨b, x⟩ := e
      intro lo h hm
      simp only [mapWfFrom, Bool.and_eq_true, decide_eq_true_eq] at hm
      obtain ⟨⟨hlo, hx⟩, ht⟩ := hm
      unfold mapSet
      split
      · split
        · simp only [mapWfFrom, Bool.and_eq_true, decide_eq_true_eq]
          exact ⟨⟨hlo, hx⟩, ht⟩
        · rename_i h1 h2
          simp only [mapWfFrom, Bool.and_eq_true, decide_eq_true_eq]
          exact ⟨⟨h, h2⟩, ⟨by omega, hx⟩, ht⟩
      · split
        · split
          · exact mapWfFrom_mono (by omega) ht
          · rename_i h1 h2 h3
            simp only [mapWfFrom, Bool.and_eq_true, decide_eq_true_eq]
            exact ⟨⟨h, h3⟩, by subst h2; exact ht⟩
        · simp only [mapWfFrom, Bool.and_eq_true, decide_eq_true_eq]
          exact ⟨⟨hlo, hx⟩, ih (b + 1) (by omega) ht⟩

/-- A write keeps the canonical form. -/
theorem mapSet_wf {w : Nat} {m : SMap w} (a : Nat) (v : BitVec w) (h : mapWf m = true) :
    mapWf (mapSet m a v) = true := mapSet_wfFrom m a v 0 (Nat.zero_le a) h

theorem writeLe_wf : ∀ (n : Nat) {m : SMap 8} (a v : Nat), mapWf m = true → mapWf (writeLe m a n v) = true
  | 0, _, _, _, h => h
  | n + 1, _, _, _, h => writeLe_wf n _ _ (mapSet_wf _ _ h)

theorem filter_wfFrom {w : Nat} (p : Nat × BitVec w → Bool) : ∀ (m : SMap w) (lo : Nat), mapWfFrom lo m = true →
    mapWfFrom lo (m.filter p) = true
  | [], _, h => h
  | (a, v) :: t, lo, h => by
      simp only [mapWfFrom, Bool.and_eq_true, decide_eq_true_eq] at h
      have ht := filter_wfFrom p t (a + 1) h.2
      rw [List.filter_cons]
      split
      · simp only [mapWfFrom, Bool.and_eq_true, decide_eq_true_eq]
        exact ⟨h.1, ht⟩
      · exact mapWfFrom_mono (by omega) ht

/-- Dropping entries keeps the canonical form. -/
theorem filter_wf {w : Nat} (p : Nat × BitVec w → Bool) {m : SMap w} (h : mapWf m = true) :
    mapWf (m.filter p) = true := filter_wfFrom p m 0 h

/-! ## Reading after writing -/

theorem mapGet_below {w : Nat} (m : SMap w) : ∀ {lo c : Nat}, mapWfFrom lo m = true → c < lo → mapGet m c = 0 := by
  induction m with
  | nil => intros; rfl
  | cons e t ih =>
      obtain ⟨b, x⟩ := e
      intro lo c hm hc
      simp only [mapWfFrom, Bool.and_eq_true, decide_eq_true_eq] at hm
      rw [mapGet, if_neg (by omega)]
      exact ih hm.2 (by omega)

/-- A write leaves every other address as it was. -/
theorem mapGet_mapSet_ne {w : Nat} (m : SMap w) {a c : Nat} (v : BitVec w) (h : c ≠ a) :
    mapGet (mapSet m a v) c = mapGet m c := by
  induction m with
  | nil =>
      rw [mapSet]
      split
      · rfl
      · simp [mapGet, Ne.symm h]
  | cons e t ih =>
      obtain ⟨b, x⟩ := e
      unfold mapSet
      split
      · split
        · rfl
        · simp [mapGet, Ne.symm h]
      · split
        · rename_i h1 h2
          subst h2
          split <;> simp [mapGet, Ne.symm h]
        · simp only [mapGet, ih]

/-- A read of the address written gives the value written. -/
theorem mapGet_mapSet_same {w : Nat} (m : SMap w) (a : Nat) (v : BitVec w) : ∀ lo, mapWfFrom lo m = true →
    mapGet (mapSet m a v) a = v := by
  induction m with
  | nil =>
      intro lo _
      rw [mapSet]
      split
      · rename_i hv
        exact hv.symm
      · simp [mapGet]
  | cons e t ih =>
      obtain ⟨b, x⟩ := e
      intro lo hm
      simp only [mapWfFrom, Bool.and_eq_true, decide_eq_true_eq] at hm
      unfold mapSet
      split
      · split
        · rename_i h1 h2
          rw [h2, mapGet, if_neg (by omega)]
          exact mapGet_below t hm.2 (by omega)
        · simp [mapGet]
      · split
        · rename_i h1 h2
          subst h2
          split
          · rename_i h3
            rw [h3]
            exact mapGet_below t hm.2 (by omega)
          · simp [mapGet]
        · rename_i h1 h2
          rw [mapGet, if_neg (by omega)]
          exact ih (b + 1) hm.2

/-- One byte of memory after a little-endian write of `n` bytes. -/
theorem mapGet_writeLe : ∀ (n : Nat) (m : SMap 8) (a v c : Nat), mapWf m = true →
    mapGet (writeLe m a n v) c =
      if a ≤ c ∧ c < a + n then BitVec.ofNat 8 (v / 256 ^ (c - a)) else mapGet m c
  | 0, m, a, v, c, _ => by simp [writeLe]
  | n + 1, m, a, v, c, h => by
      rw [writeLe, mapGet_writeLe n _ _ _ _ (mapSet_wf _ _ h)]
      by_cases h1 : c = a
      · subst h1
        rw [if_neg (by omega), if_pos (by omega), mapGet_mapSet_same _ _ _ 0 h]
        simp
      · by_cases h2 : a + 1 ≤ c ∧ c < a + 1 + n
        · rw [if_pos h2, if_pos (by omega)]
          have : c - a = (c - (a + 1)) + 1 := by omega
          rw [this, Nat.pow_succ, Nat.mul_comm, Nat.div_div_eq_div_mul]
        · rw [if_neg h2, if_neg (by omega), mapGet_mapSet_ne _ _ h1]

/-- Bytes that a write does not meet read as before. -/
theorem mapGet_writeLe_out (n : Nat) (m : SMap 8) (a v c : Nat) (h : c < a ∨ a + n ≤ c) :
    mapGet (writeLe m a n v) c = mapGet m c := by
  induction n generalizing m a v with
  | zero => rfl
  | succ n ih => rw [writeLe, ih _ _ _ (by omega), mapGet_mapSet_ne _ _ (by omega)]

theorem readLe_congr : ∀ (n a : Nat) {m m' : SMap 8}, (∀ c, a ≤ c → c < a + n → mapGet m c = mapGet m' c) →
    readLe m a n = readLe m' a n
  | 0, _, _, _, _ => rfl
  | n + 1, a, _, _, h => by
      rw [readLe, readLe, h a (Nat.le_refl a) (by omega), readLe_congr n (a + 1) (fun c h1 h2 => h c (by omega) (by omega))]

theorem readLe_lt : ∀ (n a : Nat) (m : SMap 8), readLe m a n < 256 ^ n
  | 0, _, _ => by simp [readLe]
  | n + 1, a, m => by
      have h1 := readLe_lt n (a + 1) m
      have h2 := (mapGet m a).isLt
      rw [readLe, Nat.pow_succ]
      omega

/-- A read of the bytes just written gives the value, cut to their number. -/
theorem readLe_writeLe : ∀ (n : Nat) (m : SMap 8) (a v : Nat), mapWf m = true →
    readLe (writeLe m a n v) a n = v % 256 ^ n
  | 0, _, _, _, _ => by simp [readLe, Nat.mod_one]
  | n + 1, m, a, v, h => by
      rw [readLe, mapGet_writeLe _ _ _ _ _ h, if_pos (by omega), writeLe,
        readLe_writeLe n _ _ _ (mapSet_wf _ _ h)]
      simp [Nat.pow_succ, Nat.mul_comm (256 ^ n) 256, Nat.mod_mul]

/-- A read of bytes that a write does not meet gives what it gave. -/
theorem readLe_writeLe_out (k n : Nat) (m : SMap 8) (a v c : Nat) (h : c + k ≤ a ∨ a + n ≤ c) :
    readLe (writeLe m a n v) c k = readLe m c k :=
  readLe_congr k c (fun d _ _ => mapGet_writeLe_out n m a v d (by omega))

/-! ## The canonical form of the machine's memory -/

theorem wf_iff (m : MemSys) : Memory.wf m = true ↔
    mapWf m.mem = true ∧ mapWf m.spad = true ∧ mapWf m.dev = true ∧ mapWf m.win = true := by
  simp [Memory.wf, and_assoc]

theorem reset_memory_wf : Memory.wf State.reset.mem = true := by decide

end Sys2Proof.Machine
end

