-- ==== Sys2Proof/Laws/Keep/Ops.lean ====
section
/-! SUPPORT. Every operation of Machine/Ops.lean keeps the canonical form of memory. -/

namespace Sys2Proof.Machine

/-- The canonical form of memory as a predicate of the state. -/
def MemOk (s : State) : Prop := Memory.wf s.mem = true

theorem foldl_memOk {α : Type} {f : State → α → State} (hf : ∀ s a, MemOk s → MemOk (f s a)) :
    ∀ (l : List α) {s : State}, MemOk s → MemOk (l.foldl f s)
  | [], _, h => h
  | a :: l, s, h => foldl_memOk hf l (hf s a h)

/-- A fold keeps what every one of its steps keeps. -/
theorem foldl_mem_wf {α : Type} {f : State → α → State}
    (hf : ∀ s a, Memory.wf s.mem = true → Memory.wf (f s a).mem = true) :
    ∀ (l : List α) {s : State}, Memory.wf s.mem = true → Memory.wf (l.foldl f s).mem = true
  | [], _, h => h
  | a :: l, s, h => foldl_mem_wf hf l (hf s a h)

theorem k_State_setH {s : State} {h : Hart} (hs : Memory.wf s.mem = true) :
    Memory.wf (State.setH s h).mem = true := by
  unfold State.setH
  grind -lia -ring -linarith []

theorem k_State_setMem {s : State} {m : MemSys} (h : Memory.wf m = true) : Memory.wf (s.setMem m).mem = true := h

theorem k_State_setX {s : State} {r : Reg} {v : Word} (hs : Memory.wf s.mem = true) :
    Memory.wf (State.setX s r v).mem = true := by
  unfold State.setX
  grind -lia -ring -linarith [k_State_setH]

theorem k_State_setPc {s : State} {pc : Word} (hs : Memory.wf s.mem = true) :
    Memory.wf (State.setPc s pc).mem = true := by
  unfold State.setPc
  grind -lia -ring -linarith [k_State_setH]

theorem k_State_advance {s : State} (hs : Memory.wf s.mem = true) :
    Memory.wf (State.advance s).mem = true := by
  unfold State.advance
  grind -lia -ring -linarith [k_State_setH]

theorem k_State_tickUp {s : State} (hs : Memory.wf s.mem = true) :
    Memory.wf (State.tickUp s).mem = true := by
  unfold State.tickUp
  grind -lia -ring -linarith []

theorem k_State_mapHarts {s : State} {p : Hart → Bool} {f : Hart → Hart} (hs : Memory.wf s.mem = true) :
    Memory.wf (State.mapHarts s p f).mem = true := by
  unfold State.mapHarts
  grind -lia -ring -linarith [Option.bind_eq_some_iff, Option.map_eq_some_iff]

theorem k_State_swapHart {s : State} {n : Nat} (hs : Memory.wf s.mem = true) :
    Memory.wf (State.swapHart s n).mem = true := by
  unfold State.swapHart
  grind -lia -ring -linarith []

theorem k_State_updGang {s : State} {g : Nat} {f : Gang → Gang} (hs : Memory.wf s.mem = true) :
    Memory.wf (State.updGang s g f).mem = true := by
  unfold State.updGang
  grind -lia -ring -linarith [Option.bind_eq_some_iff, Option.map_eq_some_iff]

theorem k_State_devSet {s : State} {a : Nat} {v : Word} (hs : Memory.wf s.mem = true) :
    Memory.wf (s.devSet a v).mem = true := by
  simp only [wf_iff] at hs ⊢
  exact ⟨hs.1, hs.2.1, mapSet_wf _ _ hs.2.2.1, hs.2.2.2⟩

theorem k_State_dropResv {s : State} {l : Loc} (hs : Memory.wf s.mem = true) :
    Memory.wf (State.dropResv s l).mem = true := by
  unfold State.dropResv
  grind -lia -ring -linarith [Option.bind_eq_some_iff, Option.map_eq_some_iff]

theorem k_writeLoc {s : State} {core : Nat} {l : Loc} {n v : Nat} {p : Bool} (hs : Memory.wf s.mem = true) :
    Memory.wf (writeLoc s core l n v p).mem = true := by
  unfold writeLoc
  split
  · split
    · exact hs
    · simp only [wf_iff] at hs
      exact (wf_iff _).2 ⟨writeLe_wf _ _ _ hs.1, hs.2⟩
  · simp only [wf_iff] at hs
    exact (wf_iff _).2 ⟨hs.1, writeLe_wf _ _ _ hs.2.1, hs.2.2⟩
  · exact k_State_devSet hs

theorem k_State_writePa {s : State} {pa n v : Nat} (hs : Memory.wf s.mem = true) :
    Memory.wf (s.writePa pa n v).mem = true := by
  unfold State.writePa
  split
  · exact hs
  · simp only [wf_iff] at hs
    exact (wf_iff _).2 ⟨writeLe_wf _ _ _ hs.1, hs.2⟩

theorem k_State_writePart {s : State} {part : Nat} {a : Nat} {n : Nat} {v : Nat} {z : State} (h : State.writePart s part a n v = some z) (hs : Memory.wf s.mem = true) :
    Memory.wf z.mem = true := by
  unfold State.writePart at h
  grind -lia -ring -linarith [k_State_writePa]

theorem k_State_dropL1 {s : State} {core : Nat} (hs : Memory.wf s.mem = true) :
    Memory.wf (State.dropL1 s core).mem = true := by
  unfold State.dropL1
  grind -lia -ring -linarith [k_State_setMem, Memory.wf, mapSet_wf, writeLe_wf]

theorem k_State_acquire {s : State} {sc : Scope} (hs : Memory.wf s.mem = true) :
    Memory.wf (State.acquire s sc).mem = true := by
  unfold State.acquire
  grind -lia -ring -linarith [k_State_setH, k_State_dropL1]

theorem k_State_message {s : State} {src : Nat} {dst : Nat} (hs : Memory.wf s.mem = true) :
    Memory.wf (State.message s src dst).mem = true := by
  unfold State.message
  grind -lia -ring -linarith []

theorem k_State_postReport {s : State} {r : Report} (hs : Memory.wf s.mem = true) :
    Memory.wf (State.postReport s r).mem = true := by
  unfold State.postReport
  grind -lia -ring -linarith []

theorem k_State_reportHart {s : State} {h : Hart} {cause : Nat} {d0 : Word} {d1 : Word} (hs : Memory.wf s.mem = true) :
    Memory.wf (State.reportHart s h cause d0 d1).mem = true := by
  unfold State.reportHart
  grind -lia -ring -linarith [k_State_postReport, Option.bind_eq_some_iff, Option.map_eq_some_iff]

theorem k_State_ras {s : State} {kind unit die addr : Nat} (hs : Memory.wf s.mem = true) :
    Memory.wf (s.ras kind unit die addr).mem = true := by
  have key : ∀ (l : List Word) (x : State × Nat), Memory.wf x.1.mem = true →
      Memory.wf (l.foldl (fun (st : State × Nat) w => (st.1.writePa st.2 8 w.toNat, st.2 + 8)) x).1.mem = true := by
    intro l
    induction l with
    | nil => exact fun _ h => h
    | cons w l ih => exact fun x h => ih _ (k_State_writePa h)
  unfold State.ras
  split
  · exact hs
  · split
    · exact hs
    · dsimp only
      generalize RasRec.words _ _ = l
      exact key l _ hs

theorem k_State_writePartLong {part : Nat} : ∀ (n : Nat) {s t : State} {a v : Nat},
    s.writePartLong part a n v = some t → Memory.wf s.mem = true → Memory.wf t.mem = true
  | 0, _, _, _, _, h, hs => by cases h; exact hs
  | n + 1, s, t, a, v, h, hs => by
      unfold State.writePartLong at h
      split at h
      · cases h
      · exact k_State_writePartLong n h (k_State_writePart ‹_› hs)

theorem k_holdHart {s : State} (hs : Memory.wf s.mem = true) :
    Memory.wf (holdHart s).mem = true := by
  unfold holdHart
  grind -lia -ring -linarith [k_State_setH, k_State_reportHart]

theorem k_takeSTrap {s : State} {x : Exc} {mpc : Option Word} (hs : Memory.wf s.mem = true) :
    Memory.wf (takeSTrap s x mpc).mem = true := by
  unfold takeSTrap
  grind -lia -ring -linarith [k_State_setH, k_State_writePartLong, k_holdHart, Option.bind_eq_some_iff, Option.map_eq_some_iff]

theorem k_takeMTrap {s : State} {x : Exc} (hs : Memory.wf s.mem = true) :
    Memory.wf (takeMTrap s x).mem = true := by
  unfold takeMTrap
  grind -lia -ring -linarith [k_State_setH]

theorem k_takeTrap {s : State} {x : Exc} {mpc : Option Word} (hs : Memory.wf s.mem = true) :
    Memory.wf (takeTrap s x mpc).mem = true := by
  unfold takeTrap
  grind -lia -ring -linarith [k_takeSTrap, k_takeMTrap]

theorem k_offerFault {s : State} {cause : BitVec 8} {va : Word} {ad : Bool} {f : FaultSite} (hs : Memory.wf s.mem = true) :
    Memory.wf (offerFault s cause va ad f).mem = true := by
  unfold offerFault
  grind -lia -ring -linarith [k_State_setH]

theorem k_raise {st : Stop} {s : State} (hs : Memory.wf s.mem = true) :
    Memory.wf (raise st s).mem = true := by
  unfold raise
  grind -lia -ring -linarith [k_takeTrap, k_offerFault]

theorem k_raiseV {st : Stop} {lgstop : Nat} {s : State} (hs : Memory.wf s.mem = true) :
    Memory.wf (raiseV st lgstop s).mem = true := by
  unfold raiseV
  grind -lia -ring -linarith [k_takeTrap, k_offerFault]

theorem k_State_setMatFault {s : State} {f : Option Stop} (hs : Memory.wf s.mem = true) :
    Memory.wf (State.setMatFault s f).mem = true := by
  unfold State.setMatFault
  grind -lia -ring -linarith [k_State_setH]

theorem k_takeMatrixFault {s : State} {f : Stop} (hs : Memory.wf s.mem = true) :
    Memory.wf (takeMatrixFault s f).mem = true := by
  unfold takeMatrixFault
  grind -lia -ring -linarith [k_takeTrap, k_offerFault, k_State_setMatFault, Option.bind_eq_some_iff, Option.map_eq_some_iff]

theorem k_matrixSync {s : State} {z : State} (h : matrixSync s = some z) (hs : Memory.wf s.mem = true) :
    Memory.wf z.mem = true := by
  unfold matrixSync at h
  grind -lia -ring -linarith [k_takeMatrixFault]

/-- A guarded instruction goes on to its effect, or takes the exception of its guard. -/
theorem k_guarded {g : Option Stop} {s eff t : State} (h : guarded g s eff = .next t) :
    (g = none ∧ t = eff) ∨ ∃ e, g = some e ∧ t = raise e s := by
  unfold guarded at h
  grind

/-- An instruction that can stop answers what it computed, or takes its exception. -/
theorem k_finish {r : Except Stop State} {s t : State} (h : finish r s = .next t) :
    r = .ok t ∨ ∃ e, r = .error e ∧ t = raise e s := by
  unfold finish at h
  grind

/-- An event that answers a next state was enabled. -/
theorem k_event {name : String} {r : Option State} {t : State} (h : event name r = .next t) :
    ∃ x, r = some x ∧ t = x.tickUp := by
  unfold event at h
  grind

theorem k_sretToU {s : State} (hs : Memory.wf s.mem = true) :
    Memory.wf (sretToU s).mem = true := by
  unfold sretToU
  grind -lia -ring -linarith [k_State_setH]

theorem k_sretToLevel1 {s : State} (hs : Memory.wf s.mem = true) :
    Memory.wf (sretToLevel1 s).mem = true := by
  unfold sretToLevel1
  grind -lia -ring -linarith [k_State_setH]

theorem k_sretStd {s : State} (hs : Memory.wf s.mem = true) :
    Memory.wf (sretStd s).mem = true := by
  unfold sretStd
  grind -lia -ring -linarith [k_State_setH, k_State_setPc]

theorem k_mretStd {s : State} (hs : Memory.wf s.mem = true) :
    Memory.wf (mretStd s).mem = true := by
  unfold mretStd
  grind -lia -ring -linarith [k_State_setH]


end Sys2Proof.Machine
end

