-- ==== Sys2Proof/Laws/Keep/Queue.lean ====
section
/-! SUPPORT. Every operation of Machine/Queue.lean keeps the canonical form of memory. -/

namespace Sys2Proof.Machine

theorem k_State_qSet {s : State} {q : Nat} {k : Nat} {v : Word} (hs : Memory.wf s.mem = true) :
    Memory.wf (State.qSet s q k v).mem = true := by
  unfold State.qSet
  grind -lia -ring -linarith [k_State_devSet]

theorem k_State_qSetState {s : State} {q : Nat} {n : Nat} (hs : Memory.wf s.mem = true) :
    Memory.wf (State.qSetState s q n).mem = true := by
  unfold State.qSetState
  grind -lia -ring -linarith [k_State_qSet]

theorem k_State_qSetOvf {s : State} {q : Nat} {b : Bool} (hs : Memory.wf s.mem = true) :
    Memory.wf (State.qSetOvf s q b).mem = true := by
  unfold State.qSetOvf
  grind -lia -ring -linarith [k_State_qSet]

theorem k_State_qSetWd {s : State} {q : Nat} {n : Nat} (hs : Memory.wf s.mem = true) :
    Memory.wf (State.qSetWd s q n).mem = true := by
  unfold State.qSetWd
  grind -lia -ring -linarith [k_State_qSet]

theorem k_State_qSetRdix {s : State} {q : Nat} {v : Word} (hs : Memory.wf s.mem = true) :
    Memory.wf (State.qSetRdix s q v).mem = true := by
  unfold State.qSetRdix
  grind -lia -ring -linarith [k_State_qSet]

theorem k_State_qSetWrix {s : State} {q : Nat} {v : Word} (hs : Memory.wf s.mem = true) :
    Memory.wf (State.qSetWrix s q v).mem = true := by
  unfold State.qSetWrix
  grind -lia -ring -linarith [k_State_qSet]

theorem k_State_setQs {s : State} {r : QueueState} (hs : Memory.wf s.mem = true) :
    Memory.wf (State.setQs s r).mem = true := by
  unfold State.setQs
  grind -lia -ring -linarith []

theorem k_State_updQs {s : State} {q : Nat} {f : QueueState → QueueState} (hs : Memory.wf s.mem = true) :
    Memory.wf (s.updQs q f).mem = true := hs

theorem k_State_reportQueue {s : State} {q : Nat} {cause : Nat} {tag : BitVec 32} {pktix : Word} {boff : Nat} {d0 : Word} {d1 : Word} (hs : Memory.wf s.mem = true) :
    Memory.wf (State.reportQueue s q cause tag pktix boff d0 d1).mem = true := by
  unfold State.reportQueue
  grind -lia -ring -linarith [k_State_postReport]

theorem k_reportTry {s : State} {q : Nat} (hs : Memory.wf s.mem = true) :
    Memory.wf (reportTry s q).mem = true := by
  unfold reportTry
  grind -lia -ring -linarith [k_State_writePart, k_State_qSetOvf, k_State_qSetWrix, k_State_updQs]

theorem k_notifyRange {s : State} {q : Nat} {w : Word} (hs : Memory.wf s.mem = true) :
    Memory.wf (notifyRange s q w).mem = true := by
  unfold notifyRange
  grind -lia -ring -linarith [k_State_reportQueue]

theorem k_notifyQueue {s : State} {q : Nat} {w : Word} (hs : Memory.wf s.mem = true) :
    Memory.wf (notifyQueue s q w).mem = true := by
  unfold notifyQueue
  grind -lia -ring -linarith [k_State_qSetWrix, k_State_updQs, k_notifyRange]

theorem k_notifyReportQueue {s : State} {q : Nat} {w : Word} (hs : Memory.wf s.mem = true) :
    Memory.wf (notifyReportQueue s q w).mem = true := by
  unfold notifyReportQueue
  grind -lia -ring -linarith [k_State_qSetOvf, k_State_qSetRdix, k_reportTry]

theorem k_doNotify {s : State} {q : Nat} {w : Word} (hs : Memory.wf s.mem = true) :
    Memory.wf (doNotify s q w).mem = true := by
  unfold doNotify
  grind -lia -ring -linarith [k_notifyQueue, k_notifyReportQueue]


end Sys2Proof.Machine
end

