-- ==== Sys2Proof/Laws/Keep/Device.lean ====
section
/-! SUPPORT. Every operation of Machine/Device.lean keeps the canonical form of memory. -/

namespace Sys2Proof.Machine

theorem k_State_updEngine {s : State} {n : Nat} {f : Hart → Hart} (hs : Memory.wf s.mem = true) :
    Memory.wf (State.updEngine s n f).mem = true := by
  unfold State.updEngine
  grind -lia -ring -linarith [k_State_mapHarts]

theorem k_State_measure {s : State} {ix : Nat} {ws : List Word} (hs : Memory.wf s.mem = true) :
    Memory.wf (State.measure s ix ws).mem = true := by
  unfold State.measure
  grind -lia -ring -linarith []

theorem k_rtWerr {s : State} (hs : Memory.wf s.mem = true) :
    Memory.wf (rtWerr s).mem = true := by
  unfold rtWerr
  grind -lia -ring -linarith [k_State_devSet]

theorem k_shadowWrite {s : State} {i : Nat} {second : Bool} {w : Word} {m : Word} (hs : Memory.wf s.mem = true) :
    Memory.wf (shadowWrite s i second w m).mem = true := by
  unfold shadowWrite
  grind -lia -ring -linarith [k_rtWerr, k_State_devSet]

theorem foldl_map_wf {w : Nat} {α : Type} {f : SMap w → α → SMap w}
    (hf : ∀ m a, mapWf m = true → mapWf (f m a) = true) :
    ∀ (l : List α) {m : SMap w}, mapWf m = true → mapWf (l.foldl f m) = true
  | [], _, h => h
  | a :: l, m, h => foldl_map_wf hf l (hf m a h)

theorem k_doSwap {s : State} (hs : Memory.wf s.mem = true) : Memory.wf (doSwap s).mem = true := by
  have hd : mapWf ((List.range 256).foldl exchangeEntry s.mem.dev) = true := by
    refine foldl_map_wf (fun m a h => ?_) _ ((wf_iff _).1 hs).2.2.1
    unfold exchangeEntry
    simp [mapSet_wf, h]
  unfold doSwap
  generalize hg : (List.range 256).foldl exchangeEntry s.mem.dev = d at hd
  grind -lia -ring -linarith [k_rtWerr, k_State_devSet, k_State_setMem, k_State_measure, Memory.wf]

theorem k_rtctlWrite {s : State} {w : Word} {m : Word} (hs : Memory.wf s.mem = true) :
    Memory.wf (rtctlWrite s w m).mem = true := by
  unfold rtctlWrite
  grind -lia -ring -linarith [k_doSwap, k_State_devSet]

theorem k_ctstatSet {s : State} {b : Nat} {i : Nat} (hs : Memory.wf s.mem = true) :
    Memory.wf (ctstatSet s b i).mem = true := by
  unfold ctstatSet
  grind -lia -ring -linarith [k_State_devSet]

theorem k_doConnWrite {s : State} {i : Nat} {w : Word} {m : Word} (hs : Memory.wf s.mem = true) :
    Memory.wf (doConnWrite s i w m).mem = true := by
  unfold doConnWrite
  grind -lia -ring -linarith [k_State_measure, k_ctstatSet, k_State_devSet]

theorem k_carryLines {s : State} {i : Nat} {n : Nat} (hs : Memory.wf s.mem = true) :
    Memory.wf (carryLines s i n).mem = true := by
  unfold carryLines
  grind -lia -ring -linarith [k_State_devSet]

theorem k_carryLine {s : State} {a : Nat} {b : Nat} {p : Nat} {addr : Nat} (hs : Memory.wf s.mem = true) :
    Memory.wf (carryLine s a b p addr).mem = true := by
  unfold carryLine
  grind -lia -ring -linarith [k_carryLines, k_State_message]

theorem k_writeRecord {s : State} {n : Nat} {r : Nat} {payload : Word} {k : Kicker} (hs : Memory.wf s.mem = true) :
    Memory.wf (writeRecord s n r payload k).mem = true := by
  unfold writeRecord
  grind -lia -ring -linarith [k_State_devSet]

theorem k_fillRecord {s : State} {n : Nat} {payload : Word} {k : Kicker} (hs : Memory.wf s.mem = true) :
    Memory.wf (fillRecord s n payload k).mem = true := by
  unfold fillRecord
  grind -lia -ring -linarith [k_State_updEngine, k_writeRecord]

theorem k_doKick {s : State} {n : Nat} {payload : Word} {k : Kicker} {src : Nat} (hs : Memory.wf s.mem = true) :
    Memory.wf (doKick s n payload k src).mem = true := by
  unfold doKick
  grind -lia -ring -linarith [k_State_updEngine, k_fillRecord, k_State_message]

theorem k_kickRecordTake {s : State} {n : Nat} {z : State} (h : kickRecordTake s n = some z) (hs : Memory.wf s.mem = true) :
    Memory.wf z.mem = true := by
  unfold kickRecordTake at h
  grind -lia -ring -linarith [k_State_updEngine, k_fillRecord]

theorem k_sensorWrite {s : State} {pa : Nat} {w : Word} {m : Word} (hs : Memory.wf s.mem = true) :
    Memory.wf (sensorWrite s pa w m).mem = true := by
  unfold sensorWrite
  grind -lia -ring -linarith [k_State_devSet]

theorem k_devApply {s : State} {k : Kicker} {src : Nat} {pa : Nat} {r : DevReg} {w : Word} {m : Word} (hs : Memory.wf s.mem = true) :
    Memory.wf (devApply s k src pa r w m).mem = true := by
  unfold devApply
  grind -lia -ring -linarith [k_State_measure, k_shadowWrite, k_rtctlWrite, k_doConnWrite, k_doKick, k_sensorWrite, k_State_devSet, k_doNotify]

theorem k_devWrite {s : State} {priv : Priv} {k : Kicker} {src : Nat} {pa : Nat} {n : Nat} {v : Nat} {z : State} (h : devWrite s priv k src pa n v = some z) (hs : Memory.wf s.mem = true) :
    Memory.wf z.mem = true := by
  unfold devWrite at h
  grind -lia -ring -linarith [k_devApply]


end Sys2Proof.Machine
end

