-- ==== Sys2Proof/Laws/Keep/ScalarMem.lean ====
section
/-! SUPPORT. Every operation of Machine/ScalarMem.lean keeps the canonical form of memory. -/

namespace Sys2Proof.Machine

theorem k_writeAt {s : State} {k : AKind} {va : Word} {n : Nat} {v : Nat} {l : Loc} {t : State} (h : writeAt s k va n v l = .ok t) (hs : Memory.wf s.mem = true) :
    Memory.wf t.mem = true := by
  unfold writeAt at h
  grind -lia -ring -linarith [k_devWrite, k_writeLoc]

theorem k_scalarStoreBytes {s : State} {va : Word} {n : Nat} {v : Nat} {t : State} (h : scalarStoreBytes s va n v = .ok t) (hs : Memory.wf s.mem = true) :
    Memory.wf t.mem = true := by
  unfold scalarStoreBytes at h
  grind -lia -ring -linarith [k_writeAt]

theorem k_scalarLoadRun {k : LoadKind} {rd : Reg} {rs1 : Reg} {imm : BitVec 12} {s : State} {t : State} (h : scalarLoadRun k rd rs1 imm s = .ok t) (hs : Memory.wf s.mem = true) :
    Memory.wf t.mem = true := by
  unfold scalarLoadRun at h
  grind -lia -ring -linarith [k_State_setH, k_State_advance]

theorem k_execScalarLoad {k : LoadKind} {rd : Reg} {rs1 : Reg} {imm : BitVec 12} {s : State} {t : State} (h : execScalarLoad k rd rs1 imm s = .next t) (hs : Memory.wf s.mem = true) :
    Memory.wf t.mem = true := by
  unfold execScalarLoad at h
  grind -lia -ring -linarith [k_finish, k_scalarLoadRun, k_raise, k_State_tickUp]

theorem k_scalarStoreRun {k : StoreKind} {rs1 : Reg} {rs2 : Reg} {imm : BitVec 12} {s : State} {t : State} (h : scalarStoreRun k rs1 rs2 imm s = .ok t) (hs : Memory.wf s.mem = true) :
    Memory.wf t.mem = true := by
  unfold scalarStoreRun at h
  grind -lia -ring -linarith [k_State_advance, k_scalarStoreBytes]

theorem k_execScalarStore {k : StoreKind} {rs1 : Reg} {rs2 : Reg} {imm : BitVec 12} {s : State} {t : State} (h : execScalarStore k rs1 rs2 imm s = .next t) (hs : Memory.wf s.mem = true) :
    Memory.wf t.mem = true := by
  unfold execScalarStore at h
  grind -lia -ring -linarith [k_finish, k_scalarStoreRun, k_raise, k_State_tickUp]

theorem k_acquireIf {aq : Bool} {s : State} (hs : Memory.wf s.mem = true) :
    Memory.wf (acquireIf aq s).mem = true := by
  unfold acquireIf
  grind -lia -ring -linarith [k_State_acquire]

theorem k_lrRun {dbl : Bool} {aq : Bool} {rd : Reg} {rs1 : Reg} {s : State} {t : State} (h : lrRun dbl aq rd rs1 s = .ok t) (hs : Memory.wf s.mem = true) :
    Memory.wf t.mem = true := by
  unfold lrRun at h
  grind -lia -ring -linarith [k_State_setH, k_State_setX, k_State_advance, k_acquireIf]

theorem k_execLr {dbl : Bool} {aq : Bool} {_rl : Bool} {rd : Reg} {rs1 : Reg} {s : State} {t : State} (h : execLr dbl aq _rl rd rs1 s = .next t) (hs : Memory.wf s.mem = true) :
    Memory.wf t.mem = true := by
  unfold execLr at h
  grind -lia -ring -linarith [k_finish, k_lrRun, k_raise, k_State_tickUp]

theorem k_scRun {dbl : Bool} {aq : Bool} {rd : Reg} {rs1 : Reg} {rs2 : Reg} {s : State} {t : State} (h : scRun dbl aq rd rs1 rs2 s = .ok t) (hs : Memory.wf s.mem = true) :
    Memory.wf t.mem = true := by
  unfold scRun at h
  grind -lia -ring -linarith [k_State_setH, k_State_setX, k_State_advance, k_writeLoc, k_acquireIf]

theorem k_execSc {dbl : Bool} {aq : Bool} {_rl : Bool} {rd : Reg} {rs1 : Reg} {rs2 : Reg} {s : State} {t : State} (h : execSc dbl aq _rl rd rs1 rs2 s = .next t) (hs : Memory.wf s.mem = true) :
    Memory.wf t.mem = true := by
  unfold execSc at h
  grind -lia -ring -linarith [k_finish, k_scRun, k_raise, k_State_tickUp]

theorem k_rmwRun {s : State} {va : Word} {n : Nat} {aq : Bool} {new : Nat → Option Nat} {regs : Nat → Hart → Hart} {t : State} (h : rmwRun s va n aq new regs = .ok t) (hs : Memory.wf s.mem = true) :
    Memory.wf t.mem = true := by
  unfold rmwRun at h
  grind -lia -ring -linarith [k_State_setH, k_State_advance, k_writeLoc, k_acquireIf]

theorem k_execAmo {op : AmoOp} {dbl : Bool} {aq : Bool} {_rl : Bool} {rd : Reg} {rs1 : Reg} {rs2 : Reg} {s : State} {t : State} (h : execAmo op dbl aq _rl rd rs1 rs2 s = .next t) (hs : Memory.wf s.mem = true) :
    Memory.wf t.mem = true := by
  unfold execAmo at h
  grind -lia -ring -linarith [k_State_setX, k_finish, k_rmwRun, k_raise, k_State_tickUp]

theorem k_execAmocasW {aq : Bool} {_rl : Bool} {rd : Reg} {rs1 : Reg} {rs2 : Reg} {s : State} {t : State} (h : execAmocasW aq _rl rd rs1 rs2 s = .next t) (hs : Memory.wf s.mem = true) :
    Memory.wf t.mem = true := by
  unfold execAmocasW at h
  grind -lia -ring -linarith [k_State_setX, k_finish, k_rmwRun, k_raise, k_State_tickUp]

theorem k_execAmocasD {aq : Bool} {_rl : Bool} {rd : Reg} {rs1 : Reg} {rs2 : Reg} {s : State} {t : State} (h : execAmocasD aq _rl rd rs1 rs2 s = .next t) (hs : Memory.wf s.mem = true) :
    Memory.wf t.mem = true := by
  unfold execAmocasD at h
  grind -lia -ring -linarith [k_State_setX, k_finish, k_rmwRun, k_raise, k_State_tickUp]

theorem k_execAmocasQ {aq : Bool} {_rl : Bool} {rd : Reg} {rs1 : Reg} {rs2 : Reg} {s : State} {t : State} (h : execAmocasQ aq _rl rd rs1 rs2 s = .next t) (hs : Memory.wf s.mem = true) :
    Memory.wf t.mem = true := by
  unfold execAmocasQ at h
  grind -lia -ring -linarith [k_finish, k_rmwRun, k_raise, k_State_tickUp]

theorem k_xldaRun {sc : Scope} {wd : AccW} {rd : Reg} {rs1 : Reg} {s : State} {t : State} (h : xldaRun sc wd rd rs1 s = .ok t) (hs : Memory.wf s.mem = true) :
    Memory.wf t.mem = true := by
  unfold xldaRun at h
  grind -lia -ring -linarith [k_State_setX, k_State_advance, k_State_acquire]

theorem k_execXlda {sc : Scope} {wd : AccW} {rd : Reg} {rs1 : Reg} {s : State} {t : State} (h : execXlda sc wd rd rs1 s = .next t) (hs : Memory.wf s.mem = true) :
    Memory.wf t.mem = true := by
  unfold execXlda at h
  grind -lia -ring -linarith [k_finish, k_xldaRun, k_raise, k_State_tickUp]

theorem k_xstlRun {wd : AccW} {rs1 : Reg} {rs2 : Reg} {s : State} {t : State} (h : xstlRun wd rs1 rs2 s = .ok t) (hs : Memory.wf s.mem = true) :
    Memory.wf t.mem = true := by
  unfold xstlRun at h
  grind -lia -ring -linarith [k_State_advance, k_scalarStoreBytes]

theorem k_execXstl {_sc : Scope} {wd : AccW} {rs1 : Reg} {rs2 : Reg} {s : State} {t : State} (h : execXstl _sc wd rs1 rs2 s = .next t) (hs : Memory.wf s.mem = true) :
    Memory.wf t.mem = true := by
  unfold execXstl at h
  grind -lia -ring -linarith [k_finish, k_xstlRun, k_raise, k_State_tickUp]

theorem k_execXfence {sc : Scope} {s : State} {t : State} (h : execXfence sc s = .next t) (hs : Memory.wf s.mem = true) :
    Memory.wf t.mem = true := by
  unfold execXfence at h
  grind -lia -ring -linarith [k_State_advance, k_State_acquire]

theorem k_execFence {_fm : BitVec 4} {pred : BitVec 4} {_succ : BitVec 4} {_rs1 : Reg} {_rd : Reg} {s : State} {t : State} (h : execFence _fm pred _succ _rs1 _rd s = .next t) (hs : Memory.wf s.mem = true) :
    Memory.wf t.mem = true := by
  unfold execFence at h
  grind -lia -ring -linarith [k_State_advance, k_State_acquire]

theorem k_execFenceTso {_rs1 : Reg} {_rd : Reg} {s : State} {t : State} (h : execFenceTso _rs1 _rd s = .next t) (hs : Memory.wf s.mem = true) :
    Memory.wf t.mem = true := by
  unfold execFenceTso at h
  grind -lia -ring -linarith [k_State_advance, k_State_acquire]

theorem k_execFenceI {_imm : BitVec 12} {_rs1 : Reg} {_rd : Reg} {s : State} {t : State} (h : execFenceI _imm _rs1 _rd s = .next t) (hs : Memory.wf s.mem = true) :
    Memory.wf t.mem = true := by
  unfold execFenceI at h
  grind -lia -ring -linarith [k_State_advance]


end Sys2Proof.Machine
end

