-- ==== Sys2Proof/Laws/Keep/Csr.lean ====
section
/-! SUPPORT. Every operation of Machine/Csr.lean keeps the canonical form of memory. -/

namespace Sys2Proof.Machine

theorem k_csrRun {i : Instr} {op : CsrOp} {csr : BitVec 12} {rd : Reg} {src : BitVec 5} {s : State} {t : State} (h : csrRun i op csr rd src s = .ok t) (hs : Memory.wf s.mem = true) :
    Memory.wf t.mem = true := by
  unfold csrRun at h
  grind -lia -ring -linarith [k_State_setH, k_State_setX, k_State_advance]

theorem k_execCsrInstruction {op : CsrOp} {csr : BitVec 12} {rd : Reg} {src : BitVec 5} {s : State} {t : State} (h : execCsrInstruction op csr rd src s = .next t) (hs : Memory.wf s.mem = true) :
    Memory.wf t.mem = true := by
  unfold execCsrInstruction at h
  grind -lia -ring -linarith [k_csrRun, k_finish, k_raise, k_State_tickUp]

theorem k_csrWaitRun {i : Instr} {op : CsrOp} {csr : BitVec 12} {rd : Reg} {src : BitVec 5} {s : State} {t : State} (h : csrWaitRun i op csr rd src s = .ok t) (hs : Memory.wf s.mem = true) :
    Memory.wf t.mem = true := by
  unfold csrWaitRun at h
  grind -lia -ring -linarith [k_csrRun]

theorem k_execFcsrAccess {op : CsrOp} {csr : BitVec 12} {rd : Reg} {src : BitVec 5} {s : State} {t : State} (h : execFcsrAccess op csr rd src s = .next t) (hs : Memory.wf s.mem = true) :
    Memory.wf t.mem = true := by
  unfold execFcsrAccess at h
  grind -lia -ring -linarith [k_csrWaitRun, k_finish, k_raise, k_State_tickUp]

theorem k_execVlutAccess {op : CsrOp} {csr : BitVec 12} {rd : Reg} {src : BitVec 5} {s : State} {t : State} (h : execVlutAccess op csr rd src s = .next t) (hs : Memory.wf s.mem = true) :
    Memory.wf t.mem = true := by
  unfold execVlutAccess at h
  grind -lia -ring -linarith [k_csrWaitRun, k_finish, k_raise, k_State_tickUp]


end Sys2Proof.Machine
end

