-- ==== Sys2Proof/Laws/Keep/System.lean ====
section
/-! SUPPORT. Every operation of Machine/System.lean keeps the canonical form of memory. -/

namespace Sys2Proof.Machine

theorem k_State_countInstret {s : State} (hs : Memory.wf s.mem = true) :
    Memory.wf (State.countInstret s).mem = true := by
  unfold State.countInstret
  grind -lia -ring -linarith [k_State_setH]

theorem k_execEcall {s : State} {t : State} (h : execEcall s = .next t) (hs : Memory.wf s.mem = true) :
    Memory.wf t.mem = true := by
  unfold execEcall at h
  grind -lia -ring -linarith [k_raise, k_matrixSync]

theorem k_execEbreak {s : State} {t : State} (h : execEbreak s = .next t) (hs : Memory.wf s.mem = true) :
    Memory.wf t.mem = true := by
  unfold execEbreak at h
  grind -lia -ring -linarith [k_raise]

theorem k_sretEffect {s : State} (hs : Memory.wf s.mem = true) :
    Memory.wf (sretEffect s).mem = true := by
  unfold sretEffect
  grind -lia -ring -linarith [k_sretToU, k_sretToLevel1, k_sretStd, k_State_countInstret]

theorem k_execSret {s : State} {t : State} (h : execSret s = .next t) (hs : Memory.wf s.mem = true) :
    Memory.wf t.mem = true := by
  unfold execSret at h
  grind -lia -ring -linarith [k_guarded, k_sretEffect, k_raise, k_State_tickUp]

theorem k_execMret {s : State} {t : State} (h : execMret s = .next t) (hs : Memory.wf s.mem = true) :
    Memory.wf t.mem = true := by
  unfold execMret at h
  grind -lia -ring -linarith [k_guarded, k_mretStd, k_State_countInstret, k_raise, k_State_tickUp]

theorem k_execWfi {s : State} {t : State} (h : execWfi s = .next t) (hs : Memory.wf s.mem = true) :
    Memory.wf t.mem = true := by
  unfold execWfi at h
  grind -lia -ring -linarith [k_State_advance, k_guarded, k_raise, k_State_tickUp]

theorem k_sfenceEffect {s : State} (hs : Memory.wf s.mem = true) :
    Memory.wf (sfenceEffect s).mem = true := by
  unfold sfenceEffect
  grind -lia -ring -linarith [k_State_setH, k_State_advance]

theorem k_execSfenceVma {rs1 : Reg} {rs2 : Reg} {s : State} {t : State} (h : execSfenceVma rs1 rs2 s = .next t) (hs : Memory.wf s.mem = true) :
    Memory.wf t.mem = true := by
  unfold execSfenceVma at h
  grind -lia -ring -linarith [k_guarded, k_sfenceEffect, k_raise, k_State_tickUp]

theorem k_execTrapEntry {cause : BitVec 8} {tval : Word} {sub : BitVec 16} {s : State} {t : State} (h : execTrapEntry cause tval sub s = .next t) (hs : Memory.wf s.mem = true) :
    Memory.wf t.mem = true := by
  unfold execTrapEntry at h
  grind -lia -ring -linarith [k_takeTrap, k_event, k_raise, k_State_tickUp]

theorem k_uiEntryRun {s : State} {t : State} (h : uiEntryRun s = some t) (hs : Memory.wf s.mem = true) :
    Memory.wf t.mem = true := by
  unfold uiEntryRun at h
  grind -lia -ring -linarith [k_State_setH]

theorem k_execUiEntry {s : State} {t : State} (h : execUiEntry s = .next t) (hs : Memory.wf s.mem = true) :
    Memory.wf t.mem = true := by
  unfold execUiEntry at h
  grind -lia -ring -linarith [k_event, k_uiEntryRun, k_raise, k_State_tickUp]

theorem k_uiretEffect {s : State} (hs : Memory.wf s.mem = true) :
    Memory.wf (uiretEffect s).mem = true := by
  unfold uiretEffect
  grind -lia -ring -linarith [k_State_setH, k_State_countInstret]

theorem k_execUiret {s : State} {t : State} (h : execUiret s = .next t) (hs : Memory.wf s.mem = true) :
    Memory.wf t.mem = true := by
  unfold execUiret at h
  grind -lia -ring -linarith [k_guarded, k_uiretEffect, k_raise, k_State_tickUp]

theorem k_State_postTo {s : State} {c : ContId} {p : Post} (hs : Memory.wf s.mem = true) :
    Memory.wf (State.postTo s c p).mem = true := by
  unfold State.postTo
  grind -lia -ring -linarith [k_State_mapHarts]

theorem k_uiPostRun {target : ContId} {code : BitVec 8} {info : BitVec 32} {s : State} {t : State} (h : uiPostRun target code info s = some t) (hs : Memory.wf s.mem = true) :
    Memory.wf t.mem = true := by
  unfold uiPostRun at h
  grind -lia -ring -linarith [k_State_postTo]

theorem k_execUiPost {target : ContId} {code : BitVec 8} {info : BitVec 32} {s : State} {t : State} (h : execUiPost target code info s = .next t) (hs : Memory.wf s.mem = true) :
    Memory.wf t.mem = true := by
  unfold execUiPost at h
  grind -lia -ring -linarith [k_event, k_uiPostRun, k_raise, k_State_tickUp]


end Sys2Proof.Machine
end

