-- ==== Sys2Proof/Laws/Keep/Control.lean ====
section
/-! SUPPORT. Every operation of Machine/Control.lean keeps the canonical form of memory. -/

namespace Sys2Proof.Machine

theorem k_vsetEffect {s : State} {avl : Nat} {rd : Reg} {cfg : BitVec 8} (hs : Memory.wf s.mem = true) :
    Memory.wf (vsetEffect s avl rd cfg).mem = true := by
  unfold vsetEffect
  grind -lia -ring -linarith [k_State_setH, k_State_setX, k_State_advance]

theorem k_execVsetl {rd : Reg} {rs1 : Reg} {cfg : BitVec 8} {s : State} {t : State} (h : execVsetl rd rs1 cfg s = .next t) (hs : Memory.wf s.mem = true) :
    Memory.wf t.mem = true := by
  unfold execVsetl at h
  grind -lia -ring -linarith [k_vsetEffect]

theorem k_execVsetli {rd : Reg} {n : BitVec 5} {cfg : BitVec 8} {s : State} {t : State} (h : execVsetli rd n cfg s = .next t) (hs : Memory.wf s.mem = true) :
    Memory.wf t.mem = true := by
  unfold execVsetli at h
  grind -lia -ring -linarith [k_vsetEffect]

theorem k_psetEffect {s : State} {avl : Nat} {rd : Reg} {cfg : BitVec 8} (hs : Memory.wf s.mem = true) :
    Memory.wf (psetEffect s avl rd cfg).mem = true := by
  unfold psetEffect
  grind -lia -ring -linarith [k_State_setH, k_State_setX, k_State_advance]

theorem k_execPsetvl {rd : Reg} {rs1 : Reg} {cfg : BitVec 8} {s : State} {t : State} (h : execPsetvl rd rs1 cfg s = .next t) (hs : Memory.wf s.mem = true) :
    Memory.wf t.mem = true := by
  unfold execPsetvl at h
  grind -lia -ring -linarith [k_psetEffect]

theorem k_vfetchEffect {s : State} {a : Word} (hs : Memory.wf s.mem = true) :
    Memory.wf (vfetchEffect s a).mem = true := by
  unfold vfetchEffect
  grind -lia -ring -linarith [k_State_setH, k_State_advance]

theorem k_execVfetchPcrel {imm : BitVec 12} {s : State} {t : State} (h : execVfetchPcrel imm s = .next t) (hs : Memory.wf s.mem = true) :
    Memory.wf t.mem = true := by
  unfold execVfetchPcrel at h
  grind -lia -ring -linarith [k_vfetchEffect, k_guarded, k_raise, k_State_tickUp]

theorem k_execVfetchReg {rs1 : Reg} {imm : BitVec 12} {s : State} {t : State} (h : execVfetchReg rs1 imm s = .next t) (hs : Memory.wf s.mem = true) :
    Memory.wf t.mem = true := by
  unfold execVfetchReg at h
  grind -lia -ring -linarith [k_vfetchEffect, k_guarded, k_raise, k_State_tickUp]

theorem k_execVwait {s : State} {t : State} (h : execVwait s = .next t) (hs : Memory.wf s.mem = true) :
    Memory.wf t.mem = true := by
  unfold execVwait at h
  grind -lia -ring -linarith [k_State_advance]

theorem k_vgetEffect {s : State} {rd : Reg} {j : BitVec 2} (hs : Memory.wf s.mem = true) :
    Memory.wf (vgetEffect s rd j).mem = true := by
  unfold vgetEffect
  grind -lia -ring -linarith [k_State_setX, k_State_advance]

theorem k_execVget {rd : Reg} {j : BitVec 2} {s : State} {t : State} (h : execVget rd j s = .next t) (hs : Memory.wf s.mem = true) :
    Memory.wf t.mem = true := by
  unfold execVget at h
  grind -lia -ring -linarith [k_vgetEffect, k_guarded, k_raise, k_State_tickUp]

theorem k_execVfenceSv {s : State} {t : State} (h : execVfenceSv s = .next t) (hs : Memory.wf s.mem = true) :
    Memory.wf t.mem = true := by
  unfold execVfenceSv at h
  grind -lia -ring -linarith [k_State_advance]

theorem k_execVfenceVs {s : State} {t : State} (h : execVfenceVs s = .next t) (hs : Memory.wf s.mem = true) :
    Memory.wf t.mem = true := by
  unfold execVfenceVs at h
  grind -lia -ring -linarith [k_State_advance, k_matrixSync]

theorem k_execVfenceVv {s : State} {t : State} (h : execVfenceVv s = .next t) (hs : Memory.wf s.mem = true) :
    Memory.wf t.mem = true := by
  unfold execVfenceVv at h
  grind -lia -ring -linarith [k_State_setH, k_State_advance, k_matrixSync]

theorem k_xlookRun {rd : Reg} {rs1 : Reg} {s : State} {t : State} (h : xlookRun rd rs1 s = .ok t) (hs : Memory.wf s.mem = true) :
    Memory.wf t.mem = true := by
  unfold xlookRun at h
  grind -lia -ring -linarith [k_State_setX, k_State_advance, k_State_acquire]

theorem k_execXlook {rd : Reg} {rs1 : Reg} {s : State} {t : State} (h : execXlook rd rs1 s = .next t) (hs : Memory.wf s.mem = true) :
    Memory.wf t.mem = true := by
  unfold execXlook at h
  grind -lia -ring -linarith [k_xlookRun, k_finish, k_raise, k_State_tickUp]


end Sys2Proof.Machine
end

