-- ==== Sys2Proof/Laws/Keep/Gang.lean ====
section
/-! SUPPORT. Every operation of Machine/Gang.lean keeps the canonical form of memory. -/

namespace Sys2Proof.Machine

theorem k_State_withGang {s : State} (hs : Memory.wf s.mem = true) :
    Memory.wf (State.withGang s).mem = true := by
  unfold State.withGang
  grind -lia -ring -linarith [k_State_setH]

theorem k_State_updMyGang {s : State} {f : Gang → Gang} (hs : Memory.wf s.mem = true) :
    Memory.wf (State.updMyGang s f).mem = true := by
  unfold State.updMyGang
  grind -lia -ring -linarith [k_State_updGang]

theorem k_State_setVstat {s : State} {v : Word} (hs : Memory.wf s.mem = true) :
    Memory.wf (State.setVstat s v).mem = true := by
  unfold State.setVstat
  grind -lia -ring -linarith [k_State_setH]

theorem k_gbarArrive {s : State} (hs : Memory.wf s.mem = true) :
    Memory.wf (gbarArrive s).mem = true := by
  unfold gbarArrive
  grind -lia -ring -linarith [k_State_withGang, k_State_updMyGang, k_State_setVstat]

theorem k_gbarEffect {s : State} (hs : Memory.wf s.mem = true) :
    Memory.wf (gbarEffect s).mem = true := by
  unfold gbarEffect
  grind -lia -ring -linarith [k_State_setVstat, k_gbarArrive, k_State_advance, k_State_acquire]

theorem k_execGbar {s : State} {t : State} (h : execGbar s = .next t) (hs : Memory.wf s.mem = true) :
    Memory.wf t.mem = true := by
  unfold execGbar at h
  grind -lia -ring -linarith [k_gbarEffect]

theorem k_gbaraEffect {rd : Reg} {s : State} (hs : Memory.wf s.mem = true) :
    Memory.wf (gbaraEffect rd s).mem = true := by
  unfold gbaraEffect
  grind -lia -ring -linarith [k_State_withGang, k_State_updMyGang, k_State_setX, k_State_advance]

theorem k_execGbara {rd : Reg} {s : State} {t : State} (h : execGbara rd s = .next t) (hs : Memory.wf s.mem = true) :
    Memory.wf t.mem = true := by
  unfold execGbara at h
  grind -lia -ring -linarith [k_gbaraEffect]

theorem k_gbarwEffect {rs1 : Reg} {s : State} (hs : Memory.wf s.mem = true) :
    Memory.wf (gbarwEffect rs1 s).mem = true := by
  unfold gbarwEffect
  grind -lia -ring -linarith [k_State_withGang, k_State_advance, k_State_acquire]

theorem k_execGbarw {rs1 : Reg} {s : State} {t : State} (h : execGbarw rs1 s = .next t) (hs : Memory.wf s.mem = true) :
    Memory.wf t.mem = true := by
  unfold execGbarw at h
  grind -lia -ring -linarith [k_gbarwEffect]

theorem k_gbarxEffect {rs1 : Reg} {s : State} (hs : Memory.wf s.mem = true) :
    Memory.wf (gbarxEffect rs1 s).mem = true := by
  unfold gbarxEffect
  grind -lia -ring -linarith [k_State_withGang, k_State_updMyGang, k_State_setVstat, k_State_advance]

theorem k_execGbarx {rs1 : Reg} {s : State} {t : State} (h : execGbarx rs1 s = .next t) (hs : Memory.wf s.mem = true) :
    Memory.wf t.mem = true := by
  unfold execGbarx at h
  grind -lia -ring -linarith [k_gbarxEffect]

theorem k_State_aotPut {c : Nat} {w0 w1 : Word} : ∀ (n : Nat) {s : State} {t : Nat}, Memory.wf s.mem = true →
    Memory.wf (s.aotPut c t w0 w1 n).mem = true
  | 0, _, _, hs => hs
  | n + 1, _, _, hs => k_State_aotPut n (k_State_devSet (k_State_devSet hs))

theorem k_State_aotClear {s : State} {i : Ident} {p : PinEntry} (hs : Memory.wf s.mem = true) :
    Memory.wf (State.aotClear s i p).mem = true := by
  unfold State.aotClear
  grind -lia -ring -linarith [k_State_aotPut]

theorem k_State_releasePins {s : State} {h : Hart} (hs : Memory.wf s.mem = true) :
    Memory.wf (s.releasePins h).mem = true :=
  foldl_mem_wf (fun _ _ h => k_State_aotClear h) _ hs

theorem k_State_eclsUpdate {s : State} {c : Nat} {dies : List Nat} (hs : Memory.wf s.mem = true) :
    Memory.wf (s.eclsUpdate c dies).mem = true :=
  k_State_tickUp (foldl_mem_wf (fun _ _ h => k_State_devSet h) _ hs)

theorem k_gangEnd {s : State} {g : Gang} (hs : Memory.wf s.mem = true) : Memory.wf (gangEnd s g).mem = true := by
  unfold gangEnd
  have h1 : Memory.wf ((s.harts.filter (fun h => decide (h.id.gang = some g.gid))).foldl
      (fun st h => st.releasePins h) s).mem = true := foldl_mem_wf (fun _ _ h => k_State_releasePins h) _ hs
  dsimp only
  split
  · exact h1
  · exact k_State_eclsUpdate h1

theorem k_State_dropFrags {s : State} {part : Nat} {tag : Nat} (hs : Memory.wf s.mem = true) :
    Memory.wf (State.dropFrags s part tag).mem = true := by
  unfold State.dropFrags
  grind -lia -ring -linarith []

theorem k_retireHart {s : State} {c : ContId} {t : State} (h : retireHart s c = some t) (hs : Memory.wf s.mem = true) :
    Memory.wf t.mem = true := by
  unfold retireHart at h
  grind -lia -ring -linarith [k_gangEnd, k_State_dropFrags, k_State_mapHarts, k_State_updGang]

theorem k_execHartRetire {target : ContId} {s : State} {t : State} (h : execHartRetire target s = .next t) (hs : Memory.wf s.mem = true) :
    Memory.wf t.mem = true := by
  unfold execHartRetire at h
  grind -lia -ring -linarith [k_retireHart, k_event, k_raise, k_State_tickUp]


end Sys2Proof.Machine
end

