-- ==== Sys2Proof/Laws/Keep/Operands.lean ====
section
/-! SUPPORT. Every operation of Machine/Operands.lean keeps the canonical form of memory. -/

namespace Sys2Proof.Machine

theorem k_completeWord {s : State} (hs : Memory.wf s.mem = true) :
    Memory.wf (completeWord s).mem = true := by
  unfold completeWord
  grind -lia -ring -linarith [k_State_setH, k_State_tickUp]

theorem k_stopWord {s : State} {cs : List Nat} {ring : Bool} (hs : Memory.wf s.mem = true) :
    Memory.wf (stopWord s cs ring).mem = true := by
  unfold stopWord
  grind -lia -ring -linarith [k_State_setH, k_State_tickUp]

theorem k_haltWord {s : State} {cs : List Nat} {e : VStop} {lg : Nat} (hs : Memory.wf s.mem = true) :
    Memory.wf (haltWord s cs e lg).mem = true := by
  unfold haltWord
  grind -lia -ring -linarith [k_stopWord, k_raiseV]

theorem k_setPopped {s : State} {v : VEnv} {r : Nat} {q : Nat} {x : Nat} {pois : BitVec 8} {b : Binding} (hs : Memory.wf s.mem = true) :
    Memory.wf (setPopped s v r q x pois b).mem = true := by
  unfold setPopped
  grind -lia -ring -linarith [k_State_setH]

theorem k_popStream {s : State} {v : VEnv} {r : Nat} {q : Nat} {ss : BitVec 3} {d : StreamDesc} {pos : Nat} {t : State} (h : popStream s v r q ss d pos = .ok t) (hs : Memory.wf s.mem = true) :
    Memory.wf t.mem = true := by
  unfold popStream at h
  grind -lia -ring -linarith [k_setPopped]

theorem k_State_updMyRing {s : State} {m : Nat} {f : Ring → Ring} (hs : Memory.wf s.mem = true) :
    Memory.wf (State.updMyRing s m f).mem = true := by
  unfold State.updMyRing
  grind -lia -ring -linarith [k_State_updGang]

theorem k_popRing {s : State} {v : VEnv} {r : Nat} {q : Nat} {ss : BitVec 3} {t : State} (h : popRing s v r q ss = .ok t) (hs : Memory.wf s.mem = true) :
    Memory.wf t.mem = true := by
  unfold popRing at h
  grind -lia -ring -linarith [k_setPopped, k_State_updMyRing]

theorem k_State_updFragStream {s : State} {f : FragStream → FragStream} (hs : Memory.wf s.mem = true) :
    Memory.wf (State.updFragStream s f).mem = true := by
  unfold State.updFragStream
  grind -lia -ring -linarith [k_State_setH]

theorem k_popFrag {s : State} {v : VEnv} {r : Nat} {q : Nat} {ss : BitVec 3} {pos : Nat} {ended : Bool} {t : State} (h : popFrag s v r q ss pos ended = .ok t) (hs : Memory.wf s.mem = true) :
    Memory.wf t.mem = true := by
  unfold popFrag at h
  grind -lia -ring -linarith [k_setPopped, k_State_updFragStream, k_State_acquire]

theorem k_popReg {s : State} {v : VEnv} {q : Nat} {r : Nat} {t : State} (h : popReg s v q r = .ok t) (hs : Memory.wf s.mem = true) :
    Memory.wf t.mem = true := by
  unfold popReg at h
  grind -lia -ring -linarith [k_popStream, k_popRing, k_popFrag]

theorem k_popAll {v : VEnv} {q : Nat} : ∀ (l : List Nat) {s t : State}, popAll s v q l = .ok t →
    Memory.wf s.mem = true → Memory.wf t.mem = true
  | [], _, _, h, hs => by cases h; exact hs
  | r :: l, s, t, h, hs => by
      unfold popAll at h
      split at h
      · cases h
      · exact k_popAll l h (k_popReg ‹_› hs)

theorem k_pushStores {bytes : Nat} : ∀ (l : List (Loc × FRes × Bool)) {s : State}, Memory.wf s.mem = true →
    Memory.wf (pushStores s bytes l).mem = true
  | [], _, hs => hs
  | (_, _, _) :: l, _, hs => k_pushStores l (k_State_setH (k_writeLoc hs))

theorem k_pushStream {s : State} {v : VEnv} {r : Nat} {q : Nat} {rm : Rm} {act : Nat → Bool} {ss : BitVec 3} {d : StreamDesc} {pos : Nat} {t : State} (h : pushStream s v r q rm act ss d pos = .ok t) (hs : Memory.wf s.mem = true) :
    Memory.wf t.mem = true := by
  unfold pushStream at h
  grind -lia -ring -linarith [k_pushStores, k_State_setH]

theorem k_pushRing {s : State} {v : VEnv} {r : Nat} {q : Nat} {t : State} (h : pushRing s v r q = .ok t) (hs : Memory.wf s.mem = true) :
    Memory.wf t.mem = true := by
  unfold pushRing at h
  grind -lia -ring -linarith [k_State_updMyRing]

theorem k_pushReg {s : State} {v : VEnv} {q : Nat} {r : Nat} {rm : Rm} {act : Nat → Bool} {t : State} (h : pushReg s v q r rm act = .ok t) (hs : Memory.wf s.mem = true) :
    Memory.wf t.mem = true := by
  unfold pushReg at h
  grind -lia -ring -linarith [k_pushStream, k_pushRing]

theorem k_putGroup {s : State} {d : Dest} {v : VEnv} {act : Nat → Bool} {res : Nat → FRes} {pois : Nat → Bool} {top : Nat} {es : List Nat} (hs : Memory.wf s.mem = true) :
    Memory.wf (putGroup s d v act res pois top es).mem = true := by
  unfold putGroup
  grind -lia -ring -linarith [k_State_setH]

theorem k_putTail {s : State} {d : Dest} {v : VEnv} {lo : Nat} (hs : Memory.wf s.mem = true) :
    Memory.wf (putTail s d v lo).mem = true := by
  unfold putTail
  grind -lia -ring -linarith [k_State_setH]

theorem k_clearGroup {s : State} {v : VEnv} {r : Nat} {q : Nat} (hs : Memory.wf s.mem = true) :
    Memory.wf (clearGroup s v r q).mem = true := by
  unfold clearGroup
  grind -lia -ring -linarith [k_State_setH]

theorem k_elemGroup {s : State} {v : VEnv} {o : ElemOp} {rm : Rm} {cs : List Nat} {j : Nat} {q : Nat} {idx : Nat} {t : State} (h : elemGroup s v o rm cs j q idx = .ok t) (hs : Memory.wf s.mem = true) :
    Memory.wf t.mem = true := by
  unfold elemGroup at h
  grind -lia -ring -linarith [k_popAll, k_pushReg, k_putGroup, k_clearGroup]

theorem k_elemRun {v : VEnv} {op : Nat → ElemOp} {rm : Rm} {cs : List Nat} :
    ∀ (l : List (Nat × Nat × Nat)) {s : State}, Memory.wf s.mem = true →
      (∀ t, elemRun v op rm cs l s = .ok t → Memory.wf t.mem = true) ∧
      (∀ t i e, elemRun v op rm cs l s = .error (t, i, e) → Memory.wf t.mem = true)
  | [], s, hs => ⟨fun t h => (by cases h; exact hs), fun t i e h => (by cases h)⟩
  | (j, q, idx) :: l, s, hs => by
      unfold elemRun
      split
      · exact k_elemRun l hs
      · split
        · exact ⟨fun t h => (by cases h), fun t i e h => (by cases h; exact hs)⟩
        · exact k_elemRun l (k_elemGroup ‹_› hs)

theorem k_elemTails {v : VEnv} {op : Nat → ElemOp} {s : State} (hs : Memory.wf s.mem = true) :
    Memory.wf (elemTails v op s).mem = true := by
  unfold elemTails
  split
  · exact hs
  · exact foldl_mem_wf (fun t j h => by split; exacts [h, k_putTail h]) _ hs

theorem k_elemWord {s : State} {v : VEnv} {op : Nat → ElemOp} {rm : Rm} (hs : Memory.wf s.mem = true) :
    Memory.wf (elemWord s v op rm).mem = true := by
  unfold elemWord
  dsimp only
  split
  · exact k_completeWord (k_elemTails ((k_elemRun _ hs).1 _ ‹_›))
  · exact k_haltWord ((k_elemRun _ hs).2 _ _ _ ‹_›)

/-- A block word stops on its guard or runs. -/
theorem k_blockWord {s : State} {guard : Block → Option Stop} {run : Block → State} {t : State}
    (h : blockWord s guard run = .next t) :
    ∃ b bs, s.h.vu.blocks = b :: bs ∧
      ((∃ e, guard b = some e ∧ t = raiseV e 0 s) ∨ (guard b = none ∧ t = run b)) := by
  unfold blockWord at h
  grind


end Sys2Proof.Machine
end

