-- ==== Sys2Proof/Laws/Keep/VInt.lean ====
section
/-! SUPPORT. Every operation of Machine/VInt.lean keeps the canonical form of memory. -/

namespace Sys2Proof.Machine

theorem k_elemExec {i : Instr} {o : VOp} {sh : EShape} {fn : VEnv → Nat → Nat → Nat → FRes} {s : State} {t : State} (h : elemExec i o sh fn s = .next t) (hs : Memory.wf s.mem = true) :
    Memory.wf t.mem = true := by
  unfold elemExec at h
  grind -lia -ring -linarith [k_elemWord, k_blockWord, k_raiseV]

theorem k_intExec {i : Instr} {o : VOp} {fn : Nat → Nat → Nat → Nat → Nat} {s : State} {t : State} (h : intExec i o fn s = .next t) (hs : Memory.wf s.mem = true) :
    Memory.wf t.mem = true := by
  unfold intExec at h
  grind -lia -ring -linarith [k_elemExec]

theorem k_execVadd {o : VOp} {s : State} {t : State} (h : execVadd o s = .next t) (hs : Memory.wf s.mem = true) :
    Memory.wf t.mem = true := by
  unfold execVadd at h
  grind -lia -ring -linarith [k_intExec]

theorem k_execVsub {o : VOp} {s : State} {t : State} (h : execVsub o s = .next t) (hs : Memory.wf s.mem = true) :
    Memory.wf t.mem = true := by
  unfold execVsub at h
  grind -lia -ring -linarith [k_intExec]

theorem k_execVrsub {o : VOp} {s : State} {t : State} (h : execVrsub o s = .next t) (hs : Memory.wf s.mem = true) :
    Memory.wf t.mem = true := by
  unfold execVrsub at h
  grind -lia -ring -linarith [k_intExec]

theorem k_execVmul {o : VOp} {s : State} {t : State} (h : execVmul o s = .next t) (hs : Memory.wf s.mem = true) :
    Memory.wf t.mem = true := by
  unfold execVmul at h
  grind -lia -ring -linarith [k_intExec]

theorem k_execVmulh {o : VOp} {s : State} {t : State} (h : execVmulh o s = .next t) (hs : Memory.wf s.mem = true) :
    Memory.wf t.mem = true := by
  unfold execVmulh at h
  grind -lia -ring -linarith [k_intExec]

theorem k_execVmulhu {o : VOp} {s : State} {t : State} (h : execVmulhu o s = .next t) (hs : Memory.wf s.mem = true) :
    Memory.wf t.mem = true := by
  unfold execVmulhu at h
  grind -lia -ring -linarith [k_intExec]

theorem k_execVmulhsu {o : VOp} {s : State} {t : State} (h : execVmulhsu o s = .next t) (hs : Memory.wf s.mem = true) :
    Memory.wf t.mem = true := by
  unfold execVmulhsu at h
  grind -lia -ring -linarith [k_intExec]

theorem k_execVmacc {o : VOp} {s : State} {t : State} (h : execVmacc o s = .next t) (hs : Memory.wf s.mem = true) :
    Memory.wf t.mem = true := by
  unfold execVmacc at h
  grind -lia -ring -linarith [k_intExec]

theorem k_execVnmsac {o : VOp} {s : State} {t : State} (h : execVnmsac o s = .next t) (hs : Memory.wf s.mem = true) :
    Memory.wf t.mem = true := by
  unfold execVnmsac at h
  grind -lia -ring -linarith [k_intExec]

theorem k_execVmadd {o : VOp} {s : State} {t : State} (h : execVmadd o s = .next t) (hs : Memory.wf s.mem = true) :
    Memory.wf t.mem = true := by
  unfold execVmadd at h
  grind -lia -ring -linarith [k_intExec]

theorem k_execVdiv {o : VOp} {s : State} {t : State} (h : execVdiv o s = .next t) (hs : Memory.wf s.mem = true) :
    Memory.wf t.mem = true := by
  unfold execVdiv at h
  grind -lia -ring -linarith [k_intExec]

theorem k_execVdivu {o : VOp} {s : State} {t : State} (h : execVdivu o s = .next t) (hs : Memory.wf s.mem = true) :
    Memory.wf t.mem = true := by
  unfold execVdivu at h
  grind -lia -ring -linarith [k_intExec]

theorem k_execVrem {o : VOp} {s : State} {t : State} (h : execVrem o s = .next t) (hs : Memory.wf s.mem = true) :
    Memory.wf t.mem = true := by
  unfold execVrem at h
  grind -lia -ring -linarith [k_intExec]

theorem k_execVremu {o : VOp} {s : State} {t : State} (h : execVremu o s = .next t) (hs : Memory.wf s.mem = true) :
    Memory.wf t.mem = true := by
  unfold execVremu at h
  grind -lia -ring -linarith [k_intExec]

theorem k_execVmin {o : VOp} {s : State} {t : State} (h : execVmin o s = .next t) (hs : Memory.wf s.mem = true) :
    Memory.wf t.mem = true := by
  unfold execVmin at h
  grind -lia -ring -linarith [k_intExec]

theorem k_execVmax {o : VOp} {s : State} {t : State} (h : execVmax o s = .next t) (hs : Memory.wf s.mem = true) :
    Memory.wf t.mem = true := by
  unfold execVmax at h
  grind -lia -ring -linarith [k_intExec]

theorem k_execVminu {o : VOp} {s : State} {t : State} (h : execVminu o s = .next t) (hs : Memory.wf s.mem = true) :
    Memory.wf t.mem = true := by
  unfold execVminu at h
  grind -lia -ring -linarith [k_intExec]

theorem k_execVmaxu {o : VOp} {s : State} {t : State} (h : execVmaxu o s = .next t) (hs : Memory.wf s.mem = true) :
    Memory.wf t.mem = true := by
  unfold execVmaxu at h
  grind -lia -ring -linarith [k_intExec]

theorem k_execVand {o : VOp} {s : State} {t : State} (h : execVand o s = .next t) (hs : Memory.wf s.mem = true) :
    Memory.wf t.mem = true := by
  unfold execVand at h
  grind -lia -ring -linarith [k_intExec]

theorem k_execVor {o : VOp} {s : State} {t : State} (h : execVor o s = .next t) (hs : Memory.wf s.mem = true) :
    Memory.wf t.mem = true := by
  unfold execVor at h
  grind -lia -ring -linarith [k_intExec]

theorem k_execVxor {o : VOp} {s : State} {t : State} (h : execVxor o s = .next t) (hs : Memory.wf s.mem = true) :
    Memory.wf t.mem = true := by
  unfold execVxor at h
  grind -lia -ring -linarith [k_intExec]

theorem k_execVandn {o : VOp} {s : State} {t : State} (h : execVandn o s = .next t) (hs : Memory.wf s.mem = true) :
    Memory.wf t.mem = true := by
  unfold execVandn at h
  grind -lia -ring -linarith [k_intExec]

theorem k_execVsll {o : VOp} {s : State} {t : State} (h : execVsll o s = .next t) (hs : Memory.wf s.mem = true) :
    Memory.wf t.mem = true := by
  unfold execVsll at h
  grind -lia -ring -linarith [k_intExec]

theorem k_execVsrl {o : VOp} {s : State} {t : State} (h : execVsrl o s = .next t) (hs : Memory.wf s.mem = true) :
    Memory.wf t.mem = true := by
  unfold execVsrl at h
  grind -lia -ring -linarith [k_intExec]

theorem k_execVsra {o : VOp} {s : State} {t : State} (h : execVsra o s = .next t) (hs : Memory.wf s.mem = true) :
    Memory.wf t.mem = true := by
  unfold execVsra at h
  grind -lia -ring -linarith [k_intExec]

theorem k_execVsadd {o : VOp} {s : State} {t : State} (h : execVsadd o s = .next t) (hs : Memory.wf s.mem = true) :
    Memory.wf t.mem = true := by
  unfold execVsadd at h
  grind -lia -ring -linarith [k_intExec]

theorem k_execVsaddu {o : VOp} {s : State} {t : State} (h : execVsaddu o s = .next t) (hs : Memory.wf s.mem = true) :
    Memory.wf t.mem = true := by
  unfold execVsaddu at h
  grind -lia -ring -linarith [k_intExec]

theorem k_execVssub {o : VOp} {s : State} {t : State} (h : execVssub o s = .next t) (hs : Memory.wf s.mem = true) :
    Memory.wf t.mem = true := by
  unfold execVssub at h
  grind -lia -ring -linarith [k_intExec]

theorem k_execVssubu {o : VOp} {s : State} {t : State} (h : execVssubu o s = .next t) (hs : Memory.wf s.mem = true) :
    Memory.wf t.mem = true := by
  unfold execVssubu at h
  grind -lia -ring -linarith [k_intExec]

theorem k_execVavg {o : VOp} {s : State} {t : State} (h : execVavg o s = .next t) (hs : Memory.wf s.mem = true) :
    Memory.wf t.mem = true := by
  unfold execVavg at h
  grind -lia -ring -linarith [k_elemExec]

theorem k_execVavgu {o : VOp} {s : State} {t : State} (h : execVavgu o s = .next t) (hs : Memory.wf s.mem = true) :
    Memory.wf t.mem = true := by
  unfold execVavgu at h
  grind -lia -ring -linarith [k_elemExec]

theorem k_execVabsd {o : VOp} {s : State} {t : State} (h : execVabsd o s = .next t) (hs : Memory.wf s.mem = true) :
    Memory.wf t.mem = true := by
  unfold execVabsd at h
  grind -lia -ring -linarith [k_intExec]

theorem k_wideExec {i : Instr} {o : VOp} {fn : Nat → Nat → Nat → Nat → Nat} {s : State} {t : State} (h : wideExec i o fn s = .next t) (hs : Memory.wf s.mem = true) :
    Memory.wf t.mem = true := by
  unfold wideExec at h
  grind -lia -ring -linarith [k_elemExec]

theorem k_execVwadd {o : VOp} {s : State} {t : State} (h : execVwadd o s = .next t) (hs : Memory.wf s.mem = true) :
    Memory.wf t.mem = true := by
  unfold execVwadd at h
  grind -lia -ring -linarith [k_wideExec]

theorem k_execVwaddu {o : VOp} {s : State} {t : State} (h : execVwaddu o s = .next t) (hs : Memory.wf s.mem = true) :
    Memory.wf t.mem = true := by
  unfold execVwaddu at h
  grind -lia -ring -linarith [k_wideExec]

theorem k_execVwsub {o : VOp} {s : State} {t : State} (h : execVwsub o s = .next t) (hs : Memory.wf s.mem = true) :
    Memory.wf t.mem = true := by
  unfold execVwsub at h
  grind -lia -ring -linarith [k_wideExec]

theorem k_execVwmul {o : VOp} {s : State} {t : State} (h : execVwmul o s = .next t) (hs : Memory.wf s.mem = true) :
    Memory.wf t.mem = true := by
  unfold execVwmul at h
  grind -lia -ring -linarith [k_wideExec]

theorem k_execVwmulu {o : VOp} {s : State} {t : State} (h : execVwmulu o s = .next t) (hs : Memory.wf s.mem = true) :
    Memory.wf t.mem = true := by
  unfold execVwmulu at h
  grind -lia -ring -linarith [k_wideExec]

theorem k_execVwmacc {o : VOp} {s : State} {t : State} (h : execVwmacc o s = .next t) (hs : Memory.wf s.mem = true) :
    Memory.wf t.mem = true := by
  unfold execVwmacc at h
  grind -lia -ring -linarith [k_wideExec]

theorem k_execVnsrl {o : VOp} {s : State} {t : State} (h : execVnsrl o s = .next t) (hs : Memory.wf s.mem = true) :
    Memory.wf t.mem = true := by
  unfold execVnsrl at h
  grind -lia -ring -linarith [k_elemExec]

theorem k_execVnclip {o : VOp} {s : State} {t : State} (h : execVnclip o s = .next t) (hs : Memory.wf s.mem = true) :
    Memory.wf t.mem = true := by
  unfold execVnclip at h
  grind -lia -ring -linarith [k_elemExec]

theorem k_execVnclipu {o : VOp} {s : State} {t : State} (h : execVnclipu o s = .next t) (hs : Memory.wf s.mem = true) :
    Memory.wf t.mem = true := by
  unfold execVnclipu at h
  grind -lia -ring -linarith [k_elemExec]

theorem k_execVsext {o : VOp} {s : State} {t : State} (h : execVsext o s = .next t) (hs : Memory.wf s.mem = true) :
    Memory.wf t.mem = true := by
  unfold execVsext at h
  grind -lia -ring -linarith [k_elemExec]

theorem k_execVzext {o : VOp} {s : State} {t : State} (h : execVzext o s = .next t) (hs : Memory.wf s.mem = true) :
    Memory.wf t.mem = true := by
  unfold execVzext at h
  grind -lia -ring -linarith [k_elemExec]

theorem k_execVcmp {cc : VCc} {o : VOp} {s : State} {t : State} (h : execVcmp cc o s = .next t) (hs : Memory.wf s.mem = true) :
    Memory.wf t.mem = true := by
  unfold execVcmp at h
  grind -lia -ring -linarith [k_elemExec]

theorem k_execVmerge {o : VOp} {s : State} {t : State} (h : execVmerge o s = .next t) (hs : Memory.wf s.mem = true) :
    Memory.wf t.mem = true := by
  unfold execVmerge at h
  grind -lia -ring -linarith [k_elemWord, k_blockWord, k_raiseV]

theorem k_execVmv {o : VOp} {s : State} {t : State} (h : execVmv o s = .next t) (hs : Memory.wf s.mem = true) :
    Memory.wf t.mem = true := by
  unfold execVmv at h
  grind -lia -ring -linarith [k_intExec]

theorem k_execVclz {o : VOp} {s : State} {t : State} (h : execVclz o s = .next t) (hs : Memory.wf s.mem = true) :
    Memory.wf t.mem = true := by
  unfold execVclz at h
  grind -lia -ring -linarith [k_intExec]

theorem k_execVctz {o : VOp} {s : State} {t : State} (h : execVctz o s = .next t) (hs : Memory.wf s.mem = true) :
    Memory.wf t.mem = true := by
  unfold execVctz at h
  grind -lia -ring -linarith [k_intExec]

theorem k_execVpopc {o : VOp} {s : State} {t : State} (h : execVpopc o s = .next t) (hs : Memory.wf s.mem = true) :
    Memory.wf t.mem = true := by
  unfold execVpopc at h
  grind -lia -ring -linarith [k_intExec]

theorem k_execVdot {op : DotOp} {o : VOp} {s : State} {t : State} (h : execVdot op o s = .next t) (hs : Memory.wf s.mem = true) :
    Memory.wf t.mem = true := by
  unfold execVdot at h
  grind -lia -ring -linarith [k_elemExec]

theorem k_execVlut4 {o : VOp} {s : State} {t : State} (h : execVlut4 o s = .next t) (hs : Memory.wf s.mem = true) :
    Memory.wf t.mem = true := by
  unfold execVlut4 at h
  grind -lia -ring -linarith [k_elemExec]


end Sys2Proof.Machine
end

