-- ==== Sys2Proof/Laws/Keep/VFloat.lean ====
section
/-! SUPPORT. Every operation of Machine/VFloat.lean keeps the canonical form of memory. -/

namespace Sys2Proof.Machine

theorem k_fpExec {i : Instr} {o : VOp} {fn : FEnv → FFmt → Nat → Nat → Nat → FRes} {s : State} {t : State} (h : fpExec i o fn s = .next t) (hs : Memory.wf s.mem = true) :
    Memory.wf t.mem = true := by
  unfold fpExec at h
  grind -lia -ring -linarith [k_elemExec]

theorem k_execVfadd {o : VOp} {s : State} {t : State} (h : execVfadd o s = .next t) (hs : Memory.wf s.mem = true) :
    Memory.wf t.mem = true := by
  unfold execVfadd at h
  grind -lia -ring -linarith [k_fpExec]

theorem k_execVfsub {o : VOp} {s : State} {t : State} (h : execVfsub o s = .next t) (hs : Memory.wf s.mem = true) :
    Memory.wf t.mem = true := by
  unfold execVfsub at h
  grind -lia -ring -linarith [k_fpExec]

theorem k_execVfmul {o : VOp} {s : State} {t : State} (h : execVfmul o s = .next t) (hs : Memory.wf s.mem = true) :
    Memory.wf t.mem = true := by
  unfold execVfmul at h
  grind -lia -ring -linarith [k_fpExec]

theorem k_execVfdiv {o : VOp} {s : State} {t : State} (h : execVfdiv o s = .next t) (hs : Memory.wf s.mem = true) :
    Memory.wf t.mem = true := by
  unfold execVfdiv at h
  grind -lia -ring -linarith [k_fpExec]

theorem k_execVfsqrt {o : VOp} {s : State} {t : State} (h : execVfsqrt o s = .next t) (hs : Memory.wf s.mem = true) :
    Memory.wf t.mem = true := by
  unfold execVfsqrt at h
  grind -lia -ring -linarith [k_fpExec]

theorem k_execVfmadd {o : VOp} {s : State} {t : State} (h : execVfmadd o s = .next t) (hs : Memory.wf s.mem = true) :
    Memory.wf t.mem = true := by
  unfold execVfmadd at h
  grind -lia -ring -linarith [k_fpExec]

theorem k_execVfmsub {o : VOp} {s : State} {t : State} (h : execVfmsub o s = .next t) (hs : Memory.wf s.mem = true) :
    Memory.wf t.mem = true := by
  unfold execVfmsub at h
  grind -lia -ring -linarith [k_fpExec]

theorem k_execVfnmadd {o : VOp} {s : State} {t : State} (h : execVfnmadd o s = .next t) (hs : Memory.wf s.mem = true) :
    Memory.wf t.mem = true := by
  unfold execVfnmadd at h
  grind -lia -ring -linarith [k_fpExec]

theorem k_execVfnmsub {o : VOp} {s : State} {t : State} (h : execVfnmsub o s = .next t) (hs : Memory.wf s.mem = true) :
    Memory.wf t.mem = true := by
  unfold execVfnmsub at h
  grind -lia -ring -linarith [k_fpExec]

theorem k_execVfmin {o : VOp} {s : State} {t : State} (h : execVfmin o s = .next t) (hs : Memory.wf s.mem = true) :
    Memory.wf t.mem = true := by
  unfold execVfmin at h
  grind -lia -ring -linarith [k_fpExec]

theorem k_execVfmax {o : VOp} {s : State} {t : State} (h : execVfmax o s = .next t) (hs : Memory.wf s.mem = true) :
    Memory.wf t.mem = true := by
  unfold execVfmax at h
  grind -lia -ring -linarith [k_fpExec]

theorem k_execVfminmax {op : MinMaxOp} {o : VOp} {s : State} {t : State} (h : execVfminmax op o s = .next t) (hs : Memory.wf s.mem = true) :
    Memory.wf t.mem = true := by
  unfold execVfminmax at h
  grind -lia -ring -linarith [k_fpExec]

theorem k_execVfcmp {cc : FCc} {o : VOp} {s : State} {t : State} (h : execVfcmp cc o s = .next t) (hs : Memory.wf s.mem = true) :
    Memory.wf t.mem = true := by
  unfold execVfcmp at h
  grind -lia -ring -linarith [k_elemExec]

theorem k_execVfclass {o : VOp} {s : State} {t : State} (h : execVfclass o s = .next t) (hs : Memory.wf s.mem = true) :
    Memory.wf t.mem = true := by
  unfold execVfclass at h
  grind -lia -ring -linarith [k_fpExec]

theorem k_execVfsgnj {o : VOp} {s : State} {t : State} (h : execVfsgnj o s = .next t) (hs : Memory.wf s.mem = true) :
    Memory.wf t.mem = true := by
  unfold execVfsgnj at h
  grind -lia -ring -linarith [k_fpExec]

theorem k_execVfsgnjn {o : VOp} {s : State} {t : State} (h : execVfsgnjn o s = .next t) (hs : Memory.wf s.mem = true) :
    Memory.wf t.mem = true := by
  unfold execVfsgnjn at h
  grind -lia -ring -linarith [k_fpExec]

theorem k_execVfsgnjx {o : VOp} {s : State} {t : State} (h : execVfsgnjx o s = .next t) (hs : Memory.wf s.mem = true) :
    Memory.wf t.mem = true := by
  unfold execVfsgnjx at h
  grind -lia -ring -linarith [k_fpExec]

theorem k_execVfcvt {op : FCvt} {o : VOp} {s : State} {t : State} (h : execVfcvt op o s = .next t) (hs : Memory.wf s.mem = true) :
    Memory.wf t.mem = true := by
  unfold execVfcvt at h
  grind -lia -ring -linarith [k_elemExec]

theorem k_execVfrcp {o : VOp} {s : State} {t : State} (h : execVfrcp o s = .next t) (hs : Memory.wf s.mem = true) :
    Memory.wf t.mem = true := by
  unfold execVfrcp at h
  grind -lia -ring -linarith [k_fpExec]

theorem k_execVfrsqrt {o : VOp} {s : State} {t : State} (h : execVfrsqrt o s = .next t) (hs : Memory.wf s.mem = true) :
    Memory.wf t.mem = true := by
  unfold execVfrsqrt at h
  grind -lia -ring -linarith [k_fpExec]

theorem k_execVfdot2 {o : VOp} {s : State} {t : State} (h : execVfdot2 o s = .next t) (hs : Memory.wf s.mem = true) :
    Memory.wf t.mem = true := by
  unfold execVfdot2 at h
  grind -lia -ring -linarith [k_elemExec]

theorem k_execVfwma {o : VOp} {s : State} {t : State} (h : execVfwma o s = .next t) (hs : Memory.wf s.mem = true) :
    Memory.wf t.mem = true := by
  unfold execVfwma at h
  grind -lia -ring -linarith [k_elemExec]

theorem k_execVfrnd {o : VOp} {s : State} {t : State} (h : execVfrnd o s = .next t) (hs : Memory.wf s.mem = true) :
    Memory.wf t.mem = true := by
  unfold execVfrnd at h
  grind -lia -ring -linarith [k_fpExec]


end Sys2Proof.Machine
end

