-- ==== Sys2Proof/Laws/Keep/VPerm.lean ====
section
/-! SUPPORT. Every operation of Machine/VPerm.lean keeps the canonical form of memory. -/

namespace Sys2Proof.Machine

theorem k_permExec {i : Instr} {o : VOp} {cfg : VEnv → Bool} {aW bW dW : VEnv → Nat} {run : VEnv → State}
    {s t : State} (h : permExec i o cfg aW bW dW run s = .next t) :
    (∃ e, t = raiseV e 0 s) ∨ ∃ b, t = run (venvOf s b) := by
  unfold permExec at h
  obtain ⟨b, bs, -, (⟨e, -, he⟩ | ⟨-, he⟩)⟩ := k_blockWord h
  · exact .inl ⟨e, he⟩
  · exact .inr ⟨b, he⟩

theorem k_permRun {s : State} {v : VEnv} {d : Dest} {n : Nat} {top : Nat} {act : Nat → Bool} {res : Nat → FRes} {pois : Nat → Bool} (hs : Memory.wf s.mem = true) :
    Memory.wf (permRun s v d n top act res pois).mem = true := by
  unfold permRun
  grind -lia -ring -linarith [k_completeWord, k_putGroup, k_putTail]

theorem k_slideRun {s : State} {v : VEnv} {o : VOp} {act : Nat → Bool} {res : Nat → Nat} {pois : Nat → Bool} (hs : Memory.wf s.mem = true) :
    Memory.wf (slideRun s v o act res pois).mem = true := by
  unfold slideRun
  grind -lia -ring -linarith [k_permRun]

theorem k_slideExec {i : Instr} {o : VOp} {run : State → VEnv → State} {s t : State}
    (h : slideExec i o run s = .next t) : (∃ e, t = raiseV e 0 s) ∨ ∃ b, t = run s (venvOf s b) :=
  k_permExec h

theorem k_slideupRun {o : VOp} {s : State} {v : VEnv} (hs : Memory.wf s.mem = true) :
    Memory.wf (slideupRun o s v).mem = true := by
  unfold slideupRun
  grind -lia -ring -linarith [k_slideRun]

theorem k_execVslideup {o : VOp} {s : State} {t : State} (h : execVslideup o s = .next t) (hs : Memory.wf s.mem = true) :
    Memory.wf t.mem = true := by
  unfold execVslideup at h
  grind -lia -ring -linarith [k_slideExec, k_slideupRun, k_raiseV]

theorem k_slidednRun {o : VOp} {s : State} {v : VEnv} (hs : Memory.wf s.mem = true) :
    Memory.wf (slidednRun o s v).mem = true := by
  unfold slidednRun
  grind -lia -ring -linarith [k_slideRun]

theorem k_execVslidedn {o : VOp} {s : State} {t : State} (h : execVslidedn o s = .next t) (hs : Memory.wf s.mem = true) :
    Memory.wf t.mem = true := by
  unfold execVslidedn at h
  grind -lia -ring -linarith [k_slideExec, k_slidednRun, k_raiseV]

theorem k_slide1upRun {o : VOp} {s : State} {v : VEnv} (hs : Memory.wf s.mem = true) :
    Memory.wf (slide1upRun o s v).mem = true := by
  unfold slide1upRun
  grind -lia -ring -linarith [k_slideRun]

theorem k_execVslide1up {o : VOp} {s : State} {t : State} (h : execVslide1up o s = .next t) (hs : Memory.wf s.mem = true) :
    Memory.wf t.mem = true := by
  unfold execVslide1up at h
  grind -lia -ring -linarith [k_slideExec, k_slide1upRun, k_raiseV]

theorem k_slide1dnRun {o : VOp} {s : State} {v : VEnv} (hs : Memory.wf s.mem = true) :
    Memory.wf (slide1dnRun o s v).mem = true := by
  unfold slide1dnRun
  grind -lia -ring -linarith [k_slideRun]

theorem k_execVslide1dn {o : VOp} {s : State} {t : State} (h : execVslide1dn o s = .next t) (hs : Memory.wf s.mem = true) :
    Memory.wf t.mem = true := by
  unfold execVslide1dn at h
  grind -lia -ring -linarith [k_slideExec, k_slide1dnRun, k_raiseV]

theorem k_vpermRun {o : VOp} {s : State} {v : VEnv} (hs : Memory.wf s.mem = true) :
    Memory.wf (vpermRun o s v).mem = true := by
  unfold vpermRun
  grind -lia -ring -linarith [k_slideRun]

theorem k_execVperm {o : VOp} {s : State} {t : State} (h : execVperm o s = .next t) (hs : Memory.wf s.mem = true) :
    Memory.wf t.mem = true := by
  unfold execVperm at h
  grind -lia -ring -linarith [k_slideExec, k_vpermRun, k_raiseV]

theorem k_vcompressRun {o : VOp} {s : State} {v : VEnv} (hs : Memory.wf s.mem = true) :
    Memory.wf (vcompressRun o s v).mem = true := by
  unfold vcompressRun
  dsimp only
  split
  · exact k_permRun hs
  · refine foldl_mem_wf (fun u r h => ?_) _ (k_permRun hs)
    exact h

theorem k_execVcompress {o : VOp} {s : State} {t : State} (h : execVcompress o s = .next t) (hs : Memory.wf s.mem = true) :
    Memory.wf t.mem = true := by
  unfold execVcompress at h
  grind -lia -ring -linarith [k_permExec, k_vcompressRun, k_raiseV]

theorem k_viotaRun {o : VOp} {s : State} {v : VEnv} (hs : Memory.wf s.mem = true) :
    Memory.wf (viotaRun o s v).mem = true := by
  unfold viotaRun
  grind -lia -ring -linarith [k_slideRun]

theorem k_execViota {o : VOp} {s : State} {t : State} (h : execViota o s = .next t) (hs : Memory.wf s.mem = true) :
    Memory.wf t.mem = true := by
  unfold execViota at h
  grind -lia -ring -linarith [k_permExec, k_viotaRun, k_raiseV]

theorem k_execVid {o : VOp} {s : State} {t : State} (h : execVid o s = .next t) (hs : Memory.wf s.mem = true) :
    Memory.wf t.mem = true := by
  unfold execVid at h
  grind -lia -ring -linarith [k_slideRun, k_slideExec, k_raiseV]

theorem k_redRun {o : VOp} {red : VEnv → Nat → List (Option Nat) → FRes} {s : State} {v : VEnv} (hs : Memory.wf s.mem = true) :
    Memory.wf (redRun o red s v).mem = true := by
  unfold redRun
  grind -lia -ring -linarith [k_completeWord, k_putGroup, k_putTail]

theorem k_redExec {i : Instr} {o : VOp} {sewOk : Nat → Bool} {red : VEnv → Nat → List (Option Nat) → FRes} {s : State} {t : State} (h : redExec i o sewOk red s = .next t) (hs : Memory.wf s.mem = true) :
    Memory.wf t.mem = true := by
  unfold redExec at h
  grind -lia -ring -linarith [k_permExec, k_redRun, k_raiseV]

theorem k_execVred {op : RedOp} {o : VOp} {s : State} {t : State} (h : execVred op o s = .next t) (hs : Memory.wf s.mem = true) :
    Memory.wf t.mem = true := by
  unfold execVred at h
  grind -lia -ring -linarith [k_redExec]

theorem k_execVfredsum {o : VOp} {s : State} {t : State} (h : execVfredsum o s = .next t) (hs : Memory.wf s.mem = true) :
    Memory.wf t.mem = true := by
  unfold execVfredsum at h
  grind -lia -ring -linarith [k_redExec]

theorem k_execVfredosum {o : VOp} {s : State} {t : State} (h : execVfredosum o s = .next t) (hs : Memory.wf s.mem = true) :
    Memory.wf t.mem = true := by
  unfold execVfredosum at h
  grind -lia -ring -linarith [k_redExec]

theorem k_execVfredmin {o : VOp} {s : State} {t : State} (h : execVfredmin o s = .next t) (hs : Memory.wf s.mem = true) :
    Memory.wf t.mem = true := by
  unfold execVfredmin at h
  grind -lia -ring -linarith [k_redExec]

theorem k_execVfredmax {o : VOp} {s : State} {t : State} (h : execVfredmax o s = .next t) (hs : Memory.wf s.mem = true) :
    Memory.wf t.mem = true := by
  unfold execVfredmax at h
  grind -lia -ring -linarith [k_redExec]

theorem k_State_setSlot {s : State} {n : Nat} {v : Word} {p : Bool} (hs : Memory.wf s.mem = true) :
    Memory.wf (State.setSlot s n v p).mem = true := by
  unfold State.setSlot
  grind -lia -ring -linarith [k_State_setH]

theorem k_slotRun {s : State} {o : VOp} {v : Word} {p : Bool} (hs : Memory.wf s.mem = true) :
    Memory.wf (slotRun s o v p).mem = true := by
  unfold slotRun
  grind -lia -ring -linarith [k_completeWord, k_State_setSlot]

theorem k_execVxget {o : VOp} {s : State} {t : State} (h : execVxget o s = .next t) (hs : Memory.wf s.mem = true) :
    Memory.wf t.mem = true := by
  unfold execVxget at h
  grind -lia -ring -linarith [k_permExec, k_slotRun, k_raiseV]

theorem k_maskExec {i : Instr} {o : VOp} {run : State → VEnv → State} {s t : State}
    (h : maskExec i o run s = .next t) : (∃ e, t = raiseV e 0 s) ∨ ∃ b, t = run s (venvOf s b) :=
  k_permExec h

theorem k_execVmlog {op : MlogOp} {o : VOp} {s : State} {t : State} (h : execVmlog op o s = .next t) (hs : Memory.wf s.mem = true) :
    Memory.wf t.mem = true := by
  unfold execVmlog at h
  grind -lia -ring -linarith [k_elemWord, k_blockWord, k_raiseV]

theorem k_msetRun {o : VOp} {rel : Nat → Option Nat → Bool} {s : State} {v : VEnv} (hs : Memory.wf s.mem = true) :
    Memory.wf (msetRun o rel s v).mem = true := by
  unfold msetRun
  grind -lia -ring -linarith [k_permRun]

theorem k_execVmsbf {o : VOp} {s : State} {t : State} (h : execVmsbf o s = .next t) (hs : Memory.wf s.mem = true) :
    Memory.wf t.mem = true := by
  unfold execVmsbf at h
  grind -lia -ring -linarith [k_maskExec, k_msetRun, k_raiseV]

theorem k_execVmsif {o : VOp} {s : State} {t : State} (h : execVmsif o s = .next t) (hs : Memory.wf s.mem = true) :
    Memory.wf t.mem = true := by
  unfold execVmsif at h
  grind -lia -ring -linarith [k_maskExec, k_msetRun, k_raiseV]

theorem k_execVmsof {o : VOp} {s : State} {t : State} (h : execVmsof o s = .next t) (hs : Memory.wf s.mem = true) :
    Memory.wf t.mem = true := by
  unfold execVmsof at h
  grind -lia -ring -linarith [k_maskExec, k_msetRun, k_raiseV]

theorem k_execVmpopc {o : VOp} {s : State} {t : State} (h : execVmpopc o s = .next t) (hs : Memory.wf s.mem = true) :
    Memory.wf t.mem = true := by
  unfold execVmpopc at h
  grind -lia -ring -linarith [k_slotRun, k_maskExec, k_raiseV]

theorem k_execVmfirst {o : VOp} {s : State} {t : State} (h : execVmfirst o s = .next t) (hs : Memory.wf s.mem = true) :
    Memory.wf t.mem = true := by
  unfold execVmfirst at h
  grind -lia -ring -linarith [k_slotRun, k_maskExec, k_raiseV]

theorem k_stackExec {i : Instr} {o : VOp} {need : Nat → Bool} {run : VEnv → List MsEntry → List MsEntry} {s : State} {t : State} (h : stackExec i o need run s = .next t) (hs : Memory.wf s.mem = true) :
    Memory.wf t.mem = true := by
  unfold stackExec at h
  grind -lia -ring -linarith [k_completeWord, k_blockWord, k_State_setH, k_raiseV]

theorem k_execVmspush {o : VOp} {s : State} {t : State} (h : execVmspush o s = .next t) (hs : Memory.wf s.mem = true) :
    Memory.wf t.mem = true := by
  unfold execVmspush at h
  grind -lia -ring -linarith [k_stackExec]

theorem k_execVmselse {o : VOp} {s : State} {t : State} (h : execVmselse o s = .next t) (hs : Memory.wf s.mem = true) :
    Memory.wf t.mem = true := by
  unfold execVmselse at h
  grind -lia -ring -linarith [k_stackExec]

theorem k_execVmspop {o : VOp} {s : State} {t : State} (h : execVmspop o s = .next t) (hs : Memory.wf s.mem = true) :
    Memory.wf t.mem = true := by
  unfold execVmspop at h
  grind -lia -ring -linarith [k_stackExec]

theorem k_execVmsbrk {o : VOp} {s : State} {t : State} (h : execVmsbrk o s = .next t) (hs : Memory.wf s.mem = true) :
    Memory.wf t.mem = true := by
  unfold execVmsbrk at h
  grind -lia -ring -linarith [k_stackExec]

theorem k_execVmsany {o : VOp} {s : State} {t : State} (h : execVmsany o s = .next t) (hs : Memory.wf s.mem = true) :
    Memory.wf t.mem = true := by
  unfold execVmsany at h
  grind -lia -ring -linarith [k_slotRun, k_maskExec, k_raiseV]


end Sys2Proof.Machine
end

