-- ==== Sys2Proof/Laws/Keep/VMem.lean ====
section
/-! SUPPORT. Every operation of Machine/VMem.lean keeps the canonical form of memory. -/

namespace Sys2Proof.Machine

/-- A slice keeps the canonical form. -/
def SliceKeeps (run : SliceRun) : Prop :=
  ∀ s j q n t, run s j q n = .ok t → Memory.wf s.mem = true → Memory.wf t.mem = true

theorem k_writeElem {s : State} {ps : List (Loc × Nat)} {off m x : Nat} {p : Bool} (hs : Memory.wf s.mem = true) :
    Memory.wf (writeElem s ps off m x p).mem = true := by
  unfold writeElem
  split
  · split
    · exact hs
    · exact k_writeLoc hs
  · exact foldl_mem_wf (fun t q h => k_writeLoc h) _ hs

theorem k_loadSlice {s : State} {v : VEnv} {o : MemOp} {j : Nat} {msk : Msk} {top : Nat} {es : List Nat}
    {ls : List (Nat × List (List (Loc × Nat)))} (hs : Memory.wf s.mem = true) :
    Memory.wf (loadSlice s v o j msk top es ls).mem = true :=
  foldl_mem_wf (fun _ _ h => k_putGroup h) _ hs

theorem k_storeSlice {s : State} {v : VEnv} {o : MemOp} {j : Nat} {msk : Msk} {rm : Rm} {es : List Nat}
    {ls : List (Nat × List (List (Loc × Nat)))} (hs : Memory.wf s.mem = true) :
    Memory.wf (storeSlice s v o j msk rm es ls).mem = true :=
  foldl_mem_wf (fun _ _ h => foldl_mem_wf (fun _ _ h => k_State_setH (k_writeElem h)) _ h) _ hs

theorem k_laneStep {v : VEnv} {run : SliceRun} {held : LaneRun → Nat → Nat → Nat → Bool} (hr : SliceKeeps run)
    {t j q n : Nat} {r : LaneRun} (hs : Memory.wf r.st.mem = true) :
    Memory.wf (laneStep v run held t j q r n).st.mem = true := by
  unfold laneStep
  split
  · exact hs
  · split
    · exact hs
    · exact hr _ _ _ _ _ ‹_› hs

theorem k_laneRun {v : VEnv} {run : SliceRun} {held : LaneRun → Nat → Nat → Nat → Bool} (hr : SliceKeeps run) :
    ∀ (l : List ((Nat × Nat × Nat) × Nat)) {r : LaneRun}, Memory.wf r.st.mem = true →
      Memory.wf (laneRun v run held l r).st.mem = true
  | [], _, hs => hs
  | ((j, q, _), t) :: l, r, hs => by
      unfold laneRun
      refine k_laneRun hr l ?_
      have key : ∀ (ns : List Nat) (r : LaneRun), Memory.wf r.st.mem = true →
          Memory.wf (ns.foldl (laneStep v run held t j q) r).st.mem = true := by
        intro ns
        induction ns with
        | nil => exact fun _ h => h
        | cons n ns ih => exact fun r h => ih _ (k_laneStep hr h)
      exact key _ _ hs

theorem k_laneWord {s : State} {v : VEnv} {plan : List (Nat × Nat × Nat)} {full : Nat} {run : SliceRun}
    {held : LaneRun → Nat → Nat → Nat → Bool} {done : State → State} (hr : SliceKeeps run)
    (hd : ∀ x : State, Memory.wf x.mem = true → Memory.wf (done x).mem = true) (hs : Memory.wf s.mem = true) :
    Memory.wf (laneWord s v plan full run held done).mem = true := by
  unfold laneWord
  dsimp only
  split
  · exact k_completeWord (hd _ (k_laneRun hr _ hs))
  · exact k_haltWord (k_laneRun hr _ hs)

theorem k_loadTails {v : VEnv} {op : Nat → MemOp} {lo : Nat} {s : State} (hs : Memory.wf s.mem = true) :
    Memory.wf (loadTails v op lo s).mem = true := by
  unfold loadTails
  split
  · exact hs
  · refine foldl_mem_wf (fun t j h => ?_) _ hs
    split
    · refine foldl_mem_wf (fun u d h => ?_) _ h
      split
      · exact h
      · exact k_putTail h
    · exact h

theorem k_sliceAll {v : VEnv} {slice : SliceRun} {q : Nat} (hr : SliceKeeps slice) :
    ∀ (l : List Nat) {s t : State}, sliceAll v slice q l s = .ok t → Memory.wf s.mem = true →
      Memory.wf t.mem = true
  | [], _, _, h, hs => by cases h; exact hs
  | n :: l, s, t, h, hs => by
      unfold sliceAll at h
      split at h
      · cases h
      · exact k_sliceAll hr l h (hr _ _ _ _ _ ‹_› hs)

theorem k_zeroIdle {s : State} {v : VEnv} {d : OLoc} {q : Nat} {act : Nat → Bool} (hs : Memory.wf s.mem = true) :
    Memory.wf (zeroIdle s v d q act).mem = true := by
  unfold zeroIdle
  grind -lia -ring -linarith [k_State_setH]

theorem k_boundGroup {s : State} {v : VEnv} {op : Nat → MemOp} {msk : Msk} {rm : Rm} {pops : List Nat}
    {slice : SliceRun} {q : Nat} {t : State} (hr : SliceKeeps slice)
    (h : boundGroup s v op msk rm pops slice q = .ok t) (hs : Memory.wf s.mem = true) :
    Memory.wf t.mem = true := by
  unfold boundGroup at h
  split at h
  · cases h
  · rename_i s1 h1
    have hs1 := k_popAll _ h1 hs
    dsimp only at h
    split at h
    · cases h
    · split at h
      · cases h
      · rename_i t1 h2
        have ht1 := k_sliceAll hr _ h2 (foldl_mem_wf (fun t d h => by
          split
          · exact h
          · exact k_clearGroup h) _ hs1)
        split at h
        · cases h; exact ht1
        · split at h
          · cases h
          · cases h
            exact k_pushReg ‹_› (k_zeroIdle ht1)

theorem k_boundRun {v : VEnv} {op : Nat → MemOp} {msk : Msk} {rm : Rm} {pops : List Nat} {slice : SliceRun}
    {cs : List Nat} (hr : SliceKeeps slice) :
    ∀ (l : List (Nat × Nat × Nat)) {s : State}, Memory.wf s.mem = true →
      (∀ t, boundRun v op msk rm pops slice cs l s = .ok t → Memory.wf t.mem = true) ∧
      (∀ t i e g, boundRun v op msk rm pops slice cs l s = .error (t, i, e, g) → Memory.wf t.mem = true)
  | [], s, hs => ⟨fun t h => (by cases h; exact hs), fun t i e g h => (by cases h)⟩
  | (_, q, idx) :: l, s, hs => by
      unfold boundRun
      split
      · exact k_boundRun hr l hs
      · split
        · exact ⟨fun t h => (by cases h), fun t i e g h => (by cases h; exact hs)⟩
        · exact k_boundRun hr l (k_boundGroup hr ‹_› hs)

theorem k_memWord {s : State} {v : VEnv} {op : Nat → MemOp} {msk : Msk} {rm : Rm} {reads writes : List Opnd}
    {slice : SliceRun} {lo : Nat} (hr : SliceKeeps slice) (hs : Memory.wf s.mem = true) :
    Memory.wf (memWord s v op msk rm reads writes slice lo).mem = true := by
  unfold memWord
  split
  · exact k_laneWord hr (fun _ h => k_loadTails h) hs
  · dsimp only
    split
    · exact k_completeWord (k_loadTails ((k_boundRun hr _ hs).1 _ ‹_›))
    · exact k_haltWord ((k_boundRun hr _ hs).2 _ _ _ _ ‹_›)

theorem memSlice_keeps {v : VEnv} {op : Nat → MemOp} {msk : Msk} {rm : Rm} : SliceKeeps (memSlice v op msk rm) := by
  intro s j q n t h hs
  unfold memSlice at h
  dsimp only at h
  split at h
  · cases h
  · split at h
    · cases h; exact k_loadSlice hs
    · cases h; exact k_storeSlice hs

theorem vlwrSlice_keeps {v : VEnv} {base : Word} {d : Nat} : SliceKeeps (vlwrSlice v base d) := by
  intro s j q n t h hs
  unfold vlwrSlice at h
  dsimp only at h
  split at h
  · cases h
  · cases h; exact hs

theorem vswrSlice_keeps {v : VEnv} {base : Word} {d : Nat} : SliceKeeps (vswrSlice v base d) := by
  intro s j q n t h hs
  unfold vswrSlice at h
  dsimp only at h
  split at h
  · cases h
  · cases h; exact k_writeLoc hs

theorem k_loadExec {i : Instr} {o : VOp} {cfg : VEnv → Bool} {reads : List Opnd} {idxW : VEnv → Nat}
    {op : VEnv → Nat → MemOp} {s t : State} (h : loadExec i o cfg reads idxW op s = .next t)
    (hs : Memory.wf s.mem = true) : Memory.wf t.mem = true := by
  obtain ⟨b, bs, -, (⟨e, -, rfl⟩ | ⟨-, rfl⟩)⟩ := k_blockWord h
  · exact k_raiseV hs
  · exact k_memWord memSlice_keeps hs

theorem k_storeExec {i : Instr} {o : VOp} {cfg : VEnv → Bool} {idx : Opnd} {idxW : VEnv → Nat}
    {op : VEnv → Nat → MemOp} {s t : State} (h : storeExec i o cfg idx idxW op s = .next t)
    (hs : Memory.wf s.mem = true) : Memory.wf t.mem = true := by
  obtain ⟨b, bs, -, (⟨e, -, rfl⟩ | ⟨-, rfl⟩)⟩ := k_blockWord h
  · exact k_raiseV hs
  · exact k_memWord memSlice_keeps hs

theorem k_execVle {o : VOp} {s : State} {z : State} (h : execVle o s = .next z) (hs : Memory.wf s.mem = true) :
    Memory.wf z.mem = true := by
  unfold execVle at h
  grind -lia -ring -linarith [k_loadExec]

theorem k_execVse {o : VOp} {s : State} {z : State} (h : execVse o s = .next z) (hs : Memory.wf s.mem = true) :
    Memory.wf z.mem = true := by
  unfold execVse at h
  grind -lia -ring -linarith [k_storeExec]

theorem k_execVlse {o : VOp} {s : State} {z : State} (h : execVlse o s = .next z) (hs : Memory.wf s.mem = true) :
    Memory.wf z.mem = true := by
  unfold execVlse at h
  grind -lia -ring -linarith [k_loadExec]

theorem k_execVsse {o : VOp} {s : State} {z : State} (h : execVsse o s = .next z) (hs : Memory.wf s.mem = true) :
    Memory.wf z.mem = true := by
  unfold execVsse at h
  grind -lia -ring -linarith [k_storeExec]

theorem k_execVlxe {o : VOp} {s : State} {z : State} (h : execVlxe o s = .next z) (hs : Memory.wf s.mem = true) :
    Memory.wf z.mem = true := by
  unfold execVlxe at h
  grind -lia -ring -linarith [k_loadExec]

theorem k_execVsxe {o : VOp} {s : State} {z : State} (h : execVsxe o s = .next z) (hs : Memory.wf s.mem = true) :
    Memory.wf z.mem = true := by
  unfold execVsxe at h
  grind -lia -ring -linarith [k_storeExec]

theorem k_execVlseg {o : VOp} {s t : State} (h : execVlseg o s = .next t) (hs : Memory.wf s.mem = true) :
    Memory.wf t.mem = true := by
  obtain ⟨b, bs, -, (⟨e, -, rfl⟩ | ⟨-, rfl⟩)⟩ := k_blockWord h
  · exact k_raiseV hs
  · exact k_memWord memSlice_keeps hs

theorem k_execVsseg {o : VOp} {s t : State} (h : execVsseg o s = .next t) (hs : Memory.wf s.mem = true) :
    Memory.wf t.mem = true := by
  obtain ⟨b, bs, -, (⟨e, -, rfl⟩ | ⟨-, rfl⟩)⟩ := k_blockWord h
  · exact k_raiseV hs
  · exact k_memWord memSlice_keeps hs

theorem k_vlffRun {o : VOp} {s : State} {v : VEnv} (hs : Memory.wf s.mem = true) :
    Memory.wf (vlffRun o s v).mem = true := by
  unfold vlffRun
  dsimp only
  generalize ffCut s v (unitOp .load o.d o v 0) o.msk = c
  cases c with
  | none => exact k_memWord memSlice_keeps hs
  | some c =>
      dsimp only
      generalize (if v.vl = 0 then 0 else c) = lo
      have hm : Memory.wf (memWord s { v with vl := c } (unitOp .load o.d o { v with vl := c }) o.msk o.rm []
        [o.d] (memSlice { v with vl := c } (unitOp .load o.d o { v with vl := c }) o.msk o.rm) lo).mem = true :=
        k_memWord memSlice_keeps hs
      split
      · exact k_State_setSlot hm
      · exact hm

theorem k_execVlff {o : VOp} {s : State} {z : State} (h : execVlff o s = .next z) (hs : Memory.wf s.mem = true) :
    Memory.wf z.mem = true := by
  unfold execVlff at h
  grind -lia -ring -linarith [k_blockWord, k_vlffRun, k_raiseV]

theorem k_imageExec {i : Instr} {o : VOp} {d : Opnd} {slice : VEnv → SliceRun} {s t : State}
    (hr : ∀ v, SliceKeeps (slice v)) (h : imageExec i o d slice s = .next t)
    (hs : Memory.wf s.mem = true) : Memory.wf t.mem = true := by
  obtain ⟨b, bs, -, (⟨e, -, rfl⟩ | ⟨-, rfl⟩)⟩ := k_blockWord h
  · exact k_raiseV hs
  · exact k_laneWord (hr _) (fun _ h => h) hs

theorem k_execVlwr {o : VOp} {s t : State} (h : execVlwr o s = .next t) (hs : Memory.wf s.mem = true) :
    Memory.wf t.mem = true := k_imageExec (fun _ => vlwrSlice_keeps) h hs

theorem k_execVswr {o : VOp} {s t : State} (h : execVswr o s = .next t) (hs : Memory.wf s.mem = true) :
    Memory.wf t.mem = true := k_imageExec (fun _ => vswrSlice_keeps) h hs

theorem k_execVpref {o : VOp} {s : State} {z : State} (h : execVpref o s = .next z) (hs : Memory.wf s.mem = true) :
    Memory.wf z.mem = true := by
  unfold execVpref at h
  grind -lia -ring -linarith [k_completeWord, k_blockWord, k_raiseV]

theorem k_vamoElem {s : State} {v : VEnv} {op : VAmoOp} {l : Loc} {c d : Nat} {p : Bool}
    (hs : Memory.wf s.mem = true) : Memory.wf (vamoElem s v op l c d p).1.mem = true := k_writeLoc hs

theorem k_vamoElems {v : VEnv} {op : VAmoOp} {get : Nat → Nat × Nat × Bool} :
    ∀ (l : List (Nat × List (List (Loc × Nat)))) {s : State}, Memory.wf s.mem = true →
      Memory.wf (vamoElems v op get l s).1.mem = true
  | [], _, hs => hs
  | (_, _) :: l, s, hs => by
      unfold vamoElems
      split
      · exact k_vamoElems l hs
      · exact k_vamoElems l (k_vamoElem hs)

theorem vamoSlice_keeps {v : VEnv} {op : VAmoOp} {o : VOp} {mop : Nat → MemOp} :
    SliceKeeps (vamoSlice v op o mop) := by
  intro s j q n t h hs
  unfold vamoSlice at h
  dsimp only at h
  split at h
  · cases h
  · split at h
    · cases h; exact k_vamoElems _ hs
    · cases h; exact k_putGroup (k_vamoElems _ hs)

theorem k_vamoTails {v : VEnv} {o : VOp} {s : State} (hs : Memory.wf s.mem = true) :
    Memory.wf (vamoTails v o s).mem = true := by
  unfold vamoTails
  split
  · exact hs
  · refine foldl_mem_wf (fun t j h => ?_) _ hs
    split
    · exact h
    · exact k_putTail h

theorem k_vamoRun {op : VAmoOp} {o : VOp} {s : State} {v : VEnv} (hs : Memory.wf s.mem = true) :
    Memory.wf (vamoRun op o s v).mem = true := by
  unfold vamoRun
  generalize [o.a, o.c] ++ (if op = .cas then [o.d] else []) = reads
  dsimp only
  split
  · refine k_laneWord ?_ (fun _ h => k_vamoTails h) hs
    exact vamoSlice_keeps
  · split
    · rename_i h
      refine k_completeWord (k_vamoTails ((k_boundRun ?_ _ hs).1 _ h))
      exact vamoSlice_keeps
    · rename_i h
      refine k_haltWord ((k_boundRun ?_ _ hs).2 _ _ _ _ h)
      exact vamoSlice_keeps

theorem k_execVamo {op : VAmoOp} {o : VOp} {s : State} {z : State} (h : execVamo op o s = .next z) (hs : Memory.wf s.mem = true) :
    Memory.wf z.mem = true := by
  unfold execVamo at h
  grind -lia -ring -linarith [k_blockWord, k_vamoRun, k_raiseV]


end Sys2Proof.Machine
end

