-- ==== Sys2Proof/Laws/Keep/Bind.lean ====
section
/-! SUPPORT. Every operation of Machine/Bind.lean keeps the canonical form of memory. -/

namespace Sys2Proof.Machine

theorem k_resetBound {s : State} {r : Nat} {b : Option Binding} (hs : Memory.wf s.mem = true) :
    Memory.wf (resetBound s r b).mem = true := by
  unfold resetBound
  grind -lia -ring -linarith [k_State_setH]

theorem k_setEnds {s : State} {open_ : Bool} (hs : Memory.wf s.mem = true) :
    Memory.wf (setEnds s open_).mem = true := by
  unfold setEnds
  grind -lia -ring -linarith [k_State_updMyRing]

theorem k_bindStream {s : State} {v : VEnv} {i : Instr} {k : BitVec 3} {mk : BitVec 3 → StreamDesc → Nat → Binding} {r : Nat} {z : State} (h : bindStream s v i k mk r = .ok z) (hs : Memory.wf s.mem = true) :
    Memory.wf z.mem = true := by
  unfold bindStream at h
  grind -lia -ring -linarith [k_resetBound]

theorem k_bindRun {s : State} {v : VEnv} {i : Instr} {r : Nat} {src : BindSrc} {z : State} (h : bindRun s v i r src = .ok z) (hs : Memory.wf s.mem = true) :
    Memory.wf z.mem = true := by
  unfold bindRun at h
  grind -lia -ring -linarith [k_resetBound, k_setEnds, k_bindStream, k_State_withGang]

theorem k_execVbind {d : BitVec 2} {src : BindSrc} {s : State} {z : State} (h : execVbind d src s = .next z) (hs : Memory.wf s.mem = true) :
    Memory.wf z.mem = true := by
  unfold execVbind at h
  grind -lia -ring -linarith [k_bindRun, k_completeWord, k_haltWord, k_raiseV]

theorem k_unbindRun {s : State} {r : Nat} (hs : Memory.wf s.mem = true) :
    Memory.wf (unbindRun s r).mem = true := by
  unfold unbindRun
  grind -lia -ring -linarith [k_resetBound, k_setEnds]

theorem k_execVunbind {d : BitVec 2} {s : State} {z : State} (h : execVunbind d s = .next z) (hs : Memory.wf s.mem = true) :
    Memory.wf z.mem = true := by
  unfold execVunbind at h
  grind -lia -ring -linarith [k_unbindRun, k_completeWord, k_blockWord, k_raiseV]

theorem k_execVlsync {s : State} {z : State} (h : execVlsync s = .next z) (hs : Memory.wf s.mem = true) :
    Memory.wf z.mem = true := by
  unfold execVlsync at h
  grind -lia -ring -linarith [k_completeWord, k_blockWord, k_State_setH, k_raiseV]

theorem k_endBlock {s : State} (hs : Memory.wf s.mem = true) :
    Memory.wf (endBlock s).mem = true := by
  unfold endBlock
  grind -lia -ring -linarith [k_State_setH, k_State_tickUp]

theorem k_execVstop {s : State} {z : State} (h : execVstop s = .next z) (hs : Memory.wf s.mem = true) :
    Memory.wf z.mem = true := by
  unfold execVstop at h
  grind -lia -ring -linarith [k_endBlock, k_blockWord, k_raiseV]

theorem k_execChannelRingTransfer {s : State} {z : State} (h : execChannelRingTransfer s = .next z) (hs : Memory.wf s.mem = true) :
    Memory.wf z.mem = true := by
  unfold execChannelRingTransfer at h
  grind -lia -ring -linarith [k_State_setH, k_event, k_raise, k_State_tickUp]


end Sys2Proof.Machine
end

