-- ==== Sys2Proof/Laws/Keep/Message.lean ====
section
/-! SUPPORT. Every operation of Machine/Message.lean keeps the canonical form of memory. -/

namespace Sys2Proof.Machine

theorem k_State_onHart {s : State} {p : Hart → Bool} {f : State → State}
    (hf : ∀ x : State, Memory.wf x.mem = true → Memory.wf (f x).mem = true) (hs : Memory.wf s.mem = true) :
    Memory.wf (s.onHart p f).mem = true := by
  unfold State.onHart
  split
  · exact hf s hs
  · split
    · exact hs
    · exact k_State_swapHart (hf _ (k_State_swapHart hs))

theorem k_inboxAppend {s : State} {k : Hart} {e : InboxEntry} {t : State} (h : inboxAppend s k e = some t)
    (hs : Memory.wf s.mem = true) : Memory.wf t.mem = true := by
  unfold inboxAppend at h
  split at h
  · cases h
  · obtain ⟨u, h1, h2⟩ := Option.bind_eq_some_iff.1 h
    exact k_State_writePart h2 (k_State_writePart h1 hs)

theorem k_inboxShift {k : Hart} : ∀ (n : Nat) {s : State}, Memory.wf s.mem = true →
    Memory.wf (inboxShift s k n).mem = true
  | 0, s, hs => by
      unfold inboxShift
      cases h : s.writePart k.id.part k.inbox 4 ((inboxHead s k + 1) % 2 ^ 32) with
      | none => exact hs
      | some t => exact k_State_writePart h hs
  | n + 1, s, hs => by
      unfold inboxShift
      cases h : s.writePart k.id.part (inboxSlot s k (n + 1)) 128 (inboxEntry s k n).toNat with
      | none => exact k_inboxShift n hs
      | some t => exact k_inboxShift n (k_State_writePart h hs)

theorem k_inboxTake {s : State} {y : BitVec 2} {t : State} (h : inboxTake s y = some t) (hs : Memory.wf s.mem = true) :
    Memory.wf t.mem = true := by
  unfold inboxTake at h
  grind -lia -ring -linarith [k_inboxShift, k_State_setH]

theorem inboxTake_getD_wf {s : State} {y : BitVec 2} (hs : Memory.wf s.mem = true) :
    Memory.wf ((inboxTake s y).getD s).mem = true := by
  cases h : inboxTake s y with
  | none => exact hs
  | some t => exact k_inboxTake h hs

theorem k_inboxTakeAll {s : State} (hs : Memory.wf s.mem = true) : Memory.wf (inboxTakeAll s).mem = true :=
  foldl_mem_wf (fun _ _ h => inboxTake_getD_wf h) _ hs

theorem k_inboxDeliveryRun {target : ContId} {s t : State} (h : inboxDeliveryRun target s = some t)
    (hs : Memory.wf s.mem = true) : Memory.wf t.mem = true := by
  unfold inboxDeliveryRun at h
  split at h
  · cases h
  · split at h
    · cases h
    · dsimp only at h
      split at h
      · cases h
      · cases h
        exact k_State_onHart (fun _ h => k_inboxTakeAll h) hs

theorem k_execInboxDelivery {target : ContId} {s : State} {t : State} (h : execInboxDelivery target s = .next t) (hs : Memory.wf s.mem = true) :
    Memory.wf t.mem = true := by
  unfold execInboxDelivery at h
  grind -lia -ring -linarith [k_inboxDeliveryRun, k_event, k_raise, k_State_tickUp]

theorem k_State_cross {s : State} {a : Nat} {b : Nat} (hs : Memory.wf s.mem = true) :
    Memory.wf (State.cross s a b).mem = true := by
  unfold State.cross
  grind -lia -ring -linarith [k_State_message]

theorem k_deliverTo {s : State} {src : Nat} {k : Hart} {x : Word} {blk : Bool} {v : BitVec 512} (hs : Memory.wf s.mem = true) :
    Memory.wf (deliverTo s src k x blk v).mem = true := by
  unfold deliverTo
  grind -lia -ring -linarith [k_State_cross, k_State_mapHarts]

theorem k_divertTo {s : State} {src : Nat} {sender : ContId} {k : Hart} {x : Word} {kind : Nat} {v : BitVec 512} {t : State} (h : divertTo s src sender k x kind v = some t) (hs : Memory.wf s.mem = true) :
    Memory.wf t.mem = true := by
  unfold divertTo at h
  grind -lia -ring -linarith [k_inboxAppend, k_State_cross]

theorem k_sendMessage {s : State} {x : Word} {blk : Bool} {v : BitVec 512} {t : State}
    (h : sendMessage s x blk v = .ok (some t)) (hs : Memory.wf s.mem = true) : Memory.wf t.mem = true := by
  unfold sendMessage at h
  grind [k_deliverTo, k_divertTo, k_State_reportHart]

theorem k_afterSend {r : Except Stop (Option State)} {s t : State} (h : afterSend r s = .ok t) :
    (r = .ok none ∧ t = s) ∨ ∃ u, r = .ok (some u) ∧ t = u.advance := by
  unfold afterSend at h
  grind

theorem k_replyEffect {w : FaultWait} {p : Word} {s : State} (hs : Memory.wf s.mem = true) :
    Memory.wf (replyEffect w p s).mem = true := by
  unfold replyEffect
  grind -lia -ring -linarith [k_State_setH, k_takeTrap, k_State_setMatFault]

theorem k_dropPagerMsg {s : State} {c : ContId} {p : Word} (hs : Memory.wf s.mem = true) :
    Memory.wf (dropPagerMsg s c p).mem = true := by
  unfold dropPagerMsg
  grind -lia -ring -linarith []

theorem k_replyTo {s : State} {src : Nat} {sender : ContId} {c : ContId} {p : Word} {t : State} (h : replyTo s src sender c p = some t) (hs : Memory.wf s.mem = true) :
    Memory.wf t.mem = true := by
  unfold replyTo at h
  grind -lia -ring -linarith [k_State_onHart, k_State_cross, k_divertTo, k_replyEffect, k_dropPagerMsg]

theorem k_execFaultReply {target : ContId} {p : Word} {s : State} {t : State} (h : execFaultReply target p s = .next t) (hs : Memory.wf s.mem = true) :
    Memory.wf t.mem = true := by
  unfold execFaultReply at h
  grind -lia -ring -linarith [k_replyTo, k_event, k_raise, k_State_tickUp]

theorem k_execHcont {rd : Reg} {y : BitVec 2} {s : State} {t : State} (h : execHcont rd y s = .next t) (hs : Memory.wf s.mem = true) :
    Memory.wf t.mem = true := by
  unfold execHcont at h
  grind -lia -ring -linarith [k_State_setX, k_State_advance]

theorem k_hsendRun {rs1 : Reg} {rs2 : Reg} {s : State} {t : State} (h : hsendRun rs1 rs2 s = .ok t) (hs : Memory.wf s.mem = true) :
    Memory.wf t.mem = true := by
  unfold hsendRun at h
  grind -lia -ring -linarith [k_sendMessage, k_afterSend, k_replyTo, k_State_advance]

theorem k_execHsend {rs1 : Reg} {rs2 : Reg} {s : State} {t : State} (h : execHsend rs1 rs2 s = .next t) (hs : Memory.wf s.mem = true) :
    Memory.wf t.mem = true := by
  unfold execHsend at h
  grind -lia -ring -linarith [k_hsendRun, k_finish, k_raise, k_State_tickUp]

theorem k_hsendbRun {rs1 : Reg} {rs2 : Reg} {s : State} {t : State} (h : hsendbRun rs1 rs2 s = .ok t) (hs : Memory.wf s.mem = true) :
    Memory.wf t.mem = true := by
  unfold hsendbRun at h
  grind -lia -ring -linarith [k_sendMessage, k_afterSend, k_State_advance]

theorem k_execHsendb {rs1 : Reg} {rs2 : Reg} {s : State} {t : State} (h : execHsendb rs1 rs2 s = .next t) (hs : Memory.wf s.mem = true) :
    Memory.wf t.mem = true := by
  unfold execHsendb at h
  grind -lia -ring -linarith [k_hsendbRun, k_finish, k_raise, k_State_tickUp]

theorem k_hwaitEffect {rd : Reg} {y : BitVec 2} {s : State} (hs : Memory.wf s.mem = true) :
    Memory.wf (hwaitEffect rd y s).mem = true := by
  unfold hwaitEffect
  dsimp only
  split
  · exact inboxTake_getD_wf hs
  · exact k_State_advance (k_State_acquire hs)

theorem k_execHwait {rd : Reg} {y : BitVec 2} {s : State} {t : State} (h : execHwait rd y s = .next t) (hs : Memory.wf s.mem = true) :
    Memory.wf t.mem = true := by
  unfold execHwait at h
  grind -lia -ring -linarith [k_hwaitEffect]

theorem k_messageDeliveryRun {sender : ContId} {target : Word} {blk : Bool} {payload : BitVec 512} {s : State} {t : State} (h : messageDeliveryRun sender target blk payload s = some t) (hs : Memory.wf s.mem = true) :
    Memory.wf t.mem = true := by
  unfold messageDeliveryRun at h
  grind -lia -ring -linarith [k_deliverTo]

theorem k_execMessageDelivery {sender : ContId} {target : Word} {blk : Bool} {payload : BitVec 512} {s : State} {t : State} (h : execMessageDelivery sender target blk payload s = .next t) (hs : Memory.wf s.mem = true) :
    Memory.wf t.mem = true := by
  unfold execMessageDelivery at h
  grind -lia -ring -linarith [k_messageDeliveryRun, k_event, k_raise, k_State_tickUp]

theorem k_messageDivertRun {sender : ContId} {target : Word} {blk : Bool} {payload : BitVec 512} {s : State} {t : State} (h : messageDivertRun sender target blk payload s = some t) (hs : Memory.wf s.mem = true) :
    Memory.wf t.mem = true := by
  unfold messageDivertRun at h
  grind -lia -ring -linarith [k_divertTo]

theorem k_execMessageDivert {sender : ContId} {target : Word} {blk : Bool} {payload : BitVec 512} {s : State} {t : State} (h : execMessageDivert sender target blk payload s = .next t) (hs : Memory.wf s.mem = true) :
    Memory.wf t.mem = true := by
  unfold execMessageDivert at h
  grind -lia -ring -linarith [k_messageDivertRun, k_event, k_raise, k_State_tickUp]

theorem k_shapeChangeNoticeRun {target : ContId} {window : BitVec 32} {s : State} {t : State} (h : shapeChangeNoticeRun target window s = some t) (hs : Memory.wf s.mem = true) :
    Memory.wf t.mem = true := by
  unfold shapeChangeNoticeRun at h
  grind -lia -ring -linarith [k_State_mapHarts]

theorem k_execShapeChangeNotice {target : ContId} {window : BitVec 32} {s : State} {t : State} (h : execShapeChangeNotice target window s = .next t) (hs : Memory.wf s.mem = true) :
    Memory.wf t.mem = true := by
  unfold execShapeChangeNotice at h
  grind -lia -ring -linarith [k_shapeChangeNoticeRun, k_event, k_raise, k_State_tickUp]

theorem k_parkEffect {s : State} (hs : Memory.wf s.mem = true) :
    Memory.wf (parkEffect s).mem = true := by
  unfold parkEffect
  grind -lia -ring -linarith [k_State_setVstat, k_State_setH, k_State_advance]

theorem k_execPark {s : State} {t : State} (h : execPark s = .next t) (hs : Memory.wf s.mem = true) :
    Memory.wf t.mem = true := by
  unfold execPark at h
  grind -lia -ring -linarith [k_parkEffect, k_raise, k_matrixSync]


end Sys2Proof.Machine
end

