-- ==== Sys2Proof/Laws/Keep/Matrix.lean ====
section
/-! SUPPORT. Every operation of Machine/Matrix.lean keeps the canonical form of memory. -/

namespace Sys2Proof.Machine

theorem k_postEntry {s : State} {i : Instr} {xa : Word} {xb : Word} (hs : Memory.wf s.mem = true) :
    Memory.wf (postEntry s i xa xb).mem = true := by
  unfold postEntry
  grind -lia -ring -linarith [k_State_setH, k_State_advance]

theorem k_postWord {s : State} {i : Instr} {enc : Bool} {commit : Option Stop} {xa : Word} {xb : Word} {z : State} (h : postWord s i enc commit xa xb = .next z) (hs : Memory.wf s.mem = true) :
    Memory.wf z.mem = true := by
  unfold postWord at h
  grind -lia -ring -linarith [k_postEntry, k_guarded, k_raise, k_State_tickUp]

theorem k_mcfgEffect {s : State} {a : Word} {b : Word} (hs : Memory.wf s.mem = true) :
    Memory.wf (mcfgEffect s a b).mem = true := by
  unfold mcfgEffect
  grind -lia -ring -linarith [k_State_setH, k_State_advance]

theorem k_execMcfg {rs1 : Reg} {rs2 : Reg} {s : State} {z : State} (h : execMcfg rs1 rs2 s = .next z) (hs : Memory.wf s.mem = true) :
    Memory.wf z.mem = true := by
  unfold execMcfg at h
  grind -lia -ring -linarith [k_mcfgEffect, k_guarded, k_raise, k_State_tickUp]

theorem k_execMsync {s : State} {z : State} (h : execMsync s = .next z) (hs : Memory.wf s.mem = true) :
    Memory.wf z.mem = true := by
  unfold execMsync at h
  grind -lia -ring -linarith [k_State_advance, k_matrixSync]

theorem k_execMldt {t : BitVec 3} {rs1 : Reg} {rs2 : Reg} {s : State} {z : State} (h : execMldt t rs1 rs2 s = .next z) (hs : Memory.wf s.mem = true) :
    Memory.wf z.mem = true := by
  unfold execMldt at h
  grind -lia -ring -linarith [k_postWord]

theorem k_execMstt {t : BitVec 3} {rs1 : Reg} {rs2 : Reg} {s : State} {z : State} (h : execMstt t rs1 rs2 s = .next z) (hs : Memory.wf s.mem = true) :
    Memory.wf z.mem = true := by
  unfold execMstt at h
  grind -lia -ring -linarith [k_postWord]

theorem k_execMlda {t : BitVec 4} {rs1 : Reg} {rs2 : Reg} {s : State} {z : State} (h : execMlda t rs1 rs2 s = .next z) (hs : Memory.wf s.mem = true) :
    Memory.wf z.mem = true := by
  unfold execMlda at h
  grind -lia -ring -linarith [k_postWord]

theorem k_execMsta {t : BitVec 4} {rs1 : Reg} {rs2 : Reg} {s : State} {z : State} (h : execMsta t rs1 rs2 s = .next z) (hs : Memory.wf s.mem = true) :
    Memory.wf z.mem = true := by
  unfold execMsta at h
  grind -lia -ring -linarith [k_postWord]

theorem k_execMzero {t : BitVec 4} {s : State} {z : State} (h : execMzero t s = .next z) (hs : Memory.wf s.mem = true) :
    Memory.wf z.mem = true := by
  unfold execMzero at h
  grind -lia -ring -linarith [k_postWord]

theorem k_execMma {d : BitVec 4} {a : BitVec 3} {b : BitVec 3} {s : State} {z : State} (h : execMma d a b s = .next z) (hs : Memory.wf s.mem = true) :
    Memory.wf z.mem = true := by
  unfold execMma at h
  grind -lia -ring -linarith [k_postWord]

theorem k_execMmas {d : BitVec 4} {a : BitVec 3} {b : BitVec 3} {s : State} {z : State} (h : execMmas d a b s = .next z) (hs : Memory.wf s.mem = true) :
    Memory.wf z.mem = true := by
  unfold execMmas at h
  grind -lia -ring -linarith [k_postWord]

theorem k_execMma64 {d : BitVec 4} {a : BitVec 3} {b : BitVec 3} {s : State} {z : State} (h : execMma64 d a b s = .next z) (hs : Memory.wf s.mem = true) :
    Memory.wf z.mem = true := by
  unfold execMma64 at h
  grind -lia -ring -linarith [k_postWord]

theorem k_execMmal {d : BitVec 4} {a : BitVec 3} {rs2 : Reg} {s : State} {z : State} (h : execMmal d a rs2 s = .next z) (hs : Memory.wf s.mem = true) :
    Memory.wf z.mem = true := by
  unfold execMmal at h
  grind -lia -ring -linarith [k_postWord]

theorem k_execMcvt {fmt : BitVec 4} {rm : Rm} {d : BitVec 3} {src : BitVec 4} {s : State} {z : State} (h : execMcvt fmt rm d src s = .next z) (hs : Memory.wf s.mem = true) :
    Memory.wf z.mem = true := by
  unfold execMcvt at h
  grind -lia -ring -linarith [k_postWord]

theorem k_execMaccv {d : BitVec 5} {src : BitVec 4} {rs2 : Reg} {s : State} {z : State} (h : execMaccv d src rs2 s = .next z) (hs : Memory.wf s.mem = true) :
    Memory.wf z.mem = true := by
  unfold execMaccv at h
  grind -lia -ring -linarith [k_postWord]

theorem k_execMvtile {d : BitVec 3} {src : BitVec 5} {s : State} {z : State} (h : execMvtile d src s = .next z) (hs : Memory.wf s.mem = true) :
    Memory.wf z.mem = true := by
  unfold execMvtile at h
  grind -lia -ring -linarith [k_postWord]

theorem k_writeRows {n : Nat} : ∀ (l : List (Loc × Nat × Bool)) {s : State}, Memory.wf s.mem = true →
    Memory.wf (writeRows s n l).mem = true
  | [], _, hs => hs
  | (_, _, _) :: l, _, hs => k_writeRows l (k_writeLoc hs)

theorem k_State_setMat {s : State} {m : Mat} (hs : Memory.wf s.mem = true) :
    Memory.wf (State.setMat s m).mem = true := by
  unfold State.setMat
  grind -lia -ring -linarith [k_State_setH]

theorem k_State_aotWrite {s : State} {i : Ident} {p : PinEntry} {dirty : Bool} (hs : Memory.wf s.mem = true) :
    Memory.wf (State.aotWrite s i p dirty).mem = true := by
  unfold State.aotWrite
  grind -lia -ring -linarith [k_State_aotPut]

theorem k_State_markDirty {s : State} {a : Nat} (hs : Memory.wf s.mem = true) :
    Memory.wf (State.markDirty s a).mem = true := by
  unfold State.markDirty
  grind -lia -ring -linarith [k_State_aotWrite]

theorem k_State_putAcc {s : State} {a : Nat} {x : Acc} (hs : Memory.wf s.mem = true) :
    Memory.wf (State.putAcc s a x).mem = true := by
  unfold State.putAcc
  grind -lia -ring -linarith [k_State_setMat, k_State_markDirty]

theorem k_mldtRun {s : State} {e : MqEntry} {t : Nat} {z : State} (h : mldtRun s e t = .ok z) (hs : Memory.wf s.mem = true) :
    Memory.wf z.mem = true := by
  unfold mldtRun at h
  grind -lia -ring -linarith [k_State_setMat]

theorem k_msttRun {s : State} {e : MqEntry} {t : Nat} {z : State} (h : msttRun s e t = .ok z) (hs : Memory.wf s.mem = true) :
    Memory.wf z.mem = true := by
  unfold msttRun at h
  grind -lia -ring -linarith [k_writeRows]

theorem k_mldaRun {s : State} {e : MqEntry} {a : Nat} {z : State} (h : mldaRun s e a = .ok z) (hs : Memory.wf s.mem = true) :
    Memory.wf z.mem = true := by
  unfold mldaRun at h
  grind -lia -ring -linarith [k_State_putAcc]

theorem k_mstaRun {s : State} {e : MqEntry} {a : Nat} {z : State} (h : mstaRun s e a = .ok z) (hs : Memory.wf s.mem = true) :
    Memory.wf z.mem = true := by
  unfold mstaRun at h
  grind -lia -ring -linarith [k_writeRows]

theorem k_mzeroRun {s : State} {a : Nat} (hs : Memory.wf s.mem = true) :
    Memory.wf (mzeroRun s a).mem = true := by
  unfold mzeroRun
  grind -lia -ring -linarith [k_State_putAcc]

theorem k_putCells {s : State} {a : Nat} {pois : BitVec 32} {rows : List (List FRes)} (hs : Memory.wf s.mem = true) :
    Memory.wf (putCells s a pois rows).mem = true := by
  unfold putCells
  grind -lia -ring -linarith [k_State_putAcc, k_State_setH]

theorem k_mmaRun {s : State} {e : MqEntry} {d : Nat} {a : Nat} {b : Nat} (hs : Memory.wf s.mem = true) :
    Memory.wf (mmaRun s e d a b).mem = true := by
  unfold mmaRun
  grind -lia -ring -linarith [k_putCells]

theorem k_mmalRun {s : State} {e : MqEntry} {d : Nat} {a : Nat} {z : State} (h : mmalRun s e d a = .ok z) (hs : Memory.wf s.mem = true) :
    Memory.wf z.mem = true := by
  unfold mmalRun at h
  grind -lia -ring -linarith [k_putCells]

theorem k_mmasRun {s : State} {e : MqEntry} {d : Nat} {a : Nat} {b : Nat} (hs : Memory.wf s.mem = true) :
    Memory.wf (mmasRun s e d a b).mem = true := by
  unfold mmasRun
  grind -lia -ring -linarith [k_putCells]

theorem k_mma64Run {s : State} {e : MqEntry} {d : Nat} {a : Nat} {b : Nat} (hs : Memory.wf s.mem = true) :
    Memory.wf (mma64Run s e d a b).mem = true := by
  unfold mma64Run
  grind -lia -ring -linarith [k_putCells]

theorem k_mcvtRun {s : State} {e : MqEntry} {fmt : BitVec 4} {rm : Rm} {d : Nat} {src : Nat} (hs : Memory.wf s.mem = true) :
    Memory.wf (mcvtRun s e fmt rm d src).mem = true := by
  unfold mcvtRun
  grind -lia -ring -linarith [k_State_setH]

theorem k_putEntryVec {s : State} {v : VEnv} {d : Nat} {res : Nat → FRes} {pois : Nat → Bool} (hs : Memory.wf s.mem = true) :
    Memory.wf (putEntryVec s v d res pois).mem = true := by
  unfold putEntryVec
  grind -lia -ring -linarith [k_putGroup, k_putTail]

theorem k_maccvRun {s : State} {e : MqEntry} {d : Nat} {src : Nat} (hs : Memory.wf s.mem = true) :
    Memory.wf (maccvRun s e d src).mem = true := by
  unfold maccvRun
  grind -lia -ring -linarith [k_putEntryVec]

theorem k_mvtileRun {s : State} {e : MqEntry} {d : Nat} {src : Nat} (hs : Memory.wf s.mem = true) :
    Memory.wf (mvtileRun s e d src).mem = true := by
  unfold mvtileRun
  grind -lia -ring -linarith [k_State_setMat]


end Sys2Proof.Machine
end

