-- ==== Sys2Proof/Laws/Keep/Pinned.lean ====
section
/-! SUPPORT. Every operation of Machine/Pinned.lean keeps the canonical form of memory. -/

namespace Sys2Proof.Machine

theorem k_execMpin {o : BitVec 4} {g : PinShape} {rs1 : Reg} {s : State} {z : State} (h : execMpin o g rs1 s = .next z) (hs : Memory.wf s.mem = true) :
    Memory.wf z.mem = true := by
  unfold execMpin at h
  grind -lia -ring -linarith [k_postWord]

theorem k_execMunpin {o : BitVec 4} {s : State} {z : State} (h : execMunpin o s = .next z) (hs : Memory.wf s.mem = true) :
    Memory.wf z.mem = true := by
  unfold execMunpin at h
  grind -lia -ring -linarith [k_postWord]

theorem k_execMgdr {o : BitVec 4} {k : BitVec 5} {rs1 : Reg} {s : State} {z : State} (h : execMgdr o k rs1 s = .next z) (hs : Memory.wf s.mem = true) :
    Memory.wf z.mem = true := by
  unfold execMgdr at h
  grind -lia -ring -linarith [k_postWord]

theorem k_execMgdrq {o : BitVec 4} {k : BitVec 5} {rs1 : Reg} {d : BitVec 5} {s : State} {z : State} (h : execMgdrq o k rs1 d s = .next z) (hs : Memory.wf s.mem = true) :
    Memory.wf z.mem = true := by
  unfold execMgdrq at h
  grind -lia -ring -linarith [k_postWord]

theorem k_execMqry {o : BitVec 4} {q : BitVec 5} {d : BitVec 5} {s : State} {z : State} (h : execMqry o q d s = .next z) (hs : Memory.wf s.mem = true) :
    Memory.wf z.mem = true := by
  unfold execMqry at h
  grind -lia -ring -linarith [k_postWord]

theorem k_execMspill {o : BitVec 4} {s : State} {z : State} (h : execMspill o s = .next z) (hs : Memory.wf s.mem = true) :
    Memory.wf z.mem = true := by
  unfold execMspill at h
  grind -lia -ring -linarith [k_postWord]

theorem k_execMfill {o : BitVec 4} {rs1 : Reg} {s : State} {z : State} (h : execMfill o rs1 s = .next z) (hs : Memory.wf s.mem = true) :
    Memory.wf z.mem = true := by
  unfold execMfill at h
  grind -lia -ring -linarith [k_postWord]

theorem k_spillGroup {s : State} {h : Hart} {p : PinEntry} {r : State × PinEntry}
    (hr : spillGroup s h p = .ok r) (hs : Memory.wf s.mem = true) : Memory.wf r.1.mem = true := by
  unfold spillGroup at hr
  split at hr
  · cases hr
  · cases hr
    exact k_writeRows _ hs

theorem k_fillGroup {s : State} {h : Hart} {p : PinEntry} {gen : BitVec 16} {z : State} (h : fillGroup s h p gen = .ok z) (hs : Memory.wf s.mem = true) :
    Memory.wf z.mem = true := by
  unfold fillGroup at h
  grind -lia -ring -linarith [k_State_setMat, k_State_aotWrite]

theorem k_mpinRun {s : State} {e : MqEntry} {o : BitVec 4} {g : PinShape} {z : State} (h : mpinRun s e o g = .ok z) (hs : Memory.wf s.mem = true) :
    Memory.wf z.mem = true := by
  unfold mpinRun at h
  grind -lia -ring -linarith [k_State_setMat, k_State_aotWrite]

theorem k_munpinRun {s : State} {o : BitVec 4} {z : State} (h : munpinRun s o = .ok z) (hs : Memory.wf s.mem = true) :
    Memory.wf z.mem = true := by
  unfold munpinRun at h
  grind -lia -ring -linarith [k_State_aotClear, k_State_setMat]

theorem k_updateRun {s : State} {e : MqEntry} {p : PinEntry} {k : Nat} (hs : Memory.wf s.mem = true) :
    Memory.wf (updateRun s e p k).mem = true := by
  unfold updateRun
  grind -lia -ring -linarith [k_State_aotWrite, k_State_setH]

theorem k_queryRun {s : State} {h : Hart} {e : MqEntry} {p : PinEntry} {k : Nat} {o : Nat} {d : Nat} (hs : Memory.wf s.mem = true) :
    Memory.wf (queryRun s h e p k o d).mem = true := by
  unfold queryRun
  grind -lia -ring -linarith [k_putEntryVec]

theorem k_mgdrRun {s : State} {e : MqEntry} {o : BitVec 4} {k : Nat} {z : State} (h : mgdrRun s e o k = .ok z) (hs : Memory.wf s.mem = true) :
    Memory.wf z.mem = true := by
  unfold mgdrRun at h
  grind -lia -ring -linarith [k_updateRun]

theorem k_mgdrqRun {s : State} {e : MqEntry} {o : BitVec 4} {k : Nat} {d : Nat} {z : State} (h : mgdrqRun s e o k d = .ok z) (hs : Memory.wf s.mem = true) :
    Memory.wf z.mem = true := by
  unfold mgdrqRun at h
  grind -lia -ring -linarith [k_updateRun, k_queryRun]

theorem k_mqryRun {s : State} {e : MqEntry} {o : BitVec 4} {q : Nat} {d : Nat} {z : State} (h : mqryRun s e o q d = .ok z) (hs : Memory.wf s.mem = true) :
    Memory.wf z.mem = true := by
  unfold mqryRun at h
  grind -lia -ring -linarith [k_queryRun]

theorem k_mspillRun {s : State} {e : MqEntry} {o : BitVec 4} {z : State} (h : mspillRun s e o = .ok z)
    (hs : Memory.wf s.mem = true) : Memory.wf z.mem = true := by
  unfold mspillRun at h
  split at h
  · cases h
  · split at h
    · cases h
    · cases h
      exact k_State_aotWrite (k_State_setMat (k_spillGroup ‹_› hs))

theorem k_mfillRun {s : State} {e : MqEntry} {o : BitVec 4} {z : State} (h : mfillRun s e o = .ok z) (hs : Memory.wf s.mem = true) :
    Memory.wf z.mem = true := by
  unfold mfillRun at h
  grind -lia -ring -linarith [k_fillGroup]

theorem k_refill {s : State} {e : MqEntry} {p : PinEntry} {z : State} (h : refill s e p = .ok z) (hs : Memory.wf s.mem = true) :
    Memory.wf z.mem = true := by
  unfold refill at h
  grind -lia -ring -linarith [k_State_acquire, k_fillGroup]

theorem k_refillAll_ok {e : MqEntry} {i : Instr} : ∀ (n : Nat) {s t : State}, refillAll e i n s = .ok t →
    Memory.wf s.mem = true → Memory.wf t.mem = true
  | 0, _, _, h, hs => by cases h; exact hs
  | n + 1, s, t, h, hs => by
      unfold refillAll at h
      split at h
      · cases h; exact hs
      · split at h
        · cases h
        · exact k_refillAll_ok n h (k_refill ‹_› hs)

theorem k_refillAll {e : MqEntry} {i : Instr} : ∀ (n : Nat) {s t : State} {x : Stop},
    refillAll e i n s = .error (t, x) → Memory.wf s.mem = true → Memory.wf t.mem = true
  | 0, _, _, _, h, _ => by cases h
  | n + 1, s, t, x, h, hs => by
      unfold refillAll at h
      split at h
      · cases h
      · split at h
        · cases h; exact hs
        · exact k_refillAll n h (k_refill ‹_› hs)

theorem k_entryRun {s : State} {e : MqEntry} {i : Instr} {z : State} (h : entryRun s e i = .ok z) (hs : Memory.wf s.mem = true) :
    Memory.wf z.mem = true := by
  unfold entryRun at h
  grind -lia -ring -linarith [k_mldtRun, k_msttRun, k_mldaRun, k_mstaRun, k_mzeroRun, k_mmaRun, k_mmalRun, k_mmasRun, k_mma64Run, k_mcvtRun, k_maccvRun, k_mvtileRun, k_mpinRun, k_munpinRun, k_mgdrRun, k_mgdrqRun, k_mqryRun, k_mspillRun, k_mfillRun]

theorem k_stopQueue {s : State} {x : Stop} (hs : Memory.wf s.mem = true) :
    Memory.wf (stopQueue s x).mem = true := by
  unfold stopQueue
  grind -lia -ring -linarith [k_State_setMatFault]

theorem k_matrixEntry {s : State} {z : State} (h : matrixEntry s = some z) (hs : Memory.wf s.mem = true) :
    Memory.wf z.mem = true := by
  unfold matrixEntry at h
  grind -lia -ring -linarith [k_State_setMat, k_refillAll, k_entryRun, k_stopQueue, k_refillAll_ok]

theorem k_execMatrixEntryExecute {s : State} {z : State} (h : execMatrixEntryExecute s = .next z) (hs : Memory.wf s.mem = true) :
    Memory.wf z.mem = true := by
  unfold execMatrixEntryExecute at h
  grind -lia -ring -linarith [k_event, k_matrixEntry, k_raise, k_State_tickUp]

theorem k_pinnedRefillRun {o : BitVec 4} {s : State} {z : State} (h : pinnedRefillRun o s = some z) (hs : Memory.wf s.mem = true) :
    Memory.wf z.mem = true := by
  unfold pinnedRefillRun at h
  grind -lia -ring -linarith [k_refill, k_stopQueue]

theorem k_execPinnedRefill {o : BitVec 4} {s : State} {z : State} (h : execPinnedRefill o s = .next z) (hs : Memory.wf s.mem = true) :
    Memory.wf z.mem = true := by
  unfold execPinnedRefill at h
  grind -lia -ring -linarith [k_event, k_pinnedRefillRun, k_raise, k_State_tickUp]

theorem k_evictGroup {s : State} {k : Hart} {p : PinEntry} {z : State} (h : evictGroup s k p = .ok z)
    (hs : Memory.wf s.mem = true) : Memory.wf z.mem = true := by
  unfold evictGroup at h
  dsimp only at h
  split at h
  · cases h
  · rename_i s1 q hr
    cases h
    refine k_State_mapHarts (k_State_aotClear ?_)
    split at hr
    · exact k_spillGroup hr hs
    · cases hr; exact hs


end Sys2Proof.Machine
end

