-- ==== Sys2Proof/Laws/Keep/Evict.lean ====
section
/-! SUPPORT. Every operation of Machine/Evict.lean keeps the canonical form of memory. -/

namespace Sys2Proof.Machine

theorem k_writePieces {part area : Nat} : ∀ (l : List Piece) {s t : State}, writePieces part area l s = some t →
    Memory.wf s.mem = true → Memory.wf t.mem = true
  | [], _, _, h, hs => by cases h; exact hs
  | p :: l, s, t, h, hs => by
      unfold writePieces at h
      split at h
      · exact k_writePieces l h hs
      · split at h
        · cases h
        · split at h
          · cases h
          · exact k_writePieces l h (k_State_writePart ‹_› hs)

theorem k_patchHeader {k : Hart} {f : BitVec 32768 → BitVec 32768} {s : State} {z : State} (h : patchHeader k f s = some z) (hs : Memory.wf s.mem = true) :
    Memory.wf z.mem = true := by
  unfold patchHeader at h
  grind -lia -ring -linarith [k_State_writePart]

theorem k_evictSpad {s : State} {k : Hart} {z : State} (h : evictSpad s k = some z) (hs : Memory.wf s.mem = true) :
    Memory.wf z.mem = true := by
  unfold evictSpad at h
  grind -lia -ring -linarith [k_writePieces, k_patchHeader, k_State_mapHarts, Option.bind_eq_some_iff, Option.map_eq_some_iff]

theorem k_execScratchpadEvict {target : ContId} {s : State} {z : State} (h : execScratchpadEvict target s = .next z) (hs : Memory.wf s.mem = true) :
    Memory.wf z.mem = true := by
  unfold execScratchpadEvict at h
  grind -lia -ring -linarith [k_evictSpad, k_event, k_raise, k_State_tickUp, Option.bind_eq_some_iff, Option.map_eq_some_iff]

theorem k_spadIn {s : State} {k : Hart} {c : Nat} (hs : Memory.wf s.mem = true) :
    Memory.wf (spadIn s k c).mem = true := by
  have key : ∀ (f : MemSys → Nat → MemSys), (∀ m i, Memory.wf m = true → Memory.wf (f m i) = true) →
      ∀ (l : List Nat) (m : MemSys), Memory.wf m = true → Memory.wf (l.foldl f m) = true := by
    intro f hf l
    induction l with
    | nil => exact fun _ h => h
    | cons a l ih => exact fun m h => ih _ (hf m a h)
  unfold spadIn
  refine k_State_setMem (key _ (fun m i h => ?_) _ _ hs)
  simp only [wf_iff] at h ⊢
  exact ⟨h.1, writeLe_wf _ _ _ h.2.1, h.2.2⟩

theorem k_streamIn {s : State} {k : Hart} {z : State} (h : streamIn s k = some z) (hs : Memory.wf s.mem = true) :
    Memory.wf z.mem = true := by
  unfold streamIn at h
  grind -lia -ring -linarith [k_spadIn, k_State_mapHarts]

theorem k_execScratchpadStreamIn {target : ContId} {s : State} {z : State} (h : execScratchpadStreamIn target s = .next z) (hs : Memory.wf s.mem = true) :
    Memory.wf z.mem = true := by
  unfold execScratchpadStreamIn at h
  grind -lia -ring -linarith [k_streamIn, k_event, k_raise, k_State_tickUp, Option.bind_eq_some_iff, Option.map_eq_some_iff]

theorem k_execApertureRetry {s : State} {z : State} (h : execApertureRetry s = .next z) (hs : Memory.wf s.mem = true) :
    Memory.wf z.mem = true := by
  unfold execApertureRetry at h
  grind -lia -ring -linarith [k_event, k_raise, k_State_tickUp]

theorem k_patchPin {k : Hart} {o : BitVec 4} {s : State} {z : State} (h : patchPin k o s = some z) (hs : Memory.wf s.mem = true) :
    Memory.wf z.mem = true := by
  unfold patchPin at h
  grind -lia -ring -linarith [k_patchHeader]

theorem k_evictPin {k : Hart} {p : PinEntry} {s : State} {z : State} (h : evictPin k p s = some z) (hs : Memory.wf s.mem = true) :
    Memory.wf z.mem = true := by
  unfold evictPin at h
  grind -lia -ring -linarith [k_patchPin, k_evictGroup]

theorem k_pinnedEvictRun {target : ContId} {o : BitVec 4} {s : State} {z : State} (h : pinnedEvictRun target o s = some z) (hs : Memory.wf s.mem = true) :
    Memory.wf z.mem = true := by
  unfold pinnedEvictRun at h
  grind -lia -ring -linarith [k_evictPin]

theorem k_execPinnedEvict {target : ContId} {o : BitVec 4} {s : State} {z : State} (h : execPinnedEvict target o s = .next z) (hs : Memory.wf s.mem = true) :
    Memory.wf z.mem = true := by
  unfold execPinnedEvict at h
  grind -lia -ring -linarith [k_pinnedEvictRun, k_event, k_raise, k_State_tickUp]

/-- A fold that stops at the first failure keeps what every one of its steps keeps. -/
theorem foldl_bind_wf {α : Type} {f : α → State → Option State}
    (hf : ∀ a s t, f a s = some t → Memory.wf s.mem = true → Memory.wf t.mem = true) :
    ∀ (l : List α) {r : Option State} {t : State},
      l.foldl (fun (t : Option State) a => t.bind (f a)) r = some t →
        (∀ s, r = some s → Memory.wf s.mem = true) → Memory.wf t.mem = true
  | [], _, _, h, hr => hr _ h
  | a :: l, r, t, h, hr => by
      refine foldl_bind_wf hf l h (fun s hs => ?_)
      obtain ⟨u, h1, h2⟩ := Option.bind_eq_some_iff.1 hs
      exact hf a u s h2 (hr u h1)

theorem k_vacateOne {c slo sn alo an : Nat} {s : State} {k : Hart} {z : State}
    (h : vacateOne c slo sn alo an s k = some z) (hs : Memory.wf s.mem = true) : Memory.wf z.mem = true := by
  have h1 : ∀ t, (pinsOn k c alo an).foldl (fun (t : Option State) p => t.bind (evictPin k p)) (some s) = some t →
      Memory.wf t.mem = true := fun t ht =>
    foldl_bind_wf (fun _ _ _ h hs => k_evictPin h hs) _ ht (fun _ h => by cases h; exact hs)
  unfold vacateOne at h
  dsimp only at h
  split at h
  · obtain ⟨u, hu, h2⟩ := Option.bind_eq_some_iff.1 h
    exact k_evictSpad h2 (h1 u hu)
  · exact h1 z h

theorem k_vacate {s : State} {c slo sn alo an : Nat} {own : Hart → Bool} {z : State}
    (h : vacate s c slo sn alo an own = some z) (hs : Memory.wf s.mem = true) : Memory.wf z.mem = true :=
  foldl_bind_wf (f := fun k u => vacateOne c slo sn alo an u k) (fun _ _ _ h hs => k_vacateOne h hs) _ h
    (fun _ h => by cases h; exact hs)


end Sys2Proof.Machine
end

