-- ==== Sys2Proof/Laws/Keep/Sched.lean ====
section
/-! SUPPORT. Every operation of Machine/Sched.lean keeps the canonical form of memory. -/

namespace Sys2Proof.Machine

theorem k_signalStore {s : State} {part : Nat} {satp : Word} {q : Nat} {pktix : Word} {tag : BitVec 32} {va : Word} {v : Word} (hs : Memory.wf s.mem = true) :
    Memory.wf (signalStore s part satp q pktix tag va v).mem = true := by
  unfold signalStore
  grind -lia -ring -linarith [k_State_writePa, k_State_postReport]

theorem k_malform {s : State} {q : Nat} {x : Nat} {b : Bad} (hs : Memory.wf s.mem = true) :
    Memory.wf (malform s q x b).mem = true := by
  unfold malform
  grind -lia -ring -linarith [k_State_qSetState, k_State_updQs, k_State_reportQueue]

theorem k_advanceQ {s : State} {q : Nat} (hs : Memory.wf s.mem = true) :
    Memory.wf (advanceQ s q).mem = true := by
  unfold advanceQ
  grind -lia -ring -linarith [k_State_qSetRdix, k_State_updQs]

theorem k_latchQ {s : State} {q : Nat} {x : Nat} (hs : Memory.wf s.mem = true) :
    Memory.wf (latchQ s q x).mem = true := by
  unfold latchQ
  grind -lia -ring -linarith [k_State_updQs]

theorem k_packetEvent {ty : Nat} {body : State → Nat → Nat → Start} {s : State} {q : Nat} {z : State}
    (h : packetEvent ty body s q = some z) (hs : Memory.wf s.mem = true) :
    Memory.wf z.mem = true ∨ ∃ x, body s q x = .go z := by
  unfold packetEvent at h
  grind -lia -ring -linarith [k_malform]

theorem k_startJob {s : State} {q : Nat} {x : Nat} {z : State} (h : startJob s q x = .go z) (hs : Memory.wf s.mem = true) :
    Memory.wf z.mem = true := by
  unfold startJob at h
  grind -lia -ring -linarith [k_advanceQ]

theorem k_execDispatch {q : QNum} {s : State} {z : State} (h : execDispatch q s = .next z) (hs : Memory.wf s.mem = true) :
    Memory.wf z.mem = true := by
  unfold execDispatch at h
  grind -lia -ring -linarith [k_event, k_packetEvent, k_startJob, k_raise, k_State_tickUp]

theorem k_execStreamjob {q : QNum} {s : State} {z : State} (h : execStreamjob q s = .next z) (hs : Memory.wf s.mem = true) :
    Memory.wf z.mem = true := by
  unfold execStreamjob at h
  grind -lia -ring -linarith [k_event, k_packetEvent, k_startJob, k_raise, k_State_tickUp]

theorem k_startWaitsig {s : State} {q : Nat} {x : Nat} {z : State} (h : startWaitsig s q x = .go z) (hs : Memory.wf s.mem = true) :
    Memory.wf z.mem = true := by
  unfold startWaitsig at h
  grind -lia -ring -linarith [k_advanceQ, k_latchQ]

theorem k_execWaitsig {q : QNum} {s : State} {z : State} (h : execWaitsig q s = .next z) (hs : Memory.wf s.mem = true) :
    Memory.wf z.mem = true := by
  unfold execWaitsig at h
  grind -lia -ring -linarith [k_event, k_packetEvent, k_startWaitsig, k_raise, k_State_tickUp]

theorem k_startSetsig {s : State} {q : Nat} {x : Nat} {z : State} (h : startSetsig s q x = .go z) (hs : Memory.wf s.mem = true) :
    Memory.wf z.mem = true := by
  unfold startSetsig at h
  grind -lia -ring -linarith [k_signalStore, k_advanceQ]

theorem k_execSetsig {q : QNum} {s : State} {z : State} (h : execSetsig q s = .next z) (hs : Memory.wf s.mem = true) :
    Memory.wf z.mem = true := by
  unfold execSetsig at h
  grind -lia -ring -linarith [k_event, k_packetEvent, k_startSetsig, k_raise, k_State_tickUp]

theorem k_startIndirect {s : State} {q : Nat} {x : Nat} {z : State} (h : startIndirect s q x = .go z) (hs : Memory.wf s.mem = true) :
    Memory.wf z.mem = true := by
  unfold startIndirect at h
  grind -lia -ring -linarith [k_State_updQs]

theorem k_execIndirect {q : QNum} {s : State} {z : State} (h : execIndirect q s = .next z) (hs : Memory.wf s.mem = true) :
    Memory.wf z.mem = true := by
  unfold execIndirect at h
  grind -lia -ring -linarith [k_event, k_packetEvent, k_startIndirect, k_raise, k_State_tickUp]

theorem k_startCopy {s : State} {q : Nat} {x : Nat} {z : State} (h : startCopy s q x = .go z) (hs : Memory.wf s.mem = true) :
    Memory.wf z.mem = true := by
  unfold startCopy at h
  grind -lia -ring -linarith [k_doKick, k_State_writePa, k_advanceQ]

theorem k_execCopy {q : QNum} {s : State} {z : State} (h : execCopy q s = .next z) (hs : Memory.wf s.mem = true) :
    Memory.wf z.mem = true := by
  unfold execCopy at h
  grind -lia -ring -linarith [k_event, k_packetEvent, k_startCopy, k_raise, k_State_tickUp]

theorem k_copyDone {s : State} {q : Nat} {pktix : Word} {z : State} (h : copyDone s q pktix = some z) (hs : Memory.wf s.mem = true) :
    Memory.wf z.mem = true := by
  unfold copyDone at h
  grind -lia -ring -linarith []

theorem k_execCopyComplete {q : QNum} {pktix : Word} {s : State} {z : State} (h : execCopyComplete q pktix s = .next z) (hs : Memory.wf s.mem = true) :
    Memory.wf z.mem = true := by
  unfold execCopyComplete at h
  grind -lia -ring -linarith [k_event, k_copyDone, k_raise, k_State_tickUp]

theorem k_killGang {s : State} {g : Gang} (hs : Memory.wf s.mem = true) : Memory.wf (killGang s g).mem = true := by
  unfold killGang
  have h := foldl_mem_wf (f := fun st h => (st.releasePins h).dropFrags h.id.part h.id.tag)
    (fun _ _ h => k_State_dropFrags (k_State_releasePins h))
    (s.harts.filter (fun h => decide (h.id.gang = some g.gid) && decide (h.run ≠ .empty))) hs
  exact h

theorem k_killQueue {s : State} {q : Nat} (hs : Memory.wf s.mem = true) : Memory.wf (killQueue s q).mem = true :=
  foldl_mem_wf (fun _ _ h => k_killGang h) _ hs

theorem k_cutJobs {s : State} {q : Nat} {p : Job → Bool} (hs : Memory.wf s.mem = true) :
    Memory.wf (cutJobs s q p).mem = true := by
  unfold cutJobs
  grind -lia -ring -linarith [Option.bind_eq_some_iff, Option.map_eq_some_iff]

theorem k_cutDraws {s : State} {q : Nat} (hs : Memory.wf s.mem = true) :
    Memory.wf (cutDraws s q).mem = true := by
  unfold cutDraws
  grind -lia -ring -linarith [Option.bind_eq_some_iff, Option.map_eq_some_iff]

theorem k_discardRest {s : State} {q : Nat} (hs : Memory.wf s.mem = true) :
    Memory.wf (discardRest s q).mem = true := by
  unfold discardRest
  grind -lia -ring -linarith [k_State_qSetRdix, k_State_updQs]

theorem zeroGrant_wf {m : MemSys} {a n : Nat} (h : Memory.wf m = true) : Memory.wf (zeroGrant m a n) = true := by
  simp only [wf_iff] at h ⊢
  exact ⟨h.1, filter_wf _ h.2.1, h.2.2⟩

theorem k_resetContext {s : State} {h : Hart} (hs : Memory.wf s.mem = true) :
    Memory.wf (resetContext s h).mem = true := by
  have key : ∀ (x : State) (p a n v : Nat), Memory.wf x.mem = true →
      Memory.wf ((x.writePart p a n v).getD x).mem = true := by
    intro x p a n v hx
    cases hw : x.writePart p a n v with
    | none => exact hx
    | some y => exact k_State_writePart hw hx
  unfold resetContext
  refine key _ _ _ _ _ ?_
  split
  · exact k_State_releasePins hs
  · exact k_State_setMem (zeroGrant_wf (k_State_releasePins hs))

theorem k_resetPart {s : State} {p : Nat} (hs : Memory.wf s.mem = true) : Memory.wf (resetPart s p).mem = true := by
  unfold resetPart
  have h1 : ∀ l : List Hart, Memory.wf (l.foldl resetContext s).mem = true :=
    fun l => foldl_mem_wf (fun _ _ h => k_resetContext h) l hs
  refine foldl_mem_wf (fun t k h => k_State_qSetState (k_discardRest h)) _ ?_
  exact h1 _

theorem k_ctlEffect {s : State} {q : Nat} {x : Nat} (hs : Memory.wf s.mem = true) :
    Memory.wf (ctlEffect s q x).mem = true := by
  unfold ctlEffect
  grind -lia -ring -linarith [k_State_qSetState, k_State_qSetWd, k_killQueue, k_cutJobs, k_cutDraws, k_discardRest, k_resetPart]

theorem k_ctlFinish {s : State} {q : Nat} {pktix : Word} {x : Nat} (hs : Memory.wf s.mem = true) :
    Memory.wf (ctlFinish s q pktix x).mem = true := by
  unfold ctlFinish
  grind -lia -ring -linarith [k_State_qSetState, k_signalStore]

theorem k_flushCtl {q : Nat} : ∀ (l : List (Word × BitVec 512)) {s : State}, Memory.wf s.mem = true →
    Memory.wf (flushCtl s q l).mem = true
  | [], _, hs => hs
  | (_, _) :: l, s, hs => by
      unfold flushCtl
      dsimp only
      split
      · exact k_flushCtl l (k_ctlFinish hs)
      · exact hs

theorem k_startCtl {mode : Nat} {s : State} {q : Nat} {x : Nat} {z : State} (h : startCtl mode s q x = .go z) (hs : Memory.wf s.mem = true) :
    Memory.wf z.mem = true := by
  unfold startCtl at h
  grind -lia -ring -linarith [k_advanceQ, k_ctlEffect, k_flushCtl]

theorem k_ctlComplete {ty : Nat} {s : State} {q : Nat} {z : State} (h : ctlComplete ty s q = some z) (hs : Memory.wf s.mem = true) :
    Memory.wf z.mem = true := by
  unfold ctlComplete at h
  grind -lia -ring -linarith [k_ctlFinish, k_flushCtl]

theorem k_execDrainMode0 {q : QNum} {s : State} {z : State} (h : execDrainMode0 q s = .next z) (hs : Memory.wf s.mem = true) :
    Memory.wf z.mem = true := by
  unfold execDrainMode0 at h
  grind -lia -ring -linarith [k_event, k_packetEvent, k_startCtl, k_raise, k_State_tickUp]

theorem k_execDrainMode1 {q : QNum} {s : State} {z : State} (h : execDrainMode1 q s = .next z) (hs : Memory.wf s.mem = true) :
    Memory.wf z.mem = true := by
  unfold execDrainMode1 at h
  grind -lia -ring -linarith [k_event, k_packetEvent, k_startCtl, k_raise, k_State_tickUp]

theorem k_execDrainMode2 {q : QNum} {s : State} {z : State} (h : execDrainMode2 q s = .next z) (hs : Memory.wf s.mem = true) :
    Memory.wf z.mem = true := by
  unfold execDrainMode2 at h
  grind -lia -ring -linarith [k_event, k_packetEvent, k_startCtl, k_raise, k_State_tickUp]

theorem k_execDrainComplete {q : QNum} {s : State} {z : State} (h : execDrainComplete q s = .next z) (hs : Memory.wf s.mem = true) :
    Memory.wf z.mem = true := by
  unfold execDrainComplete at h
  grind -lia -ring -linarith [k_event, k_ctlComplete, k_raise, k_State_tickUp]

theorem k_execDestroyMode0 {q : QNum} {s : State} {z : State} (h : execDestroyMode0 q s = .next z) (hs : Memory.wf s.mem = true) :
    Memory.wf z.mem = true := by
  unfold execDestroyMode0 at h
  grind -lia -ring -linarith [k_event, k_packetEvent, k_startCtl, k_raise, k_State_tickUp]

theorem k_execDestroyMode1 {q : QNum} {s : State} {z : State} (h : execDestroyMode1 q s = .next z) (hs : Memory.wf s.mem = true) :
    Memory.wf z.mem = true := by
  unfold execDestroyMode1 at h
  grind -lia -ring -linarith [k_event, k_packetEvent, k_startCtl, k_raise, k_State_tickUp]

theorem k_execDestroyComplete {q : QNum} {s : State} {z : State} (h : execDestroyComplete q s = .next z) (hs : Memory.wf s.mem = true) :
    Memory.wf z.mem = true := by
  unfold execDestroyComplete at h
  grind -lia -ring -linarith [k_event, k_ctlComplete, k_raise, k_State_tickUp]

theorem k_execResetpart {q : QNum} {s : State} {z : State} (h : execResetpart q s = .next z) (hs : Memory.wf s.mem = true) :
    Memory.wf z.mem = true := by
  unfold execResetpart at h
  grind -lia -ring -linarith [k_event, k_packetEvent, k_startCtl, k_raise, k_State_tickUp]

theorem k_execTimerset {q : QNum} {s : State} {z : State} (h : execTimerset q s = .next z) (hs : Memory.wf s.mem = true) :
    Memory.wf z.mem = true := by
  unfold execTimerset at h
  grind -lia -ring -linarith [k_event, k_packetEvent, k_startCtl, k_raise, k_State_tickUp]

theorem k_setPointer {s : State} {p : Nat} {prio : Nat} {q : Nat} (hs : Memory.wf s.mem = true) :
    Memory.wf (setPointer s p prio q).mem = true := by
  unfold setPointer
  grind -lia -ring -linarith []

theorem k_skipQueue {s : State} {q : Nat} {dies : List (Nat × Nat)} (hs : Memory.wf s.mem = true) :
    Memory.wf (skipQueue s q dies).mem = true := by
  unfold skipQueue
  grind -lia -ring -linarith [k_State_updQs]

theorem k_pickQueue {s : State} {p : Nat} {prio : Nat} {q : Nat} (hs : Memory.wf s.mem = true) :
    Memory.wf (pickQueue s p prio q).mem = true := by
  unfold pickQueue
  grind -lia -ring -linarith [k_State_updQs, k_latchQ, k_setPointer]

theorem k_pickFrom {p prio : Nat} {spread : List (QNum × DieNo × BitVec 32)} :
    ∀ (l : List Nat) {s : State}, Memory.wf s.mem = true → Memory.wf (pickFrom p prio spread l s).mem = true
  | [], _, hs => hs
  | q :: l, s, hs => by
      unfold pickFrom
      split
      · exact k_pickQueue hs
      · exact k_pickFrom l (k_skipQueue hs)

theorem k_pickRun {p : Nat} {spread : List (QNum × DieNo × BitVec 32)} {s z : State}
    (h : pickRun p spread s = some z) (hs : Memory.wf s.mem = true) : Memory.wf z.mem = true := by
  unfold pickRun at h
  dsimp only at h
  split at h
  · cases h
  · generalize List.filter _ _ ++ List.filter _ _ = l at h
    generalize List.foldl _ _ _ = n at h
    injection h with h
    rw [← h]
    exact k_pickFrom l hs

theorem k_execJobPick {part : BitVec 7} {spread : List (QNum × DieNo × BitVec 32)} {s : State} {z : State} (h : execJobPick part spread s = .next z) (hs : Memory.wf s.mem = true) :
    Memory.wf z.mem = true := by
  unfold execJobPick at h
  grind -lia -ring -linarith [k_event, k_pickRun, k_raise, k_State_tickUp]

theorem k_pickReserved {s : State} {d : Nat} {r : QueueState} (hs : Memory.wf s.mem = true) :
    Memory.wf (pickReserved s d r).mem = true := by
  unfold pickReserved
  grind -lia -ring -linarith [k_State_updQs, k_latchQ]

theorem k_windowStart {s : State} {d : Nat} (hs : Memory.wf s.mem = true) : Memory.wf (windowStart s d).mem = true :=
  foldl_mem_wf (fun _ _ h => k_pickReserved h) _ (k_State_devSet hs)

theorem k_execEnergyWindowStart {die : DieNo} {s : State} {z : State} (h : execEnergyWindowStart die s = .next z) (hs : Memory.wf s.mem = true) :
    Memory.wf z.mem = true := by
  unfold execEnergyWindowStart at h
  grind -lia -ring -linarith [k_event, k_windowStart, k_raise, k_State_tickUp]

theorem k_elapse {s : State} {us : Nat} (hs : Memory.wf s.mem = true) : Memory.wf (elapse s us).mem = true := by
  unfold elapse
  exact foldl_mem_wf (fun _ _ h => k_State_devSet (k_State_devSet h)) _ hs

theorem k_execClockChange {die : DieNo} {mhz : BitVec 12} {s : State} {z : State} (h : execClockChange die mhz s = .next z) (hs : Memory.wf s.mem = true) :
    Memory.wf z.mem = true := by
  unfold execClockChange at h
  grind -lia -ring -linarith [k_State_devSet, k_event, k_raise, k_State_tickUp]

theorem k_createGang {s : State} {sp : Spawn} (hs : Memory.wf s.mem = true) :
    Memory.wf (createGang s sp).mem = true := by
  have key : ∀ (f : State → Nat → State), (∀ t m, (f t m).mem = t.mem) → ∀ (l : List Nat) (t : State),
      (l.foldl f t).mem = t.mem := by
    intro f hf l
    induction l with
    | nil => exact fun _ => rfl
    | cons a l ih => exact fun t => (ih _).trans (hf t a)
  have h := key (fun t m => { t with others := t.others ++ [newContext t sp s.sched.nextGang sp.kernel.gang m] })
    (fun _ _ => rfl) (List.range sp.kernel.gang) s
  unfold createGang
  rw [← h] at hs
  exact hs

theorem k_State_setShape {s : State} {c : Nat} {n : Nat} (hs : Memory.wf s.mem = true) :
    Memory.wf (State.setShape s c n).mem = true := by
  unfold State.setShape
  grind -lia -ring -linarith []

theorem k_supervisorShape {s : State} {c : Nat} {n : Nat} (hs : Memory.wf s.mem = true) :
    Memory.wf (supervisorShape s c n).mem = true := by
  unfold supervisorShape
  grind -lia -ring -linarith [k_State_setShape]

theorem k_placeMember {s : State} {gid m : Nat} {p : Place} {z : State} (h : placeMember s gid m p = some z)
    (hs : Memory.wf s.mem = true) : Memory.wf z.mem = true := by
  unfold placeMember at h
  dsimp only at h
  split at h
  · cases h; exact hs
  · split at h
    · cases h
    · cases h
      exact zeroGrant_wf (k_vacate ‹_› hs)

theorem k_placeGang {gid part shape : Nat} : ∀ (l : List Place) {m : Nat} {s t : State},
    placeGang gid part shape l m s = some t → Memory.wf s.mem = true → Memory.wf t.mem = true
  | [], _, _, _, h, hs => by cases h; exact hs
  | p :: l, m, s, t, h, hs => by
      unfold placeGang at h
      split at h
      · obtain ⟨u, h1, h2⟩ := Option.bind_eq_some_iff.1 h
        exact k_placeGang l h2 (k_placeMember h1 hs)
      · cases h

theorem k_launchGang {s : State} {sp : Spawn} {places : List Place} {z : State} (h : launchGang s sp places = some z) (hs : Memory.wf s.mem = true) :
    Memory.wf z.mem = true := by
  unfold launchGang at h
  grind -lia -ring -linarith [k_createGang, k_placeGang]

theorem k_State_updJob {s : State} {j : Nat} {f : Job → Job} (hs : Memory.wf s.mem = true) :
    Memory.wf (State.updJob s j f).mem = true := by
  unfold State.updJob
  grind -lia -ring -linarith [Option.bind_eq_some_iff, Option.map_eq_some_iff]

theorem k_placeGangs {j : Job} : ∀ (l : List Nat) {ps : List Place} {s t : State},
    placeGangs j l ps s = some t → Memory.wf s.mem = true → Memory.wf t.mem = true
  | [], _, _, _, h, hs => by cases h; exact hs
  | i :: l, ps, s, t, h, hs => by
      unfold placeGangs at h
      split at h
      · cases h
      · exact k_placeGangs l h (k_State_updJob (k_launchGang ‹_› hs))

theorem k_gangPlaceRun {job : Nat} {gang : Nat} {places : List Place} {s : State} {z : State} (h : gangPlaceRun job gang places s = some z) (hs : Memory.wf s.mem = true) :
    Memory.wf z.mem = true := by
  unfold gangPlaceRun at h
  grind -lia -ring -linarith [k_placeGangs]

theorem k_execGangPlace {job : BitVec 32} {gang : BitVec 32} {places : List Place} {s : State} {z : State} (h : execGangPlace job gang places s = .next z) (hs : Memory.wf s.mem = true) :
    Memory.wf z.mem = true := by
  unfold execGangPlace at h
  grind -lia -ring -linarith [k_event, k_gangPlaceRun, k_raise, k_State_tickUp]

theorem k_createJobGang {s : State} {job : Nat} {gang : Nat} (hs : Memory.wf s.mem = true) :
    Memory.wf (createJobGang s job gang).mem = true := by
  unfold createJobGang
  grind -lia -ring -linarith [k_createGang]

theorem k_jobFinish {s : State} {j : Job} (hs : Memory.wf s.mem = true) : Memory.wf (jobFinish s j).mem = true := by
  have key : ∀ (l : List Gang) (x : State), Memory.wf x.mem = true → Memory.wf (l.foldl killGang x).mem = true :=
    fun l x h => foldl_mem_wf (fun _ _ h => k_killGang h) l h
  unfold jobFinish
  dsimp only
  split
  · exact key _ _ hs
  · refine k_signalStore (key _ _ ?_)
    exact hs

theorem k_jobCompleteRun {job : Nat} {s : State} {z : State} (h : jobCompleteRun job s = some z) (hs : Memory.wf s.mem = true) :
    Memory.wf z.mem = true := by
  unfold jobCompleteRun at h
  grind -lia -ring -linarith [k_jobFinish]

theorem k_execJobComplete {job : BitVec 32} {s : State} {z : State} (h : execJobComplete job s = .next z) (hs : Memory.wf s.mem = true) :
    Memory.wf z.mem = true := by
  unfold execJobComplete at h
  grind -lia -ring -linarith [k_event, k_jobCompleteRun, k_raise, k_State_tickUp]

theorem k_execReportWrite {q : QNum} {s : State} {z : State} (h : execReportWrite q s = .next z) (hs : Memory.wf s.mem = true) :
    Memory.wf z.mem = true := by
  unfold execReportWrite at h
  grind -lia -ring -linarith [k_event, k_reportTry, k_raise, k_State_tickUp]

theorem k_wdReport {s : State} {q : Nat} {pktix : Word} {tag : BitVec 32} {start : Nat} {retired : Nat} (hs : Memory.wf s.mem = true) :
    Memory.wf (wdReport s q pktix tag start retired).mem = true := by
  unfold wdReport
  grind -lia -ring -linarith [k_State_postReport]

theorem k_watchdogRun {q : Nat} {pktix : Word} {s : State} {z : State} (h : watchdogRun q pktix s = some z) (hs : Memory.wf s.mem = true) :
    Memory.wf z.mem = true := by
  unfold watchdogRun at h
  grind -lia -ring -linarith [k_State_updQs, k_State_updJob, k_wdReport, Option.bind_eq_some_iff, Option.map_eq_some_iff]

theorem k_execWatchdogExpiry {q : QNum} {pktix : Word} {s : State} {z : State} (h : execWatchdogExpiry q pktix s = .next z) (hs : Memory.wf s.mem = true) :
    Memory.wf z.mem = true := by
  unfold execWatchdogExpiry at h
  grind -lia -ring -linarith [k_event, k_watchdogRun, k_raise, k_State_tickUp]

theorem k_queueCreateRun {q : Nat} {d : List Word} {s : State} (hs : Memory.wf s.mem = true) :
    Memory.wf (queueCreateRun q d s).mem = true := by
  unfold queueCreateRun
  grind -lia -ring -linarith [k_State_qSet, k_State_setQs]

theorem k_queueFreeRun {q : Nat} {s : State} (hs : Memory.wf s.mem = true) :
    Memory.wf (queueFreeRun q s).mem = true := by
  unfold queueFreeRun
  grind -lia -ring -linarith [k_State_qSetState]

theorem k_execQueueCreate {q : QNum} {create : Bool} {desc : List Word} {s : State} {z : State} (h : execQueueCreate q create desc s = .next z) (hs : Memory.wf s.mem = true) :
    Memory.wf z.mem = true := by
  unfold execQueueCreate at h
  grind -lia -ring -linarith [k_queueCreateRun, k_queueFreeRun]

theorem k_execNotify {q : QNum} {v : Word} {s : State} {z : State} (h : execNotify q v s = .next z) (hs : Memory.wf s.mem = true) :
    Memory.wf z.mem = true := by
  unfold execNotify at h
  grind -lia -ring -linarith [k_event, k_doNotify, k_raise, k_State_tickUp]

theorem k_execReportQueueNotify {q : QNum} {v : Word} {s : State} {z : State} (h : execReportQueueNotify q v s = .next z) (hs : Memory.wf s.mem = true) :
    Memory.wf z.mem = true := by
  unfold execReportQueueNotify at h
  grind -lia -ring -linarith [k_event, k_doNotify, k_raise, k_State_tickUp]

theorem k_grantCluster {s : State} {p : Nat} {n : Nat} (hs : Memory.wf s.mem = true) :
    Memory.wf (grantCluster s p n).mem = true := by
  unfold grantCluster
  grind -lia -ring -linarith []

theorem k_grantEngine {s : State} {p : Nat} {n : Nat} (hs : Memory.wf s.mem = true) :
    Memory.wf (grantEngine s p n).mem = true := by
  unfold grantEngine
  grind -lia -ring -linarith []

theorem k_grantRender {s : State} {p : Nat} {n : Nat} (hs : Memory.wf s.mem = true) :
    Memory.wf (grantRender s p n).mem = true := by
  unfold grantRender
  grind -lia -ring -linarith []

theorem k_setRuntime {s : State} {p : Nat} {exit : Word} {trap : Word} (hs : Memory.wf s.mem = true) :
    Memory.wf (setRuntime s p exit trap).mem = true := by
  unfold setRuntime
  grind -lia -ring -linarith []


end Sys2Proof.Machine
end

