-- ==== Sys2Proof/Laws/Keep/Tex.lean ====
section
/-! SUPPORT. Every operation of Machine/Tex.lean keeps the canonical form of memory. -/

namespace Sys2Proof.Machine

theorem k_groupTails {v : VEnv} {ds : List OLoc} {s : State} (hs : Memory.wf s.mem = true) :
    Memory.wf (groupTails v ds s).mem = true := by
  unfold groupTails
  split
  · exact hs
  · exact foldl_mem_wf (fun t d h => k_putTail h) _ hs

theorem k_putGroups {s : State} {v : VEnv} {ds : List OLoc} {msk : Msk} {q : Nat} {es : List Nat}
    {val : Nat → Nat → Nat} {pois : Nat → Bool} (hs : Memory.wf s.mem = true) :
    Memory.wf (putGroups s v ds msk q es val pois).mem = true :=
  foldl_mem_wf (fun _ _ h => k_putGroup h) _ hs

theorem texSlice_keeps {r : TexRun} {nd cg : Nat} {work : TexRun → Hart → Nat → TexWork} :
    SliceKeeps (texSlice r nd cg work) := by
  intro s j q n t h hs
  unfold texSlice at h
  dsimp only at h
  split at h
  · cases h
  · cases h; exact k_putGroups hs

theorem raySlice_keeps {v : VEnv} {o : VOp} {sh : RayShape} {base : Word} : SliceKeeps (raySlice v o sh base) := by
  intro s j q n t h hs
  unfold raySlice at h
  dsimp only at h
  split at h
  · cases h
  · cases h; exact k_putGroups hs

theorem k_texExec {i : Instr} {o : VOp} {sh : TexShape} {work : TexRun → Hart → Nat → TexWork} {s t : State}
    (h : texExec i o sh work s = .next t) (hs : Memory.wf s.mem = true) : Memory.wf t.mem = true := by
  unfold texExec at h
  obtain ⟨b, bs, -, (⟨e, -, rfl⟩ | ⟨-, rfl⟩)⟩ := k_blockWord h
  · exact k_raiseV hs
  · dsimp only
    split
    · exact hs
    · refine k_laneWord ?_ (fun _ h => k_groupTails h) hs
      exact texSlice_keeps

theorem k_execVtexs {o : VOp} {s : State} {z : State} (h : execVtexs o s = .next z) (hs : Memory.wf s.mem = true) :
    Memory.wf z.mem = true := by
  unfold execVtexs at h
  grind -lia -ring -linarith [k_texExec]

theorem k_execVtexl {o : VOp} {s : State} {z : State} (h : execVtexl o s = .next z) (hs : Memory.wf s.mem = true) :
    Memory.wf z.mem = true := by
  unfold execVtexl at h
  grind -lia -ring -linarith [k_texExec]

theorem k_execVtexd {o : VOp} {s : State} {z : State} (h : execVtexd o s = .next z) (hs : Memory.wf s.mem = true) :
    Memory.wf z.mem = true := by
  unfold execVtexd at h
  grind -lia -ring -linarith [k_texExec]

theorem k_execVtexf {o : VOp} {s : State} {z : State} (h : execVtexf o s = .next z) (hs : Memory.wf s.mem = true) :
    Memory.wf z.mem = true := by
  unfold execVtexf at h
  grind -lia -ring -linarith [k_texExec]

theorem k_execVtexg4 {ch : BitVec 2} {o : VOp} {s : State} {z : State} (h : execVtexg4 ch o s = .next z) (hs : Memory.wf s.mem = true) :
    Memory.wf z.mem = true := by
  unfold execVtexg4 at h
  grind -lia -ring -linarith [k_texExec]

theorem k_execVtexq {op : TexqOp} {o : VOp} {s : State} {z : State} (h : execVtexq op o s = .next z) (hs : Memory.wf s.mem = true) :
    Memory.wf z.mem = true := by
  unfold execVtexq at h
  grind -lia -ring -linarith [k_texExec]

theorem k_rayExec {i : Instr} {o : VOp} {sh : RayShape} {s t : State} (h : rayExec i o sh s = .next t)
    (hs : Memory.wf s.mem = true) : Memory.wf t.mem = true := by
  unfold rayExec at h
  obtain ⟨b, bs, -, (⟨e, -, rfl⟩ | ⟨-, rfl⟩)⟩ := k_blockWord h
  · exact k_raiseV hs
  · refine k_laneWord ?_ (fun _ h => k_groupTails h) hs
    exact raySlice_keeps

theorem k_execVrqbox {o : VOp} {s : State} {z : State} (h : execVrqbox o s = .next z) (hs : Memory.wf s.mem = true) :
    Memory.wf z.mem = true := by
  unfold execVrqbox at h
  grind -lia -ring -linarith [k_rayExec]

theorem k_execVrqtri {op : TriCull} {o : VOp} {s : State} {z : State} (h : execVrqtri op o s = .next z) (hs : Memory.wf s.mem = true) :
    Memory.wf z.mem = true := by
  unfold execVrqtri at h
  grind -lia -ring -linarith [k_rayExec, Option.bind_eq_some_iff, Option.map_eq_some_iff]


end Sys2Proof.Machine
end

