-- ==== Sys2Proof/Laws/Keep/Raster.lean ====
section
/-! SUPPORT. Every operation of Machine/Raster.lean keeps the canonical form of memory. -/

namespace Sys2Proof.Machine

theorem k_State_updGfx {s : State} {d : Nat} {c : Nat} {f : RenderCtx → RenderCtx} (hs : Memory.wf s.mem = true) :
    Memory.wf (State.updGfx s d c f).mem = true := by
  unfold State.updGfx
  grind -lia -ring -linarith [Option.bind_eq_some_iff, Option.map_eq_some_iff]

theorem k_State_updPass {s : State} {q : Nat} {f : RenderCtx → RenderCtx} (hs : Memory.wf s.mem = true) :
    Memory.wf (State.updPass s q f).mem = true := by
  unfold State.updPass
  grind -lia -ring -linarith [Option.bind_eq_some_iff, Option.map_eq_some_iff]

theorem k_startBegin {s : State} {q : Nat} {x : Nat} {z : State} (h : startBegin s q x = .go z) (hs : Memory.wf s.mem = true) :
    Memory.wf z.mem = true := by
  unfold startBegin at h
  grind -lia -ring -linarith [k_advanceQ, Option.bind_eq_some_iff, Option.map_eq_some_iff]

theorem k_execBeginpass {q : QNum} {s : State} {z : State} (h : execBeginpass q s = .next z) (hs : Memory.wf s.mem = true) :
    Memory.wf z.mem = true := by
  unfold execBeginpass at h
  grind -lia -ring -linarith [k_event, k_startBegin, k_packetEvent, k_raise, k_State_tickUp]

theorem k_startState {s : State} {q : Nat} {x : Nat} {z : State} (h : startState s q x = .go z) (hs : Memory.wf s.mem = true) :
    Memory.wf z.mem = true := by
  unfold startState at h
  grind -lia -ring -linarith [k_State_updPass, k_advanceQ]

theorem k_execState {q : QNum} {s : State} {z : State} (h : execState q s = .next z) (hs : Memory.wf s.mem = true) :
    Memory.wf z.mem = true := by
  unfold execState at h
  grind -lia -ring -linarith [k_event, k_startState, k_packetEvent, k_raise, k_State_tickUp]

theorem k_startDraw {s : State} {q : Nat} {x : Nat} {z : State} (h : startDraw s q x = .go z) (hs : Memory.wf s.mem = true) :
    Memory.wf z.mem = true := by
  unfold startDraw at h
  grind -lia -ring -linarith [k_State_updPass, k_advanceQ, Option.bind_eq_some_iff, Option.map_eq_some_iff]

theorem k_execDraw {q : QNum} {s : State} {z : State} (h : execDraw q s = .next z) (hs : Memory.wf s.mem = true) :
    Memory.wf z.mem = true := by
  unfold execDraw at h
  grind -lia -ring -linarith [k_event, k_startDraw, k_packetEvent, k_raise, k_State_tickUp]

theorem k_execDrawmesh {q : QNum} {s : State} {z : State} (h : execDrawmesh q s = .next z) (hs : Memory.wf s.mem = true) :
    Memory.wf z.mem = true := by
  unfold execDrawmesh at h
  grind -lia -ring -linarith [k_event, k_startDraw, k_packetEvent, k_raise, k_State_tickUp]

theorem k_execDrawind {q : QNum} {s : State} {z : State} (h : execDrawind q s = .next z) (hs : Memory.wf s.mem = true) :
    Memory.wf z.mem = true := by
  unfold execDrawind at h
  grind -lia -ring -linarith [k_event, k_startDraw, k_packetEvent, k_raise, k_State_tickUp]

theorem k_geometryLaunch {d : Nat} {ctx : Nat} {places : List Place} {s : State} {z : State} (h : geometryLaunch d ctx places s = some z) (hs : Memory.wf s.mem = true) :
    Memory.wf z.mem = true := by
  unfold geometryLaunch at h
  grind -lia -ring -linarith [k_State_updGfx, k_launchGang, Option.bind_eq_some_iff, Option.map_eq_some_iff]

theorem k_execGeometryGangLaunch {die : DieNo} {ctx : BitVec 4} {places : List Place} {s : State} {z : State} (h : execGeometryGangLaunch die ctx places s = .next z) (hs : Memory.wf s.mem = true) :
    Memory.wf z.mem = true := by
  unfold execGeometryGangLaunch at h
  grind -lia -ring -linarith [k_event, k_geometryLaunch, k_raise, k_State_tickUp]

theorem k_batchCloseRun {d : Nat} {ctx : Nat} {n : Nat} {b : Nat} {s : State} {z : State} (h : batchCloseRun d ctx n b s = some z) (hs : Memory.wf s.mem = true) :
    Memory.wf z.mem = true := by
  unfold batchCloseRun at h
  grind -lia -ring -linarith [k_State_updGfx, k_State_updPass]

theorem k_execBatchClose {die : DieNo} {ctx : BitVec 4} {draw : BitVec 32} {batch : BitVec 32} {s : State} {z : State} (h : execBatchClose die ctx draw batch s = .next z) (hs : Memory.wf s.mem = true) :
    Memory.wf z.mem = true := by
  unfold execBatchClose at h
  grind -lia -ring -linarith [k_event, k_batchCloseRun, k_raise, k_State_tickUp]

theorem k_landRun {d : Nat} {ctx : Nat} {t : Nat} {s : State} {z : State} (h : landRun d ctx t s = some z) (hs : Memory.wf s.mem = true) :
    Memory.wf z.mem = true := by
  unfold landRun at h
  grind -lia -ring -linarith [k_State_cross, k_State_updGfx]

theorem k_execPrimitiveLand {die : DieNo} {ctx : BitVec 4} {ticket : Word} {s : State} {z : State} (h : execPrimitiveLand die ctx ticket s = .next z) (hs : Memory.wf s.mem = true) :
    Memory.wf z.mem = true := by
  unfold execPrimitiveLand at h
  grind -lia -ring -linarith [k_event, k_landRun, k_raise, k_State_tickUp]

theorem k_targetFail {s : State} {c : RenderCtx} {e : Word × BitVec 8} (hs : Memory.wf s.mem = true) :
    Memory.wf (targetFail s c e).mem = true := by
  unfold targetFail
  grind -lia -ring -linarith [k_State_postReport, k_State_updGfx]

theorem k_writeSample {s : State} {c : RenderCtx} {t : Nat} {x : Nat} {y : Nat} {i : Nat} {v : Nat} {p : Bool} (hs : Memory.wf s.mem = true) :
    Memory.wf (writeSample s c t x y i v p).mem = true := by
  unfold writeSample
  grind -lia -ring -linarith [k_State_setMem, k_State_writePa, Memory.wf, mapSet_wf, writeLe_wf]

theorem k_dsTest {s : State} {c : RenderCtx} {st : DrawState} {x y i : Nat} {z : BitVec 32} {p : Bool}
    (hs : Memory.wf s.mem = true) : Memory.wf (dsTest s c st x y i z p).1.mem = true := by
  unfold dsTest
  dsimp only
  split <;> split <;> first | exact k_writeSample (k_writeSample hs) | exact k_writeSample hs | exact hs

theorem k_dsSamples {c : RenderCtx} {st : DrawState} {x y : Nat} {z : Nat → BitVec 32}
    {extra : List (AKind × Nat)} {run p : Bool} : ∀ (l : List Nat) {r : State × List Nat},
      Memory.wf r.1.mem = true → Memory.wf (dsSamples c st x y z extra run p l r).1.mem = true
  | [], _, hs => hs
  | i :: l, r, hs => by
      unfold dsSamples
      split
      · exact k_dsSamples l (k_targetFail hs)
      · split
        · exact k_dsSamples l hs
        · exact k_dsSamples l (k_dsTest hs)

theorem k_quadTests {c : RenderCtx} {st : DrawState} {p : Prim} : ∀ (l : List (Nat × Nat)) {s : State},
    Memory.wf s.mem = true → Memory.wf (quadTests c st p l s).1.mem = true
  | [], _, hs => hs
  | (_, _) :: l, _, hs => by
      unfold quadTests
      exact k_quadTests l (k_dsSamples _ hs)

theorem k_giveQuad {c : RenderCtx} {st : DrawState} {p : Prim} {h : Hart} :
    ∀ (l : List (((Nat × Nat) × BitVec 8) × Nat)) {s : State}, Memory.wf s.mem = true →
      Memory.wf (giveQuad s c st p h l).mem = true
  | [], _, hs => hs
  | ((_, _), _) :: l, s, hs => by
      unfold giveQuad
      refine k_giveQuad l ?_
      refine k_State_mapHarts ?_
      refine k_State_updGfx ?_
      exact k_writeLoc hs

theorem k_finishPrim {s : State} {c : RenderCtx} (hs : Memory.wf s.mem = true) :
    Memory.wf (finishPrim s c).mem = true := by
  unfold finishPrim
  grind -lia -ring -linarith [k_State_updGfx]

theorem k_emitQuad {s : State} {c : RenderCtx} {p : Prim} {d : Draw} {q : Nat × Nat} {n : Nat} {member : ContId}
    {z : State} (h : emitQuad s c p d q n member = some z) (hs : Memory.wf s.mem = true) :
    Memory.wf z.mem = true := by
  have h0 : Memory.wf (quadTests c d.st p (quadPixels q) s).1.mem = true := k_quadTests _ hs
  unfold emitQuad at h
  dsimp only at h
  generalize quadTests c d.st p (quadPixels q) s = r at h h0
  generalize quadPixels q = pxs at h
  have h1 : Memory.wf (r.1.updGfx c.die c.ctx (fun y => { y with quad := n + 1 })).mem = true :=
    k_State_updGfx h0
  generalize r.1.updGfx c.die c.ctx (fun y => { y with quad := n + 1 }) = s1 at h h1
  split at h
  · cases h
  · split at h
    · cases h; exact h1
    · split at h
      · cases h
      · split at h
        · injection h with h
          rw [← h]
          exact k_giveQuad _ h1
        · cases h

theorem k_emitRun {d ctx : Nat} {member : ContId} {s z : State} (h : emitRun d ctx member s = some z)
    (hs : Memory.wf s.mem = true) : Memory.wf z.mem = true := by
  unfold emitRun at h
  split at h
  · cases h
  · split at h
    · cases h
    · split at h
      · cases h
      · split at h
        · cases h; exact k_finishPrim hs
        · exact k_emitQuad h hs

theorem k_execFragmentEmit {die : DieNo} {ctx : BitVec 4} {member : ContId} {s : State} {z : State} (h : execFragmentEmit die ctx member s = .next z) (hs : Memory.wf s.mem = true) :
    Memory.wf z.mem = true := by
  unfold execFragmentEmit at h
  grind -lia -ring -linarith [k_event, k_emitRun, k_raise, k_State_tickUp]

theorem k_fragmentLaunch {d : Nat} {ctx : Nat} {n : Nat} {tx : Nat} {ty : Nat} {places : List Place} {s : State} {z : State} (h : fragmentLaunch d ctx n tx ty places s = some z) (hs : Memory.wf s.mem = true) :
    Memory.wf z.mem = true := by
  unfold fragmentLaunch at h
  grind -lia -ring -linarith [k_launchGang]

theorem k_execFragmentGangLaunch {die : DieNo} {ctx : BitVec 4} {draw : BitVec 32} {tx : BitVec 16} {ty : BitVec 16} {places : List Place} {s : State} {z : State} (h : execFragmentGangLaunch die ctx draw tx ty places s = .next z) (hs : Memory.wf s.mem = true) :
    Memory.wf z.mem = true := by
  unfold execFragmentGangLaunch at h
  grind -lia -ring -linarith [k_event, k_fragmentLaunch, k_raise, k_State_tickUp]

theorem k_endStreams {s : State} {g : Nat} (hs : Memory.wf s.mem = true) :
    Memory.wf (endStreams s g).mem = true := by
  unfold endStreams
  grind -lia -ring -linarith [k_State_mapHarts, Option.bind_eq_some_iff, Option.map_eq_some_iff]

theorem k_streamEndRun {member : ContId} {s : State} {z : State} (h : streamEndRun member s = some z) (hs : Memory.wf s.mem = true) :
    Memory.wf z.mem = true := by
  unfold streamEndRun at h
  grind -lia -ring -linarith [k_endStreams, Option.bind_eq_some_iff, Option.map_eq_some_iff]

theorem k_execFragmentStreamEnd {member : ContId} {s : State} {z : State} (h : execFragmentStreamEnd member s = .next z) (hs : Memory.wf s.mem = true) :
    Memory.wf z.mem = true := by
  unfold execFragmentStreamEnd at h
  grind -lia -ring -linarith [k_event, k_streamEndRun, k_raise, k_State_tickUp]

theorem k_blendSample {c : RenderCtx} {st : DrawState} {colors : List (BitVec 32)} {x y i : Nat} {p : Bool} :
    ∀ (l : List Nat) {s : State}, Memory.wf s.mem = true →
      Memory.wf (blendSample c st colors x y i p l s).mem = true
  | [], _, hs => hs
  | _ :: l, s, hs => by
      unfold blendSample
      exact k_blendSample l (k_writeSample hs)

theorem k_applyFrag {s : State} {c : RenderCtx} {f : Frag} {st : DrawState} {colors : List (BitVec 32)}
    {z : Option (BitVec 32)} {p : Bool} (hs : Memory.wf s.mem = true) :
    Memory.wf (applyFrag s c f st colors z p).mem = true := by
  unfold applyFrag
  exact foldl_mem_wf (fun _ _ h => k_blendSample _ h) _ (k_dsSamples _ hs)

theorem k_blendRun {d : Nat} {ctx : Nat} {tx : Nat} {ty : Nat} {i : Nat} {s : State} {z : State} (h : blendRun d ctx tx ty i s = some z) (hs : Memory.wf s.mem = true) :
    Memory.wf z.mem = true := by
  unfold blendRun at h
  grind -lia -ring -linarith [k_State_updGfx, k_applyFrag]

theorem k_execBlendApply {die : DieNo} {ctx : BitVec 4} {tx : BitVec 16} {ty : BitVec 16} {i : BitVec 16} {s : State} {z : State} (h : execBlendApply die ctx tx ty i s = .next z) (hs : Memory.wf s.mem = true) :
    Memory.wf z.mem = true := by
  unfold execBlendApply at h
  grind -lia -ring -linarith [k_event, k_blendRun, k_raise, k_State_tickUp]

theorem k_startEnd {s : State} {q x : Nat} {z : State} (h : startEnd s q x = .go z) (hs : Memory.wf s.mem = true) :
    Memory.wf z.mem = true := by
  unfold startEnd at h
  split at h
  · cases h
  · split at h
    · cases h
    · split at h
      · cases h
        refine k_advanceQ ?_
        exact k_signalStore (foldl_mem_wf (fun _ _ h => k_endStreams h) _ hs)
      · cases h

theorem k_execEndpass {q : QNum} {s : State} {z : State} (h : execEndpass q s = .next z) (hs : Memory.wf s.mem = true) :
    Memory.wf z.mem = true := by
  unfold execEndpass at h
  grind -lia -ring -linarith [k_event, k_startEnd, k_packetEvent, k_raise, k_State_tickUp]

theorem k_execRenderContextSave {die : DieNo} {ctx : BitVec 4} {s : State} {z : State} (h : execRenderContextSave die ctx s = .next z) (hs : Memory.wf s.mem = true) :
    Memory.wf z.mem = true := by
  unfold execRenderContextSave at h
  grind -lia -ring -linarith [k_event, k_State_updGfx, k_raise, k_State_tickUp]

theorem k_execRenderContextRestore {die : DieNo} {ctx : BitVec 4} {s : State} {z : State} (h : execRenderContextRestore die ctx s = .next z) (hs : Memory.wf s.mem = true) :
    Memory.wf z.mem = true := by
  unfold execRenderContextRestore at h
  grind -lia -ring -linarith [k_event, k_raise, k_State_tickUp]

theorem k_exportPrim {s : State} {v : VEnv} {o : VOp} {g : ExportGang} {e : Nat} (hs : Memory.wf s.mem = true) :
    Memory.wf (exportPrim s v o g e).mem = true := by
  unfold exportPrim
  grind -lia -ring -linarith [k_State_updGang, k_State_updGfx]

theorem k_exportFrag {s : State} {v : VEnv} {o : VOp} {g : ExportGang} {act : Bool} {pois : Bool} {e : Nat} (hs : Memory.wf s.mem = true) :
    Memory.wf (exportFrag s v o g act pois e).mem = true := by
  unfold exportFrag
  grind -lia -ring -linarith [k_State_updGfx, Option.bind_eq_some_iff, Option.map_eq_some_iff]

theorem exportSlice_keeps {v : VEnv} {o : VOp} {g : ExportGang} : SliceKeeps (exportSlice v o g) := by
  intro s j q n t h hs
  unfold exportSlice at h
  dsimp only at h
  split at h
  · cases h
  · split at h
    · cases h
    · cases h
      refine foldl_mem_wf (fun u e h => ?_) _ hs
      split
      · split
        · exact k_exportPrim h
        · exact h
      · exact k_exportFrag h

theorem k_execVexport {o : VOp} {s t : State} (h : execVexport o s = .next t) (hs : Memory.wf s.mem = true) :
    Memory.wf t.mem = true := by
  unfold execVexport at h
  obtain ⟨b, bs, -, (⟨e, -, rfl⟩ | ⟨-, rfl⟩)⟩ := k_blockWord h
  · exact k_raiseV hs
  · dsimp only
    split
    · exact hs
    · refine k_laneWord ?_ (fun _ h => h) hs
      exact exportSlice_keeps


end Sys2Proof.Machine
end

