-- ==== Sys2Proof/Laws/Keep/Context.lean ====
section
/-! SUPPORT. Every operation of Machine/Context.lean keeps the canonical form of memory. -/

namespace Sys2Proof.Machine

theorem onHart_memOk {s : State} {p : Hart → Bool} {f : State → State} (hf : ∀ x, MemOk x → MemOk (f x))
    (hs : MemOk s) : MemOk (s.onHart p f) := k_State_onHart hf hs

theorem k_saveContext {s : State} {k : Hart} {portable : Bool} {z : State} (h : saveContext s k portable = some z) (hs : Memory.wf s.mem = true) :
    Memory.wf z.mem = true := by
  unfold saveContext at h
  grind -lia -ring -linarith [k_writePieces, k_State_mapHarts, Option.bind_eq_some_iff, Option.map_eq_some_iff]

theorem k_ctxsaveRun {portable : Bool} {rs1 : Reg} {s z : State} (h : ctxsaveRun portable rs1 s = .ok z)
    (hs : Memory.wf s.mem = true) : Memory.wf z.mem = true := by
  unfold ctxsaveRun at h
  split at h
  · cases h
  · dsimp only at h
    split at h
    · cases h
    · injection h with h
      subst h
      generalize saveTarget s _ = k
      cases hk : k.bind (fun k => saveContext s.advance k portable) with
      | none => exact hs
      | some t =>
          obtain ⟨k', -, h2⟩ := Option.bind_eq_some_iff.1 hk
          exact k_saveContext h2 (k_State_advance hs)

theorem k_execCtxsave {portable : Bool} {rs1 : Reg} {s : State} {z : State} (h : execCtxsave portable rs1 s = .next z) (hs : Memory.wf s.mem = true) :
    Memory.wf z.mem = true := by
  unfold execCtxsave at h
  grind -lia -ring -linarith [k_ctxsaveRun, k_raise, k_finish, k_State_tickUp]

theorem k_noticeExpiry {target : ContId} {s : State} {z : State} (h : noticeExpiry target s = some z) (hs : Memory.wf s.mem = true) :
    Memory.wf z.mem = true := by
  unfold noticeExpiry at h
  grind -lia -ring -linarith [k_saveContext]

theorem k_execNoticeWindowExpiry {target : ContId} {s : State} {z : State} (h : execNoticeWindowExpiry target s = .next z) (hs : Memory.wf s.mem = true) :
    Memory.wf z.mem = true := by
  unfold execNoticeWindowExpiry at h
  grind -lia -ring -linarith [k_noticeExpiry, k_event, k_raise, k_State_tickUp]

theorem k_applyReply {s : State} {j : Nat} (hs : Memory.wf s.mem = true) : Memory.wf (applyReply s j).mem = true := by
  unfold applyReply
  have ht : Memory.wf (inboxShift s s.h j).mem = true := k_inboxShift j hs
  dsimp only
  generalize inboxShift s s.h j = t at ht
  split
  · split
    · exact k_dropPagerMsg (k_replyEffect ht)
    · exact ht
  all_goals exact ht


theorem k_applyReplyAt {s : State} (hs : Memory.wf s.mem = true) :
    ∀ o : Option Nat, Memory.wf (applyReplyAt o s).mem = true
  | none => hs
  | some _ => k_applyReply hs

theorem k_applyOldestReply {s : State} (hs : Memory.wf s.mem = true) : Memory.wf (applyOldestReply s).mem = true :=
  k_applyReplyAt hs _

theorem oldest_memOk {s : State} (hs : MemOk s) : MemOk (applyOldestReply s) := k_applyOldestReply hs

theorem applyReplies_memOk {s : State} (hs : MemOk s) : MemOk (applyReplies s) :=
  foldl_memOk (fun _ _ h => oldest_memOk h) _ hs

theorem k_applyReplies {s : State} (hs : Memory.wf s.mem = true) : Memory.wf (applyReplies s).mem = true :=
  applyReplies_memOk hs

theorem takeAll_memOk {s : State} (hs : MemOk s) : MemOk (inboxTakeAll s) := k_inboxTakeAll hs

theorem repliesTakeAll_memOk {s : State} {p : Hart → Bool} (hs : MemOk s) :
    MemOk (s.onHart p (fun t => inboxTakeAll (applyReplies t))) :=
  onHart_memOk (fun _ h => takeAll_memOk (applyReplies_memOk h)) hs

theorem k_placeContext {s : State} {l : LoadAt} {portable : Bool} {k : Hart} (hs : Memory.wf s.mem = true) :
    Memory.wf (placeContext s l portable k).mem = true := by
  unfold placeContext
  dsimp only
  generalize restoreHart (s.dropL1 l.coreNo) l portable k = h
  have h2 : Memory.wf ((s.dropL1 l.coreNo).mapHarts k.same (fun _ => h)).tickUp.mem = true :=
    k_State_tickUp (k_State_mapHarts (k_State_dropL1 hs))
  generalize ((s.dropL1 l.coreNo).mapHarts k.same (fun _ => h)).tickUp = s2 at h2
  refine repliesTakeAll_memOk (p := h.same) ?_
  · have h3 : ∀ o : Option Nat, Memory.wf (match o with
      | none => s2
      | some g => s2.updGang g (fun x => x.updRing h.id.member (restoreRing s2 l portable))).mem = true := by
      intro o
      cases o with
      | none => exact h2
      | some g => exact k_State_updGang h2
    split
    · exact k_State_mapHarts (k_spadIn (h3 _))
    · exact h3 _

theorem k_leaveOldPlace {s : State} {l : LoadAt} {k : Hart} {z : State} (h : leaveOldPlace s l k = some z)
    (hs : Memory.wf s.mem = true) : Memory.wf z.mem = true := by
  unfold leaveOldPlace at h
  dsimp only at h
  generalize List.filter _ k.mat.pins = gone at h
  have h1 : ∀ t, gone.foldl (fun (t : Option State) p => t.bind (evictPin k p)) (some s) = some t →
      Memory.wf t.mem = true := fun t ht =>
    foldl_bind_wf (fun _ _ _ h hs => k_evictPin h hs) _ ht (fun _ h => by cases h; exact hs)
  split at h
  · obtain ⟨u, hu, h2⟩ := Option.bind_eq_some_iff.1 h
    exact k_evictSpad h2 (h1 u hu)
  · exact h1 z h

theorem k_loadContext {s : State} {l : LoadAt} {portable : Bool} {z : State}
    (h : loadContext s l portable = some z) (hs : Memory.wf s.mem = true) : Memory.wf z.mem = true := by
  unfold loadContext at h
  split at h
  · cases h
  · split at h
    · cases h
    · dsimp only at h
      obtain ⟨t, h1, h2⟩ := Option.bind_eq_some_iff.1 h
      obtain ⟨u, h3, h4⟩ := Option.bind_eq_some_iff.1 h1
      obtain ⟨k', -, rfl⟩ := Option.map_eq_some_iff.1 h2
      exact k_placeContext (k_vacate h4 (k_leaveOldPlace h3 hs))

theorem k_ctxloadRun {portable : Bool} {rs1 : Reg} {s z : State} (h : ctxloadRun portable rs1 s = .ok z)
    (hs : Memory.wf s.mem = true) : Memory.wf z.mem = true := by
  unfold ctxloadRun at h
  split at h
  · cases h
  · dsimp only at h
    split at h
    · cases h
    · split at h
      · cases h
      · injection h with h
        subst h
        generalize LoadAt.of _ = l
        cases hk : loadContext s.advance l portable with
        | none => exact hs
        | some t => exact k_loadContext hk (k_State_advance hs)

theorem k_execCtxload {portable : Bool} {rs1 : Reg} {s : State} {z : State} (h : execCtxload portable rs1 s = .next z) (hs : Memory.wf s.mem = true) :
    Memory.wf z.mem = true := by
  unfold execCtxload at h
  grind -lia -ring -linarith [k_ctxloadRun, k_raise, k_finish, k_State_tickUp]

theorem k_pwflushEffect {s : State} {x : Word} (hs : Memory.wf s.mem = true) :
    Memory.wf (pwflushEffect s x).mem = true := by
  have h1 : ∀ (p : Nat) (w : SMap 64), mapWf w = true → mapWf (flushPart w s.mem.dev p) = true :=
    fun p w h => foldl_map_wf (fun _ _ h => mapSet_wf _ _ h) _ h
  unfold pwflushEffect
  refine k_State_advance (k_State_setMem ?_)
  simp only [wf_iff] at hs ⊢
  exact ⟨hs.1, hs.2.1, hs.2.2.1, foldl_map_wf (fun w p h => h1 p w h) _ hs.2.2.2⟩

theorem k_execPwflush {rs1 : Reg} {s : State} {z : State} (h : execPwflush rs1 s = .next z) (hs : Memory.wf s.mem = true) :
    Memory.wf z.mem = true := by
  unfold execPwflush at h
  grind -lia -ring -linarith [k_pwflushEffect, k_guarded, k_raise, k_State_tickUp]

theorem k_powerGate {core : Nat} {s : State} {z : State} (h : powerGate core s = some z) (hs : Memory.wf s.mem = true) :
    Memory.wf z.mem = true := by
  unfold powerGate at h
  grind -lia -ring -linarith [k_State_dropL1]

theorem k_execCorePowerGate {core : BitVec 11} {s : State} {z : State} (h : execCorePowerGate core s = .next z) (hs : Memory.wf s.mem = true) :
    Memory.wf z.mem = true := by
  unfold execCorePowerGate at h
  grind -lia -ring -linarith [k_powerGate, k_event, k_raise, k_State_tickUp]

theorem k_powerRestore {core : Nat} {s : State} {z : State} (h : powerRestore core s = some z) (hs : Memory.wf s.mem = true) :
    Memory.wf z.mem = true := by
  unfold powerRestore at h
  grind -lia -ring -linarith []

theorem k_execCorePowerRestore {core : BitVec 11} {s : State} {z : State} (h : execCorePowerRestore core s = .next z) (hs : Memory.wf s.mem = true) :
    Memory.wf z.mem = true := by
  unfold execCorePowerRestore at h
  grind -lia -ring -linarith [k_powerRestore, k_event, k_raise, k_State_tickUp]


end Sys2Proof.Machine
end

