-- ==== Sys2Proof/Laws/Keep/Engine.lean ====
section
/-! SUPPORT. Every operation of Machine/Engine.lean keeps the canonical form of memory. -/

namespace Sys2Proof.Machine

theorem k_devPut {v : Nat} {k : Kicker} {src : Nat} {ps : List (Nat × Nat)} {s z : State}
    (h : devPut v k src ps s = some z) (hs : Memory.wf s.mem = true) : Memory.wf z.mem = true := by
  induction ps generalizing v s with
  | nil => cases h; exact hs
  | cons q t ih =>
      obtain ⟨pa, n⟩ := q
      rw [devPut] at h
      split at h
      · cases h
      · rename_i u hu
        split at hu
        · exact ih h (k_devWrite hu hs)
        · cases hu

theorem k_engineWrite {s : State} {l : Loc} {n : Nat} {v : Nat} {pois : Bool} {z : State}
    (h : engineWrite s l n v pois = some z) (hs : Memory.wf s.mem = true) : Memory.wf z.mem = true := by
  unfold engineWrite at h
  split at h
  · cases h; exact k_writeLoc hs
  · exact k_devPut h hs
  · cases h

theorem k_streamPut {s : State} {i : Nat} {bs : List Byte} (hs : Memory.wf s.mem = true) :
    Memory.wf (streamPut s i bs).mem = true := by
  unfold streamPut
  grind -lia -ring -linarith []

theorem k_Cmd_decrement {c : Cmd} {n : Nat} {s : State} (hs : Memory.wf s.mem = true) :
    Memory.wf (c.decrement n s).1.mem = true := by
  unfold Cmd.decrement
  grind -lia -ring -linarith [k_State_updGang]

theorem k_Cmd_sources {c : Cmd} {n : Nat} {l : List ESrc} {s : State} {r : State × List Nat × Bool × List (Nat × Nat)}
    (h : c.sources n l s = .ok r) (hs : Memory.wf s.mem = true) : Memory.wf r.1.mem = true := by
  induction l generalizing s r with
  | nil => cases h; exact hs
  | cons q t ih =>
      cases q with
      | mem a =>
          rw [Cmd.sources] at h
          split at h
          · cases h
          · split at h
            · cases h
            · rename_i hu
              have h1 := ih hu hs; cases h; exact h1
      | stream i =>
          rw [Cmd.sources] at h
          split at h
          · cases h
          · split at h
            · cases h
            · rename_i hu
              have h1 := ih hu (k_streamPut hs)
              cases h; exact h1

theorem k_Cmd_write {c : Cmd} {force : Bool} {i : Nat} {r u : EngRun} (h : c.write force i r = .ok u)
    (hs : MemOk r.st) : MemOk u.st := by
  unfold Cmd.write at h
  split at h
  · cases h
  · split at h
    · cases h
    · rename_i hq
      have h1 := k_Cmd_sources hq hs
      dsimp only at h1 h
      split at h
      · cases h; exact k_streamPut h1
      · split at h
        · cases h
        · split at h
          · cases h
          · rename_i hw
            cases h; exact k_engineWrite hw h1

theorem k_Cmd_stepRun {c : Cmd} {force dec : Bool} {i : Nat} {r : EngRun} (hs : MemOk r.st) :
    MemOk (c.stepRun force dec i r).st := by
  have hd : ∀ (n : Nat) (s : State), MemOk s → MemOk (c.decrement n s).1 := fun _ _ h => k_Cmd_decrement h
  unfold Cmd.stepRun
  split
  · exact hs
  · split
    · split
      · exact hs
      · exact hs
      · rename_i hw
        have h1 := k_Cmd_write hw hs
        dsimp only
        split
        · exact hd _ _ h1
        · exact h1
    · split
      · split
        · exact hs
        · rename_i hw
          have h1 := k_Cmd_write hw hs
          exact h1
      · exact hs

theorem k_Cmd_runFrom {c : Cmd} {force dec : Bool} : ∀ (n i : Nat) {r : EngRun}, MemOk r.st →
    MemOk (c.runFrom force dec n i r).st
  | 0, _, _, h => h
  | n + 1, i, _, h => k_Cmd_runFrom n (i + 1) (k_Cmd_stepRun h)

theorem overlapFree_wf {tick : Nat} {rs ws : List (Nat × Nat)} {m : SMap 8} (h : mapWf m = true) :
    mapWf (overlapFree tick rs ws m) = true := by
  unfold overlapFree
  refine foldl_map_wf (fun m b hm => ?_) _ h
  split
  · exact mapSet_wf _ _ hm
  · exact hm

theorem k_overlapped {r : EngRun} (h : MemOk r.st) : MemOk r.overlapped.st := by
  have h' : Memory.wf r.st.mem = true := h
  show Memory.wf { r.st.mem with mem := overlapFree r.st.tick r.reads r.writes r.st.mem.mem } = true
  rw [wf_iff] at h' ⊢
  exact ⟨overlapFree_wf h'.1, h'.2⟩

theorem k_Cmd_run {c : Cmd} {force dec : Bool} {s : State} (h : MemOk s) : MemOk (c.run force dec s).st := by
  unfold Cmd.run
  split
  · exact h
  · exact k_overlapped (k_Cmd_runFrom _ _ h)

theorem k_result {r : EngRun} (h : MemOk r.st) : MemOk r.result.st := by
  unfold EngRun.result
  split <;> exact h

theorem k_updKey {s : State} {n : Nat} {f : KeySlot → KeySlot} (hs : Memory.wf s.mem = true) :
    Memory.wf (updKey s n f).mem = true := hs

theorem k_egcmOut {c : Cmd} {k : KeySlot} {s : State} (hs : MemOk s) : MemOk (egcmOut c k s).st := by
  unfold egcmOut
  dsimp only
  have h1 : MemOk (updKey s k.slot (fun x => { x with txctr := k.txctr + 1 })) := k_updKey hs
  generalize updKey s k.slot (fun x => { x with txctr := k.txctr + 1 }) = s1 at h1
  generalize hr : Cmd.run _ _ _ _ = r
  have h2 : MemOk r.st := hr ▸ k_Cmd_run h1
  have h3 := k_result h2
  split
  · exact h3
  · split
    · exact h3
    · split
      · exact h3
      · rename_i hw
        exact k_engineWrite hw h3

theorem k_egcmCheck {c : Cmd} {k : KeySlot} {iv tag : List Nat} {r : EngRun} (hs : MemOk r.st) :
    MemOk (egcmCheck c k iv tag r).st := by
  have hd : ∀ (n : Nat) (s : State), MemOk s → MemOk (c.decrement n s).1 := fun _ _ h => k_Cmd_decrement h
  have hb : ∀ gs : List Nat, MemOk (r.st.setMem { r.st.mem with
      mem := gs.foldl (fun (m : SMap 8) g => writeLe m (64 * g) 64 0) r.st.mem.mem }) := by
    intro gs
    have h' : Memory.wf r.st.mem = true := hs
    show Memory.wf { r.st.mem with
      mem := gs.foldl (fun (m : SMap 8) g => writeLe m (64 * g) 64 0) r.st.mem.mem } = true
    rw [wf_iff] at h' ⊢
    exact ⟨foldl_map_wf (fun m g hm => writeLe_wf _ _ _ hm) _ h'.1, h'.2⟩
  have hp : ∀ (s1 : State) (a b : List Nat), MemOk s1 →
      MemOk (s1.setMem { s1.mem with pois := a, locked := b }) := fun _ _ _ h => h
  have hu := fun f => k_updKey (n := k.slot) (f := f) hs
  unfold egcmCheck
  dsimp only
  split
  · exact hb _
  · split
    · exact hb _
    · split
      · exact hd _ _ (hp _ _ _ (hu _))
      · exact hp _ _ _ (hu _)

theorem k_egcmIn {c : Cmd} {k : KeySlot} {s : State} (hs : MemOk s) : MemOk (egcmIn c k s).st := by
  unfold egcmIn
  split
  · exact hs
  · dsimp only
    split
    · exact hs
    · split
      · exact k_result (k_Cmd_run hs)
      · exact k_egcmCheck (k_Cmd_run hs)

theorem k_egcmRun {c : Cmd} {s : State} (hs : MemOk s) : MemOk (egcmRun c s).st := by
  unfold egcmRun
  split
  · exact hs
  · split
    · exact k_egcmOut hs
    · exact k_egcmIn hs

theorem k_mailboxWrite {c : Cmd} {e : EResult} {z : State} (h : mailboxWrite c e = .ok z) (hs : MemOk e.st) :
    MemOk z := by
  unfold mailboxWrite at h
  split at h
  · cases h
  · dsimp only at h
    have hm : ∀ (a b : Nat), MemOk (e.st.message a b) := fun a b => k_State_message hs
    split at h
    · cases h
    · rename_i hw
      cases h
      refine k_engineWrite hw ?_
      split
      · split
        · exact hs
        · exact hm _ _
      · exact hs
      · exact hs

theorem k_completionPost {c : Cmd} {s : State} (hs : Memory.wf s.mem = true) :
    Memory.wf (completionPost c s).mem = true := by
  unfold completionPost
  grind -lia -ring -linarith [k_State_message, k_State_postTo]

theorem k_complete {c : Cmd} {ran : Bool} {rd : Reg} {e : EResult} (hs : MemOk e.st) :
    Memory.wf (complete c ran rd e).mem = true := by
  have hp : ∀ s : State, MemOk s → MemOk (completionPost c s) := fun _ h => k_completionPost h
  have hf : ∀ (s : State) (v : Word), MemOk s → Memory.wf (((s.setX rd v).advance).tickUp).mem = true :=
    fun _ _ h => k_State_tickUp (k_State_advance (k_State_setX h))
  unfold complete
  dsimp only
  apply hf
  generalize hm : (if (c.mb && decide (c.mbox.toNat % 32 = 0) && decide (c.amode ≠ 3)) = true then mailboxWrite c e
    else Except.ok e.st) = m
  have h1 : ∀ u, m = .ok u → MemOk u := by
    intro u hu
    rw [hu] at hm
    split at hm
    · exact k_mailboxWrite hm hs
    · cases hm; exact hs
  cases m with
  | error n =>
      dsimp only
      split
      · exact hp _ hs
      · exact hs
  | ok u =>
      dsimp only
      split
      · exact hp _ (h1 u rfl)
      · exact h1 u rfl

theorem k_countOut {c : Cmd} {e : EResult} (h : MemOk e.st) : MemOk (countOut c e).st := by
  unfold countOut
  split
  · exact k_carryLines h
  · exact h

theorem k_commandEffect {op : EOp} {rd : Reg} {rs1 : Reg} {rs2 : Reg} {s : State} (hs : Memory.wf s.mem = true) :
    Memory.wf (commandEffect op rd rs1 rs2 s).mem = true := by
  unfold commandEffect
  dsimp only
  split
  · exact k_complete hs
  · split
    · exact k_complete (k_egcmRun hs)
    · split
      · exact hs
      · exact k_complete (k_countOut (k_result (k_Cmd_run hs)))

theorem k_execEcpy {rd : Reg} {rs1 : Reg} {rs2 : Reg} {s : State} {z : State} (h : execEcpy rd rs1 rs2 s = .next z) (hs : Memory.wf s.mem = true) :
    Memory.wf z.mem = true := by
  unfold execEcpy at h
  grind -lia -ring -linarith [k_commandEffect, k_guarded, k_raise, k_State_tickUp]

theorem k_execEcpys {rd : Reg} {rs1 : Reg} {rs2 : Reg} {s : State} {z : State} (h : execEcpys rd rs1 rs2 s = .next z) (hs : Memory.wf s.mem = true) :
    Memory.wf z.mem = true := by
  unfold execEcpys at h
  grind -lia -ring -linarith [k_commandEffect, k_guarded, k_raise, k_State_tickUp]

theorem k_execEgath {rd : Reg} {rs1 : Reg} {rs2 : Reg} {s : State} {z : State} (h : execEgath rd rs1 rs2 s = .next z) (hs : Memory.wf s.mem = true) :
    Memory.wf z.mem = true := by
  unfold execEgath at h
  grind -lia -ring -linarith [k_commandEffect, k_guarded, k_raise, k_State_tickUp]

theorem k_execEscat {rd : Reg} {rs1 : Reg} {rs2 : Reg} {s : State} {z : State} (h : execEscat rd rs1 rs2 s = .next z) (hs : Memory.wf s.mem = true) :
    Memory.wf z.mem = true := by
  unfold execEscat at h
  grind -lia -ring -linarith [k_commandEffect, k_guarded, k_raise, k_State_tickUp]

theorem k_execEred {rd : Reg} {rs1 : Reg} {rs2 : Reg} {s : State} {z : State} (h : execEred rd rs1 rs2 s = .next z) (hs : Memory.wf s.mem = true) :
    Memory.wf z.mem = true := by
  unfold execEred at h
  grind -lia -ring -linarith [k_commandEffect, k_guarded, k_raise, k_State_tickUp]

theorem k_execEgcm {rd : Reg} {rs1 : Reg} {rs2 : Reg} {s : State} {z : State} (h : execEgcm rd rs1 rs2 s = .next z) (hs : Memory.wf s.mem = true) :
    Memory.wf z.mem = true := by
  unfold execEgcm at h
  grind -lia -ring -linarith [k_commandEffect, k_guarded, k_raise, k_State_tickUp]

theorem k_ewaitkEffect {rd : Reg} {s : State} (hs : Memory.wf s.mem = true) :
    Memory.wf (ewaitkEffect rd s).mem = true := by
  unfold ewaitkEffect
  grind -lia -ring -linarith [k_State_setH, k_State_setX, k_State_advance, k_State_acquire]

theorem k_execEwaitk {rd : Reg} {s : State} {z : State} (h : execEwaitk rd s = .next z) (hs : Memory.wf s.mem = true) :
    Memory.wf z.mem = true := by
  unfold execEwaitk at h
  grind -lia -ring -linarith [k_ewaitkEffect, k_guarded, k_raise, k_State_tickUp]

theorem k_kickRun {engine : Nat} {payload : Word} {s : State} {z : State} (h : kickRun engine payload s = some z) (hs : Memory.wf s.mem = true) :
    Memory.wf z.mem = true := by
  unfold kickRun at h
  grind -lia -ring -linarith [k_doKick]

theorem k_execKick {engine : BitVec 9} {payload : Word} {s : State} {z : State} (h : execKick engine payload s = .next z) (hs : Memory.wf s.mem = true) :
    Memory.wf z.mem = true := by
  unfold execKick at h
  grind -lia -ring -linarith [k_kickRun, k_event, k_raise, k_State_tickUp]

theorem k_execKickRecordFill {engine : BitVec 9} {s : State} {z : State} (h : execKickRecordFill engine s = .next z) (hs : Memory.wf s.mem = true) :
    Memory.wf z.mem = true := by
  unfold execKickRecordFill at h
  grind -lia -ring -linarith [k_kickRecordTake, k_event, k_raise, k_State_tickUp]

theorem writeImage_memOk : ∀ (n : Nat) (base : Nat) (s : State) (bs : List Byte), MemOk s → MemOk (writeImage base s n bs)
  | 0, _, _, _, h => h
  | n + 1, base, s, bs, h => by
      rw [writeImage]
      split
      · exact h
      · exact writeImage_memOk n _ _ _ (k_State_devSet h)

theorem k_writeImage {base : Nat} {s : State} {n : Nat} {bs : List Byte} (hs : Memory.wf s.mem = true) :
    Memory.wf (writeImage base s n bs).mem = true := writeImage_memOk n base s bs hs

theorem k_loadMicrocode {s : State} {n : Nat} {image : List Byte} (hs : Memory.wf s.mem = true) :
    Memory.wf (loadMicrocode s n image).mem = true := by
  have h1 : ∀ (t : State) (f : Hart → Hart), MemOk t → MemOk (t.updEngine n f) := fun _ _ h => k_State_updEngine h
  have h2 : ∀ (t : State) (e : Nat × Nat), MemOk t →
      MemOk (t.measure (16 + e.2) (BitVec.ofNat 64 n :: imageWords 0x1800 image)) := fun _ _ h => k_State_measure h
  unfold loadMicrocode
  exact foldl_memOk h2 _ (h1 _ _ (writeImage_memOk _ _ _ _ hs))

theorem k_microcodeRun {n : Nat} {verified : Bool} {image : List Byte} {s : State} {z : State} (h : microcodeRun n verified image s = some z) (hs : Memory.wf s.mem = true) :
    Memory.wf z.mem = true := by
  unfold microcodeRun at h
  grind -lia -ring -linarith [k_loadMicrocode]

theorem k_execMicrocodeLoad {engine : BitVec 9} {verified : Bool} {image : List (BitVec 8)} {s : State} {z : State} (h : execMicrocodeLoad engine verified image s = .next z) (hs : Memory.wf s.mem = true) :
    Memory.wf z.mem = true := by
  unfold execMicrocodeLoad at h
  grind -lia -ring -linarith [k_microcodeRun, k_event, k_raise, k_State_tickUp]


end Sys2Proof.Machine
end

