-- ==== Sys2Proof/Laws/Keep/Fabric.lean ====
section
/-! SUPPORT. Every operation of Machine/Fabric.lean keeps the canonical form of memory. -/

namespace Sys2Proof.Machine

theorem k_execShadowEntryWrite {i : BitVec 8} {second : Bool} {v : Word} {s : State} {z : State} (h : execShadowEntryWrite i second v s = .next z) (hs : Memory.wf s.mem = true) :
    Memory.wf z.mem = true := by
  unfold execShadowEntryWrite at h
  grind -lia -ring -linarith [k_shadowWrite]

theorem k_execSwap {s : State} {z : State} (h : execSwap s = .next z) (hs : Memory.wf s.mem = true) :
    Memory.wf z.mem = true := by
  unfold execSwap at h
  grind -lia -ring -linarith [k_doSwap]

theorem k_State_setGen {s : State} {d : Nat} {g : BitVec 16} (hs : Memory.wf s.mem = true) :
    Memory.wf (State.setGen s d g).mem = true := by
  unfold State.setGen
  grind -lia -ring -linarith []

theorem k_broadcastArrive {d : Nat} {s : State} {z : State} (h : broadcastArrive d s = some z) (hs : Memory.wf s.mem = true) :
    Memory.wf z.mem = true := by
  unfold broadcastArrive at h
  grind -lia -ring -linarith [k_State_setGen, k_State_message]

theorem k_execSwapBroadcastArrival {die : DieNo} {s : State} {z : State} (h : execSwapBroadcastArrival die s = .next z) (hs : Memory.wf s.mem = true) :
    Memory.wf z.mem = true := by
  unfold execSwapBroadcastArrival at h
  grind -lia -ring -linarith [k_broadcastArrive, k_event, k_raise, k_State_tickUp]

theorem k_dieAck {d : Nat} {s : State} {z : State} (h : dieAck d s = some z) (hs : Memory.wf s.mem = true) :
    Memory.wf z.mem = true := by
  unfold dieAck at h
  grind -lia -ring -linarith [k_State_devSet, k_State_message]

theorem k_execDieAcknowledge {die : DieNo} {s : State} {z : State} (h : execDieAcknowledge die s = .next z) (hs : Memory.wf s.mem = true) :
    Memory.wf z.mem = true := by
  unfold execDieAcknowledge at h
  grind -lia -ring -linarith [k_dieAck, k_event, k_raise, k_State_tickUp]

theorem k_serveRequest {s : State} {i : Nat} {r : InFlight} (hs : Memory.wf s.mem = true) :
    Memory.wf (serveRequest s i r).mem = true := by
  unfold serveRequest
  grind -lia -ring -linarith [k_State_writePa]

theorem k_requestArrive {i : Nat} {d : Nat} {s : State} {z : State} (h : requestArrive i d s = some z) (hs : Memory.wf s.mem = true) :
    Memory.wf z.mem = true := by
  unfold requestArrive at h
  grind -lia -ring -linarith [k_serveRequest]

theorem k_execRoutedRequestArrival {i : BitVec 16} {die : DieNo} {s : State} {z : State} (h : execRoutedRequestArrival i die s = .next z) (hs : Memory.wf s.mem = true) :
    Memory.wf z.mem = true := by
  unfold execRoutedRequestArrival at h
  grind -lia -ring -linarith [k_requestArrive, k_event, k_raise, k_State_tickUp]

theorem k_windowWrite {p : Nat} {i : Nat} {w0 : Word} {w1 : Word} {s : State} (hs : Memory.wf s.mem = true) :
    Memory.wf (windowWrite p i w0 w1 s).mem = true := by
  unfold windowWrite
  grind -lia -ring -linarith [k_State_measure, k_State_devSet]

theorem k_execWindowTableWrite {p : BitVec 7} {i : BitVec 4} {w0 : Word} {w1 : Word} {s : State} {z : State} (h : execWindowTableWrite p i w0 w1 s = .next z) (hs : Memory.wf s.mem = true) :
    Memory.wf z.mem = true := by
  unfold execWindowTableWrite at h
  grind -lia -ring -linarith [k_windowWrite, k_event, k_raise, k_State_tickUp]

theorem k_circuitSetUp {i : Nat} {w0 : Word} {s : State} (hs : Memory.wf s.mem = true) :
    Memory.wf (circuitSetUp i w0 s).mem = true := by
  unfold circuitSetUp
  grind -lia -ring -linarith [k_doConnWrite]

theorem k_execCircuitSetUp {i : BitVec 8} {w0 : Word} {s : State} {z : State} (h : execCircuitSetUp i w0 s = .next z) (hs : Memory.wf s.mem = true) :
    Memory.wf z.mem = true := by
  unfold execCircuitSetUp at h
  grind -lia -ring -linarith [k_circuitSetUp]

theorem k_circuitTearDown {i : Nat} {s : State} (hs : Memory.wf s.mem = true) :
    Memory.wf (circuitTearDown i s).mem = true := by
  unfold circuitTearDown
  grind -lia -ring -linarith [k_doConnWrite]

theorem k_execCircuitTearDown {i : BitVec 8} {s : State} {z : State} (h : execCircuitTearDown i s = .next z) (hs : Memory.wf s.mem = true) :
    Memory.wf z.mem = true := by
  unfold execCircuitTearDown at h
  grind -lia -ring -linarith [k_circuitTearDown]

theorem k_circuitUpRun {i : Nat} {s : State} {z : State} (h : circuitUpRun i s = some z) (hs : Memory.wf s.mem = true) :
    Memory.wf z.mem = true := by
  unfold circuitUpRun at h
  grind -lia -ring -linarith [k_State_devSet]

theorem k_execCircuitUp {i : BitVec 8} {s : State} {z : State} (h : execCircuitUp i s = .next z) (hs : Memory.wf s.mem = true) :
    Memory.wf z.mem = true := by
  unfold execCircuitUp at h
  grind -lia -ring -linarith [k_circuitUpRun, k_event, k_raise, k_State_tickUp]

theorem k_freeCircuit {s : State} {i : Nat} (hs : Memory.wf s.mem = true) :
    Memory.wf (freeCircuit s i).mem = true := by
  unfold freeCircuit
  grind -lia -ring -linarith [k_State_devSet]

theorem k_circuitDownRun {i : Nat} {s : State} {z : State} (h : circuitDownRun i s = some z) (hs : Memory.wf s.mem = true) :
    Memory.wf z.mem = true := by
  unfold circuitDownRun at h
  grind -lia -ring -linarith [k_freeCircuit]

theorem k_execCircuitDown {i : BitVec 8} {s : State} {z : State} (h : execCircuitDown i s = .next z) (hs : Memory.wf s.mem = true) :
    Memory.wf z.mem = true := by
  unfold execCircuitDown at h
  grind -lia -ring -linarith [k_circuitDownRun, k_event, k_raise, k_State_tickUp]

theorem k_registerWriteRun {pa : Nat} {v : Word} {s : State} {z : State} (h : registerWriteRun pa v s = some z) (hs : Memory.wf s.mem = true) :
    Memory.wf z.mem = true := by
  unfold registerWriteRun at h
  grind -lia -ring -linarith [k_devWrite]

theorem k_execRegisterWrite {pa : BitVec 52} {v : Word} {s : State} {z : State} (h : execRegisterWrite pa v s = .next z) (hs : Memory.wf s.mem = true) :
    Memory.wf z.mem = true := by
  unfold execRegisterWrite at h
  grind -lia -ring -linarith [k_registerWriteRun, k_event, k_raise, k_State_tickUp]


end Sys2Proof.Machine
end

