-- ==== Sys2Proof/Laws/Keep/Package.lean ====
section
/-! SUPPORT. Every operation of Machine/Package.lean keeps the canonical form of memory. -/

namespace Sys2Proof.Machine

theorem k_poisonWriteBack {s : State} {g : Nat} (hs : Memory.wf s.mem = true) :
    Memory.wf (poisonWriteBack s g).mem = true := by
  unfold poisonWriteBack
  grind -lia -ring -linarith [k_State_setMem, k_State_ras, Memory.wf, mapSet_wf, writeLe_wf]

theorem k_eccError {s : State} {e : EccSite} (hs : Memory.wf s.mem = true) :
    Memory.wf (eccError s e).mem = true := by
  unfold eccError
  grind -lia -ring -linarith [k_State_setH, k_State_setMem, k_State_ras, Memory.wf, mapSet_wf, writeLe_wf, Option.bind_eq_some_iff, Option.map_eq_some_iff]

theorem k_patrolRun {g : Nat} {correctable : Bool} {s : State} {z : State} (h : patrolRun g correctable s = some z) (hs : Memory.wf s.mem = true) :
    Memory.wf z.mem = true := by
  unfold patrolRun at h
  grind -lia -ring -linarith [k_State_setMem, k_State_ras, k_poisonWriteBack, Memory.wf, mapSet_wf, writeLe_wf, Option.bind_eq_some_iff, Option.map_eq_some_iff]

theorem k_execPatrolScrub {granule : BitVec 46} {correctable : Bool} {s : State} {z : State} (h : execPatrolScrub granule correctable s = .next z) (hs : Memory.wf s.mem = true) :
    Memory.wf z.mem = true := by
  unfold execPatrolScrub at h
  grind -lia -ring -linarith [k_event, k_patrolRun, k_raise, k_State_tickUp]

theorem k_poisonFree {gs : List Nat} {s : State} (hs : Memory.wf s.mem = true) :
    Memory.wf (poisonFree gs s).mem = true := by
  have h1 : ∀ (t : State) (a b : List Nat), MemOk t → MemOk (t.setMem { t.mem with plist := a, locked := b }) :=
    fun _ _ _ h => h
  have h2 : ∀ (t : State) (g : Nat), MemOk t → MemOk (match nearChannel t g with
      | none => t
      | some c =>
          if channelUse t c < 1024 then
            t.setMem { t.mem with plist := setAdd t.mem.plist g, locked := setDel t.mem.locked g }
          else t) := by
    intro t g h
    split
    · exact h
    · split
      · exact h1 _ _ _ h
      · exact h
  have h0 : ∀ (a : List Nat), MemOk (s.setMem { s.mem with plist := a }) := fun _ => hs
  exact foldl_memOk h2 _ (h0 _)

theorem k_execPoisonListFree {granules : List (BitVec 46)} {s : State} {z : State} (h : execPoisonListFree granules s = .next z) (hs : Memory.wf s.mem = true) :
    Memory.wf z.mem = true := by
  unfold execPoisonListFree at h
  grind -lia -ring -linarith [k_poisonFree, Option.bind_eq_some_iff, Option.map_eq_some_iff]

theorem k_cxlDownRun {p : BitVec 2} {s : State} {z : State} (h : cxlDownRun p s = some z) (hs : Memory.wf s.mem = true) :
    Memory.wf z.mem = true := by
  unfold cxlDownRun at h
  grind -lia -ring -linarith [k_State_ras]

theorem k_execCxlPortDown {port : BitVec 2} {s : State} {z : State} (h : execCxlPortDown port s = .next z) (hs : Memory.wf s.mem = true) :
    Memory.wf z.mem = true := by
  unfold execCxlPortDown at h
  grind -lia -ring -linarith [k_event, k_cxlDownRun, k_raise, k_State_tickUp]

theorem k_frameRun {port : Nat} {i : Nat} {seq : BitVec 32} {crcOk : Bool} {bs : List Byte} {s : State} {z : State} (h : frameRun port i seq crcOk bs s = some z) (hs : Memory.wf s.mem = true) :
    Memory.wf z.mem = true := by
  unfold frameRun at h
  grind -lia -ring -linarith [k_carryLines, k_streamPut]

theorem k_execPeerFrameReceive {port : BitVec 3} {entry : BitVec 8} {seq : BitVec 32} {crcOk : Bool} {payload : List (BitVec 8)} {s : State} {z : State} (h : execPeerFrameReceive port entry seq crcOk payload s = .next z) (hs : Memory.wf s.mem = true) :
    Memory.wf z.mem = true := by
  unfold execPeerFrameReceive at h
  grind -lia -ring -linarith [k_event, k_frameRun, k_raise, k_State_tickUp]

theorem k_linkFail {p : Nat} {s z : State} (h : linkFail p s = some z) (hs : Memory.wf s.mem = true) :
    Memory.wf z.mem = true := by
  have h1 : ∀ (t : State) (i : Nat), MemOk t → MemOk (freeCircuit t i) := fun _ _ h => k_freeCircuit h
  have h2 : ∀ (t : State) (i : Nat), MemOk t →
      MemOk (let w := connW0 t i; if connState w ≠ 0 ∧ (connSrc w = 8 + p ∨ connDst w = 8 + p) then freeCircuit t i else t) := by
    intro t i h
    dsimp only
    split
    · exact h1 _ _ h
    · exact h
  have h3 := foldl_memOk h2 (List.range 256) hs
  have h4 : ∀ (t : State), MemOk t →
      MemOk (({ t with pkg := { t.pkg with peerDown := t.pkg.peerDown ||| (1 : BitVec 8) <<< p } } : State).ras 3 7 8 0) :=
    fun _ h => k_State_ras h
  unfold linkFail at h
  split at h
  · cases h
  · injection h with h
    have h5 := h4 _ h3
    exact h ▸ h5

theorem k_execPeerLinkFail {port : BitVec 3} {s : State} {z : State} (h : execPeerLinkFail port s = .next z) (hs : Memory.wf s.mem = true) :
    Memory.wf z.mem = true := by
  unfold execPeerLinkFail at h
  grind -lia -ring -linarith [k_event, k_linkFail, k_raise, k_State_tickUp]

theorem k_setBoot {s : State} {stage : Nat} {err : Nat} (hs : Memory.wf s.mem = true) :
    Memory.wf (setBoot s stage err).mem = true := by
  unfold setBoot
  grind -lia -ring -linarith [k_State_devSet]

theorem k_romCheck {ecdsaOk : Bool} {lmsOk : Bool} {versionOk : Bool} {trip : Nat} {s : State} (hs : Memory.wf s.mem = true) :
    Memory.wf (romCheck ecdsaOk lmsOk versionOk trip s).mem = true := by
  unfold romCheck
  grind -lia -ring -linarith [k_State_measure, k_setBoot]

theorem k_powerUp {s : State} (hs : Memory.wf s.mem = true) : Memory.wf (powerUp s).mem = true := by
  have h0 : Memory.wf MemSys.reset = true := reset_memory_wf
  show Memory.wf { MemSys.reset with mem := hostBytes s.mem.mem } = true
  rw [wf_iff] at hs h0 ⊢
  exact ⟨filter_wf _ hs.1, h0.2⟩

theorem k_coldResetRun {ecdsaOk : Bool} {lmsOk : Bool} {versionOk : Bool} {s : State} (hs : Memory.wf s.mem = true) :
    Memory.wf (coldResetRun ecdsaOk lmsOk versionOk s).mem = true := by
  unfold coldResetRun
  grind -lia -ring -linarith [k_romCheck, k_powerUp]

theorem k_execColdReset {ecdsaOk : Bool} {lmsOk : Bool} {versionOk : Bool} {s : State} {z : State} (h : execColdReset ecdsaOk lmsOk versionOk s = .next z) (hs : Memory.wf s.mem = true) :
    Memory.wf z.mem = true := by
  unfold execColdReset at h
  grind -lia -ring -linarith [k_coldResetRun]

theorem k_execRecoveryImageWrite {ecdsaOk : Bool} {lmsOk : Bool} {versionOk : Bool} {s : State} {z : State} (h : execRecoveryImageWrite ecdsaOk lmsOk versionOk s = .next z) (hs : Memory.wf s.mem = true) :
    Memory.wf z.mem = true := by
  unfold execRecoveryImageWrite at h
  grind -lia -ring -linarith [k_event, k_romCheck, k_raise, k_State_tickUp]

theorem devPutAll_memOk : ∀ (l : List Word) (s : State) (a : Nat), MemOk s → MemOk (devPutAll s a l)
  | [], _, _, h => h
  | _ :: t, _, _, h => devPutAll_memOk t _ _ (k_State_devSet h)

theorem k_devPutAll {s : State} {a : Nat} {l : List Word} (hs : Memory.wf s.mem = true) :
    Memory.wf (devPutAll s a l).mem = true := devPutAll_memOk l s a hs

theorem tablePut_memOk : ∀ (l : List Word) (s : State) (i : Nat), MemOk s → MemOk (tablePut s i l)
  | [], _, _, h => h
  | _ :: t, _, _, h => tablePut_memOk t _ _ (k_State_devSet h)

theorem k_tablePut {s : State} {i : Nat} {l : List Word} (hs : Memory.wf s.mem = true) :
    Memory.wf (tablePut s i l).mem = true := tablePut_memOk l s i hs

theorem k_trained {t : Training} {s : State} (hs : Memory.wf s.mem = true) : Memory.wf (trained t s).mem = true := by
  have h1 : ∀ (u : State) (a : Nat) (w : Word), MemOk u → MemOk (u.devSet a w) := fun _ _ _ h => k_State_devSet h
  have h2 : ∀ (u : State) (a : Nat) (w : List Word), MemOk u → MemOk (u.measure a w) := fun _ _ _ h => k_State_measure h
  have h3 : ∀ (u : State) (a b : Nat), MemOk u → MemOk (setBoot u a b) := fun _ _ _ h => k_setBoot h
  have h0 : MemOk { s with pkg := { s.pkg with dies := t.enabled } } := hs
  unfold trained
  exact h3 _ _ _ (h2 _ _ _ (h2 _ _ _ (foldl_memOk (fun _ _ h => h1 _ _ _ h) _
    (devPutAll_memOk _ _ _ (tablePut_memOk _ _ _ h0)))))

theorem k_dieTrainingRun {t : Training} {s : State} {z : State} (h : dieTrainingRun t s = some z) (hs : Memory.wf s.mem = true) :
    Memory.wf z.mem = true := by
  unfold dieTrainingRun at h
  grind -lia -ring -linarith [k_setBoot, k_trained]

theorem k_execDieTraining {ports : BitVec 8} {caches : BitVec 8} {farMode : BitVec 8} {farGib : List (BitVec 32)} {powerReq : BitVec 32} {powerLo : BitVec 32} {powerHi : BitVec 32} {timeHz : Word} {ebudget : List (BitVec 32)} {peers : BitVec 8} {hostW : BitVec 8} {hostGt : BitVec 8} {fwVer : BitVec 32} {s : State} {z : State} (h : execDieTraining ports caches farMode farGib powerReq powerLo powerHi timeHz ebudget peers hostW hostGt fwVer s = .next z) (hs : Memory.wf s.mem = true) :
    Memory.wf z.mem = true := by
  unfold execDieTraining at h
  grind -lia -ring -linarith [k_event, k_dieTrainingRun, k_raise, k_State_tickUp, Option.bind_eq_some_iff, Option.map_eq_some_iff]

theorem k_getMeasurements {i : Nat} {s : State} (hs : Memory.wf s.mem = true) :
    Memory.wf (getMeasurements i s).mem = true := by
  unfold getMeasurements
  grind -lia -ring -linarith [Option.bind_eq_some_iff, Option.map_eq_some_iff]

theorem k_execGetMeasurements {ix : BitVec 8} {s : State} {z : State} (h : execGetMeasurements ix s = .next z) (hs : Memory.wf s.mem = true) :
    Memory.wf z.mem = true := by
  unfold execGetMeasurements at h
  grind -lia -ring -linarith [k_getMeasurements]

theorem k_State_setTdi {s : State} {p : Nat} {t : TdiState} (hs : Memory.wf s.mem = true) :
    Memory.wf (State.setTdi s p t).mem = true := by
  unfold State.setTdi
  grind -lia -ring -linarith []

theorem k_setkeyRun {p : Nat} {slot : Nat} {key : BitVec 256} {txfix : BitVec 32} {rxfix : BitVec 32} {s : State} (hs : Memory.wf s.mem = true) :
    Memory.wf (setkeyRun p slot key txfix rxfix s).mem = true := by
  unfold setkeyRun
  grind -lia -ring -linarith [k_State_measure]

theorem k_execSetkey {part : BitVec 7} {slot : BitVec 6} {key : BitVec 256} {txfix : BitVec 32} {rxfix : BitVec 32} {s : State} {z : State} (h : execSetkey part slot key txfix rxfix s = .next z) (hs : Memory.wf s.mem = true) :
    Memory.wf z.mem = true := by
  unfold execSetkey at h
  grind -lia -ring -linarith [k_event, k_setkeyRun, k_raise, k_State_tickUp]

theorem k_execTdispStateChange {part : BitVec 7} {st : TdiState} {s : State} {z : State} (h : execTdispStateChange part st s = .next z) (hs : Memory.wf s.mem = true) :
    Memory.wf z.mem = true := by
  unfold execTdispStateChange at h
  grind -lia -ring -linarith [k_event, k_State_setTdi, k_raise, k_State_tickUp]

theorem k_tdiFail {p : Nat} {s : State} (hs : Memory.wf s.mem = true) :
    Memory.wf (tdiFail p s).mem = true := by
  unfold tdiFail
  grind -lia -ring -linarith [k_State_measure, k_State_ras, k_State_setTdi]

theorem k_execTdiError {part : BitVec 7} {s : State} {z : State} (h : execTdiError part s = .next z) (hs : Memory.wf s.mem = true) :
    Memory.wf z.mem = true := by
  unfold execTdiError at h
  grind -lia -ring -linarith [k_event, k_tdiFail, k_raise, k_State_tickUp]

theorem k_idePut {s : State} {e : IdeStream} (hs : Memory.wf s.mem = true) :
    Memory.wf (idePut s e).mem = true := by
  unfold idePut
  grind -lia -ring -linarith []

theorem k_flitSend {s : State} {i : Nat} {seq : BitVec 16} (hs : Memory.wf s.mem = true) :
    Memory.wf (flitSend s i seq).mem = true := by
  unfold flitSend
  grind -lia -ring -linarith [k_idePut]

theorem k_flitAck {s : State} {i : Nat} {seq : BitVec 16} (hs : Memory.wf s.mem = true) :
    Memory.wf (flitAck s i seq).mem = true := by
  unfold flitAck
  grind -lia -ring -linarith [k_idePut]

theorem k_keySwitch {s : State} {i : Nat} (hs : Memory.wf s.mem = true) :
    Memory.wf (keySwitch s i).mem = true := by
  unfold keySwitch
  grind -lia -ring -linarith [k_idePut]

theorem k_flitReplayRun {i : Nat} {seq : BitVec 16} {s : State} {z : State} (h : flitReplayRun i seq s = some z) (hs : Memory.wf s.mem = true) :
    Memory.wf z.mem = true := by
  unfold flitReplayRun at h
  grind -lia -ring -linarith [k_flitAck]

theorem k_execFlitReplay {stream : BitVec 4} {seq : BitVec 16} {s : State} {z : State} (h : execFlitReplay stream seq s = .next z) (hs : Memory.wf s.mem = true) :
    Memory.wf z.mem = true := by
  unfold execFlitReplay at h
  grind -lia -ring -linarith [k_event, k_flitReplayRun, k_raise, k_State_tickUp]

theorem k_setStopRun {i : Nat} {set : Bool} {s : State} {z : State} (h : setStopRun i set s = some z) (hs : Memory.wf s.mem = true) :
    Memory.wf z.mem = true := by
  unfold setStopRun at h
  grind -lia -ring -linarith [k_idePut]

theorem k_execKSetStop {stream : BitVec 4} {set : Bool} {s : State} {z : State} (h : execKSetStop stream set s = .next z) (hs : Memory.wf s.mem = true) :
    Memory.wf z.mem = true := by
  unfold execKSetStop at h
  grind -lia -ring -linarith [k_event, k_setStopRun, k_raise, k_State_tickUp]

theorem k_giveRing {s : State} {base : Nat} {lg : Nat} (hs : Memory.wf s.mem = true) :
    Memory.wf (giveRing s base lg).mem = true := by
  unfold giveRing
  grind -lia -ring -linarith [k_State_ras]

theorem k_ringRead {s : State} {n : Nat} (hs : Memory.wf s.mem = true) :
    Memory.wf (ringRead s n).mem = true := by
  unfold ringRead
  grind -lia -ring -linarith []

theorem k_senseDie {s : State} {d : Nat} {i : Nat} {temp : BitVec 16} (hs : Memory.wf s.mem = true) :
    Memory.wf (senseDie s d i temp).mem = true := by
  unfold senseDie
  grind -lia -ring -linarith [k_State_devSet]

theorem k_throttleRun {d : Nat} {i : Nat} {temp : BitVec 16} {mhz : BitVec 12} {s : State} {z : State} (h : throttleRun d i temp mhz s = some z) (hs : Memory.wf s.mem = true) :
    Memory.wf z.mem = true := by
  unfold throttleRun at h
  grind -lia -ring -linarith [k_State_devSet, k_senseDie]

theorem k_execThermalThrottle {die : BitVec 4} {sensor : BitVec 4} {temp : BitVec 16} {mhz : BitVec 12} {s : State} {z : State} (h : execThermalThrottle die sensor temp mhz s = .next z) (hs : Memory.wf s.mem = true) :
    Memory.wf z.mem = true := by
  unfold execThermalThrottle at h
  grind -lia -ring -linarith [k_event, k_throttleRun, k_raise, k_State_tickUp]

theorem k_tripRun {d : Nat} {i : Nat} {s : State} {z : State} (h : tripRun d i s = some z) (hs : Memory.wf s.mem = true) :
    Memory.wf z.mem = true := by
  unfold tripRun at h
  grind -lia -ring -linarith []

theorem k_execThermalTrip {die : BitVec 4} {sensor : BitVec 4} {s : State} {z : State} (h : execThermalTrip die sensor s = .next z) (hs : Memory.wf s.mem = true) :
    Memory.wf z.mem = true := by
  unfold execThermalTrip at h
  grind -lia -ring -linarith [k_event, k_tripRun, k_raise, k_State_tickUp]

theorem k_confFault {s : State} {tdi : Option (BitVec 7)} {ps : List Nat} (hs : Memory.wf s.mem = true) :
    Memory.wf (confFault s tdi ps).mem = true := by
  have h1 : ∀ (t : State) (p : Nat), MemOk t → MemOk (tdiFail p t) := fun _ _ h => k_tdiFail h
  have h2 : ∀ (t : State) (p : Nat), MemOk t →
      MemOk (if tdi.map (fun x => x.toNat) ≠ some p ∧ t.tdiOf p ≠ .error then tdiFail p t else t) := by
    intro t p h
    split
    · exact h1 _ _ h
    · exact h
  exact foldl_memOk h2 ps hs

theorem k_hostWrite {s : State} {pa : Nat} {v : Nat} {z : State} (h : hostWrite s pa v = some z) (hs : Memory.wf s.mem = true) :
    Memory.wf z.mem = true := by
  unfold hostWrite at h
  grind -lia -ring -linarith [k_devWrite, k_State_writePa]

theorem k_pushHostRead {s : State} {pa : Nat} {v : Option Word} (hs : Memory.wf s.mem = true) :
    Memory.wf (pushHostRead s pa v).mem = true := by
  unfold pushHostRead
  grind -lia -ring -linarith []

theorem k_hostAccess {pa : Nat} {w : Option Word} {tdi : Option (BitVec 7)} {s : State} (hs : Memory.wf s.mem = true) :
    Memory.wf (hostAccess pa w tdi s).mem = true := by
  have h1 : ∀ ps : List Nat, MemOk (confFault s tdi ps) := fun _ => k_confFault hs
  have h2 : ∀ (t : State) (v : Option Word), MemOk t → MemOk (pushHostRead t pa v) := fun _ _ h => k_pushHostRead h
  unfold hostAccess
  dsimp only
  generalize confOwners s pa = ps
  split
  · split
    · exact h2 _ _ (h1 _)
    · exact h2 _ _ hs
  · split
    · exact h1 _
    · generalize ho : hostWrite s pa _ = o
      cases o with
      | none => exact hs
      | some t => exact k_hostWrite ho hs

theorem k_execHostPortAccess {pa : BitVec 52} {write : Option Word} {tdi : Option (BitVec 7)} {s : State} {z : State} (h : execHostPortAccess pa write tdi s = .next z) (hs : Memory.wf s.mem = true) :
    Memory.wf z.mem = true := by
  unfold execHostPortAccess at h
  grind -lia -ring -linarith [k_event, k_hostAccess, k_raise, k_State_tickUp]


end Sys2Proof.Machine
end

