-- ==== Sys2Proof/Laws/Keep/ScalarFp.lean ====
section
/-! SUPPORT. Every operation of Machine/ScalarFp.lean keeps the canonical form of memory. -/

namespace Sys2Proof.Machine

theorem k_execFpOp {f : FpForm} {s : State} {t : State} (h : execFpOp f s = .next t) (hs : Memory.wf s.mem = true) :
    Memory.wf t.mem = true := by
  unfold execFpOp at h
  grind -lia -ring -linarith [k_State_setH, k_State_advance, k_raise]


end Sys2Proof.Machine
end

