-- ==== Sys2Proof/Laws/Keep/ScalarInt.lean ====
section
/-! SUPPORT. Every operation of Machine/ScalarInt.lean keeps the canonical form of memory. -/

namespace Sys2Proof.Machine

theorem k_execIntegerOp {f : IntForm} {s : State} {t : State} (h : execIntegerOp f s = .next t) (hs : Memory.wf s.mem = true) :
    Memory.wf t.mem = true := by
  unfold execIntegerOp at h
  grind -lia -ring -linarith [k_State_setX, k_State_advance]

theorem k_jumpEffect {f : JumpForm} {s : State} (hs : Memory.wf s.mem = true) :
    Memory.wf (jumpEffect f s).mem = true := by
  unfold jumpEffect
  grind -lia -ring -linarith [k_State_setH, k_State_setX]

theorem k_execBranchJump {f : JumpForm} {s : State} {t : State} (h : execBranchJump f s = .next t) (hs : Memory.wf s.mem = true) :
    Memory.wf t.mem = true := by
  unfold execBranchJump at h
  grind -lia -ring -linarith [k_guarded, k_jumpEffect, k_raise, k_State_tickUp]


end Sys2Proof.Machine
end

