-- ==== Sys2Proof/Laws/Keep/Dispatch.lean ====
section
/-! SUPPORT. Every operation of Machine/Dispatch.lean keeps the canonical form of memory. -/

namespace Sys2Proof.Machine

theorem k_exec {i : Instr} {s z : State} (h : exec i s = .next z) (hs : Memory.wf s.mem = true) :
    Memory.wf z.mem = true := by
  cases i with
  | vsetl => exact k_execVsetl h hs
  | vsetli => exact k_execVsetli h hs
  | vfetchPcrel => exact k_execVfetchPcrel h hs
  | vfetchReg => exact k_execVfetchReg h hs
  | vget => exact k_execVget h hs
  | vwait => exact k_execVwait h hs
  | vfenceSv => exact k_execVfenceSv h hs
  | vfenceVs => exact k_execVfenceVs h hs
  | vfenceVv => exact k_execVfenceVv h hs
  | xfence => exact k_execXfence h hs
  | xlda => exact k_execXlda h hs
  | xstl sc wd rs1 rs2 => exact k_execXstl (_sc := sc) h hs
  | xlook => exact k_execXlook h hs
  | psetvl => exact k_execPsetvl h hs
  | gbar => exact k_execGbar h hs
  | gbara => exact k_execGbara h hs
  | gbarw => exact k_execGbarw h hs
  | gbarx => exact k_execGbarx h hs
  | hcont => exact k_execHcont h hs
  | hsend => exact k_execHsend h hs
  | hsendb => exact k_execHsendb h hs
  | hwait => exact k_execHwait h hs
  | uiret => exact k_execUiret h hs
  | park => exact k_execPark h hs
  | mcfg => exact k_execMcfg h hs
  | msync => exact k_execMsync h hs
  | mldt => exact k_execMldt h hs
  | mstt => exact k_execMstt h hs
  | mlda => exact k_execMlda h hs
  | msta => exact k_execMsta h hs
  | mzero => exact k_execMzero h hs
  | mma => exact k_execMma h hs
  | mmas => exact k_execMmas h hs
  | mma64 => exact k_execMma64 h hs
  | mmal => exact k_execMmal h hs
  | mcvt => exact k_execMcvt h hs
  | maccv => exact k_execMaccv h hs
  | mvtile => exact k_execMvtile h hs
  | mpin => exact k_execMpin h hs
  | munpin => exact k_execMunpin h hs
  | mgdr => exact k_execMgdr h hs
  | mgdrq => exact k_execMgdrq h hs
  | mqry => exact k_execMqry h hs
  | mspill => exact k_execMspill h hs
  | mfill => exact k_execMfill h hs
  | matrixEntryExecute => exact k_execMatrixEntryExecute h hs
  | ecpy => exact k_execEcpy h hs
  | ecpys => exact k_execEcpys h hs
  | egath => exact k_execEgath h hs
  | escat => exact k_execEscat h hs
  | ered => exact k_execEred h hs
  | egcm => exact k_execEgcm h hs
  | ewaitk => exact k_execEwaitk h hs
  | ctxsave => exact k_execCtxsave h hs
  | ctxload => exact k_execCtxload h hs
  | pwflush => exact k_execPwflush h hs
  | scalarLoad => exact k_execScalarLoad h hs
  | scalarStore => exact k_execScalarStore h hs
  | fence fm pred succ rs1 rd => exact k_execFence (_fm := fm) (_succ := succ) (_rs1 := rs1) (_rd := rd) h hs
  | fenceTso rs1 rd => exact k_execFenceTso (_rs1 := rs1) (_rd := rd) h hs
  | fenceI imm rs1 rd => exact k_execFenceI (_imm := imm) (_rs1 := rs1) (_rd := rd) h hs
  | lr dbl aq rl rd rs1 => exact k_execLr (_rl := rl) h hs
  | sc dbl aq rl rd rs1 rs2 => exact k_execSc (_rl := rl) h hs
  | amo op dbl aq rl rd rs1 rs2 => exact k_execAmo (_rl := rl) h hs
  | amocasW aq rl rd rs1 rs2 => exact k_execAmocasW (_rl := rl) h hs
  | amocasD aq rl rd rs1 rs2 => exact k_execAmocasD (_rl := rl) h hs
  | amocasQ aq rl rd rs1 rs2 => exact k_execAmocasQ (_rl := rl) h hs
  | integerOp => exact k_execIntegerOp h hs
  | fpOp => exact k_execFpOp h hs
  | branchJump => exact k_execBranchJump h hs
  | ecall => exact k_execEcall h hs
  | ebreak => exact k_execEbreak h hs
  | sret => exact k_execSret h hs
  | mret => exact k_execMret h hs
  | wfi => exact k_execWfi h hs
  | sfenceVma => exact k_execSfenceVma h hs
  | csrInstruction => exact k_execCsrInstruction h hs
  | fcsrAccess => exact k_execFcsrAccess h hs
  | vlutAccess => exact k_execVlutAccess h hs
  | vle => exact k_execVle h hs
  | vse => exact k_execVse h hs
  | vlse => exact k_execVlse h hs
  | vsse => exact k_execVsse h hs
  | vlxe => exact k_execVlxe h hs
  | vsxe => exact k_execVsxe h hs
  | vlseg => exact k_execVlseg h hs
  | vsseg => exact k_execVsseg h hs
  | vlff => exact k_execVlff h hs
  | vlwr => exact k_execVlwr h hs
  | vswr => exact k_execVswr h hs
  | vpref => exact k_execVpref h hs
  | vamo => exact k_execVamo h hs
  | faultReply => exact k_execFaultReply h hs
  | vadd => exact k_execVadd h hs
  | vsub => exact k_execVsub h hs
  | vrsub => exact k_execVrsub h hs
  | vmul => exact k_execVmul h hs
  | vmulh => exact k_execVmulh h hs
  | vmulhu => exact k_execVmulhu h hs
  | vmulhsu => exact k_execVmulhsu h hs
  | vmacc => exact k_execVmacc h hs
  | vnmsac => exact k_execVnmsac h hs
  | vmadd => exact k_execVmadd h hs
  | vdiv => exact k_execVdiv h hs
  | vdivu => exact k_execVdivu h hs
  | vrem => exact k_execVrem h hs
  | vremu => exact k_execVremu h hs
  | vmin => exact k_execVmin h hs
  | vmax => exact k_execVmax h hs
  | vminu => exact k_execVminu h hs
  | vmaxu => exact k_execVmaxu h hs
  | vand => exact k_execVand h hs
  | vor => exact k_execVor h hs
  | vxor => exact k_execVxor h hs
  | vandn => exact k_execVandn h hs
  | vsll => exact k_execVsll h hs
  | vsrl => exact k_execVsrl h hs
  | vsra => exact k_execVsra h hs
  | vsadd => exact k_execVsadd h hs
  | vsaddu => exact k_execVsaddu h hs
  | vssub => exact k_execVssub h hs
  | vssubu => exact k_execVssubu h hs
  | vavg => exact k_execVavg h hs
  | vavgu => exact k_execVavgu h hs
  | vabsd => exact k_execVabsd h hs
  | vwadd => exact k_execVwadd h hs
  | vwaddu => exact k_execVwaddu h hs
  | vwsub => exact k_execVwsub h hs
  | vwmul => exact k_execVwmul h hs
  | vwmulu => exact k_execVwmulu h hs
  | vwmacc => exact k_execVwmacc h hs
  | vnsrl => exact k_execVnsrl h hs
  | vnclip => exact k_execVnclip h hs
  | vnclipu => exact k_execVnclipu h hs
  | vsext => exact k_execVsext h hs
  | vzext => exact k_execVzext h hs
  | vcmp => exact k_execVcmp h hs
  | vmerge => exact k_execVmerge h hs
  | vmv => exact k_execVmv h hs
  | vclz => exact k_execVclz h hs
  | vctz => exact k_execVctz h hs
  | vpopc => exact k_execVpopc h hs
  | vdot => exact k_execVdot h hs
  | vlut4 => exact k_execVlut4 h hs
  | vfadd => exact k_execVfadd h hs
  | vfsub => exact k_execVfsub h hs
  | vfmul => exact k_execVfmul h hs
  | vfdiv => exact k_execVfdiv h hs
  | vfsqrt => exact k_execVfsqrt h hs
  | vfmadd => exact k_execVfmadd h hs
  | vfmsub => exact k_execVfmsub h hs
  | vfnmadd => exact k_execVfnmadd h hs
  | vfnmsub => exact k_execVfnmsub h hs
  | vfmin => exact k_execVfmin h hs
  | vfmax => exact k_execVfmax h hs
  | vfminmax => exact k_execVfminmax h hs
  | vfcmp => exact k_execVfcmp h hs
  | vfclass => exact k_execVfclass h hs
  | vfsgnj => exact k_execVfsgnj h hs
  | vfsgnjn => exact k_execVfsgnjn h hs
  | vfsgnjx => exact k_execVfsgnjx h hs
  | vfcvt => exact k_execVfcvt h hs
  | vfrcp => exact k_execVfrcp h hs
  | vfrsqrt => exact k_execVfrsqrt h hs
  | vfdot2 => exact k_execVfdot2 h hs
  | vfwma => exact k_execVfwma h hs
  | vfrnd => exact k_execVfrnd h hs
  | vslideup => exact k_execVslideup h hs
  | vslidedn => exact k_execVslidedn h hs
  | vslide1up => exact k_execVslide1up h hs
  | vslide1dn => exact k_execVslide1dn h hs
  | vperm => exact k_execVperm h hs
  | vcompress => exact k_execVcompress h hs
  | viota => exact k_execViota h hs
  | vid => exact k_execVid h hs
  | vred => exact k_execVred h hs
  | vfredsum => exact k_execVfredsum h hs
  | vfredosum => exact k_execVfredosum h hs
  | vfredmin => exact k_execVfredmin h hs
  | vfredmax => exact k_execVfredmax h hs
  | vxget => exact k_execVxget h hs
  | vmlog => exact k_execVmlog h hs
  | vmpopc => exact k_execVmpopc h hs
  | vmfirst => exact k_execVmfirst h hs
  | vmsbf => exact k_execVmsbf h hs
  | vmsif => exact k_execVmsif h hs
  | vmsof => exact k_execVmsof h hs
  | vmspush => exact k_execVmspush h hs
  | vmselse => exact k_execVmselse h hs
  | vmspop => exact k_execVmspop h hs
  | vmsbrk => exact k_execVmsbrk h hs
  | vmsany => exact k_execVmsany h hs
  | vtexs => exact k_execVtexs h hs
  | vtexl => exact k_execVtexl h hs
  | vtexd => exact k_execVtexd h hs
  | vtexf => exact k_execVtexf h hs
  | vtexg4 => exact k_execVtexg4 h hs
  | vtexq => exact k_execVtexq h hs
  | vrqbox => exact k_execVrqbox h hs
  | vrqtri => exact k_execVrqtri h hs
  | vexport => exact k_execVexport h hs
  | vbind => exact k_execVbind h hs
  | vunbind => exact k_execVunbind h hs
  | vlsync => exact k_execVlsync h hs
  | vstop => exact k_execVstop h hs
  | channelRingTransfer => exact k_execChannelRingTransfer h hs
  | trapEntry => exact k_execTrapEntry h hs
  | uiPost => exact k_execUiPost h hs
  | uiEntry => exact k_execUiEntry h hs
  | shapeChangeNotice => exact k_execShapeChangeNotice h hs
  | noticeWindowExpiry => exact k_execNoticeWindowExpiry h hs
  | messageDelivery => exact k_execMessageDelivery h hs
  | messageDivert => exact k_execMessageDivert h hs
  | inboxDelivery => exact k_execInboxDelivery h hs
  | hartRetire => exact k_execHartRetire h hs
  | pinnedRefill => exact k_execPinnedRefill h hs
  | pinnedEvict => exact k_execPinnedEvict h hs
  | scratchpadEvict => exact k_execScratchpadEvict h hs
  | scratchpadStreamIn => exact k_execScratchpadStreamIn h hs
  | apertureRetry => exact k_execApertureRetry h hs
  | corePowerGate => exact k_execCorePowerGate h hs
  | shadowEntryWrite => exact k_execShadowEntryWrite h hs
  | swap => exact k_execSwap h hs
  | swapBroadcastArrival => exact k_execSwapBroadcastArrival h hs
  | dieAcknowledge => exact k_execDieAcknowledge h hs
  | routedRequestArrival => exact k_execRoutedRequestArrival h hs
  | windowTableWrite => exact k_execWindowTableWrite h hs
  | circuitSetUp => exact k_execCircuitSetUp h hs
  | circuitTearDown => exact k_execCircuitTearDown h hs
  | circuitUp => exact k_execCircuitUp h hs
  | circuitDown => exact k_execCircuitDown h hs
  | kick => exact k_execKick h hs
  | kickRecordFill => exact k_execKickRecordFill h hs
  | microcodeLoad => exact k_execMicrocodeLoad h hs
  | registerWrite => exact k_execRegisterWrite h hs
  | queueCreate => exact k_execQueueCreate h hs
  | notify => exact k_execNotify h hs
  | reportQueueNotify => exact k_execReportQueueNotify h hs
  | dispatch => exact k_execDispatch h hs
  | streamjob => exact k_execStreamjob h hs
  | waitsig => exact k_execWaitsig h hs
  | setsig => exact k_execSetsig h hs
  | indirect => exact k_execIndirect h hs
  | copy => exact k_execCopy h hs
  | copyComplete => exact k_execCopyComplete h hs
  | drainMode0 => exact k_execDrainMode0 h hs
  | drainMode1 => exact k_execDrainMode1 h hs
  | drainMode2 => exact k_execDrainMode2 h hs
  | drainComplete => exact k_execDrainComplete h hs
  | destroyMode0 => exact k_execDestroyMode0 h hs
  | destroyMode1 => exact k_execDestroyMode1 h hs
  | destroyComplete => exact k_execDestroyComplete h hs
  | resetpart => exact k_execResetpart h hs
  | timerset => exact k_execTimerset h hs
  | reportWrite => exact k_execReportWrite h hs
  | jobPick => exact k_execJobPick h hs
  | gangPlace => exact k_execGangPlace h hs
  | jobComplete => exact k_execJobComplete h hs
  | energyWindowStart => exact k_execEnergyWindowStart h hs
  | watchdogExpiry => exact k_execWatchdogExpiry h hs
  | clockChange => exact k_execClockChange h hs
  | beginpass => exact k_execBeginpass h hs
  | state => exact k_execState h hs
  | draw => exact k_execDraw h hs
  | drawmesh => exact k_execDrawmesh h hs
  | drawind => exact k_execDrawind h hs
  | endpass => exact k_execEndpass h hs
  | geometryGangLaunch => exact k_execGeometryGangLaunch h hs
  | batchClose => exact k_execBatchClose h hs
  | primitiveLand => exact k_execPrimitiveLand h hs
  | fragmentEmit => exact k_execFragmentEmit h hs
  | fragmentGangLaunch => exact k_execFragmentGangLaunch h hs
  | fragmentStreamEnd => exact k_execFragmentStreamEnd h hs
  | blendApply => exact k_execBlendApply h hs
  | renderContextSave => exact k_execRenderContextSave h hs
  | renderContextRestore => exact k_execRenderContextRestore h hs
  | patrolScrub => exact k_execPatrolScrub h hs
  | poisonListFree => exact k_execPoisonListFree h hs
  | cxlPortDown => exact k_execCxlPortDown h hs
  | peerFrameReceive => exact k_execPeerFrameReceive h hs
  | peerLinkFail => exact k_execPeerLinkFail h hs
  | coldReset => exact k_execColdReset h hs
  | recoveryImageWrite => exact k_execRecoveryImageWrite h hs
  | dieTraining => exact k_execDieTraining h hs
  | getMeasurements => exact k_execGetMeasurements h hs
  | setkey => exact k_execSetkey h hs
  | tdispStateChange => exact k_execTdispStateChange h hs
  | tdiError => exact k_execTdiError h hs
  | flitReplay => exact k_execFlitReplay h hs
  | kSetStop => exact k_execKSetStop h hs
  | thermalThrottle => exact k_execThermalThrottle h hs
  | thermalTrip => exact k_execThermalTrip h hs
  | hostPortAccess => exact k_execHostPortAccess h hs
  | corePowerRestore => exact k_execCorePowerRestore h hs


end Sys2Proof.Machine
end

