-- ==== Sys2Proof/Laws/Keep/Fetch.lean ====
section
/-! SUPPORT. Every operation of Machine/Fetch.lean keeps the canonical form of memory. -/

namespace Sys2Proof.Machine

theorem k_scalarStep {s : State} {z : State} (h : scalarStep s = .next z) (hs : Memory.wf s.mem = true) :
    Memory.wf z.mem = true := by
  unfold scalarStep at h
  grind -lia -ring -linarith [k_exec, k_raise]

theorem k_vectorStep {s : State} {z : State} (h : vectorStep s = .next z) (hs : Memory.wf s.mem = true) :
    Memory.wf z.mem = true := by
  unfold vectorStep at h
  grind -lia -ring -linarith [k_exec, k_raiseV]

theorem k_fillTlb {s : State} {va : Word} (hs : Memory.wf s.mem = true) :
    Memory.wf (fillTlb s va).mem = true := by
  unfold fillTlb
  grind -lia -ring -linarith [k_State_setH]

theorem k_fillL1 {s : State} {core : Nat} {line : Nat} (hs : Memory.wf s.mem = true) :
    Memory.wf (fillL1 s core line).mem = true := by
  unfold fillL1
  grind -lia -ring -linarith [k_State_setMem, Memory.wf, mapSet_wf, writeLe_wf]

theorem k_dropLine {s : State} {core : Nat} {line : Nat} (hs : Memory.wf s.mem = true) :
    Memory.wf (dropLine s core line).mem = true := by
  unfold dropLine
  grind -lia -ring -linarith [k_State_setMem, Memory.wf, mapSet_wf, writeLe_wf]

theorem k_fillTexel {s : State} {line : Nat} (hs : Memory.wf s.mem = true) :
    Memory.wf (fillTexel s line).mem = true := by
  unfold fillTexel
  grind -lia -ring -linarith [k_State_setH]

theorem k_sendRequest {s : State} {origin : Nat} {addr : Nat} {store : Option Word} (hs : Memory.wf s.mem = true) :
    Memory.wf (sendRequest s origin addr store).mem = true := by
  unfold sendRequest
  grind -lia -ring -linarith []

theorem k_runTurn {t : Turn} {s : State} {z : State} (h : runTurn t s = .next z) (hs : Memory.wf s.mem = true) :
    Memory.wf z.mem = true := by
  unfold runTurn at h
  grind -lia -ring -linarith [k_carryLine, k_exec, k_scalarStep, k_vectorStep, k_fillTlb, k_fillL1, k_dropLine, k_fillTexel, k_sendRequest, k_State_swapHart, k_State_message, k_event, k_poisonWriteBack, k_eccError, k_flitSend, k_flitAck, k_keySwitch, k_giveRing, k_ringRead, k_senseDie, k_elapse, k_State_setShape, k_supervisorShape, k_createJobGang, k_grantCluster, k_grantEngine, k_grantRender, k_setRuntime, k_raise, k_State_tickUp]

theorem k_countCycle {s : State} (hs : Memory.wf s.mem = true) :
    Memory.wf (countCycle s).mem = true := by
  unfold countCycle
  grind -lia -ring -linarith [k_State_setH]


end Sys2Proof.Machine
end

