-- ==== Sys2Proof/Laws/PerInstr.lean ====
section
/-! SUPPORT. The decoder reads back every field that the encoder writes: one lemma for each instruction. -/

namespace Sys2Proof.Laws.DecodesBack

/-- The fields that the encoder gives a well-formed instruction decode to it; an event has none. -/
def Statement (i : Instr) : Prop :=
  i.wf = true → (∀ f, scalarFields i = some f → decodeFields f = some i) ∧
    (∀ f, blockFields i = some f → decodeBFields f = some i)

/-! ## Bits put together and taken apart -/

theorem file_back (f : File) : File.ofCode f.code = f := by cases f <;> rfl
@[simp] theorem msk_back (m : Msk) : Msk.ofCode m.code = some m := by cases m <;> rfl
@[simp] theorem rm_back (m : Rm) : Rm.ofCode m.code = some m := by cases m <;> rfl
@[simp] theorem scope_back (c : Scope) : Scope.ofCode c.code = some c := by cases c <;> rfl
@[simp] theorem accw_back (c : AccW) : AccW.ofCode c.code = c := by cases c <;> rfl
theorem k_hi (n : BitVec 3) : (0#2 ++ n).extractLsb' 3 2 = 0#2 := by revert n; decide
theorem k_lo (n : BitVec 3) : (0#2 ++ n).extractLsb' 0 3 = n := by revert n; decide
theorem b_back (i : BitVec 7) : i.extractLsb' 2 5 ++ i.extractLsb' 0 2 = i := by revert i; decide

theorem vop_of_src {opc : BitVec 8} {fn : BitVec 4} {o : VOp} (h : (vopFields opc fn o).srcB = some o.b) :
    (vopFields opc fn o).vop = some o := by
  unfold BFields.vop
  rw [h]
  obtain ⟨d, a, b, c, m, rm, imm⟩ := o
  simp only [vopFields, Option.bind_some, msk_back, rm_back, Option.map_some, BFields.opndD, BFields.opndA,
    BFields.opndC, file_back]

/-- A word of FORM 0 to 2 gives its operands back. -/
theorem vop_plain {opc : BitVec 8} {fn : BitVec 4} {o : VOp} (h : isSpecialOpc opc = false) :
    (vopFields opc fn o).vop = some o := by
  apply vop_of_src
  unfold BFields.srcB
  simp only [vopFields, h, bsrcFields]
  cases o.b with
  | reg r => simp [BFields.opndB, file_back]
  | k n => simp [k_hi, k_lo]
  | imm i => simp [b_back]

/-- A word of FORM 3 with a k source gives its operands back. -/
theorem vop_k {opc : BitVec 8} {fn : BitVec 4} {o : VOp} (h : isSpecialOpc opc = true) (h8 : opc ≠ 0x88#8)
    (hk : ∃ n, o.b = .k n) : (vopFields opc fn o).vop = some o := by
  apply vop_of_src
  obtain ⟨n, hn⟩ := hk
  unfold BFields.srcB
  simp [vopFields, h, h8, bsrcFields, hn, k_hi, k_lo]

/-- VEXPORT, whose B is a register or absent, gives its operands back. -/
theorem vop_export {fn : BitVec 4} {o : VOp} (hk : ∃ n, o.b = .reg n) : (vopFields 0x88 fn o).vop = some o := by
  apply vop_of_src
  obtain ⟨n, hn⟩ := hk
  unfold BFields.srcB
  simp [vopFields, isSpecialOpc, bsrcFields, hn, BFields.opndB, file_back]

theorem k_only {t : VShape} {o : VOp} (hr : t.reg = false) (hi : t.imm = false) (h : t.ok o = true) :
    ∃ n, o.b = .k n := by
  have hb : t.bOk o.b = true := by
    revert h; simp only [VShape.ok, Bool.and_eq_true]; tauto
  cases hob : o.b with
  | reg r => simp [VShape.bOk, hob, hr] at hb
  | k n => exact ⟨n, rfl⟩
  | imm i => simp [VShape.bOk, hob, hi] at hb

theorem reg_only {t : VShape} {o : VOp} (hr : t.k = false) (hi : t.imm = false) (h : t.ok o = true) :
    ∃ n, o.b = .reg n := by
  have hb : t.bOk o.b = true := by
    revert h; simp only [VShape.ok, Bool.and_eq_true]; tauto
  cases hob : o.b with
  | k r => simp [VShape.bOk, hob, hr] at hb
  | reg n => exact ⟨n, rfl⟩
  | imm i => simp [VShape.bOk, hob, hi] at hb

theorem of_row {i : Instr} {opc : BitVec 8} {fn : BitVec 4} {o : VOp} (mk : VOp → Instr)
    (h0 : scalarFields i = none) (h1 : blockFields i = some (vopFields opc fn o))
    (h9 : opc.extractLsb' 4 4 ≠ 9) (hr : rowOf opc fn = some ⟨opc, fn, mk⟩) (hm : mk o = i)
    (hv : i.wf = true → (vopFields opc fn o).vop = some o) : Statement i := by
  intro hw
  refine ⟨fun f hf => ?_, fun f hf => ?_⟩
  · rw [h0] at hf; cases hf
  · rw [h1] at hf; cases hf
    unfold decodeBFields
    have e1 : (vopFields opc fn o).opc = opc := rfl
    have e2 : (vopFields opc fn o).fn = fn := rfl
    rw [e1, if_neg h9, e2, hr, hv hw, ← hm]
    rfl

theorem of_fields {i : Instr} {f : Fields} (h0 : scalarFields i = some f) (h1 : blockFields i = none)
    (h : i.wf = true → decodeFields f = some i) : Statement i := by
  intro hw
  refine ⟨fun g hg => ?_, fun g hg => ?_⟩
  · rw [h0] at hg; cases hg; exact h hw
  · rw [h1] at hg; cases hg

theorem of_block {i : Instr} {f : BFields} (h0 : scalarFields i = none) (h1 : blockFields i = some f)
    (h : decodeBFields f = some i) : Statement i := by
  intro _
  refine ⟨fun g hg => ?_, fun g hg => ?_⟩
  · rw [h0] at hg; cases hg
  · rw [h1] at hg; cases hg; exact h

theorem no_word {i : Instr} (h0 : scalarFields i = none) (h1 : blockFields i = none) : Statement i := by
  intro _
  refine ⟨fun g hg => ?_, fun g hg => ?_⟩
  · rw [h0] at hg; cases hg
  · rw [h1] at hg; cases hg

@[simp] theorem hi_3_2 (a : BitVec 3) (b : BitVec 2) : @BitVec.extractLsb' 5 2 3 (a ++ b) = a := by
  revert a b; decide
@[simp] theorem lo_3_2 (a : BitVec 3) (b : BitVec 2) : @BitVec.extractLsb' 5 0 2 (a ++ b) = b := by
  revert a b; decide
@[simp] theorem hi_2_3 (a : BitVec 2) (b : BitVec 3) : @BitVec.extractLsb' 5 3 2 (a ++ b) = a := by
  revert a b; decide
@[simp] theorem lo_2_3 (a : BitVec 2) (b : BitVec 3) : @BitVec.extractLsb' 5 0 3 (a ++ b) = b := by
  revert a b; decide
@[simp] theorem hi_1_4 (a : BitVec 1) (b : BitVec 4) : @BitVec.extractLsb' 5 4 1 (a ++ b) = a := by
  revert a b; decide
@[simp] theorem lo_1_4 (a : BitVec 1) (b : BitVec 4) : @BitVec.extractLsb' 5 0 4 (a ++ b) = b := by
  revert a b; decide
@[simp] theorem hi_3_4 (a : BitVec 3) (b : BitVec 4) : @BitVec.extractLsb' 7 4 3 (a ++ b) = a := by
  revert a b; decide
@[simp] theorem lo_3_4 (a : BitVec 3) (b : BitVec 4) : @BitVec.extractLsb' 7 0 4 (a ++ b) = b := by
  revert a b; decide
@[simp] theorem hi_4_3 (a : BitVec 4) (b : BitVec 3) : @BitVec.extractLsb' 7 3 4 (a ++ b) = a := by
  revert a b; decide
@[simp] theorem lo_4_3 (a : BitVec 4) (b : BitVec 3) : @BitVec.extractLsb' 7 0 3 (a ++ b) = b := by
  revert a b; decide
@[simp] theorem hi_5_2 (a : BitVec 5) (b : BitVec 2) : @BitVec.extractLsb' 7 2 5 (a ++ b) = a := by
  revert a b; decide
@[simp] theorem lo_5_2 (a : BitVec 5) (b : BitVec 2) : @BitVec.extractLsb' 7 0 2 (a ++ b) = b := by
  revert a b; decide
@[simp] theorem hi_6_1 (a : BitVec 6) (b : BitVec 1) : @BitVec.extractLsb' 7 1 6 (a ++ b) = a := by
  revert a b; decide
@[simp] theorem lo_6_1 (a : BitVec 6) (b : BitVec 1) : @BitVec.extractLsb' 7 0 1 (a ++ b) = b := by
  revert a b; decide
@[simp] theorem cfg_hi (c : BitVec 8) : @BitVec.extractLsb' 7 3 4 (@BitVec.extractLsb' 12 5 7 (cfgImm c)) = 0#4 := by
  revert c; decide
@[simp] theorem cfg_lo (c : BitVec 8) :
    (@BitVec.extractLsb' 7 0 3 (@BitVec.extractLsb' 12 5 7 (cfgImm c))) ++ (@BitVec.extractLsb' 12 0 5 (cfgImm c)) = c := by
  revert c; decide
@[simp] theorem acc_hi (c : BitVec 3) (d : BitVec 2) : @BitVec.extractLsb' 7 5 2 (0#2 ++ c ++ d) = 0#2 := by
  revert c d; decide
@[simp] theorem acc_mid (c : BitVec 3) (d : BitVec 2) : @BitVec.extractLsb' 7 2 3 (0#2 ++ c ++ d) = c := by
  revert c d; decide
@[simp] theorem acc_lo (c : BitVec 3) (d : BitVec 2) : @BitVec.extractLsb' 7 0 2 (0#2 ++ c ++ d) = d := by
  revert c d; decide
theorem join12 (x : BitVec 12) : (@BitVec.extractLsb' 12 5 7 x) ++ (@BitVec.extractLsb' 12 0 5 x) = x := by
  rw [BitVec.extractLsb'_append_extractLsb'_eq_extractLsb' (by rfl)]; simp
@[simp] theorem immI_back (opc : BitVec 7) (f3 : BitVec 3) (rd rs1 : Reg) (x : BitVec 12) : (iType opc f3 rd rs1 x).immI = x :=
  join12 x
@[simp] theorem immS_back (opc : BitVec 7) (f3 : BitVec 3) (rs1 rs2 : Reg) (x : BitVec 12) : (sType opc f3 rs1 rs2 x).immS = x :=
  join12 x
@[simp] theorem immU_back (opc : BitVec 7) (rd : Reg) (x : BitVec 20) : (uType opc rd x).immU = x := by
  show x.extractLsb' 13 7 ++ x.extractLsb' 8 5 ++ x.extractLsb' 3 5 ++ x.extractLsb' 0 3 = x
  rw [BitVec.extractLsb'_append_extractLsb'_eq_extractLsb' (by rfl),
    BitVec.extractLsb'_append_extractLsb'_eq_extractLsb' (by rfl),
    BitVec.extractLsb'_append_extractLsb'_eq_extractLsb' (by rfl)]
  simp
@[simp] theorem amo_hi (c : BitVec 5) (a b : BitVec 1) : @BitVec.extractLsb' 7 2 5 (c ++ a ++ b) = c := by
  revert c a b; decide
@[simp] theorem amo_aq (c : BitVec 5) (a b : Bool) :
    @BitVec.getLsbD 7 (c ++ BitVec.ofBool a ++ BitVec.ofBool b) 1 = a := by revert c a b; decide
@[simp] theorem amo_rl (c : BitVec 5) (a b : Bool) :
    @BitVec.getLsbD 7 (c ++ BitVec.ofBool a ++ BitVec.ofBool b) 0 = b := by revert c a b; decide
@[simp] theorem amo_aq' (c : BitVec 5) (a b : Bool) :
    (c ++ BitVec.ofBool a ++ BitVec.ofBool b)[1] = a := by revert c a b; decide
@[simp] theorem amo_rl' (c : BitVec 5) (a b : Bool) :
    (c ++ BitVec.ofBool a ++ BitVec.ofBool b)[0] = b := by revert c a b; decide
theorem pred_back (x : BitVec 4) : x.extractLsb' 1 3 ++ x.extractLsb' 0 1 = x := by revert x; decide

theorem rr_back (op : RrOp) : RrOp.ofCode op.code.1 op.code.2.1 op.code.2.2 = some op := by cases op <;> decide
theorem un_back (op : UnOp) : UnOp.ofCode op.code.1 op.code.2.1 op.code.2.2.1 op.code.2.2.2 = some op := by
  cases op <;> decide
theorem un_not_rr (op : UnOp) (h : op.code.2.2.2 = 0x3B#7) : RrOp.ofCode op.code.1 op.code.2.2.1 true = none := by
  revert h; cases op <;> decide
theorem int_back (f : IntForm) : decodeFields f.fields = some (.integerOp f) := by
  cases f with
  | rr op rd rs1 rs2 =>
      have h := rr_back op
      cases op <;> simp [IntForm.fields, decodeFields, decodeOp, decodeOp32, RrOp.code] at h ⊢ <;> simp [h]
  | ri op rd rs1 imm => cases op <;> simp [IntForm.fields, decodeFields, decodeOpImm, decodeOpImm32, RiOp.code]
  | sh op rd rs1 n =>
      have h6 : n.extractLsb' 5 1 ++ n.extractLsb' 0 5 = n := by revert n; decide
      have h7 : ¬ (2#6 ++ n.extractLsb' 5 1 = 0#7) := by revert n; decide
      cases op <;> simp [IntForm.fields, decodeFields, decodeOpImm, decodeOpImm32, ShOp.code, h6, h7]
  | shw op rd rs1 n => cases op <;> simp [IntForm.fields, decodeFields, decodeOpImm32, ShwOp.code]
  | un op rd rs1 =>
      have h := un_back op
      have h2 := un_not_rr op
      cases op <;> simp only [IntForm.fields, UnOp.code] at h h2 ⊢ <;>
        simp_all [decodeFields, decodeOpImm, decodeOpImm32, decodeOp32]
  | lui rd imm => simp [IntForm.fields, decodeFields]
  | auipc rd imm => simp [IntForm.fields, decodeFields]
theorem fp_back (f : FpForm) : decodeFields f.fields = some (.fpOp f) := by
  cases f with
  | arith op fw rd rs1 rs2 rm => cases op <;> cases fw <;> simp [FpForm.fields, FW.code, FArith.f5, decodeFields, decodeOpFp,
      decodeFpForm, decodeFwOf]
  | sqrt fw rd rs1 rm => cases fw <;> simp [FpForm.fields, FW.code, decodeFields, decodeOpFp, decodeFpForm, decodeFwOf]
  | fma op fw rd rs1 rs2 rs3 rm => cases op <;> cases fw <;> simp [FpForm.fields, FMulAdd.opc, FW.code, decodeFields, decodeFma, decodeFwOf]
  | select op fw rd rs1 rs2 => cases op <;> cases fw <;> simp [FpForm.fields, FW.code, FSelect.code, decodeFields, decodeOpFp,
      decodeFpForm, decodeFwOf]
  | cmp op fw rd rs1 rs2 => cases op <;> cases fw <;> simp [FpForm.fields, FW.code, FCmp.f3, decodeFields, decodeOpFp,
      decodeFpForm, decodeFwOf]
  | class_ fw rd rs1 => cases fw <;> simp [FpForm.fields, FW.code, decodeFields, decodeOpFp, decodeFpForm, decodeFwOf]
  | toInt i fw rd rs1 rm => cases i <;> cases fw <;> simp [FpForm.fields, FW.code, CvtInt.code, decodeFields, decodeOpFp, decodeFpForm, decodeFwOf, decodeCvtInt]
  | ofInt i fw rd rs1 rm => cases i <;> cases fw <;> simp [FpForm.fields, FW.code, CvtInt.code, decodeFields, decodeOpFp, decodeFpForm, decodeFwOf, decodeCvtInt]
  | toFloat fw rd rs1 rm => cases fw <;> simp [FpForm.fields, decodeFields, decodeOpFp, decodeFpForm, decodeFwOf]
  | mvToX fw rd rs1 => cases fw <;> simp [FpForm.fields, FW.code, decodeFields, decodeOpFp, decodeFpForm, decodeFwOf]
  | mvToF fw rd rs1 => cases fw <;> simp [FpForm.fields, FW.code, decodeFields, decodeOpFp, decodeFpForm, decodeFwOf]
theorem app0 {n m : Nat} (a : BitVec n) (b : BitVec m) (j l : Nat) (h : j + l ≤ m) : (a ++ b).extractLsb' j l = b.extractLsb' j l := by
  apply BitVec.eq_of_getLsbD_eq
  intro i hi
  simp [BitVec.getLsbD_append, hi]
  intro h2; omega
theorem app1 {n m : Nat} (a : BitVec n) (b : BitVec m) (j l : Nat) (h : m ≤ j) : (a ++ b).extractLsb' j l = a.extractLsb' (j-m) l := by
  apply BitVec.eq_of_getLsbD_eq
  intro i hi
  simp [BitVec.getLsbD_append, hi]
  rw [if_neg (by omega)]
  congr 1; omega
theorem ee {n : Nat} (a : BitVec n) (j l j2 l2 : Nat) (h : j2 + l2 ≤ l) : (a.extractLsb' j l).extractLsb' j2 l2 = a.extractLsb' (j+j2) l2 := by
  apply BitVec.eq_of_getLsbD_eq
  intro i hi
  simp [hi, Nat.add_assoc]
  omega
theorem br_off (x : BitVec 12) :
    (x.extractLsb' 11 1 ++ x.extractLsb' 4 6).extractLsb' 6 1 ++ (x.extractLsb' 0 4 ++ x.extractLsb' 10 1).extractLsb' 0 1
      ++ (x.extractLsb' 11 1 ++ x.extractLsb' 4 6).extractLsb' 0 6 ++ (x.extractLsb' 0 4 ++ x.extractLsb' 10 1).extractLsb' 1 4 = x := by
  rw [app1 _ _ 6 1 (by decide), app0 _ _ 0 1 (by decide), app0 _ _ 0 6 (by decide), app1 _ _ 1 4 (by decide)]
  rw [ee _ _ _ _ _ (by decide), ee _ _ _ _ _ (by decide), ee _ _ _ _ _ (by decide), ee _ _ _ _ _ (by decide)]
  rw [BitVec.extractLsb'_append_extractLsb'_eq_extractLsb' (by rfl),
    BitVec.extractLsb'_append_extractLsb'_eq_extractLsb' (by rfl),
    BitVec.extractLsb'_append_extractLsb'_eq_extractLsb' (by rfl)]
  simp
theorem jal_off (x : BitVec 20) (u : BitVec 20)
    (hu : u = x.extractLsb' 19 1 ++ x.extractLsb' 0 10 ++ x.extractLsb' 10 1 ++ x.extractLsb' 11 8) :
    u.extractLsb' 19 1 ++ u.extractLsb' 0 8 ++ u.extractLsb' 8 1 ++ u.extractLsb' 9 10 = x := by
  subst hu
  rw [app1 _ _ 19 1 (by decide), app1 _ _ 11 1 (by decide), app1 _ _ 10 1 (by decide), app0 _ _ 0 8 (by decide),
    app1 _ _ 8 1 (by decide), app0 _ _ 0 1 (by decide), app1 _ _ 9 10 (by decide), app1 _ _ 1 10 (by decide), app0 _ _ 0 10 (by decide)]
  rw [ee _ _ _ _ _ (by decide), ee _ _ _ _ _ (by decide), ee _ _ _ _ _ (by decide), ee _ _ _ _ _ (by decide)]
  rw [BitVec.extractLsb'_append_extractLsb'_eq_extractLsb' (by rfl),
    BitVec.extractLsb'_append_extractLsb'_eq_extractLsb' (by rfl),
    BitVec.extractLsb'_append_extractLsb'_eq_extractLsb' (by rfl)]
  simp
theorem jump_back (f : JumpForm) : decodeFields f.fields = some (.branchJump f) := by
  cases f with
  | br op rs1 rs2 off =>
      have h := br_off off
      cases op <;> simp only [JumpForm.fields, decodeFields, decodeBranch, BrOp.f3] <;> simp <;> exact h
  | jal rd off =>
      have h : decodeJal (uType 0x6F rd (off.extractLsb' 19 1 ++ off.extractLsb' 0 10 ++ off.extractLsb' 10 1
        ++ off.extractLsb' 11 8)) = some (.branchJump (.jal rd off)) := by
        unfold decodeJal
        rw [immU_back]
        simp only [jal_off off _ rfl]
      exact h
  | jalr rd rs1 off => simp [JumpForm.fields, decodeFields]
theorem vlut_not_fcsr (a : BitVec 12) (h : isVlutAddr a = true) : isFcsrAddr a = false := by
  simp only [isVlutAddr, Bool.or_eq_true, decide_eq_true_eq] at h
  rcases h with rfl | rfl <;> decide
/-! ## One lemma for each instruction -/

theorem vsetl (rd : Reg) (rs1 : Reg) (cfg : BitVec 8) : Statement (.vsetl rd rs1 cfg) :=
  of_fields rfl rfl (fun _ => by
    simp [decodeFields, decodeCustom0])

theorem vsetli (rd : Reg) (n : BitVec 5) (cfg : BitVec 8) : Statement (.vsetli rd n cfg) :=
  of_fields rfl rfl (fun _ => by
    simp [decodeFields, decodeCustom0])

theorem vfetchPcrel (imm : BitVec 12) : Statement (.vfetchPcrel imm) :=
  of_fields rfl rfl (fun _ => by
    simp [decodeFields, decodeCustom0])

theorem vfetchReg (rs1 : Reg) (imm : BitVec 12) : Statement (.vfetchReg rs1 imm) :=
  of_fields rfl rfl (fun h => by
    have h0 : rs1 ≠ 0#5 := by simpa [Instr.wf] using h
    simp [decodeFields, decodeCustom0, h0])

theorem vget (rd : Reg) (j : BitVec 2) : Statement (.vget rd j) :=
  of_fields rfl rfl (fun _ => by
    simp [decodeFields, decodeCustom0])

theorem vwait : Statement .vwait :=
  of_fields rfl rfl (fun _ => by
    simp [decodeFields, decodeCustom0])

theorem vfenceSv : Statement .vfenceSv :=
  of_fields rfl rfl (fun _ => by
    simp [decodeFields, decodeCustom0])

theorem vfenceVs : Statement .vfenceVs :=
  of_fields rfl rfl (fun _ => by
    simp [decodeFields, decodeCustom0])

theorem vfenceVv : Statement .vfenceVv :=
  of_fields rfl rfl (fun _ => by
    simp [decodeFields, decodeCustom0])

theorem xfence (sc : Scope) : Statement (.xfence sc) :=
  of_fields rfl rfl (fun _ => by
    simp [decodeFields, decodeCustom0])

theorem xlda (sc : Scope) (wd : AccW) (rd : Reg) (rs1 : Reg) : Statement (.xlda sc wd rd rs1) :=
  of_fields rfl rfl (fun _ => by
    simp [decodeFields, decodeCustom0])

theorem xstl (sc : Scope) (wd : AccW) (rs1 : Reg) (rs2 : Reg) : Statement (.xstl sc wd rs1 rs2) :=
  of_fields rfl rfl (fun _ => by
    simp [decodeFields, decodeCustom0])

theorem xlook (rd : Reg) (rs1 : Reg) : Statement (.xlook rd rs1) :=
  of_fields rfl rfl (fun _ => by
    simp [decodeFields, decodeCustom0])

theorem psetvl (rd : Reg) (rs1 : Reg) (cfg : BitVec 8) : Statement (.psetvl rd rs1 cfg) :=
  of_fields rfl rfl (fun _ => by
    simp [decodeFields, decodeCustom1])

theorem gbar : Statement .gbar :=
  of_fields rfl rfl (fun _ => by
    simp [decodeFields, decodeCustom1])

theorem gbara (rd : Reg) : Statement (.gbara rd) :=
  of_fields rfl rfl (fun _ => by
    simp [decodeFields, decodeCustom1])

theorem gbarw (rs1 : Reg) : Statement (.gbarw rs1) :=
  of_fields rfl rfl (fun _ => by
    simp [decodeFields, decodeCustom1])

theorem gbarx (rs1 : Reg) : Statement (.gbarx rs1) :=
  of_fields rfl rfl (fun _ => by
    simp [decodeFields, decodeCustom1])

theorem hcont (rd : Reg) (y : BitVec 2) : Statement (.hcont rd y) :=
  of_fields rfl rfl (fun _ => by
    simp [decodeFields, decodeCustom1])

theorem hsend (rs1 : Reg) (rs2 : Reg) : Statement (.hsend rs1 rs2) :=
  of_fields rfl rfl (fun _ => by
    simp [decodeFields, decodeCustom1])

theorem hsendb (rs1 : Reg) (rs2 : Reg) : Statement (.hsendb rs1 rs2) :=
  of_fields rfl rfl (fun _ => by
    simp [decodeFields, decodeCustom1])

theorem hwait (rd : Reg) (y : BitVec 2) : Statement (.hwait rd y) :=
  of_fields rfl rfl (fun _ => by
    simp [decodeFields, decodeCustom1])

theorem uiret : Statement .uiret :=
  of_fields rfl rfl (fun _ => by
    simp [decodeFields, decodeCustom1])

theorem park : Statement .park :=
  of_fields rfl rfl (fun _ => by
    simp [decodeFields, decodeCustom1])

theorem mcfg (rs1 : Reg) (rs2 : Reg) : Statement (.mcfg rs1 rs2) :=
  of_fields rfl rfl (fun _ => by
    simp [decodeFields, decodeCustom2])

theorem msync : Statement .msync :=
  of_fields rfl rfl (fun _ => by
    simp [decodeFields, decodeCustom2])

theorem mldt (t : BitVec 3) (rs1 : Reg) (rs2 : Reg) : Statement (.mldt t rs1 rs2) :=
  of_fields rfl rfl (fun _ => by
    simp [decodeFields, decodeCustom2])

theorem mstt (t : BitVec 3) (rs1 : Reg) (rs2 : Reg) : Statement (.mstt t rs1 rs2) :=
  of_fields rfl rfl (fun _ => by
    simp [decodeFields, decodeCustom2])

theorem mlda (t : BitVec 4) (rs1 : Reg) (rs2 : Reg) : Statement (.mlda t rs1 rs2) :=
  of_fields rfl rfl (fun _ => by
    simp [decodeFields, decodeCustom2])

theorem msta (t : BitVec 4) (rs1 : Reg) (rs2 : Reg) : Statement (.msta t rs1 rs2) :=
  of_fields rfl rfl (fun _ => by
    simp [decodeFields, decodeCustom2])

theorem mzero (t : BitVec 4) : Statement (.mzero t) :=
  of_fields rfl rfl (fun _ => by
    simp [decodeFields, decodeCustom2])

theorem mma (d : BitVec 4) (a : BitVec 3) (b : BitVec 3) : Statement (.mma d a b) :=
  of_fields rfl rfl (fun _ => by
    simp [decodeFields, decodeCustom2])

theorem mmas (d : BitVec 4) (a : BitVec 3) (b : BitVec 3) : Statement (.mmas d a b) :=
  of_fields rfl rfl (fun _ => by
    simp [decodeFields, decodeCustom2])

theorem mma64 (d : BitVec 4) (a : BitVec 3) (b : BitVec 3) : Statement (.mma64 d a b) :=
  of_fields rfl rfl (fun _ => by
    simp [decodeFields, decodeCustom2])

theorem mmal (d : BitVec 4) (a : BitVec 3) (rs2 : Reg) : Statement (.mmal d a rs2) :=
  of_fields rfl rfl (fun _ => by
    simp [decodeFields, decodeCustom2])

theorem mcvt (fmt : BitVec 4) (rm : Rm) (d : BitVec 3) (acc : BitVec 4) : Statement (.mcvt fmt rm d acc) :=
  of_fields rfl rfl (fun _ => by
    simp [decodeFields, decodeCustom2])

theorem maccv (d : BitVec 5) (acc : BitVec 4) (rs2 : Reg) : Statement (.maccv d acc rs2) :=
  of_fields rfl rfl (fun _ => by
    simp [decodeFields, decodeCustom2])

theorem mvtile (d : BitVec 3) (acc : BitVec 5) : Statement (.mvtile d acc) :=
  of_fields rfl rfl (fun _ => by
    simp [decodeFields, decodeCustom2])

theorem mpin (o : BitVec 4) (g : PinShape) (rs1 : Reg) : Statement (.mpin o g rs1) :=
  of_fields rfl rfl (fun _ => by
    cases g <;> simp [decodeFields, decodeCustom2, decodePinned, PinShape.code])

theorem munpin (o : BitVec 4) : Statement (.munpin o) :=
  of_fields rfl rfl (fun _ => by
    simp [decodeFields, decodeCustom2, decodePinned])

theorem mgdr (o : BitVec 4) (k : BitVec 5) (rs1 : Reg) : Statement (.mgdr o k rs1) :=
  of_fields rfl rfl (fun _ => by
    simp [decodeFields, decodeCustom2, decodePinned])

theorem mgdrq (o : BitVec 4) (k : BitVec 5) (rs1 : Reg) (d : BitVec 5) : Statement (.mgdrq o k rs1 d) :=
  of_fields rfl rfl (fun _ => by
    simp [decodeFields, decodeCustom2, decodePinned])

theorem mqry (o : BitVec 4) (q : BitVec 5) (d : BitVec 5) : Statement (.mqry o q d) :=
  of_fields rfl rfl (fun _ => by
    simp [decodeFields, decodeCustom2, decodePinned])

theorem mspill (o : BitVec 4) : Statement (.mspill o) :=
  of_fields rfl rfl (fun _ => by
    simp [decodeFields, decodeCustom2, decodePinned])

theorem mfill (o : BitVec 4) (rs1 : Reg) : Statement (.mfill o rs1) :=
  of_fields rfl rfl (fun _ => by
    simp [decodeFields, decodeCustom2, decodePinned])

theorem matrixEntryExecute : Statement .matrixEntryExecute := no_word rfl rfl

theorem ecpy (rd : Reg) (rs1 : Reg) (rs2 : Reg) : Statement (.ecpy rd rs1 rs2) :=
  of_fields rfl rfl (fun _ => by
    simp [decodeFields, decodeCustom3])

theorem ecpys (rd : Reg) (rs1 : Reg) (rs2 : Reg) : Statement (.ecpys rd rs1 rs2) :=
  of_fields rfl rfl (fun _ => by
    simp [decodeFields, decodeCustom3])

theorem egath (rd : Reg) (rs1 : Reg) (rs2 : Reg) : Statement (.egath rd rs1 rs2) :=
  of_fields rfl rfl (fun _ => by
    simp [decodeFields, decodeCustom3])

theorem escat (rd : Reg) (rs1 : Reg) (rs2 : Reg) : Statement (.escat rd rs1 rs2) :=
  of_fields rfl rfl (fun _ => by
    simp [decodeFields, decodeCustom3])

theorem ered (rd : Reg) (rs1 : Reg) (rs2 : Reg) : Statement (.ered rd rs1 rs2) :=
  of_fields rfl rfl (fun _ => by
    simp [decodeFields, decodeCustom3])

theorem egcm (rd : Reg) (rs1 : Reg) (rs2 : Reg) : Statement (.egcm rd rs1 rs2) :=
  of_fields rfl rfl (fun _ => by
    simp [decodeFields, decodeCustom3])

theorem ewaitk (rd : Reg) : Statement (.ewaitk rd) :=
  of_fields rfl rfl (fun _ => by
    simp [decodeFields, decodeCustom3])

theorem ctxsave (portable : Bool) (rs1 : Reg) : Statement (.ctxsave portable rs1) :=
  of_fields rfl rfl (fun _ => by cases portable <;> simp [decodeFields, decodeCustom3])

theorem ctxload (portable : Bool) (rs1 : Reg) : Statement (.ctxload portable rs1) :=
  of_fields rfl rfl (fun _ => by cases portable <;> simp [decodeFields, decodeCustom3])

theorem pwflush (rs1 : Reg) : Statement (.pwflush rs1) :=
  of_fields rfl rfl (fun _ => by
    simp [decodeFields, decodeCustom3])

theorem scalarLoad (k : LoadKind) (rd : Reg) (rs1 : Reg) (imm : BitVec 12) : Statement (.scalarLoad k rd rs1 imm) := by
  cases k <;> exact of_fields rfl rfl (fun _ => by simp [decodeFields, decodeLoad, decodeLoadFp, LoadKind.f3])

theorem scalarStore (k : StoreKind) (rs1 : Reg) (rs2 : Reg) (imm : BitVec 12) : Statement (.scalarStore k rs1 rs2 imm) := by
  cases k <;> exact of_fields rfl rfl (fun _ => by simp [decodeFields, decodeStore, decodeStoreFp, StoreKind.f3])

theorem fence (fm : BitVec 4) (pred : BitVec 4) (succ : BitVec 4) (rs1 : Reg) (rd : Reg) : Statement (.fence fm pred succ rs1 rd) :=
  of_fields rfl rfl (fun h => by
    have h0 : ¬ (fm = 8#4 ∧ pred = 3#4 ∧ succ = 3#4) := by
      intro e; obtain ⟨rfl, rfl, rfl⟩ := e; exact absurd h (by simp [Instr.wf])
    simp [decodeFields, decodeMiscMem, pred_back]
    intro a b c; exact absurd ⟨a, b, c⟩ h0)

theorem fenceTso (rs1 : Reg) (rd : Reg) : Statement (.fenceTso rs1 rd) :=
  of_fields rfl rfl (fun _ => by
    simp [decodeFields, decodeMiscMem])

theorem fenceI (imm : BitVec 12) (rs1 : Reg) (rd : Reg) : Statement (.fenceI imm rs1 rd) :=
  of_fields rfl rfl (fun _ => by
    simp [decodeFields, decodeMiscMem])

theorem lr (dbl : Bool) (aq : Bool) (rl : Bool) (rd : Reg) (rs1 : Reg) : Statement (.lr dbl aq rl rd rs1) :=
  of_fields rfl rfl (fun _ => by
    simp [decodeFields, decodeAmo])

theorem sc (dbl : Bool) (aq : Bool) (rl : Bool) (rd : Reg) (rs1 : Reg) (rs2 : Reg) : Statement (.sc dbl aq rl rd rs1 rs2) :=
  of_fields rfl rfl (fun _ => by
    simp [decodeFields, decodeAmo])

theorem amo (op : AmoOp) (dbl : Bool) (aq : Bool) (rl : Bool) (rd : Reg) (rs1 : Reg) (rs2 : Reg) : Statement (.amo op dbl aq rl rd rs1 rs2) :=
  of_fields rfl rfl (fun _ => by
    cases op <;> simp [decodeFields, decodeAmo, AmoOp.code, AmoOp.ofCode])

theorem amocasW (aq : Bool) (rl : Bool) (rd : Reg) (rs1 : Reg) (rs2 : Reg) : Statement (.amocasW aq rl rd rs1 rs2) :=
  of_fields rfl rfl (fun _ => by
    simp [decodeFields, decodeAmo])

theorem amocasD (aq : Bool) (rl : Bool) (rd : Reg) (rs1 : Reg) (rs2 : Reg) : Statement (.amocasD aq rl rd rs1 rs2) :=
  of_fields rfl rfl (fun _ => by
    simp [decodeFields, decodeAmo])

theorem amocasQ (aq : Bool) (rl : Bool) (rd : Reg) (rs1 : Reg) (rs2 : Reg) : Statement (.amocasQ aq rl rd rs1 rs2) :=
  of_fields rfl rfl (fun _ => by
    simp [decodeFields, decodeAmo])

theorem integerOp (f : IntForm) : Statement (.integerOp f) :=
  of_fields rfl rfl (fun _ => int_back f)

theorem fpOp (f : FpForm) : Statement (.fpOp f) :=
  of_fields rfl rfl (fun _ => fp_back f)

theorem branchJump (f : JumpForm) : Statement (.branchJump f) :=
  of_fields rfl rfl (fun _ => jump_back f)

theorem ecall : Statement .ecall :=
  of_fields rfl rfl (fun _ => by
    simp [decodeFields, decodeSystem])

theorem ebreak : Statement .ebreak :=
  of_fields rfl rfl (fun _ => by
    simp [decodeFields, decodeSystem])

theorem sret : Statement .sret :=
  of_fields rfl rfl (fun _ => by
    simp [decodeFields, decodeSystem])

theorem mret : Statement .mret :=
  of_fields rfl rfl (fun _ => by
    simp [decodeFields, decodeSystem])

theorem wfi : Statement .wfi :=
  of_fields rfl rfl (fun _ => by
    simp [decodeFields, decodeSystem])

theorem sfenceVma (rs1 : Reg) (rs2 : Reg) : Statement (.sfenceVma rs1 rs2) :=
  of_fields rfl rfl (fun _ => by
    simp [decodeFields, decodeSystem])

theorem csrInstruction (op : CsrOp) (csr : BitVec 12) (rd : Reg) (src : BitVec 5) : Statement (.csrInstruction op csr rd src) :=
  of_fields rfl rfl (fun h => by
    have h0 : isFcsrAddr csr = false ∧ isVlutAddr csr = false := by
      simpa only [Instr.wf, Bool.and_eq_true, Bool.not_eq_true'] using h
    cases op <;> simp [decodeFields, decodeSystem, CsrOp.f3, h0])

theorem fcsrAccess (op : CsrOp) (csr : BitVec 12) (rd : Reg) (src : BitVec 5) : Statement (.fcsrAccess op csr rd src) :=
  of_fields rfl rfl (fun h => by
    have h0 : isFcsrAddr csr = true := h
    cases op <;> simp [decodeFields, decodeSystem, CsrOp.f3, h0])

theorem vlutAccess (op : CsrOp) (csr : BitVec 12) (rd : Reg) (src : BitVec 5) : Statement (.vlutAccess op csr rd src) :=
  of_fields rfl rfl (fun h => by
    have h0 : isVlutAddr csr = true := h
    have h1 : isFcsrAddr csr = false := vlut_not_fcsr csr h0
    cases op <;> simp [decodeFields, decodeSystem, CsrOp.f3, h0, h1])

theorem vle (o : VOp) : Statement (.vle o) :=
  of_row (opc := 0x01) .vle rfl rfl (by decide) rfl rfl (fun _ => vop_plain rfl)

theorem vse (o : VOp) : Statement (.vse o) :=
  of_row (opc := 0x02) .vse rfl rfl (by decide) rfl rfl (fun _ => vop_plain rfl)

theorem vlse (o : VOp) : Statement (.vlse o) :=
  of_row (opc := 0x03) .vlse rfl rfl (by decide) rfl rfl (fun h => vop_k rfl (by decide) (k_only (t := VShape.load) rfl rfl (by
    simp only [Instr.wf, Bool.and_eq_true] at h; tauto)))

theorem vsse (o : VOp) : Statement (.vsse o) :=
  of_row (opc := 0x04) .vsse rfl rfl (by decide) rfl rfl (fun h => vop_k rfl (by decide) (k_only (t := VShape.store) rfl rfl (by
    simp only [Instr.wf, Bool.and_eq_true] at h; tauto)))

theorem vlxe (o : VOp) : Statement (.vlxe o) :=
  of_row (opc := 0x05) .vlxe rfl rfl (by decide) rfl rfl (fun _ => vop_plain rfl)

theorem vsxe (o : VOp) : Statement (.vsxe o) :=
  of_row (opc := 0x06) .vsxe rfl rfl (by decide) rfl rfl (fun _ => vop_plain rfl)

theorem vlseg (o : VOp) : Statement (.vlseg o) :=
  of_row (opc := 0x07) .vlseg rfl rfl (by decide) rfl rfl (fun _ => vop_plain rfl)

theorem vsseg (o : VOp) : Statement (.vsseg o) :=
  of_row (opc := 0x08) .vsseg rfl rfl (by decide) rfl rfl (fun _ => vop_plain rfl)

theorem vlff (o : VOp) : Statement (.vlff o) :=
  of_row (opc := 0x09) .vlff rfl rfl (by decide) rfl rfl (fun _ => vop_plain rfl)

theorem vlwr (o : VOp) : Statement (.vlwr o) :=
  of_row (opc := 0x0A) .vlwr rfl rfl (by decide) rfl rfl (fun _ => vop_plain rfl)

theorem vswr (o : VOp) : Statement (.vswr o) :=
  of_row (opc := 0x0B) .vswr rfl rfl (by decide) rfl rfl (fun _ => vop_plain rfl)

theorem vpref (o : VOp) : Statement (.vpref o) :=
  of_row (opc := 0x0C) .vpref rfl rfl (by decide) rfl rfl (fun _ => vop_plain rfl)

theorem vamo (op : VAmoOp) (o : VOp) : Statement (.vamo op o) := by
  cases op with
  | add => exact of_row (opc := 0x0D) (.vamo .add) rfl rfl (by decide) rfl rfl (fun _ => vop_plain rfl)
  | and => exact of_row (opc := 0x0D) (.vamo .and) rfl rfl (by decide) rfl rfl (fun _ => vop_plain rfl)
  | or => exact of_row (opc := 0x0D) (.vamo .or) rfl rfl (by decide) rfl rfl (fun _ => vop_plain rfl)
  | xor => exact of_row (opc := 0x0D) (.vamo .xor) rfl rfl (by decide) rfl rfl (fun _ => vop_plain rfl)
  | min => exact of_row (opc := 0x0D) (.vamo .min) rfl rfl (by decide) rfl rfl (fun _ => vop_plain rfl)
  | max => exact of_row (opc := 0x0D) (.vamo .max) rfl rfl (by decide) rfl rfl (fun _ => vop_plain rfl)
  | minu => exact of_row (opc := 0x0D) (.vamo .minu) rfl rfl (by decide) rfl rfl (fun _ => vop_plain rfl)
  | maxu => exact of_row (opc := 0x0D) (.vamo .maxu) rfl rfl (by decide) rfl rfl (fun _ => vop_plain rfl)
  | swap => exact of_row (opc := 0x0D) (.vamo .swap) rfl rfl (by decide) rfl rfl (fun _ => vop_plain rfl)
  | cas => exact of_row (opc := 0x0D) (.vamo .cas) rfl rfl (by decide) rfl rfl (fun _ => vop_plain rfl)

theorem faultReply (target : ContId) (p : Word) : Statement (.faultReply target p) := no_word rfl rfl

theorem vadd (o : VOp) : Statement (.vadd o) :=
  of_row (opc := 0x20) .vadd rfl rfl (by decide) rfl rfl (fun _ => vop_plain rfl)

theorem vsub (o : VOp) : Statement (.vsub o) :=
  of_row (opc := 0x21) .vsub rfl rfl (by decide) rfl rfl (fun _ => vop_plain rfl)

theorem vrsub (o : VOp) : Statement (.vrsub o) :=
  of_row (opc := 0x22) .vrsub rfl rfl (by decide) rfl rfl (fun _ => vop_plain rfl)

theorem vmul (o : VOp) : Statement (.vmul o) :=
  of_row (opc := 0x23) .vmul rfl rfl (by decide) rfl rfl (fun _ => vop_plain rfl)

theorem vmulh (o : VOp) : Statement (.vmulh o) :=
  of_row (opc := 0x24) .vmulh rfl rfl (by decide) rfl rfl (fun _ => vop_plain rfl)

theorem vmulhu (o : VOp) : Statement (.vmulhu o) :=
  of_row (opc := 0x24) .vmulhu rfl rfl (by decide) rfl rfl (fun _ => vop_plain rfl)

theorem vmulhsu (o : VOp) : Statement (.vmulhsu o) :=
  of_row (opc := 0x24) .vmulhsu rfl rfl (by decide) rfl rfl (fun _ => vop_plain rfl)

theorem vmacc (o : VOp) : Statement (.vmacc o) :=
  of_row (opc := 0x25) .vmacc rfl rfl (by decide) rfl rfl (fun _ => vop_plain rfl)

theorem vnmsac (o : VOp) : Statement (.vnmsac o) :=
  of_row (opc := 0x26) .vnmsac rfl rfl (by decide) rfl rfl (fun _ => vop_plain rfl)

theorem vmadd (o : VOp) : Statement (.vmadd o) :=
  of_row (opc := 0x27) .vmadd rfl rfl (by decide) rfl rfl (fun _ => vop_plain rfl)

theorem vdiv (o : VOp) : Statement (.vdiv o) :=
  of_row (opc := 0x28) .vdiv rfl rfl (by decide) rfl rfl (fun _ => vop_plain rfl)

theorem vdivu (o : VOp) : Statement (.vdivu o) :=
  of_row (opc := 0x28) .vdivu rfl rfl (by decide) rfl rfl (fun _ => vop_plain rfl)

theorem vrem (o : VOp) : Statement (.vrem o) :=
  of_row (opc := 0x28) .vrem rfl rfl (by decide) rfl rfl (fun _ => vop_plain rfl)

theorem vremu (o : VOp) : Statement (.vremu o) :=
  of_row (opc := 0x28) .vremu rfl rfl (by decide) rfl rfl (fun _ => vop_plain rfl)

theorem vmin (o : VOp) : Statement (.vmin o) :=
  of_row (opc := 0x29) .vmin rfl rfl (by decide) rfl rfl (fun _ => vop_plain rfl)

theorem vmax (o : VOp) : Statement (.vmax o) :=
  of_row (opc := 0x29) .vmax rfl rfl (by decide) rfl rfl (fun _ => vop_plain rfl)

theorem vminu (o : VOp) : Statement (.vminu o) :=
  of_row (opc := 0x29) .vminu rfl rfl (by decide) rfl rfl (fun _ => vop_plain rfl)

theorem vmaxu (o : VOp) : Statement (.vmaxu o) :=
  of_row (opc := 0x29) .vmaxu rfl rfl (by decide) rfl rfl (fun _ => vop_plain rfl)

theorem vand (o : VOp) : Statement (.vand o) :=
  of_row (opc := 0x2A) .vand rfl rfl (by decide) rfl rfl (fun _ => vop_plain rfl)

theorem vor (o : VOp) : Statement (.vor o) :=
  of_row (opc := 0x2A) .vor rfl rfl (by decide) rfl rfl (fun _ => vop_plain rfl)

theorem vxor (o : VOp) : Statement (.vxor o) :=
  of_row (opc := 0x2A) .vxor rfl rfl (by decide) rfl rfl (fun _ => vop_plain rfl)

theorem vandn (o : VOp) : Statement (.vandn o) :=
  of_row (opc := 0x2A) .vandn rfl rfl (by decide) rfl rfl (fun _ => vop_plain rfl)

theorem vsll (o : VOp) : Statement (.vsll o) :=
  of_row (opc := 0x2B) .vsll rfl rfl (by decide) rfl rfl (fun _ => vop_plain rfl)

theorem vsrl (o : VOp) : Statement (.vsrl o) :=
  of_row (opc := 0x2B) .vsrl rfl rfl (by decide) rfl rfl (fun _ => vop_plain rfl)

theorem vsra (o : VOp) : Statement (.vsra o) :=
  of_row (opc := 0x2B) .vsra rfl rfl (by decide) rfl rfl (fun _ => vop_plain rfl)

theorem vsadd (o : VOp) : Statement (.vsadd o) :=
  of_row (opc := 0x2C) .vsadd rfl rfl (by decide) rfl rfl (fun _ => vop_plain rfl)

theorem vsaddu (o : VOp) : Statement (.vsaddu o) :=
  of_row (opc := 0x2C) .vsaddu rfl rfl (by decide) rfl rfl (fun _ => vop_plain rfl)

theorem vssub (o : VOp) : Statement (.vssub o) :=
  of_row (opc := 0x2C) .vssub rfl rfl (by decide) rfl rfl (fun _ => vop_plain rfl)

theorem vssubu (o : VOp) : Statement (.vssubu o) :=
  of_row (opc := 0x2C) .vssubu rfl rfl (by decide) rfl rfl (fun _ => vop_plain rfl)

theorem vavg (o : VOp) : Statement (.vavg o) :=
  of_row (opc := 0x2D) .vavg rfl rfl (by decide) rfl rfl (fun _ => vop_plain rfl)

theorem vavgu (o : VOp) : Statement (.vavgu o) :=
  of_row (opc := 0x2D) .vavgu rfl rfl (by decide) rfl rfl (fun _ => vop_plain rfl)

theorem vabsd (o : VOp) : Statement (.vabsd o) :=
  of_row (opc := 0x2D) .vabsd rfl rfl (by decide) rfl rfl (fun _ => vop_plain rfl)

theorem vwadd (o : VOp) : Statement (.vwadd o) :=
  of_row (opc := 0x2E) .vwadd rfl rfl (by decide) rfl rfl (fun _ => vop_plain rfl)

theorem vwaddu (o : VOp) : Statement (.vwaddu o) :=
  of_row (opc := 0x2E) .vwaddu rfl rfl (by decide) rfl rfl (fun _ => vop_plain rfl)

theorem vwsub (o : VOp) : Statement (.vwsub o) :=
  of_row (opc := 0x2E) .vwsub rfl rfl (by decide) rfl rfl (fun _ => vop_plain rfl)

theorem vwmul (o : VOp) : Statement (.vwmul o) :=
  of_row (opc := 0x2F) .vwmul rfl rfl (by decide) rfl rfl (fun _ => vop_plain rfl)

theorem vwmulu (o : VOp) : Statement (.vwmulu o) :=
  of_row (opc := 0x2F) .vwmulu rfl rfl (by decide) rfl rfl (fun _ => vop_plain rfl)

theorem vwmacc (o : VOp) : Statement (.vwmacc o) :=
  of_row (opc := 0x2F) .vwmacc rfl rfl (by decide) rfl rfl (fun _ => vop_plain rfl)

theorem vnsrl (o : VOp) : Statement (.vnsrl o) :=
  of_row (opc := 0x30) .vnsrl rfl rfl (by decide) rfl rfl (fun _ => vop_plain rfl)

theorem vnclip (o : VOp) : Statement (.vnclip o) :=
  of_row (opc := 0x30) .vnclip rfl rfl (by decide) rfl rfl (fun _ => vop_plain rfl)

theorem vnclipu (o : VOp) : Statement (.vnclipu o) :=
  of_row (opc := 0x30) .vnclipu rfl rfl (by decide) rfl rfl (fun _ => vop_plain rfl)

theorem vsext (o : VOp) : Statement (.vsext o) :=
  of_row (opc := 0x31) .vsext rfl rfl (by decide) rfl rfl (fun _ => vop_plain rfl)

theorem vzext (o : VOp) : Statement (.vzext o) :=
  of_row (opc := 0x31) .vzext rfl rfl (by decide) rfl rfl (fun _ => vop_plain rfl)

theorem vcmp (cc : VCc) (o : VOp) : Statement (.vcmp cc o) := by
  cases cc with
  | eq => exact of_row (opc := 0x32) (.vcmp .eq) rfl rfl (by decide) rfl rfl (fun _ => vop_plain rfl)
  | ne => exact of_row (opc := 0x32) (.vcmp .ne) rfl rfl (by decide) rfl rfl (fun _ => vop_plain rfl)
  | lt => exact of_row (opc := 0x32) (.vcmp .lt) rfl rfl (by decide) rfl rfl (fun _ => vop_plain rfl)
  | ltu => exact of_row (opc := 0x32) (.vcmp .ltu) rfl rfl (by decide) rfl rfl (fun _ => vop_plain rfl)
  | le => exact of_row (opc := 0x32) (.vcmp .le) rfl rfl (by decide) rfl rfl (fun _ => vop_plain rfl)
  | leu => exact of_row (opc := 0x32) (.vcmp .leu) rfl rfl (by decide) rfl rfl (fun _ => vop_plain rfl)
  | gt => exact of_row (opc := 0x32) (.vcmp .gt) rfl rfl (by decide) rfl rfl (fun _ => vop_plain rfl)
  | gtu => exact of_row (opc := 0x32) (.vcmp .gtu) rfl rfl (by decide) rfl rfl (fun _ => vop_plain rfl)

theorem vmerge (o : VOp) : Statement (.vmerge o) :=
  of_row (opc := 0x33) .vmerge rfl rfl (by decide) rfl rfl (fun _ => vop_plain rfl)

theorem vmv (o : VOp) : Statement (.vmv o) :=
  of_row (opc := 0x34) .vmv rfl rfl (by decide) rfl rfl (fun _ => vop_plain rfl)

theorem vclz (o : VOp) : Statement (.vclz o) :=
  of_row (opc := 0x35) .vclz rfl rfl (by decide) rfl rfl (fun _ => vop_plain rfl)

theorem vctz (o : VOp) : Statement (.vctz o) :=
  of_row (opc := 0x35) .vctz rfl rfl (by decide) rfl rfl (fun _ => vop_plain rfl)

theorem vpopc (o : VOp) : Statement (.vpopc o) :=
  of_row (opc := 0x35) .vpopc rfl rfl (by decide) rfl rfl (fun _ => vop_plain rfl)

theorem vdot (op : DotOp) (o : VOp) : Statement (.vdot op o) := by
  cases op with
  | ss => exact of_row (opc := 0x36) (.vdot .ss) rfl rfl (by decide) rfl rfl (fun _ => vop_plain rfl)
  | uu => exact of_row (opc := 0x36) (.vdot .uu) rfl rfl (by decide) rfl rfl (fun _ => vop_plain rfl)
  | su => exact of_row (opc := 0x36) (.vdot .su) rfl rfl (by decide) rfl rfl (fun _ => vop_plain rfl)
  | us => exact of_row (opc := 0x36) (.vdot .us) rfl rfl (by decide) rfl rfl (fun _ => vop_plain rfl)

theorem vlut4 (o : VOp) : Statement (.vlut4 o) :=
  of_row (opc := 0x37) .vlut4 rfl rfl (by decide) rfl rfl (fun _ => vop_plain rfl)

theorem vfadd (o : VOp) : Statement (.vfadd o) :=
  of_row (opc := 0x40) .vfadd rfl rfl (by decide) rfl rfl (fun _ => vop_plain rfl)

theorem vfsub (o : VOp) : Statement (.vfsub o) :=
  of_row (opc := 0x41) .vfsub rfl rfl (by decide) rfl rfl (fun _ => vop_plain rfl)

theorem vfmul (o : VOp) : Statement (.vfmul o) :=
  of_row (opc := 0x42) .vfmul rfl rfl (by decide) rfl rfl (fun _ => vop_plain rfl)

theorem vfdiv (o : VOp) : Statement (.vfdiv o) :=
  of_row (opc := 0x43) .vfdiv rfl rfl (by decide) rfl rfl (fun _ => vop_plain rfl)

theorem vfsqrt (o : VOp) : Statement (.vfsqrt o) :=
  of_row (opc := 0x44) .vfsqrt rfl rfl (by decide) rfl rfl (fun _ => vop_plain rfl)

theorem vfmadd (o : VOp) : Statement (.vfmadd o) :=
  of_row (opc := 0x45) .vfmadd rfl rfl (by decide) rfl rfl (fun _ => vop_plain rfl)

theorem vfmsub (o : VOp) : Statement (.vfmsub o) :=
  of_row (opc := 0x46) .vfmsub rfl rfl (by decide) rfl rfl (fun _ => vop_plain rfl)

theorem vfnmadd (o : VOp) : Statement (.vfnmadd o) :=
  of_row (opc := 0x47) .vfnmadd rfl rfl (by decide) rfl rfl (fun _ => vop_plain rfl)

theorem vfnmsub (o : VOp) : Statement (.vfnmsub o) :=
  of_row (opc := 0x48) .vfnmsub rfl rfl (by decide) rfl rfl (fun _ => vop_plain rfl)

theorem vfmin (o : VOp) : Statement (.vfmin o) :=
  of_row (opc := 0x49) .vfmin rfl rfl (by decide) rfl rfl (fun _ => vop_plain rfl)

theorem vfmax (o : VOp) : Statement (.vfmax o) :=
  of_row (opc := 0x4A) .vfmax rfl rfl (by decide) rfl rfl (fun _ => vop_plain rfl)

theorem vfminmax (op : MinMaxOp) (o : VOp) : Statement (.vfminmax op o) := by
  cases op with
  | min => exact of_row (opc := 0x4B) (.vfminmax .min) rfl rfl (by decide) rfl rfl (fun _ => vop_plain rfl)
  | max => exact of_row (opc := 0x4B) (.vfminmax .max) rfl rfl (by decide) rfl rfl (fun _ => vop_plain rfl)
  | minnum => exact of_row (opc := 0x4B) (.vfminmax .minnum) rfl rfl (by decide) rfl rfl (fun _ => vop_plain rfl)
  | maxnum => exact of_row (opc := 0x4B) (.vfminmax .maxnum) rfl rfl (by decide) rfl rfl (fun _ => vop_plain rfl)

theorem vfcmp (cc : FCc) (o : VOp) : Statement (.vfcmp cc o) := by
  cases cc with
  | eq => exact of_row (opc := 0x4C) (.vfcmp .eq) rfl rfl (by decide) rfl rfl (fun _ => vop_plain rfl)
  | lt => exact of_row (opc := 0x4C) (.vfcmp .lt) rfl rfl (by decide) rfl rfl (fun _ => vop_plain rfl)
  | le => exact of_row (opc := 0x4C) (.vfcmp .le) rfl rfl (by decide) rfl rfl (fun _ => vop_plain rfl)
  | unord => exact of_row (opc := 0x4C) (.vfcmp .unord) rfl rfl (by decide) rfl rfl (fun _ => vop_plain rfl)

theorem vfclass (o : VOp) : Statement (.vfclass o) :=
  of_row (opc := 0x4D) .vfclass rfl rfl (by decide) rfl rfl (fun _ => vop_plain rfl)

theorem vfsgnj (o : VOp) : Statement (.vfsgnj o) :=
  of_row (opc := 0x4E) .vfsgnj rfl rfl (by decide) rfl rfl (fun _ => vop_plain rfl)

theorem vfsgnjn (o : VOp) : Statement (.vfsgnjn o) :=
  of_row (opc := 0x4E) .vfsgnjn rfl rfl (by decide) rfl rfl (fun _ => vop_plain rfl)

theorem vfsgnjx (o : VOp) : Statement (.vfsgnjx o) :=
  of_row (opc := 0x4E) .vfsgnjx rfl rfl (by decide) rfl rfl (fun _ => vop_plain rfl)

theorem vfcvt (op : FCvt) (o : VOp) : Statement (.vfcvt op o) := by
  cases op with
  | fwid => exact of_row (opc := 0x4F) (.vfcvt .fwid) rfl rfl (by decide) rfl rfl (fun _ => vop_plain rfl)
  | fnar => exact of_row (opc := 0x4F) (.vfcvt .fnar) rfl rfl (by decide) rfl rfl (fun _ => vop_plain rfl)
  | ftoi => exact of_row (opc := 0x4F) (.vfcvt .ftoi) rfl rfl (by decide) rfl rfl (fun _ => vop_plain rfl)
  | fton => exact of_row (opc := 0x4F) (.vfcvt .fton) rfl rfl (by decide) rfl rfl (fun _ => vop_plain rfl)
  | itof => exact of_row (opc := 0x4F) (.vfcvt .itof) rfl rfl (by decide) rfl rfl (fun _ => vop_plain rfl)
  | ntof => exact of_row (opc := 0x4F) (.vfcvt .ntof) rfl rfl (by decide) rfl rfl (fun _ => vop_plain rfl)
  | fnars => exact of_row (opc := 0x4F) (.vfcvt .fnars) rfl rfl (by decide) rfl rfl (fun _ => vop_plain rfl)

theorem vfrcp (o : VOp) : Statement (.vfrcp o) :=
  of_row (opc := 0x50) .vfrcp rfl rfl (by decide) rfl rfl (fun _ => vop_plain rfl)

theorem vfrsqrt (o : VOp) : Statement (.vfrsqrt o) :=
  of_row (opc := 0x51) .vfrsqrt rfl rfl (by decide) rfl rfl (fun _ => vop_plain rfl)

theorem vfdot2 (o : VOp) : Statement (.vfdot2 o) :=
  of_row (opc := 0x52) .vfdot2 rfl rfl (by decide) rfl rfl (fun _ => vop_plain rfl)

theorem vfwma (o : VOp) : Statement (.vfwma o) :=
  of_row (opc := 0x53) .vfwma rfl rfl (by decide) rfl rfl (fun _ => vop_plain rfl)

theorem vfrnd (o : VOp) : Statement (.vfrnd o) :=
  of_row (opc := 0x54) .vfrnd rfl rfl (by decide) rfl rfl (fun _ => vop_plain rfl)

theorem vslideup (o : VOp) : Statement (.vslideup o) :=
  of_row (opc := 0x60) .vslideup rfl rfl (by decide) rfl rfl (fun _ => vop_plain rfl)

theorem vslidedn (o : VOp) : Statement (.vslidedn o) :=
  of_row (opc := 0x61) .vslidedn rfl rfl (by decide) rfl rfl (fun _ => vop_plain rfl)

theorem vslide1up (o : VOp) : Statement (.vslide1up o) :=
  of_row (opc := 0x62) .vslide1up rfl rfl (by decide) rfl rfl (fun _ => vop_plain rfl)

theorem vslide1dn (o : VOp) : Statement (.vslide1dn o) :=
  of_row (opc := 0x63) .vslide1dn rfl rfl (by decide) rfl rfl (fun _ => vop_plain rfl)

theorem vperm (o : VOp) : Statement (.vperm o) :=
  of_row (opc := 0x64) .vperm rfl rfl (by decide) rfl rfl (fun _ => vop_plain rfl)

theorem vcompress (o : VOp) : Statement (.vcompress o) :=
  of_row (opc := 0x65) .vcompress rfl rfl (by decide) rfl rfl (fun _ => vop_plain rfl)

theorem viota (o : VOp) : Statement (.viota o) :=
  of_row (opc := 0x66) .viota rfl rfl (by decide) rfl rfl (fun _ => vop_plain rfl)

theorem vid (o : VOp) : Statement (.vid o) :=
  of_row (opc := 0x67) .vid rfl rfl (by decide) rfl rfl (fun _ => vop_plain rfl)

theorem vred (op : RedOp) (o : VOp) : Statement (.vred op o) := by
  cases op with
  | sum => exact of_row (opc := 0x68) (.vred .sum) rfl rfl (by decide) rfl rfl (fun _ => vop_plain rfl)
  | and => exact of_row (opc := 0x68) (.vred .and) rfl rfl (by decide) rfl rfl (fun _ => vop_plain rfl)
  | or => exact of_row (opc := 0x68) (.vred .or) rfl rfl (by decide) rfl rfl (fun _ => vop_plain rfl)
  | xor => exact of_row (opc := 0x68) (.vred .xor) rfl rfl (by decide) rfl rfl (fun _ => vop_plain rfl)
  | min => exact of_row (opc := 0x68) (.vred .min) rfl rfl (by decide) rfl rfl (fun _ => vop_plain rfl)
  | max => exact of_row (opc := 0x68) (.vred .max) rfl rfl (by decide) rfl rfl (fun _ => vop_plain rfl)
  | minu => exact of_row (opc := 0x68) (.vred .minu) rfl rfl (by decide) rfl rfl (fun _ => vop_plain rfl)
  | maxu => exact of_row (opc := 0x68) (.vred .maxu) rfl rfl (by decide) rfl rfl (fun _ => vop_plain rfl)

theorem vfredsum (o : VOp) : Statement (.vfredsum o) :=
  of_row (opc := 0x69) .vfredsum rfl rfl (by decide) rfl rfl (fun _ => vop_plain rfl)

theorem vfredosum (o : VOp) : Statement (.vfredosum o) :=
  of_row (opc := 0x6A) .vfredosum rfl rfl (by decide) rfl rfl (fun _ => vop_plain rfl)

theorem vfredmin (o : VOp) : Statement (.vfredmin o) :=
  of_row (opc := 0x6B) .vfredmin rfl rfl (by decide) rfl rfl (fun _ => vop_plain rfl)

theorem vfredmax (o : VOp) : Statement (.vfredmax o) :=
  of_row (opc := 0x6C) .vfredmax rfl rfl (by decide) rfl rfl (fun _ => vop_plain rfl)

theorem vxget (o : VOp) : Statement (.vxget o) :=
  of_row (opc := 0x6D) .vxget rfl rfl (by decide) rfl rfl (fun _ => vop_plain rfl)

theorem vmlog (op : MlogOp) (o : VOp) : Statement (.vmlog op o) := by
  cases op with
  | and => exact of_row (opc := 0x70) (.vmlog .and) rfl rfl (by decide) rfl rfl (fun _ => vop_plain rfl)
  | or => exact of_row (opc := 0x70) (.vmlog .or) rfl rfl (by decide) rfl rfl (fun _ => vop_plain rfl)
  | xor => exact of_row (opc := 0x70) (.vmlog .xor) rfl rfl (by decide) rfl rfl (fun _ => vop_plain rfl)
  | andn => exact of_row (opc := 0x70) (.vmlog .andn) rfl rfl (by decide) rfl rfl (fun _ => vop_plain rfl)
  | not => exact of_row (opc := 0x70) (.vmlog .not) rfl rfl (by decide) rfl rfl (fun _ => vop_plain rfl)

theorem vmpopc (o : VOp) : Statement (.vmpopc o) :=
  of_row (opc := 0x71) .vmpopc rfl rfl (by decide) rfl rfl (fun _ => vop_plain rfl)

theorem vmfirst (o : VOp) : Statement (.vmfirst o) :=
  of_row (opc := 0x72) .vmfirst rfl rfl (by decide) rfl rfl (fun _ => vop_plain rfl)

theorem vmsbf (o : VOp) : Statement (.vmsbf o) :=
  of_row (opc := 0x73) .vmsbf rfl rfl (by decide) rfl rfl (fun _ => vop_plain rfl)

theorem vmsif (o : VOp) : Statement (.vmsif o) :=
  of_row (opc := 0x74) .vmsif rfl rfl (by decide) rfl rfl (fun _ => vop_plain rfl)

theorem vmsof (o : VOp) : Statement (.vmsof o) :=
  of_row (opc := 0x75) .vmsof rfl rfl (by decide) rfl rfl (fun _ => vop_plain rfl)

theorem vmspush (o : VOp) : Statement (.vmspush o) :=
  of_row (opc := 0x76) .vmspush rfl rfl (by decide) rfl rfl (fun _ => vop_plain rfl)

theorem vmselse (o : VOp) : Statement (.vmselse o) :=
  of_row (opc := 0x77) .vmselse rfl rfl (by decide) rfl rfl (fun _ => vop_plain rfl)

theorem vmspop (o : VOp) : Statement (.vmspop o) :=
  of_row (opc := 0x78) .vmspop rfl rfl (by decide) rfl rfl (fun _ => vop_plain rfl)

theorem vmsbrk (o : VOp) : Statement (.vmsbrk o) :=
  of_row (opc := 0x79) .vmsbrk rfl rfl (by decide) rfl rfl (fun _ => vop_plain rfl)

theorem vmsany (o : VOp) : Statement (.vmsany o) :=
  of_row (opc := 0x7A) .vmsany rfl rfl (by decide) rfl rfl (fun _ => vop_plain rfl)

theorem vtexs (o : VOp) : Statement (.vtexs o) :=
  of_row (opc := 0x80) .vtexs rfl rfl (by decide) rfl rfl (fun h => vop_k rfl (by decide) (k_only (t := (VShape.tex .vOpt)) rfl rfl (by
    simp only [Instr.wf, Bool.and_eq_true] at h; tauto)))

theorem vtexl (o : VOp) : Statement (.vtexl o) :=
  of_row (opc := 0x81) .vtexl rfl rfl (by decide) rfl rfl (fun h => vop_k rfl (by decide) (k_only (t := (VShape.tex .v)) rfl rfl (by
    simp only [Instr.wf, Bool.and_eq_true] at h; tauto)))

theorem vtexd (o : VOp) : Statement (.vtexd o) :=
  of_row (opc := 0x82) .vtexd rfl rfl (by decide) rfl rfl (fun h => vop_k rfl (by decide) (k_only (t := (VShape.tex .v)) rfl rfl (by
    simp only [Instr.wf, Bool.and_eq_true] at h; tauto)))

theorem vtexf (o : VOp) : Statement (.vtexf o) :=
  of_row (opc := 0x83) .vtexf rfl rfl (by decide) rfl rfl (fun h => vop_k rfl (by decide) (k_only (t := (VShape.tex .v)) rfl rfl (by
    simp only [Instr.wf, Bool.and_eq_true] at h; tauto)))

theorem vtexg4 (ch : BitVec 2) (o : VOp) : Statement (.vtexg4 ch o) := by
  have h4 : ∀ x : BitVec 2, x = 0 ∨ x = 1 ∨ x = 2 ∨ x = 3 := by decide
  obtain rfl | rfl | rfl | rfl := h4 ch
  · exact of_row (opc := 0x84) (fn := 0) (.vtexg4 0) rfl rfl (by decide) rfl rfl (fun h => vop_k rfl (by decide) (k_only (t := (VShape.tex .absent)) rfl rfl (by
    simp only [Instr.wf, Bool.and_eq_true] at h; tauto)))
  · exact of_row (opc := 0x84) (fn := 1) (.vtexg4 1) rfl rfl (by decide) rfl rfl (fun h => vop_k rfl (by decide) (k_only (t := (VShape.tex .absent)) rfl rfl (by
    simp only [Instr.wf, Bool.and_eq_true] at h; tauto)))
  · exact of_row (opc := 0x84) (fn := 2) (.vtexg4 2) rfl rfl (by decide) rfl rfl (fun h => vop_k rfl (by decide) (k_only (t := (VShape.tex .absent)) rfl rfl (by
    simp only [Instr.wf, Bool.and_eq_true] at h; tauto)))
  · exact of_row (opc := 0x84) (fn := 3) (.vtexg4 3) rfl rfl (by decide) rfl rfl (fun h => vop_k rfl (by decide) (k_only (t := (VShape.tex .absent)) rfl rfl (by
    simp only [Instr.wf, Bool.and_eq_true] at h; tauto)))

theorem vtexq (op : TexqOp) (o : VOp) : Statement (.vtexq op o) := by
  cases op with
  | size => exact of_row (opc := 0x85) (.vtexq .size) rfl rfl (by decide) rfl rfl (fun h => vop_k rfl (by decide) (k_only (t := (VShape.tex .absent)) rfl rfl (by
    simp only [Instr.wf, Bool.and_eq_true] at h; tauto)))
  | lod => exact of_row (opc := 0x85) (.vtexq .lod) rfl rfl (by decide) rfl rfl (fun h => vop_k rfl (by decide) (k_only (t := (VShape.tex .absent)) rfl rfl (by
    simp only [Instr.wf, Bool.and_eq_true] at h; tauto)))

theorem vrqbox (o : VOp) : Statement (.vrqbox o) :=
  of_row (opc := 0x86) .vrqbox rfl rfl (by decide) rfl rfl (fun h => vop_k rfl (by decide) (k_only (t := VShape.ray) rfl rfl (by
    simp only [Instr.wf, Bool.and_eq_true] at h; tauto)))

theorem vrqtri (op : TriCull) (o : VOp) : Statement (.vrqtri op o) := by
  cases op with
  | none_ => exact of_row (opc := 0x87) (.vrqtri .none_) rfl rfl (by decide) rfl rfl (fun h => vop_k rfl (by decide) (k_only (t := VShape.ray) rfl rfl (by
    simp only [Instr.wf, Bool.and_eq_true] at h; tauto)))
  | back => exact of_row (opc := 0x87) (.vrqtri .back) rfl rfl (by decide) rfl rfl (fun h => vop_k rfl (by decide) (k_only (t := VShape.ray) rfl rfl (by
    simp only [Instr.wf, Bool.and_eq_true] at h; tauto)))
  | front => exact of_row (opc := 0x87) (.vrqtri .front) rfl rfl (by decide) rfl rfl (fun h => vop_k rfl (by decide) (k_only (t := VShape.ray) rfl rfl (by
    simp only [Instr.wf, Bool.and_eq_true] at h; tauto)))

theorem vexport (o : VOp) : Statement (.vexport o) :=
  of_row (opc := 0x88) .vexport rfl rfl (by decide) rfl rfl (fun h => vop_export (reg_only (t := ({ VShape.vv with d := .absent, a := .v, b := .vOpt, c := .v } : VShape)) rfl rfl (by
    simp only [Instr.wf, Bool.and_eq_true] at h; tauto)))

theorem vbind (d : BitVec 2) (src : BindSrc) : Statement (.vbind d src) := by
  cases src with
  | streamIn k => exact of_block rfl rfl (by revert d k; decide)
  | streamOut k => exact of_block rfl rfl (by revert d k; decide)
  | chan => exact of_block rfl rfl (by revert d; decide)
  | frag => exact of_block rfl rfl (by revert d; decide)

theorem vunbind (d : BitVec 2) : Statement (.vunbind d) :=
  of_block rfl rfl (by revert d; decide)

theorem vlsync : Statement .vlsync := of_block rfl rfl (by decide)

theorem vstop : Statement .vstop := of_block rfl rfl (by decide)

theorem channelRingTransfer : Statement .channelRingTransfer := no_word rfl rfl

theorem trapEntry (cause : BitVec 8) (tval : Word) (sub : BitVec 16) : Statement (.trapEntry cause tval sub) := no_word rfl rfl

theorem uiPost (target : ContId) (code : BitVec 8) (info : BitVec 32) : Statement (.uiPost target code info) := no_word rfl rfl

theorem uiEntry : Statement .uiEntry := no_word rfl rfl

theorem shapeChangeNotice (target : ContId) (window : BitVec 32) : Statement (.shapeChangeNotice target window) := no_word rfl rfl

theorem noticeWindowExpiry (target : ContId) : Statement (.noticeWindowExpiry target) := no_word rfl rfl

theorem messageDelivery (sender : ContId) (target : Word) (blk : Bool) (payload : BitVec 512) : Statement (.messageDelivery sender target blk payload) := no_word rfl rfl

theorem messageDivert (sender : ContId) (target : Word) (blk : Bool) (payload : BitVec 512) : Statement (.messageDivert sender target blk payload) := no_word rfl rfl

theorem inboxDelivery (target : ContId) : Statement (.inboxDelivery target) := no_word rfl rfl

theorem hartRetire (target : ContId) : Statement (.hartRetire target) := no_word rfl rfl

theorem pinnedRefill (o : BitVec 4) : Statement (.pinnedRefill o) := no_word rfl rfl

theorem pinnedEvict (target : ContId) (o : BitVec 4) : Statement (.pinnedEvict target o) := no_word rfl rfl

theorem scratchpadEvict (target : ContId) : Statement (.scratchpadEvict target) := no_word rfl rfl

theorem scratchpadStreamIn (target : ContId) : Statement (.scratchpadStreamIn target) := no_word rfl rfl

theorem apertureRetry : Statement .apertureRetry := no_word rfl rfl

theorem corePowerGate (core : BitVec 11) : Statement (.corePowerGate core) := no_word rfl rfl

theorem shadowEntryWrite (ix : BitVec 8) (second : Bool) (v : Word) : Statement (.shadowEntryWrite ix second v) := no_word rfl rfl

theorem swap : Statement .swap := no_word rfl rfl

theorem swapBroadcastArrival (die : DieNo) : Statement (.swapBroadcastArrival die) := no_word rfl rfl

theorem dieAcknowledge (die : DieNo) : Statement (.dieAcknowledge die) := no_word rfl rfl

theorem routedRequestArrival (ix : BitVec 16) (die : DieNo) : Statement (.routedRequestArrival ix die) := no_word rfl rfl

theorem windowTableWrite (p : BitVec 7) (ix : BitVec 4) (w0 : Word) (w1 : Word) : Statement (.windowTableWrite p ix w0 w1) := no_word rfl rfl

theorem circuitSetUp (ix : BitVec 8) (w0 : Word) : Statement (.circuitSetUp ix w0) := no_word rfl rfl

theorem circuitTearDown (ix : BitVec 8) : Statement (.circuitTearDown ix) := no_word rfl rfl

theorem circuitUp (ix : BitVec 8) : Statement (.circuitUp ix) := no_word rfl rfl

theorem circuitDown (ix : BitVec 8) : Statement (.circuitDown ix) := no_word rfl rfl

theorem kick (engine : BitVec 9) (payload : Word) : Statement (.kick engine payload) := no_word rfl rfl

theorem kickRecordFill (engine : BitVec 9) : Statement (.kickRecordFill engine) := no_word rfl rfl

theorem microcodeLoad (engine : BitVec 9) (verified : Bool) (image : List (BitVec 8)) : Statement (.microcodeLoad engine verified image) := no_word rfl rfl

theorem registerWrite (pa : BitVec 52) (v : Word) : Statement (.registerWrite pa v) := no_word rfl rfl

theorem queueCreate (q : QNum) (create : Bool) (desc : List Word) : Statement (.queueCreate q create desc) := no_word rfl rfl

theorem notify (q : QNum) (v : Word) : Statement (.notify q v) := no_word rfl rfl

theorem reportQueueNotify (q : QNum) (v : Word) : Statement (.reportQueueNotify q v) := no_word rfl rfl

theorem dispatch (q : QNum) : Statement (.dispatch q) := no_word rfl rfl

theorem streamjob (q : QNum) : Statement (.streamjob q) := no_word rfl rfl

theorem waitsig (q : QNum) : Statement (.waitsig q) := no_word rfl rfl

theorem setsig (q : QNum) : Statement (.setsig q) := no_word rfl rfl

theorem indirect (q : QNum) : Statement (.indirect q) := no_word rfl rfl

theorem copy (q : QNum) : Statement (.copy q) := no_word rfl rfl

theorem copyComplete (q : QNum) (pktix : Word) : Statement (.copyComplete q pktix) := no_word rfl rfl

theorem drainMode0 (q : QNum) : Statement (.drainMode0 q) := no_word rfl rfl

theorem drainMode1 (q : QNum) : Statement (.drainMode1 q) := no_word rfl rfl

theorem drainMode2 (q : QNum) : Statement (.drainMode2 q) := no_word rfl rfl

theorem drainComplete (q : QNum) : Statement (.drainComplete q) := no_word rfl rfl

theorem destroyMode0 (q : QNum) : Statement (.destroyMode0 q) := no_word rfl rfl

theorem destroyMode1 (q : QNum) : Statement (.destroyMode1 q) := no_word rfl rfl

theorem destroyComplete (q : QNum) : Statement (.destroyComplete q) := no_word rfl rfl

theorem resetpart (q : QNum) : Statement (.resetpart q) := no_word rfl rfl

theorem timerset (q : QNum) : Statement (.timerset q) := no_word rfl rfl

theorem reportWrite (q : QNum) : Statement (.reportWrite q) := no_word rfl rfl

theorem jobPick (part : BitVec 7) (spread : List (QNum × DieNo × BitVec 32)) : Statement (.jobPick part spread) := no_word rfl rfl

theorem gangPlace (job : BitVec 32) (gang : BitVec 32) (places : List Place) : Statement (.gangPlace job gang places) := no_word rfl rfl

theorem jobComplete (job : BitVec 32) : Statement (.jobComplete job) := no_word rfl rfl

theorem energyWindowStart (die : DieNo) : Statement (.energyWindowStart die) := no_word rfl rfl

theorem watchdogExpiry (q : QNum) (pktix : Word) : Statement (.watchdogExpiry q pktix) := no_word rfl rfl

theorem clockChange (die : DieNo) (mhz : BitVec 12) : Statement (.clockChange die mhz) := no_word rfl rfl

theorem beginpass (q : QNum) : Statement (.beginpass q) := no_word rfl rfl

theorem state (q : QNum) : Statement (.state q) := no_word rfl rfl

theorem draw (q : QNum) : Statement (.draw q) := no_word rfl rfl

theorem drawmesh (q : QNum) : Statement (.drawmesh q) := no_word rfl rfl

theorem drawind (q : QNum) : Statement (.drawind q) := no_word rfl rfl

theorem endpass (q : QNum) : Statement (.endpass q) := no_word rfl rfl

theorem geometryGangLaunch (die : DieNo) (ctx : BitVec 4) (places : List Place) : Statement (.geometryGangLaunch die ctx places) := no_word rfl rfl

theorem batchClose (die : DieNo) (ctx : BitVec 4) (draw : BitVec 32) (batch : BitVec 32) : Statement (.batchClose die ctx draw batch) := no_word rfl rfl

theorem primitiveLand (die : DieNo) (ctx : BitVec 4) (ticket : Word) : Statement (.primitiveLand die ctx ticket) := no_word rfl rfl

theorem fragmentEmit (die : DieNo) (ctx : BitVec 4) (member : ContId) : Statement (.fragmentEmit die ctx member) := no_word rfl rfl

theorem fragmentGangLaunch (die : DieNo) (ctx : BitVec 4) (draw : BitVec 32) (tx : BitVec 16) (ty : BitVec 16) (places : List Place) : Statement (.fragmentGangLaunch die ctx draw tx ty places) := no_word rfl rfl

theorem fragmentStreamEnd (member : ContId) : Statement (.fragmentStreamEnd member) := no_word rfl rfl

theorem blendApply (die : DieNo) (ctx : BitVec 4) (tx : BitVec 16) (ty : BitVec 16) (ix : BitVec 16) : Statement (.blendApply die ctx tx ty ix) := no_word rfl rfl

theorem renderContextSave (die : DieNo) (ctx : BitVec 4) : Statement (.renderContextSave die ctx) := no_word rfl rfl

theorem renderContextRestore (die : DieNo) (ctx : BitVec 4) : Statement (.renderContextRestore die ctx) := no_word rfl rfl

theorem patrolScrub (granule : BitVec 46) (correctable : Bool) : Statement (.patrolScrub granule correctable) := no_word rfl rfl

theorem poisonListFree (granules : List (BitVec 46)) : Statement (.poisonListFree granules) := no_word rfl rfl

theorem cxlPortDown (port : BitVec 2) : Statement (.cxlPortDown port) := no_word rfl rfl

theorem peerFrameReceive (port : BitVec 3) (entry : BitVec 8) (seq : BitVec 32) (crcOk : Bool) (payload : List (BitVec 8)) : Statement (.peerFrameReceive port entry seq crcOk payload) := no_word rfl rfl

theorem peerLinkFail (port : BitVec 3) : Statement (.peerLinkFail port) := no_word rfl rfl

theorem coldReset (ecdsaOk : Bool) (lmsOk : Bool) (versionOk : Bool) : Statement (.coldReset ecdsaOk lmsOk versionOk) := no_word rfl rfl

theorem recoveryImageWrite (ecdsaOk : Bool) (lmsOk : Bool) (versionOk : Bool) : Statement (.recoveryImageWrite ecdsaOk lmsOk versionOk) := no_word rfl rfl

theorem dieTraining (ports : BitVec 8) (caches : BitVec 8) (farMode : BitVec 8) (farGib : List (BitVec 32)) (powerReq : BitVec 32) (powerLo : BitVec 32) (powerHi : BitVec 32) (timeHz : Word) (ebudget : List (BitVec 32)) (peers : BitVec 8) (hostW : BitVec 8) (hostGt : BitVec 8) (fwVer : BitVec 32) : Statement (.dieTraining ports caches farMode farGib powerReq powerLo powerHi timeHz ebudget peers hostW hostGt fwVer) := no_word rfl rfl

theorem getMeasurements (ix : BitVec 8) : Statement (.getMeasurements ix) := no_word rfl rfl

theorem setkey (part : BitVec 7) (slot : BitVec 6) (key : BitVec 256) (txfix : BitVec 32) (rxfix : BitVec 32) : Statement (.setkey part slot key txfix rxfix) := no_word rfl rfl

theorem tdispStateChange (part : BitVec 7) (st : TdiState) : Statement (.tdispStateChange part st) := no_word rfl rfl

theorem tdiError (part : BitVec 7) : Statement (.tdiError part) := no_word rfl rfl

theorem flitReplay (stream : BitVec 4) (seq : BitVec 16) : Statement (.flitReplay stream seq) := no_word rfl rfl

theorem kSetStop (stream : BitVec 4) (set : Bool) : Statement (.kSetStop stream set) := no_word rfl rfl

theorem thermalThrottle (die : BitVec 4) (sensor : BitVec 4) (temp : BitVec 16) (mhz : BitVec 12) : Statement (.thermalThrottle die sensor temp mhz) := no_word rfl rfl

theorem thermalTrip (die : BitVec 4) (sensor : BitVec 4) : Statement (.thermalTrip die sensor) := no_word rfl rfl

theorem hostPortAccess (pa : BitVec 52) (write : Option Word) (tdi : Option (BitVec 7)) : Statement (.hostPortAccess pa write tdi) := no_word rfl rfl

theorem corePowerRestore (core : BitVec 11) : Statement (.corePowerRestore core) := no_word rfl rfl

end Sys2Proof.Laws.DecodesBack
end

