-- ==== Sys2Proof/Laws/State.lean ====
section
/-! SUPPORT. One lemma for each field of a record and each update of it, so that no proof unfolds a record
update. -/

namespace Sys2Proof.Machine

@[simp] theorem State.setH_h (s : State) (k : Hart) : (s.setH k).h = k := rfl
@[simp] theorem State.setH_others (s : State) (k : Hart) : (s.setH k).others = s.others := rfl
@[simp] theorem State.setH_mem (s : State) (k : Hart) : (s.setH k).mem = s.mem := rfl
@[simp] theorem State.setH_gangs (s : State) (k : Hart) : (s.setH k).gangs = s.gangs := rfl
@[simp] theorem State.setH_sched (s : State) (k : Hart) : (s.setH k).sched = s.sched := rfl
@[simp] theorem State.setH_gfx (s : State) (k : Hart) : (s.setH k).gfx = s.gfx := rfl
@[simp] theorem State.setH_fab (s : State) (k : Hart) : (s.setH k).fab = s.fab := rfl
@[simp] theorem State.setH_pkg (s : State) (k : Hart) : (s.setH k).pkg = s.pkg := rfl
@[simp] theorem State.setH_pagerMsgs (s : State) (k : Hart) : (s.setH k).pagerMsgs = s.pagerMsgs := rfl
@[simp] theorem State.setH_time (s : State) (k : Hart) : (s.setH k).time = s.time := rfl
@[simp] theorem State.setH_tick (s : State) (k : Hart) : (s.setH k).tick = s.tick := rfl
@[simp] theorem State.setH_agenda (s : State) (k : Hart) : (s.setH k).agenda = s.agenda := rfl
@[simp] theorem State.setMem_h (s : State) (m : MemSys) : (s.setMem m).h = s.h := rfl
@[simp] theorem State.setMem_others (s : State) (m : MemSys) : (s.setMem m).others = s.others := rfl
@[simp] theorem State.setMem_mem (s : State) (m : MemSys) : (s.setMem m).mem = m := rfl
@[simp] theorem State.setMem_gangs (s : State) (m : MemSys) : (s.setMem m).gangs = s.gangs := rfl
@[simp] theorem State.setMem_sched (s : State) (m : MemSys) : (s.setMem m).sched = s.sched := rfl
@[simp] theorem State.setMem_gfx (s : State) (m : MemSys) : (s.setMem m).gfx = s.gfx := rfl
@[simp] theorem State.setMem_fab (s : State) (m : MemSys) : (s.setMem m).fab = s.fab := rfl
@[simp] theorem State.setMem_pkg (s : State) (m : MemSys) : (s.setMem m).pkg = s.pkg := rfl
@[simp] theorem State.setMem_pagerMsgs (s : State) (m : MemSys) : (s.setMem m).pagerMsgs = s.pagerMsgs := rfl
@[simp] theorem State.setMem_time (s : State) (m : MemSys) : (s.setMem m).time = s.time := rfl
@[simp] theorem State.setMem_tick (s : State) (m : MemSys) : (s.setMem m).tick = s.tick := rfl
@[simp] theorem State.setMem_agenda (s : State) (m : MemSys) : (s.setMem m).agenda = s.agenda := rfl
@[simp] theorem State.setX_h (s : State) (r : Reg) (v : Word) : (s.setX r v).h = s.h.setX r v := rfl
@[simp] theorem State.setX_others (s : State) (r : Reg) (v : Word) : (s.setX r v).others = s.others := rfl
@[simp] theorem State.setX_mem (s : State) (r : Reg) (v : Word) : (s.setX r v).mem = s.mem := rfl
@[simp] theorem State.setX_gangs (s : State) (r : Reg) (v : Word) : (s.setX r v).gangs = s.gangs := rfl
@[simp] theorem State.setX_sched (s : State) (r : Reg) (v : Word) : (s.setX r v).sched = s.sched := rfl
@[simp] theorem State.setX_gfx (s : State) (r : Reg) (v : Word) : (s.setX r v).gfx = s.gfx := rfl
@[simp] theorem State.setX_fab (s : State) (r : Reg) (v : Word) : (s.setX r v).fab = s.fab := rfl
@[simp] theorem State.setX_pkg (s : State) (r : Reg) (v : Word) : (s.setX r v).pkg = s.pkg := rfl
@[simp] theorem State.setX_pagerMsgs (s : State) (r : Reg) (v : Word) : (s.setX r v).pagerMsgs = s.pagerMsgs := rfl
@[simp] theorem State.setX_time (s : State) (r : Reg) (v : Word) : (s.setX r v).time = s.time := rfl
@[simp] theorem State.setX_tick (s : State) (r : Reg) (v : Word) : (s.setX r v).tick = s.tick := rfl
@[simp] theorem State.setX_agenda (s : State) (r : Reg) (v : Word) : (s.setX r v).agenda = s.agenda := rfl
@[simp] theorem State.setPc_h (s : State) (pc : Word) : (s.setPc pc).h = s.h.setPc pc := rfl
@[simp] theorem State.setPc_others (s : State) (pc : Word) : (s.setPc pc).others = s.others := rfl
@[simp] theorem State.setPc_mem (s : State) (pc : Word) : (s.setPc pc).mem = s.mem := rfl
@[simp] theorem State.setPc_gangs (s : State) (pc : Word) : (s.setPc pc).gangs = s.gangs := rfl
@[simp] theorem State.setPc_sched (s : State) (pc : Word) : (s.setPc pc).sched = s.sched := rfl
@[simp] theorem State.setPc_gfx (s : State) (pc : Word) : (s.setPc pc).gfx = s.gfx := rfl
@[simp] theorem State.setPc_fab (s : State) (pc : Word) : (s.setPc pc).fab = s.fab := rfl
@[simp] theorem State.setPc_pkg (s : State) (pc : Word) : (s.setPc pc).pkg = s.pkg := rfl
@[simp] theorem State.setPc_pagerMsgs (s : State) (pc : Word) : (s.setPc pc).pagerMsgs = s.pagerMsgs := rfl
@[simp] theorem State.setPc_time (s : State) (pc : Word) : (s.setPc pc).time = s.time := rfl
@[simp] theorem State.setPc_tick (s : State) (pc : Word) : (s.setPc pc).tick = s.tick := rfl
@[simp] theorem State.setPc_agenda (s : State) (pc : Word) : (s.setPc pc).agenda = s.agenda := rfl
@[simp] theorem State.advance_h (s : State) : (s.advance).h = s.h.advance := rfl
@[simp] theorem State.advance_others (s : State) : (s.advance).others = s.others := rfl
@[simp] theorem State.advance_mem (s : State) : (s.advance).mem = s.mem := rfl
@[simp] theorem State.advance_gangs (s : State) : (s.advance).gangs = s.gangs := rfl
@[simp] theorem State.advance_sched (s : State) : (s.advance).sched = s.sched := rfl
@[simp] theorem State.advance_gfx (s : State) : (s.advance).gfx = s.gfx := rfl
@[simp] theorem State.advance_fab (s : State) : (s.advance).fab = s.fab := rfl
@[simp] theorem State.advance_pkg (s : State) : (s.advance).pkg = s.pkg := rfl
@[simp] theorem State.advance_pagerMsgs (s : State) : (s.advance).pagerMsgs = s.pagerMsgs := rfl
@[simp] theorem State.advance_time (s : State) : (s.advance).time = s.time := rfl
@[simp] theorem State.advance_tick (s : State) : (s.advance).tick = s.tick := rfl
@[simp] theorem State.advance_agenda (s : State) : (s.advance).agenda = s.agenda := rfl
@[simp] theorem State.tickUp_h (s : State) : (s.tickUp).h = s.h := rfl
@[simp] theorem State.tickUp_others (s : State) : (s.tickUp).others = s.others := rfl
@[simp] theorem State.tickUp_mem (s : State) : (s.tickUp).mem = s.mem := rfl
@[simp] theorem State.tickUp_gangs (s : State) : (s.tickUp).gangs = s.gangs := rfl
@[simp] theorem State.tickUp_sched (s : State) : (s.tickUp).sched = s.sched := rfl
@[simp] theorem State.tickUp_gfx (s : State) : (s.tickUp).gfx = s.gfx := rfl
@[simp] theorem State.tickUp_fab (s : State) : (s.tickUp).fab = s.fab := rfl
@[simp] theorem State.tickUp_pkg (s : State) : (s.tickUp).pkg = s.pkg := rfl
@[simp] theorem State.tickUp_pagerMsgs (s : State) : (s.tickUp).pagerMsgs = s.pagerMsgs := rfl
@[simp] theorem State.tickUp_time (s : State) : (s.tickUp).time = s.time := rfl
@[simp] theorem State.tickUp_tick (s : State) : (s.tickUp).tick = s.tick + 1 := rfl
@[simp] theorem State.tickUp_agenda (s : State) : (s.tickUp).agenda = s.agenda := rfl
@[simp] theorem State.devSet_h (s : State) (a : Nat) (v : Word) : (s.devSet a v).h = s.h := rfl
@[simp] theorem State.devSet_others (s : State) (a : Nat) (v : Word) : (s.devSet a v).others = s.others := rfl
@[simp] theorem State.devSet_mem (s : State) (a : Nat) (v : Word) : (s.devSet a v).mem = { s.mem with dev := mapSet s.mem.dev a v } := rfl
@[simp] theorem State.devSet_gangs (s : State) (a : Nat) (v : Word) : (s.devSet a v).gangs = s.gangs := rfl
@[simp] theorem State.devSet_sched (s : State) (a : Nat) (v : Word) : (s.devSet a v).sched = s.sched := rfl
@[simp] theorem State.devSet_gfx (s : State) (a : Nat) (v : Word) : (s.devSet a v).gfx = s.gfx := rfl
@[simp] theorem State.devSet_fab (s : State) (a : Nat) (v : Word) : (s.devSet a v).fab = s.fab := rfl
@[simp] theorem State.devSet_pkg (s : State) (a : Nat) (v : Word) : (s.devSet a v).pkg = s.pkg := rfl
@[simp] theorem State.devSet_pagerMsgs (s : State) (a : Nat) (v : Word) : (s.devSet a v).pagerMsgs = s.pagerMsgs := rfl
@[simp] theorem State.devSet_time (s : State) (a : Nat) (v : Word) : (s.devSet a v).time = s.time := rfl
@[simp] theorem State.devSet_tick (s : State) (a : Nat) (v : Word) : (s.devSet a v).tick = s.tick := rfl
@[simp] theorem State.devSet_agenda (s : State) (a : Nat) (v : Word) : (s.devSet a v).agenda = s.agenda := rfl
@[simp] theorem State.dropL1_h (s : State) (c : Nat) : (s.dropL1 c).h = s.h := rfl
@[simp] theorem State.dropL1_others (s : State) (c : Nat) : (s.dropL1 c).others = s.others := rfl
@[simp] theorem State.dropL1_mem (s : State) (c : Nat) : (s.dropL1 c).mem = { s.mem with l1 := s.mem.l1.filter (fun e => decide (e.1 ≠ c)) } := rfl
@[simp] theorem State.dropL1_gangs (s : State) (c : Nat) : (s.dropL1 c).gangs = s.gangs := rfl
@[simp] theorem State.dropL1_sched (s : State) (c : Nat) : (s.dropL1 c).sched = s.sched := rfl
@[simp] theorem State.dropL1_gfx (s : State) (c : Nat) : (s.dropL1 c).gfx = s.gfx := rfl
@[simp] theorem State.dropL1_fab (s : State) (c : Nat) : (s.dropL1 c).fab = s.fab := rfl
@[simp] theorem State.dropL1_pkg (s : State) (c : Nat) : (s.dropL1 c).pkg = s.pkg := rfl
@[simp] theorem State.dropL1_pagerMsgs (s : State) (c : Nat) : (s.dropL1 c).pagerMsgs = s.pagerMsgs := rfl
@[simp] theorem State.dropL1_time (s : State) (c : Nat) : (s.dropL1 c).time = s.time := rfl
@[simp] theorem State.dropL1_tick (s : State) (c : Nat) : (s.dropL1 c).tick = s.tick := rfl
@[simp] theorem State.dropL1_agenda (s : State) (c : Nat) : (s.dropL1 c).agenda = s.agenda := rfl
@[simp] theorem State.postReport_h (s : State) (r : Report) : (s.postReport r).h = s.h := rfl
@[simp] theorem State.postReport_others (s : State) (r : Report) : (s.postReport r).others = s.others := rfl
@[simp] theorem State.postReport_mem (s : State) (r : Report) : (s.postReport r).mem = s.mem := rfl
@[simp] theorem State.postReport_gangs (s : State) (r : Report) : (s.postReport r).gangs = s.gangs := rfl
@[simp] theorem State.postReport_sched (s : State) (r : Report) : (s.postReport r).sched = { s.sched with reports := s.sched.reports ++ [r] } := rfl
@[simp] theorem State.postReport_gfx (s : State) (r : Report) : (s.postReport r).gfx = s.gfx := rfl
@[simp] theorem State.postReport_fab (s : State) (r : Report) : (s.postReport r).fab = s.fab := rfl
@[simp] theorem State.postReport_pkg (s : State) (r : Report) : (s.postReport r).pkg = s.pkg := rfl
@[simp] theorem State.postReport_pagerMsgs (s : State) (r : Report) : (s.postReport r).pagerMsgs = s.pagerMsgs := rfl
@[simp] theorem State.postReport_time (s : State) (r : Report) : (s.postReport r).time = s.time := rfl
@[simp] theorem State.postReport_tick (s : State) (r : Report) : (s.postReport r).tick = s.tick := rfl
@[simp] theorem State.postReport_agenda (s : State) (r : Report) : (s.postReport r).agenda = s.agenda := rfl
@[simp] theorem State.updGang_h (s : State) (g : Nat) (f : Gang → Gang) : (s.updGang g f).h = s.h := rfl
@[simp] theorem State.updGang_others (s : State) (g : Nat) (f : Gang → Gang) :
    (s.updGang g f).others = s.others := rfl
@[simp] theorem State.updGang_mem (s : State) (g : Nat) (f : Gang → Gang) : (s.updGang g f).mem = s.mem := rfl
@[simp] theorem State.updGang_gangs (s : State) (g : Nat) (f : Gang → Gang) : (s.updGang g f).gangs = s.gangs.map (fun x => if x.gid = g then f x else x) := rfl
@[simp] theorem State.updGang_sched (s : State) (g : Nat) (f : Gang → Gang) : (s.updGang g f).sched = s.sched := rfl
@[simp] theorem State.updGang_gfx (s : State) (g : Nat) (f : Gang → Gang) : (s.updGang g f).gfx = s.gfx := rfl
@[simp] theorem State.updGang_fab (s : State) (g : Nat) (f : Gang → Gang) : (s.updGang g f).fab = s.fab := rfl
@[simp] theorem State.updGang_pkg (s : State) (g : Nat) (f : Gang → Gang) : (s.updGang g f).pkg = s.pkg := rfl
@[simp] theorem State.updGang_pagerMsgs (s : State) (g : Nat) (f : Gang → Gang) :
    (s.updGang g f).pagerMsgs = s.pagerMsgs := rfl
@[simp] theorem State.updGang_time (s : State) (g : Nat) (f : Gang → Gang) : (s.updGang g f).time = s.time := rfl
@[simp] theorem State.updGang_tick (s : State) (g : Nat) (f : Gang → Gang) : (s.updGang g f).tick = s.tick := rfl
@[simp] theorem State.updGang_agenda (s : State) (g : Nat) (f : Gang → Gang) :
    (s.updGang g f).agenda = s.agenda := rfl
@[simp] theorem State.setMatFault_h (s : State) (f : Option Stop) : (s.setMatFault f).h = { s.h with mat := { s.h.mat with fault := f } } := rfl
@[simp] theorem State.setMatFault_others (s : State) (f : Option Stop) : (s.setMatFault f).others = s.others := rfl
@[simp] theorem State.setMatFault_mem (s : State) (f : Option Stop) : (s.setMatFault f).mem = s.mem := rfl
@[simp] theorem State.setMatFault_gangs (s : State) (f : Option Stop) : (s.setMatFault f).gangs = s.gangs := rfl
@[simp] theorem State.setMatFault_sched (s : State) (f : Option Stop) : (s.setMatFault f).sched = s.sched := rfl
@[simp] theorem State.setMatFault_gfx (s : State) (f : Option Stop) : (s.setMatFault f).gfx = s.gfx := rfl
@[simp] theorem State.setMatFault_fab (s : State) (f : Option Stop) : (s.setMatFault f).fab = s.fab := rfl
@[simp] theorem State.setMatFault_pkg (s : State) (f : Option Stop) : (s.setMatFault f).pkg = s.pkg := rfl
@[simp] theorem State.setMatFault_pagerMsgs (s : State) (f : Option Stop) : (s.setMatFault f).pagerMsgs = s.pagerMsgs := rfl
@[simp] theorem State.setMatFault_time (s : State) (f : Option Stop) : (s.setMatFault f).time = s.time := rfl
@[simp] theorem State.setMatFault_tick (s : State) (f : Option Stop) : (s.setMatFault f).tick = s.tick := rfl
@[simp] theorem State.setMatFault_agenda (s : State) (f : Option Stop) : (s.setMatFault f).agenda = s.agenda := rfl
@[simp] theorem Hart.setX_id (h : Hart) (r : Reg) (v : Word) : (h.setX r v).id = h.id := by
  unfold Hart.setX; split <;> rfl
@[simp] theorem Hart.setX_run (h : Hart) (r : Reg) (v : Word) : (h.setX r v).run = h.run := by
  unfold Hart.setX; split <;> rfl
@[simp] theorem Hart.setX_c (h : Hart) (r : Reg) (v : Word) : (h.setX r v).c = h.c := by
  unfold Hart.setX; split <;> rfl
@[simp] theorem Hart.setX_sc (h : Hart) (r : Reg) (v : Word) : (h.setX r v).sc = h.sc := by
  unfold Hart.setX; split <;> rfl
@[simp] theorem Hart.setX_mc (h : Hart) (r : Reg) (v : Word) : (h.setX r v).mc = h.mc := by
  unfold Hart.setX; split <;> rfl
@[simp] theorem Hart.setX_vu (h : Hart) (r : Reg) (v : Word) : (h.setX r v).vu = h.vu := by
  unfold Hart.setX; split <;> rfl
@[simp] theorem Hart.setX_mat (h : Hart) (r : Reg) (v : Word) : (h.setX r v).mat = h.mat := by
  unfold Hart.setX; split <;> rfl
@[simp] theorem Hart.setX_y (h : Hart) (r : Reg) (v : Word) : (h.setX r v).y = h.y := by
  unfold Hart.setX; split <;> rfl
@[simp] theorem Hart.setX_posts (h : Hart) (r : Reg) (v : Word) : (h.setX r v).posts = h.posts := by
  unfold Hart.setX; split <;> rfl
@[simp] theorem Hart.setX_heldPosts (h : Hart) (r : Reg) (v : Word) : (h.setX r v).heldPosts = h.heldPosts := by
  unfold Hart.setX; split <;> rfl
@[simp] theorem Hart.setX_fseq (h : Hart) (r : Reg) (v : Word) : (h.setX r v).fseq = h.fseq := by
  unfold Hart.setX; split <;> rfl
@[simp] theorem Hart.setX_tlb (h : Hart) (r : Reg) (v : Word) : (h.setX r v).tlb = h.tlb := by
  unfold Hart.setX; split <;> rfl
@[simp] theorem Hart.setX_texels (h : Hart) (r : Reg) (v : Word) : (h.setX r v).texels = h.texels := by
  unfold Hart.setX; split <;> rfl
@[simp] theorem Hart.setX_eng (h : Hart) (r : Reg) (v : Word) : (h.setX r v).eng = h.eng := by
  unfold Hart.setX; split <;> rfl
@[simp] theorem Hart.setX_frag (h : Hart) (r : Reg) (v : Word) : (h.setX r v).frag = h.frag := by
  unfold Hart.setX; split <;> rfl
@[simp] theorem Hart.setF_id (h : Hart) (r : Reg) (v : Word) : (h.setF r v).id = h.id := rfl
@[simp] theorem Hart.setF_run (h : Hart) (r : Reg) (v : Word) : (h.setF r v).run = h.run := rfl
@[simp] theorem Hart.setF_s (h : Hart) (r : Reg) (v : Word) : (h.setF r v).s = { h.s with f := h.s.f.set r.toNat v r.isLt } := rfl
@[simp] theorem Hart.setF_c (h : Hart) (r : Reg) (v : Word) : (h.setF r v).c = h.c := rfl
@[simp] theorem Hart.setF_sc (h : Hart) (r : Reg) (v : Word) : (h.setF r v).sc = h.sc := rfl
@[simp] theorem Hart.setF_mc (h : Hart) (r : Reg) (v : Word) : (h.setF r v).mc = h.mc := rfl
@[simp] theorem Hart.setF_vu (h : Hart) (r : Reg) (v : Word) : (h.setF r v).vu = h.vu := rfl
@[simp] theorem Hart.setF_mat (h : Hart) (r : Reg) (v : Word) : (h.setF r v).mat = h.mat := rfl
@[simp] theorem Hart.setF_y (h : Hart) (r : Reg) (v : Word) : (h.setF r v).y = h.y := rfl
@[simp] theorem Hart.setF_posts (h : Hart) (r : Reg) (v : Word) : (h.setF r v).posts = h.posts := rfl
@[simp] theorem Hart.setF_heldPosts (h : Hart) (r : Reg) (v : Word) : (h.setF r v).heldPosts = h.heldPosts := rfl
@[simp] theorem Hart.setF_fseq (h : Hart) (r : Reg) (v : Word) : (h.setF r v).fseq = h.fseq := rfl
@[simp] theorem Hart.setF_tlb (h : Hart) (r : Reg) (v : Word) : (h.setF r v).tlb = h.tlb := rfl
@[simp] theorem Hart.setF_texels (h : Hart) (r : Reg) (v : Word) : (h.setF r v).texels = h.texels := rfl
@[simp] theorem Hart.setF_eng (h : Hart) (r : Reg) (v : Word) : (h.setF r v).eng = h.eng := rfl
@[simp] theorem Hart.setF_frag (h : Hart) (r : Reg) (v : Word) : (h.setF r v).frag = h.frag := rfl
@[simp] theorem Hart.setPc_id (h : Hart) (pc : Word) : (h.setPc pc).id = h.id := rfl
@[simp] theorem Hart.setPc_run (h : Hart) (pc : Word) : (h.setPc pc).run = h.run := rfl
@[simp] theorem Hart.setPc_s (h : Hart) (pc : Word) : (h.setPc pc).s = { h.s with pc := pc } := rfl
@[simp] theorem Hart.setPc_c (h : Hart) (pc : Word) : (h.setPc pc).c = h.c := rfl
@[simp] theorem Hart.setPc_sc (h : Hart) (pc : Word) : (h.setPc pc).sc = h.sc := rfl
@[simp] theorem Hart.setPc_mc (h : Hart) (pc : Word) : (h.setPc pc).mc = h.mc := rfl
@[simp] theorem Hart.setPc_vu (h : Hart) (pc : Word) : (h.setPc pc).vu = h.vu := rfl
@[simp] theorem Hart.setPc_mat (h : Hart) (pc : Word) : (h.setPc pc).mat = h.mat := rfl
@[simp] theorem Hart.setPc_y (h : Hart) (pc : Word) : (h.setPc pc).y = h.y := rfl
@[simp] theorem Hart.setPc_posts (h : Hart) (pc : Word) : (h.setPc pc).posts = h.posts := rfl
@[simp] theorem Hart.setPc_heldPosts (h : Hart) (pc : Word) : (h.setPc pc).heldPosts = h.heldPosts := rfl
@[simp] theorem Hart.setPc_fseq (h : Hart) (pc : Word) : (h.setPc pc).fseq = h.fseq := rfl
@[simp] theorem Hart.setPc_tlb (h : Hart) (pc : Word) : (h.setPc pc).tlb = h.tlb := rfl
@[simp] theorem Hart.setPc_texels (h : Hart) (pc : Word) : (h.setPc pc).texels = h.texels := rfl
@[simp] theorem Hart.setPc_eng (h : Hart) (pc : Word) : (h.setPc pc).eng = h.eng := rfl
@[simp] theorem Hart.setPc_frag (h : Hart) (pc : Word) : (h.setPc pc).frag = h.frag := rfl
@[simp] theorem Hart.addFlags_id (h : Hart) (fl : BitVec 5) : (h.addFlags fl).id = h.id := rfl
@[simp] theorem Hart.addFlags_run (h : Hart) (fl : BitVec 5) : (h.addFlags fl).run = h.run := rfl
@[simp] theorem Hart.addFlags_s (h : Hart) (fl : BitVec 5) : (h.addFlags fl).s = { h.s with fflags := h.s.fflags ||| fl } := rfl
@[simp] theorem Hart.addFlags_c (h : Hart) (fl : BitVec 5) : (h.addFlags fl).c = h.c := rfl
@[simp] theorem Hart.addFlags_sc (h : Hart) (fl : BitVec 5) : (h.addFlags fl).sc = h.sc := rfl
@[simp] theorem Hart.addFlags_mc (h : Hart) (fl : BitVec 5) : (h.addFlags fl).mc = h.mc := rfl
@[simp] theorem Hart.addFlags_vu (h : Hart) (fl : BitVec 5) : (h.addFlags fl).vu = h.vu := rfl
@[simp] theorem Hart.addFlags_mat (h : Hart) (fl : BitVec 5) : (h.addFlags fl).mat = h.mat := rfl
@[simp] theorem Hart.addFlags_y (h : Hart) (fl : BitVec 5) : (h.addFlags fl).y = h.y := rfl
@[simp] theorem Hart.addFlags_posts (h : Hart) (fl : BitVec 5) : (h.addFlags fl).posts = h.posts := rfl
@[simp] theorem Hart.addFlags_heldPosts (h : Hart) (fl : BitVec 5) : (h.addFlags fl).heldPosts = h.heldPosts := rfl
@[simp] theorem Hart.addFlags_fseq (h : Hart) (fl : BitVec 5) : (h.addFlags fl).fseq = h.fseq := rfl
@[simp] theorem Hart.addFlags_tlb (h : Hart) (fl : BitVec 5) : (h.addFlags fl).tlb = h.tlb := rfl
@[simp] theorem Hart.addFlags_texels (h : Hart) (fl : BitVec 5) : (h.addFlags fl).texels = h.texels := rfl
@[simp] theorem Hart.addFlags_eng (h : Hart) (fl : BitVec 5) : (h.addFlags fl).eng = h.eng := rfl
@[simp] theorem Hart.addFlags_frag (h : Hart) (fl : BitVec 5) : (h.addFlags fl).frag = h.frag := rfl
@[simp] theorem Hart.retireTo_id (h : Hart) (pc : Word) : (h.retireTo pc).id = h.id := rfl
@[simp] theorem Hart.retireTo_run (h : Hart) (pc : Word) : (h.retireTo pc).run = h.run := rfl
@[simp] theorem Hart.retireTo_s (h : Hart) (pc : Word) : (h.retireTo pc).s = { h.s with pc := pc, instret := h.s.instret + 1 } := rfl
@[simp] theorem Hart.retireTo_c (h : Hart) (pc : Word) : (h.retireTo pc).c = h.c := rfl
@[simp] theorem Hart.retireTo_sc (h : Hart) (pc : Word) : (h.retireTo pc).sc = h.sc := rfl
@[simp] theorem Hart.retireTo_mc (h : Hart) (pc : Word) : (h.retireTo pc).mc = h.mc := rfl
@[simp] theorem Hart.retireTo_vu (h : Hart) (pc : Word) : (h.retireTo pc).vu = h.vu := rfl
@[simp] theorem Hart.retireTo_mat (h : Hart) (pc : Word) : (h.retireTo pc).mat = h.mat := rfl
@[simp] theorem Hart.retireTo_y (h : Hart) (pc : Word) : (h.retireTo pc).y = h.y := rfl
@[simp] theorem Hart.retireTo_posts (h : Hart) (pc : Word) : (h.retireTo pc).posts = h.posts := rfl
@[simp] theorem Hart.retireTo_heldPosts (h : Hart) (pc : Word) : (h.retireTo pc).heldPosts = h.heldPosts := rfl
@[simp] theorem Hart.retireTo_fseq (h : Hart) (pc : Word) : (h.retireTo pc).fseq = h.fseq := rfl
@[simp] theorem Hart.retireTo_tlb (h : Hart) (pc : Word) : (h.retireTo pc).tlb = h.tlb := rfl
@[simp] theorem Hart.retireTo_texels (h : Hart) (pc : Word) : (h.retireTo pc).texels = h.texels := rfl
@[simp] theorem Hart.retireTo_eng (h : Hart) (pc : Word) : (h.retireTo pc).eng = h.eng := rfl
@[simp] theorem Hart.retireTo_frag (h : Hart) (pc : Word) : (h.retireTo pc).frag = h.frag := rfl
@[simp] theorem Hart.advance_id (h : Hart) : (h.advance).id = h.id := rfl
@[simp] theorem Hart.advance_run (h : Hart) : (h.advance).run = h.run := rfl
@[simp] theorem Hart.advance_s (h : Hart) : (h.advance).s = { h.s with pc := h.s.pc + 4, instret := h.s.instret + 1 } := rfl
@[simp] theorem Hart.advance_c (h : Hart) : (h.advance).c = h.c := rfl
@[simp] theorem Hart.advance_sc (h : Hart) : (h.advance).sc = h.sc := rfl
@[simp] theorem Hart.advance_mc (h : Hart) : (h.advance).mc = h.mc := rfl
@[simp] theorem Hart.advance_vu (h : Hart) : (h.advance).vu = h.vu := rfl
@[simp] theorem Hart.advance_mat (h : Hart) : (h.advance).mat = h.mat := rfl
@[simp] theorem Hart.advance_y (h : Hart) : (h.advance).y = h.y := rfl
@[simp] theorem Hart.advance_posts (h : Hart) : (h.advance).posts = h.posts := rfl
@[simp] theorem Hart.advance_heldPosts (h : Hart) : (h.advance).heldPosts = h.heldPosts := rfl
@[simp] theorem Hart.advance_fseq (h : Hart) : (h.advance).fseq = h.fseq := rfl
@[simp] theorem Hart.advance_tlb (h : Hart) : (h.advance).tlb = h.tlb := rfl
@[simp] theorem Hart.advance_texels (h : Hart) : (h.advance).texels = h.texels := rfl
@[simp] theorem Hart.advance_eng (h : Hart) : (h.advance).eng = h.eng := rfl
@[simp] theorem Hart.advance_frag (h : Hart) : (h.advance).frag = h.frag := rfl
@[simp] theorem Hart.setStatus_id (h : Hart) (v : Word) : (h.setStatus v).id = h.id := by
  unfold Hart.setStatus; split <;> rfl
@[simp] theorem Hart.setStatus_run (h : Hart) (v : Word) : (h.setStatus v).run = h.run := by
  unfold Hart.setStatus; split <;> rfl
@[simp] theorem Hart.setStatus_s (h : Hart) (v : Word) : (h.setStatus v).s = h.s := by
  unfold Hart.setStatus; split <;> rfl
@[simp] theorem Hart.setStatus_c (h : Hart) (v : Word) : (h.setStatus v).c = h.c := by
  unfold Hart.setStatus; split <;> rfl
@[simp] theorem Hart.setStatus_vu (h : Hart) (v : Word) : (h.setStatus v).vu = h.vu := by
  unfold Hart.setStatus; split <;> rfl
@[simp] theorem Hart.setStatus_mat (h : Hart) (v : Word) : (h.setStatus v).mat = h.mat := by
  unfold Hart.setStatus; split <;> rfl
@[simp] theorem Hart.setStatus_y (h : Hart) (v : Word) : (h.setStatus v).y = h.y := by
  unfold Hart.setStatus; split <;> rfl
@[simp] theorem Hart.setStatus_posts (h : Hart) (v : Word) : (h.setStatus v).posts = h.posts := by
  unfold Hart.setStatus; split <;> rfl
@[simp] theorem Hart.setStatus_heldPosts (h : Hart) (v : Word) : (h.setStatus v).heldPosts = h.heldPosts := by
  unfold Hart.setStatus; split <;> rfl
@[simp] theorem Hart.setStatus_fseq (h : Hart) (v : Word) : (h.setStatus v).fseq = h.fseq := by
  unfold Hart.setStatus; split <;> rfl
@[simp] theorem Hart.setStatus_tlb (h : Hart) (v : Word) : (h.setStatus v).tlb = h.tlb := by
  unfold Hart.setStatus; split <;> rfl
@[simp] theorem Hart.setStatus_texels (h : Hart) (v : Word) : (h.setStatus v).texels = h.texels := by
  unfold Hart.setStatus; split <;> rfl
@[simp] theorem Hart.setStatus_eng (h : Hart) (v : Word) : (h.setStatus v).eng = h.eng := by
  unfold Hart.setStatus; split <;> rfl
@[simp] theorem Hart.setStatus_frag (h : Hart) (v : Word) : (h.setStatus v).frag = h.frag := by
  unfold Hart.setStatus; split <;> rfl
@[simp] theorem Hart.setX_s_f (h : Hart) (r : Reg) (v : Word) : (h.setX r v).s.f = h.s.f := by
  unfold Hart.setX; split <;> rfl
@[simp] theorem Hart.setX_s_shadow (h : Hart) (r : Reg) (v : Word) : (h.setX r v).s.shadow = h.s.shadow := by
  unfold Hart.setX; split <;> rfl
@[simp] theorem Hart.setX_s_pc (h : Hart) (r : Reg) (v : Word) : (h.setX r v).s.pc = h.s.pc := by
  unfold Hart.setX; split <;> rfl
@[simp] theorem Hart.setX_s_priv (h : Hart) (r : Reg) (v : Word) : (h.setX r v).s.priv = h.s.priv := by
  unfold Hart.setX; split <;> rfl
@[simp] theorem Hart.setX_s_depth (h : Hart) (r : Reg) (v : Word) : (h.setX r v).s.depth = h.s.depth := by
  unfold Hart.setX; split <;> rfl
@[simp] theorem Hart.setX_s_frm (h : Hart) (r : Reg) (v : Word) : (h.setX r v).s.frm = h.s.frm := by
  unfold Hart.setX; split <;> rfl
@[simp] theorem Hart.setX_s_fflags (h : Hart) (r : Reg) (v : Word) : (h.setX r v).s.fflags = h.s.fflags := by
  unfold Hart.setX; split <;> rfl
@[simp] theorem Hart.setX_s_resv (h : Hart) (r : Reg) (v : Word) : (h.setX r v).s.resv = h.s.resv := by
  unfold Hart.setX; split <;> rfl
@[simp] theorem Hart.setX_s_cycle (h : Hart) (r : Reg) (v : Word) : (h.setX r v).s.cycle = h.s.cycle := by
  unfold Hart.setX; split <;> rfl
@[simp] theorem Hart.setX_s_instret (h : Hart) (r : Reg) (v : Word) : (h.setX r v).s.instret = h.s.instret := by
  unfold Hart.setX; split <;> rfl

/-! ## The accessors -/

/-- Reading x[r] after writing x[q]. -/
theorem Hart.xr_setX (h : Hart) (q r : Reg) (v : Word) :
    (h.setX q v).xr r = if r = q ∧ q ≠ 0 then v else h.xr r := by
  unfold Hart.xr Hart.setX
  by_cases hq : q = 0
  · simp [hq]
  · by_cases hr : r = 0
    · subst hr
      rw [if_pos rfl, if_neg (fun e : (0 : Reg) = q ∧ q ≠ 0 => hq e.1.symm), if_pos rfl]
    · simp only [hq, hr, if_false, ne_eq, not_false_eq_true, and_true, Vector.getElem_set]
      by_cases e : r = q
      · simp [e]
      · have : ¬ q.toNat = r.toNat := fun x => e (BitVec.eq_of_toNat_eq x).symm
        simp [e, this]

/-- x0 reads 0 whatever was written. -/
@[simp] theorem Hart.xr_zero (h : Hart) : h.xr 0 = 0 := by simp [Hart.xr]

/-- A write to x0 changes nothing. -/
@[simp] theorem Hart.setX_zero (h : Hart) (v : Word) : h.setX 0 v = h := by simp [Hart.setX]

/-- Reading f[r] after writing f[q]. -/
theorem Hart.fr_setF (h : Hart) (q r : Reg) (v : Word) :
    (h.setF q v).fr r = if r = q then v else h.fr r := by
  unfold Hart.fr Hart.setF
  simp only [Vector.getElem_set]
  by_cases e : r = q
  · simp [e]
  · have : ¬ q.toNat = r.toNat := fun x => e (BitVec.eq_of_toNat_eq x).symm
    simp [e, this]

@[simp] theorem Hart.xr_retireTo (h : Hart) (pc : Word) (r : Reg) : (h.retireTo pc).xr r = h.xr r := rfl
@[simp] theorem Hart.xr_advance (h : Hart) (r : Reg) : h.advance.xr r = h.xr r := rfl
@[simp] theorem Hart.xr_addFlags (h : Hart) (fl : BitVec 5) (r : Reg) : (h.addFlags fl).xr r = h.xr r := rfl
@[simp] theorem Hart.xr_setF (h : Hart) (q r : Reg) (v : Word) : (h.setF q v).xr r = h.xr r := rfl
@[simp] theorem Hart.fr_advance (h : Hart) (r : Reg) : h.advance.fr r = h.fr r := rfl
@[simp] theorem Hart.fr_setX (h : Hart) (q r : Reg) (v : Word) : (h.setX q v).fr r = h.fr r := by
  unfold Hart.fr Hart.setX; split <;> rfl

end Sys2Proof.Machine
end

