-- ==== Sys2Proof/Tests/Slice0.lean ====
section
/-! SUPPORT. The tests: a smoke test of well-formedness, words written out from the spec's encodings, and a
witness for every statement that has hypotheses. Expected results come from the spec. -/

namespace Sys2Proof.Tests

open Sys2Proof Sys2Proof.Machine

/-! ## Well-formedness: one ill-formed term for each check -/

def rv (n : BitVec 5) : Opnd := ⟨.v, n⟩
def rw' (n : BitVec 5) : Opnd := ⟨.w, n⟩
def ret (n : BitVec 5) : Opnd := ⟨.none_, n⟩

/-- vadd v1, v2, v3 with no mask. -/
def plain : VOp :=
  { d := rv 1, a := rv 2, b := .reg (rv 3), c := Opnd.absent, msk := .none_, rm := .rne, imm16 := 0 }

/-- A unary word's operands. -/
def unary : VOp := { plain with b := .reg Opnd.absent }

/-- A load's operands. -/
def loading : VOp := { plain with a := Opnd.absent, b := .k 0, imm16 := 0 }

/-- A store's operands. -/
def storing : VOp := { plain with d := Opnd.absent, b := .k 0 }

theorem test_wf_vadd_plain_is_wf : (Instr.vadd plain).wf = true := by decide

theorem test_wf_vle_plain_is_wf : (Instr.vle loading).wf = true := by decide

theorem test_wf_vse_plain_is_wf : (Instr.vse storing).wf = true := by decide

theorem test_wf_vfetchReg_x0 : (Instr.vfetchReg 0 0).wf = false := by decide

theorem test_wf_mcvt_format_0_and_8 :
    (Instr.mcvt 0 .rne 0 0).wf = false ∧
    (Instr.mcvt 8 .rne 0 0).wf = false := by decide

theorem test_wf_mpin_origin_not_a_multiple : (Instr.mpin 2 .s2 1).wf = false := by decide

theorem test_wf_fence_words_of_fenceTso : (Instr.fence 8 3 3 0 0).wf = false := by decide

theorem test_wf_amocasQ_odd_registers :
    (Instr.amocasQ false false 1 2 4).wf = false ∧
    (Instr.amocasQ false false 2 2 5).wf = false := by decide

theorem test_wf_fp_reserved_rounding :
    (Instr.fpOp (.arith .add .d 1 2 3 5)).wf = false ∧
    (Instr.fpOp (.sqrt .s 1 2 6)).wf = false := by decide

theorem test_wf_csr_rows_keep_apart :
    (Instr.csrInstruction .rs 0x003 1 0).wf = false ∧
    (Instr.fcsrAccess .rs 0xCC0 1 0).wf = false ∧
    (Instr.vlutAccess .rs 0xCC0 1 0).wf = false := by decide

theorem test_wf_operand_index_beyond_file : (Instr.vadd { plain with d := rw' 8 }).wf = false := by decide

theorem test_wf_operand_absent_with_index : (Instr.vadd { plain with c := ret 1 }).wf = false := by decide

theorem test_wf_source_b_form_not_listed : (Instr.vsub { plain with b := .imm 1 }).wf = false := by decide

theorem test_wf_rounding_field_of_a_word_that_does_not_round :
    (Instr.vadd { plain with rm := .rtz }).wf = false := by decide

theorem test_wf_masked_write_of_v0 :
    (Instr.vadd { plain with d := rv 0, msk := .v0 }).wf = false ∧
    (Instr.vcmp .eq { plain with d := rv 0, msk := .v0 }).wf = true := by decide

theorem test_wf_imm16_not_zero : (Instr.vadd { plain with imm16 := 1 }).wf = false := by decide

theorem test_wf_unmasked_word_with_a_mask : (Instr.vcompress { plain with msk := .v0 }).wf = false := by decide

theorem test_wf_vmerge_without_v0 : (Instr.vmerge plain).wf = false := by decide

theorem test_wf_memory_format_9 : (Instr.vle { loading with imm16 := 9 }).wf = false := by decide

theorem test_wf_strided_sub_byte_format : (Instr.vlse { loading with imm16 := 5 }).wf = false := by decide

theorem test_wf_native_store_that_rounds : (Instr.vse { storing with rm := .rtz }).wf = false := by decide

theorem test_wf_vlseg_of_one_field : (Instr.vlseg loading).wf = false := by decide

theorem test_wf_vlwr_group_not_aligned : (Instr.vlwr { loading with imm16 := 1 }).wf = false := by decide

theorem test_wf_vamo_scope_and_cas :
    (Instr.vamo .add { loading with a := rv 2, c := rv 3, imm16 := 6 }).wf = false ∧
    (Instr.vamo .cas { loading with d := Opnd.absent, a := rv 2, c := rv 3 }).wf = false := by decide

theorem test_wf_vsext_factor :
    (Instr.vsext unary).wf = false ∧
    (Instr.vsext { unary with imm16 := 1 }).wf = true := by decide

theorem test_wf_vdot_format_3 : (Instr.vdot .ss { plain with c := rv 4, imm16 := 3 }).wf = false := by decide

theorem test_wf_vfcvt_width_6 : (Instr.vfcvt .ftoi { unary with imm16 := 6 }).wf = false := by decide

theorem test_wf_return_slot_4_or_register :
    (Instr.vmpopc { unary with d := ret 4 }).wf = false ∧
    (Instr.vmpopc unary).wf = false := by decide

theorem test_wf_vmsbf_destination_is_source : (Instr.vmsbf { unary with d := rv 2 }).wf = false := by decide

theorem test_wf_vmsbrk_depth :
    (Instr.vmsbrk { unary with d := Opnd.absent }).wf = false ∧
    (Instr.vmsbrk { unary with d := Opnd.absent, imm16 := 17 }).wf = false := by decide

theorem test_wf_texture_reserved_bits : (Instr.vtexs { loading with a := rv 2, imm16 := 8 }).wf = false := by decide

theorem test_wf_ray_result_meets_source :
    (Instr.vrqbox { loading with d := rv 2, a := rv 4, c := rv 20 }).wf = false := by decide

theorem test_wf_vexport_kind_3 :
    (Instr.vexport { unary with d := Opnd.absent, c := rv 9, imm16 := 3 }).wf = false := by decide

/-! ## Words written out from the spec's encodings -/

/-- The operand fields that 02's worked example gives its three words. -/
theorem test_words_of_the_worked_example :
    decodeBlock 0x0002000180068101 =
      some (.vle { d := rv 8, a := Opnd.absent, b := .k 0, c := Opnd.absent, msk := .none_, rm := .rne, imm16 := 2 }) ∧
    decodeBlock 0x00000E2030410045 =
      some (.vfmadd { d := rv 16, a := rv 8, b := .reg (rv 12), c := rv 16, msk := .none_, rm := .dyn, imm16 := 0 }) ∧
    decodeBlock 0x00000041FD204220 =
      some (.vadd { d := rv 4, a := rv 4, b := .imm 0x7D, c := Opnd.absent, msk := .v0, rm := .rne, imm16 := 0 }) := by
  decide

theorem test_words_custom0 :
    decodeScalar 0x0004A00B = some (.vfetchReg 9 0) ∧ decodeScalar 0x0001350B = some (.vget 10 2) := by decide

theorem test_words_custom1 : decodeScalar 0x002502AB = some (.psetvl 5 10 2) := by decide

theorem test_words_custom2 :
    decodeScalar 0x0200005B = some .msync ∧ decodeScalar 0x00B5105B = some (.mldt 0 10 11) := by decide

theorem test_words_custom3 :
    decodeScalar 0x0C00057B = some (.ewaitk 10) ∧ decodeScalar 0x00C5857B = some (.ecpy 10 11 12) ∧
    decodeScalar 0x0405107B = some (.pwflush 10) := by decide

/-- RISC-V base, A, D and Zicsr words: add x3, x1, x2; lw x5, 8(x6); amoadd.d x1, x2, (x3);
fadd.d f1, f2, f3; csrrs x1, cycle, x0; beq x1, x2, +8. -/
theorem test_words_standard :
    decodeScalar 0x002081B3 = some (.integerOp (.rr .add 3 1 2)) ∧
    decodeScalar 0x00832283 = some (.scalarLoad .lw 5 6 8) ∧
    decodeScalar 0x0021B0AF = some (.amo .add true false false 1 3 2) ∧
    decodeScalar 0x023170D3 = some (.fpOp (.arith .add .d 1 2 3 7)) ∧
    decodeScalar 0xC00020F3 = some (.csrInstruction .rs 0xC00 1 0) ∧
    decodeScalar 0x00208463 = some (.branchJump (.br .eq 1 2 4)) := by decide

/-- One word of each block class, its fields summed as 02 Table 2.3 places them. -/
theorem test_words_of_block_classes :
    -- vmpopc j2, v5: OPC 0x71, DF = 11, DIX = 2, AF = 00, AIX = 5, BF = 11, CF = 11
    decodeBlock (BitVec.ofNat 64 (0x71 + 3 * 2 ^ 10 + 2 * 2 ^ 12 + 5 * 2 ^ 19 + 3 * 2 ^ 24 + 3 * 2 ^ 31)) =
      some (.vmpopc { unary with d := ret 2, a := rv 5 }) ∧
    -- vslide1up v1, v2, k6: OPC 0x62, FORM 01
    decodeBlock (BitVec.ofNat 64 (0x62 + 1 * 2 ^ 8 + 1 * 2 ^ 12 + 2 * 2 ^ 19 + 6 * 2 ^ 26 + 3 * 2 ^ 31)) =
      some (.vslide1up { plain with b := .k 6 }) ∧
    -- vunbind v28: OPC 0x91, FORM 11, DIX = 28, AF = BF = CF = 11
    decodeBlock (BitVec.ofNat 64 (0x91 + 3 * 2 ^ 8 + 28 * 2 ^ 12 + 3 * 2 ^ 17 + 3 * 2 ^ 24 + 3 * 2 ^ 31)) =
      some (.vunbind 0) := by decide

/-! ## Witnesses -/

/-- A running vector hart at U whose first 2 MiB are mapped, with x1 = 0x2000. -/
def st : State := (loadWord State.reset 32 0x13).setX 1 0x2000

/-- `st` at a privilege and a trap depth. -/
def stAt (p : Priv) (d : Nat) : State := st.setH { st.h with s := { st.h.s with priv := p, depth := d } }

/-- Witness for EncodedWordDecodesBack. -/
theorem witness_EncodedWordDecodesBack :
    (Instr.mpin 4 .s2 7).wf = true ∧ encode (.mpin 4 .s2 7) = some (.scalar 0x0813C05B) := by decide

/-- Witness for EveryStepKeepsMemoryForm: the reset state steps. -/
theorem witness_EveryStepKeepsMemoryForm :
    Memory.wf State.reset.mem = true ∧ ∃ t, step State.reset = .next t := ⟨by decide, _, rfl⟩

/-- Witness for StepRunsScalarWord: an ADDI loaded at the pc of a fresh context. -/
theorem witness_StepRunsScalarWord :
    let s := loadWord State.reset 32 0x00508093
    s.pkg.powered = true ∧ s.h.run = .running ∧ addrOf s s.h .fetch s.h.s.pc = .ok (.mem 0x1000 false) ∧
    poisonedLoc s (.mem 0x1000 false) 4 = false ∧
    decodeScalar (BitVec.ofNat 32 (readLe s.mem.mem 0x1000 4)) = some (.integerOp (.ri .addi 1 1 5)) ∧
    s.agenda = [] ∧ vectorReady (countCycle s) = false ∧ matrixReady (countCycle s) = false ∧
    uiDue (countCycle s) = false := by decide

/-- Witness for StepRunsBlockWord: a VSTOP loaded as a block's first word. -/
theorem witness_StepRunsBlockWord :
    let s := loadWord State.reset 64 0x9F
    s.pkg.powered = true ∧ s.h.vu.blocks = [loadedBlock] ∧ s.h.vu.wix < 4096 ∧
    addrOf s s.h .fetch (loadedBlock.wordAt s.h.vu.wix) = .ok (.mem 0x1000 false) ∧
    poisonedLoc s (.mem 0x1000 false) 8 = false ∧
    decodeBlock (BitVec.ofNat 64 (readLe s.mem.mem 0x1000 8)) = some .vstop ∧
    vectorReady (countCycle s) = true ∧ s.agenda = [] := by decide

/-- Witness for IntegerInstructionResults: MULH of -1 and 1. -/
theorem witness_IntegerInstructionResults :
    Claims.int (.rr .mulh 3 1 2) ((Hart.reset.setX 1 (-1)).setX 2 1) = some (3, -1) := by decide

/-- Witness for ControlTransferResults: a JALR to an aligned and one to a misaligned target. -/
theorem witness_ControlTransferResults :
    (Claims.jump (.jalr 1 0 8) Hart.reset).1.toNat % 4 = 0 ∧ (Claims.jump (.jalr 1 0 6) Hart.reset).1.toNat % 4 ≠ 0 := by decide

/-- Witness for ScalarLoadResults. -/
theorem witness_ScalarLoadResults :
    (st.h.xr 1 + (0 : BitVec 12).signExtend 64).toNat % Claims.loadSize .ld = 0 ∧
    addrOf st st.h .load (st.h.xr 1 + (0 : BitVec 12).signExtend 64) = .ok (.mem 0x2000 false) ∧
    poisonedLoc st (.mem 0x2000 false) 8 = false ∧ l1Find st.mem.l1 st.h.id.coreNo (0x2000 / 128) = none := by decide

/-- Witness for ScalarStoreResults, with and without a reservation. -/
theorem witness_ScalarStoreResults :
    (st.h.xr 1 + (0 : BitVec 12).signExtend 64).toNat % Claims.storeSize .sd = 0 ∧
    addrOf st st.h .store (st.h.xr 1) = .ok (.mem 0x2000 false) ∧ farPortDown st 0x2000 = false ∧
    st.h.s.resv ≠ some (.mem (0x2000 / 128)) ∧
    (let r := st.setH { st.h with s := { st.h.s with resv := some (.mem 64) } }
     r.h.s.resv = some (.mem (0x2000 / 128)) ∧ addrOf r r.h .store (r.h.xr 1) = .ok (.mem 0x2000 false)) := by decide

/-- Witness for AtomicResults. -/
theorem witness_AtomicResults :
    (st.h.xr 1).toNat % 16 = 0 ∧ addrOf st st.h .amo (st.h.xr 1) = .ok (.mem 0x2000 false) ∧
    poisonedLoc st (.mem 0x2000 false) 16 = false ∧ farPortDown st 0x2000 = false := by decide

/-- Witness for ScalarAccessTraps: a misaligned address, one outside every window, and poisoned memory. -/
theorem witness_ScalarAccessTraps :
    Claims.accessOf (.scalarLoad .lw 2 1 1) = some (.load, 1, 1, 4, true) ∧
    (st.h.xr 1 + (1 : BitVec 12).signExtend 64).toNat % 4 ≠ 0 ∧
    addrOf st st.h .load 0x10000000 = .error (Stop.of 5 0x10000000) ∧
    (let p := st.setMem { st.mem with pois := [0x80] }
     addrOf p p.h .load 0x2000 = .ok (.mem 0x2000 false) ∧ poisonedLoc p (.mem 0x2000 false) 4 = true) := by decide

/-- Witness for FencesAndWaits: an idle hart, and one with a block and with a matrix entry. -/
theorem witness_FencesAndWaits :
    st.h.vu.blocks = [] ∧ st.h.mat.fault = none ∧ st.h.mat.queue = [] ∧
    (loadWord State.reset 64 0x9F).h.vu.blocks ≠ [] ∧ (loadWord State.reset 64 0x9F).h.vu.halt = 0 ∧
    (∃ t, exec (.mzero 0) st = .next t ∧ t.h.mat.queue ≠ [] ∧ t.h.mat.fault = none) :=
  ⟨by decide, by decide, by decide, by decide, by decide, _, rfl, by decide, by decide⟩

/-- Witness for TrapEntryOfVectorHart: a record at 0 of the window, and a hart at depth 2. -/
theorem witness_TrapEntryOfVectorHart :
    st.h.id.isVector = true ∧ st.h.s.depth = 0 ∧
    (∀ i < 8, partLoc st.mem st.h.id.part (st.h.c.vtrec.toNat + 512 * st.h.s.depth + 64 * i) .store =
      some (.mem (0 + 64 * i) false)) ∧
    Memory.wf st.mem = true ∧ (∀ i < 8, farPortDown st (0 + 64 * i) = false) ∧
    (stAt .s 1).h.s.depth = 1 ∧ (stAt .s 2).h.s.depth = 2 ∧
    (∀ i < 8, partLoc (stAt .s 1).mem (stAt .s 1).h.id.part (512 + 64 * i) .store = some (.mem (512 + 64 * i) false)) := by
  decide

/-- Witness for EnvironmentCallsTrap: an empty queue, and one that has stopped. -/
theorem witness_EnvironmentCallsTrap :
    st.h.mat.fault = none ∧ st.h.mat.queue = [] ∧
    (∃ t e, exec (.mzero 0) st = .next t ∧ t.h.mat.queue = [e] ∧
      (t.setMatFault (some (Stop.of 5 0))).h.mat.fault = some (.exc { cause := 5, tval := 0, sub := 0 })) :=
  ⟨by decide, by decide, _, _, rfl, rfl, rfl⟩

/-- Witness for PrivilegedInstructions: harts at U, S and M, and one that is no vector hart. -/
theorem witness_PrivilegedInstructions :
    (stAt .u 0).h.s.priv = .u ∧ (stAt .s 1).h.s.priv = .s ∧ (stAt .s 1).h.id.isVector = true ∧
    (stAt .m 0).h.s.priv = .m ∧ (stAt .u 0).h.s.depth = 0 ∧
    (let e := loadedHart true
     e.id.isVector = false ∧ e.s.priv = .m ∧ e.mc.mstatus.getLsbD 22 = false) := by decide

/-- Witness for ReturnFromVectorTrap: a hart at depths 1 and 2 with a readable record, and one whose record lies
outside every window. -/
theorem witness_ReturnFromVectorTrap :
    (stAt .s 1).h.id.isVector = true ∧ (stAt .s 1).h.s.priv = .s ∧ recReadable (stAt .s 1) = true ∧
    recEntries (stAt .s 1) = some [] ∧ entriesOk (stAt .s 1) [] = true ∧
    recReadable (stAt .s 2) = true ∧ (stAt .s 2).readPart 0 0 8 = some 0 ∧ (stAt .s 2).readPart 0 30 1 = some 0 ∧
    (let k := stAt .s 1
     recReadable (k.setH { k.h with c := { k.h.c with vtrec := 0x10000000 } }) = false) ∧
    (let k := stAt .s 1
     let m := k.setH { k.h with vu := { k.h.vu with blocks := [loadedBlock], prog := [[1, 0, 0, 0, 0, 0, 0, 0]] } }
     recEntries m = some [[0, 0, 0, 0, 0, 0, 0, 0]] ∧ entriesOk m [[0, 0, 0, 0, 0, 0, 0, 0]] = false) := by
  decide

/-- Witness for IllegalBlockOpcodes: a block that runs into zeroed memory. -/
theorem witness_IllegalBlockOpcodes :
    let s := { loadWord State.reset 64 0 with agenda := [.vector] }
    let c := { countCycle s with agenda := [] }
    s.pkg.powered = true ∧ vectorReady c = true ∧ s.h.vu.blocks = [loadedBlock] ∧
    addrOf c c.h .fetch (loadedBlock.wordAt s.h.vu.wix) = .ok (.mem 0x1000 false) ∧
    poisonedLoc c (.mem 0x1000 false) 8 = false ∧ readLe s.mem.mem 0x1000 8 = 0 := by decide

/-- Witness for ClockChangeHasNoArchitecturalEffect: both ends of the range, on die 7. -/
theorem witness_ClockChange :
    600 ≤ (600 : BitVec 12).toNat ∧ (1600 : BitVec 12).toNat ≤ 1600 ∧
    State.reset.pkg.dies.getLsbD (7 : DieNo).toNat = true ∧ Memory.wf State.reset.mem = true := by decide

end Sys2Proof.Tests
end

section
/-! PROOFS of the family 01_machine_overview.md: what a change of arithmetic clock does (R27), from the laws of
a word's fields and of the device registers. -/

namespace Sys2Proof.Machine

/-! ## Fields of a word -/

/-- The bits of a word after field [hi:lo] is set: those of the new value inside the field, the old ones outside. -/
theorem getLsbD_setField {w : Nat} (b : BitVec w) {hi lo : Nat} (h : lo ≤ hi) (x i : Nat) :
    (setField b hi lo x).getLsbD i =
      if lo ≤ i ∧ i ≤ hi then decide (i < w) && x.testBit (i - lo) else b.getLsbD i := by
  by_cases hw : i < w
  · by_cases hl : lo ≤ i
    · have hl' : ¬ i < lo := by omega
      by_cases hu : i ≤ hi
      · have hlt : i - lo < hi - lo + 1 := by omega
        have hin : (BitVec.ofNat (hi - lo + 1) x)[i - lo] = x.testBit (i - lo) := by
          simp [BitVec.getElem_eq_testBit_toNat, hlt]
        simp [setField, hw, hl, hl', hu, hlt, hin]
      · have hge : ¬ i - lo < hi - lo + 1 := by omega
        simp [setField, hw, hl', hu, hge, BitVec.getLsbD_of_ge (BitVec.ofNat (hi - lo + 1) x) (i - lo) (by omega)]
    · simp [setField, hw, hl, show i < lo by omega]
  · simp [setField, hw, BitVec.getLsbD_of_ge b i (by omega)]

/-- A field just set reads as the value, cut to the field's width. -/
theorem fieldOf_setField_same {w : Nat} (b : BitVec w) {hi lo : Nat} (h : lo ≤ hi) (hw : hi < w) (x : Nat) :
    fieldOf (setField b hi lo x) hi lo = x % 2 ^ (hi - lo + 1) := by
  refine Nat.eq_of_testBit_eq fun i => ?_
  rw [BitVec.testBit_toNat, BitVec.getLsbD_extractLsb', getLsbD_setField b h, Nat.testBit_mod_two_pow]
  by_cases hi' : i < hi - lo + 1
  · simp [hi', show lo + i ≤ hi by omega, show lo + i < w by omega]
  · simp [hi']

/-- Setting a field leaves every field that it does not meet. -/
theorem fieldOf_setField_disjoint {w : Nat} (b : BitVec w) {hi lo hi' lo' : Nat} (h : lo ≤ hi) (h' : lo' ≤ hi')
    (hd : hi < lo' ∨ hi' < lo) (x : Nat) : fieldOf (setField b hi lo x) hi' lo' = fieldOf b hi' lo' := by
  refine Nat.eq_of_testBit_eq fun i => ?_
  rw [BitVec.testBit_toNat, BitVec.testBit_toNat, BitVec.getLsbD_extractLsb', BitVec.getLsbD_extractLsb',
    getLsbD_setField b h]
  by_cases hi : i < hi' - lo' + 1
  · rw [if_neg (by omega)]
  · simp [hi]

/-! ## Device registers -/

@[simp] theorem State.devGet_tickUp (s : State) (a : Nat) : s.tickUp.devGet a = s.devGet a := rfl

/-- A device register just written reads as the value written. -/
theorem State.devGet_devSet_same {s : State} (hs : Memory.wf s.mem = true) (a : Nat) (v : Word) :
    (s.devSet a v).devGet a = v :=
  have ⟨_, _, hdev, _⟩ := (wf_iff s.mem).mp hs
  mapGet_mapSet_same s.mem.dev a v 0 hdev

/-- A write of a device register leaves every other one. -/
theorem State.devGet_devSet_ne (s : State) {a c : Nat} (v : Word) (h : c ≠ a) :
    (s.devSet a v).devGet c = s.devGet c :=
  mapGet_mapSet_ne s.mem.dev v h

/-! ## CLOCK_CHANGE -/

/-- The address of the register of a die's power block that holds MHZ (18 Table 18.10). -/
def mhzAddr (die : DieNo) : Nat := 0xF000000001018 + 0x100 * die.toNat

/-- The state after a clock change of an enabled die to a frequency of the range (R25). -/
theorem exec_clockChange {die : DieNo} {mhz : BitVec 12} {s : State} (hlo : 600 ≤ mhz.toNat)
    (hhi : mhz.toNat ≤ 1600) (hon : s.pkg.dies.getLsbD die.toNat = true) :
    exec (.clockChange die mhz) s =
      .next (s.devSet (mhzAddr die) (setField (s.devGet (mhzAddr die)) 11 0 mhz.toNat)).tickUp := by
  have haddr : powerBase + 0x100 * die.toNat + 0x18 = mhzAddr die := by simp only [powerBase, mhzAddr]; omega
  have hdie : s.dieOn die.toNat = true := by simp [State.dieOn, hon, die.isLt]
  have hexec : exec (.clockChange die mhz) s = execClockChange die mhz s := rfl
  simp [hexec, execClockChange, event, haddr, hdie, hlo, hhi]

/-- Settles O20: the step is one write of MHZ's register, and the rest follows from what a write of a device
register, and of a field in it, leaves. -/
theorem clockChangeHasNoArchitecturalEffect : Obligations.ClockChangeHasNoArchitecturalEffect := by
  intro die mhz s hlo hhi hon
  refine ⟨_, exec_clockChange hlo hhi hon, ?frame, fun hs => ?mhz, fun a ha => ?others⟩
  case frame => rfl
  case mhz =>
    change fieldOf (State.devGet _ (mhzAddr die)) 11 0 = _ ∧
      fieldOf (State.devGet _ (mhzAddr die)) 63 12 = fieldOf (s.devGet (mhzAddr die)) 63 12
    rw [State.devGet_tickUp, State.devGet_devSet_same hs]
    constructor
    · rw [fieldOf_setField_same _ (by decide) (by decide)]
      exact Nat.mod_eq_of_lt mhz.isLt
    · exact fieldOf_setField_disjoint _ (by decide) (by decide) (by decide) _
  case others => exact State.devGet_devSet_ne s _ ha

end Sys2Proof.Machine
end

section
/-! PROOFS of the family 02_encodings_and_assembly.md: which word a step runs (02 R32, R35, R44), from what a
turn, a fetch and each stream's step do. -/

namespace Sys2Proof.Machine

/-! ## The turn of a step -/

/-- The state in which a turn runs: the cycle counter one higher, and `rest` left of the agenda. -/
def State.turned (s : State) (rest : List Turn) : State := { countCycle s with agenda := rest }

/-- With an agenda, a step of a powered package runs the turn at its head. -/
theorem step_of_agenda {s : State} {t : Turn} {rest : List Turn} (hpow : s.pkg.powered = true)
    (hag : s.agenda = t :: rest) : step s = runTurn t (s.turned rest) := by
  simp [step, stepOnce, hpow, hag, State.turned]

/-- Without one, a step of a powered package is the current hart's own. -/
theorem step_of_no_agenda {s : State} (hpow : s.pkg.powered = true) (hag : s.agenda = []) :
    step s = defaultStep (s.turned []) := by
  have hturned : s.turned [] = countCycle s := by rw [← hag]; rfl
  simp [step, stepOnce, hpow, hag, hturned]

/-- Where a fetch goes depends neither on the cycle counter nor on the agenda. -/
theorem addrOf_fetch_turned (s : State) (rest : List Turn) (va : Word) :
    addrOf (s.turned rest) (s.turned rest).h .fetch va = addrOf s s.h .fetch va := rfl

theorem poisonedLoc_turned (s : State) (rest : List Turn) (l : Loc) (n : Nat) :
    poisonedLoc (s.turned rest) l n = poisonedLoc s l n := rfl

/-! ## The scalar stream -/

/-- A scalar fetch from memory that is not poisoned reads the four bytes at the pc's address (02 R32). -/
theorem fetchScalar_of_mem {s : State} {pa : Nat} {nc : Bool}
    (ha : addrOf s s.h .fetch s.h.s.pc = .ok (.mem pa nc)) (hp : poisonedLoc s (.mem pa nc) 4 = false) :
    fetchScalar s = .ok (BitVec.ofNat 32 (readLe s.mem.mem pa 4)) := by
  simp [fetchScalar, ha, fetchAt, hp]

/-- A running hart whose fetched word decodes runs it, or takes the user interrupt that is due (19 R409). -/
theorem scalarStep_of_fetch {s : State} {w : BitVec 32} {i : Instr} (hrun : s.h.run = .running)
    (hf : fetchScalar s = .ok w) (hd : decodeScalar w = some i) :
    scalarStep s = if uiDue s = true ∧ ¬ (isMatrixSync i = true ∧ s.h.mat.fault.isSome = true)
      then exec .uiEntry s else exec i s := by
  simp [scalarStep, hrun, hf, hd, imp_iff_not_or]

/-- Settles O4: the turn is the scalar stream's whichever way the agenda names it, and the fetch reads what the
state before the step holds. -/
theorem stepRunsScalarWord : Obligations.StepRunsScalarWord := by
  intro s i pa nc rest c hpow hrun ha hp hd hc hturn
  have hcc : c = s.turned rest := hc
  have hstep : step s = scalarStep c := by
    rcases hturn with hag | ⟨hag, hrest, hv, hm⟩
    · rw [step_of_agenda hpow hag, ← hcc]
      rfl
    · rw [step_of_no_agenda hpow hag, ← hrest, ← hcc]
      simp [defaultStep, hv, hm]
  have hfetch : fetchScalar (s.turned rest) = .ok (BitVec.ofNat 32 (readLe s.mem.mem pa 4)) :=
    fetchScalar_of_mem ((addrOf_fetch_turned s rest _).trans ha) ((poisonedLoc_turned s rest _ _).trans hp)
  rw [hstep, hcc]
  exact scalarStep_of_fetch hrun hfetch hd

/-! ## The vector stream -/

/-- A block word in memory that is not poisoned is the eight bytes at its address (02 R44; 17 R368). -/
theorem fetchBlock_of_mem {s : State} {b : Block} {bs : List Block} {pa : Nat} {nc : Bool}
    (hb : s.h.vu.blocks = b :: bs) (ha : addrOf s s.h .fetch (b.wordAt s.h.vu.wix) = .ok (.mem pa nc))
    (hp : poisonedLoc s (.mem pa nc) 8 = false) :
    fetchBlock s = .ok (BitVec.ofNat 64 (readLe s.mem.mem pa 8)) := by
  simp [fetchBlock, hb, fetchBlockWord, ha, hp]

/-- A ready vector unit whose fetched word decodes runs it (17 R369). -/
theorem vectorStep_of_decode {s : State} {w : Word} {i : Instr} (hr : vectorReady s = true)
    (hf : fetchBlock s = .ok w) (hw : s.h.vu.wix < 4096) (hd : decodeBlock w = some i) :
    vectorStep s = exec i s := by
  simp [vectorStep, hr, hf, Nat.not_le.mpr hw, hd]

/-- A ready vector unit whose fetched word decodes to nothing takes illegal-instruction with the word (R42). -/
theorem vectorStep_of_illegal {s : State} {w : Word} (hr : vectorReady s = true)
    (hf : fetchBlock s = .ok w) (hd : decodeBlock w = none) :
    vectorStep s = .next (takeTrap s { cause := 2, tval := w, sub := 0 } none) := by
  simp [vectorStep, hr, hf, hd, illegal, Stop.of, raiseV]

/-- Settles O5: the turn is the vector unit's, since the agenda names it or the unit is ready. -/
theorem stepRunsBlockWord : Obligations.StepRunsBlockWord := by
  intro s i b bs pa nc rest c hpow hb hw ha hp hd hc hr hturn
  have hcc : c = s.turned rest := hc
  have hstep : step s = vectorStep c := by
    rcases hturn with hag | ⟨hag, hrest⟩
    · rw [step_of_agenda hpow hag, ← hcc]
      rfl
    · rw [step_of_no_agenda hpow hag, ← hrest, ← hcc]
      simp [defaultStep, hr]
  have hfetch : fetchBlock (s.turned rest) = .ok (BitVec.ofNat 64 (readLe s.mem.mem pa 8)) :=
    fetchBlock_of_mem hb ((addrOf_fetch_turned s rest _).trans ha) ((poisonedLoc_turned s rest _ _).trans hp)
  rw [hcc] at hr
  rw [hstep, hcc]
  exact vectorStep_of_decode hr hfetch hw hd

end Sys2Proof.Machine
end

section
/-! PROOFS of the family 02_encodings_and_assembly.md: the opcodes that raise illegal-instruction (R41), from
the fields of a block word and the rows of Table 3.1. -/

namespace Sys2Proof

/-! ## A block word and its fields -/

/-- A block word's fields, put together again, are the word. -/
theorem BFields.pack_unpack (w : BitVec 64) : (BFields.unpack w).pack = w := by
  unfold BFields.pack BFields.unpack
  iterate 13 rw [BitVec.extractLsb'_append_extractLsb'_eq_extractLsb']
  · exact BitVec.extractLsb'_eq_self
  all_goals rfl

theorem BFields.unpack_inj {v w : BitVec 64} : BFields.unpack v = BFields.unpack w ↔ v = w :=
  ⟨fun h => by rw [← BFields.pack_unpack v, h, BFields.pack_unpack], congrArg _⟩

/-- OPC is the low byte of a block word (02 Table 2.3). -/
theorem BFields.opc_unpack {w : BitVec 64} {n : Nat} (hw : w.toNat % 256 = n) :
    (BFields.unpack w).opc = BitVec.ofNat 8 n := by
  apply BitVec.eq_of_toNat_eq
  simp [BFields.unpack, ← hw]

/-! ## The rows of Table 3.1 -/

/-- The encoder gives the row's instruction the row's own OPC and FN. -/
def BRow.Encodes (r : BRow) : Prop := ∀ o, blockParts (r.make o) = some (r.opc, r.fn, o)

/-- Every row of Table 3.1 is encoded as it is decoded. -/
theorem rowsOf_encodes {opc : BitVec 8} {r : BRow} (h : r ∈ rowsOf opc) : r.Encodes := by
  simp only [rowsOf] at h
  split_ifs at h
  all_goals fin_cases h <;> exact fun _ => rfl

theorem mem_rowsOf_of_rowOf {opc : BitVec 8} {fn : BitVec 4} {r : BRow} (h : rowOf opc fn = some r) :
    r ∈ rowsOf opc := List.mem_of_find?_eq_some h

/-- No row of Table 3.1 has OPC 0x00 or 0xFF. -/
theorem rowOf_zero (fn : BitVec 4) : rowOf 0x00 fn = none := by revert fn; decide

theorem rowOf_ones (fn : BitVec 4) : rowOf 0xFF fn = none := by revert fn; decide

/-! ## What the decoder makes of a word outside class 0x9, and of VSTOP's OPC -/

/-- A word whose OPC and FN have no row decodes to nothing. -/
theorem decodeBFields_of_no_row {f : BFields} (h9 : f.opc.extractLsb' 4 4 ≠ 9) (hr : rowOf f.opc f.fn = none) :
    decodeBFields f = none := by
  rw [decodeBFields, if_neg h9, hr]
  rfl

/-- A word outside class 0x9 is no VSTOP: what its row makes has operands, and VSTOP has none. -/
theorem decodeBFields_ne_vstop {f : BFields} (h9 : f.opc.extractLsb' 4 4 ≠ 9) :
    decodeBFields f ≠ some .vstop := by
  intro h
  simp only [decodeBFields, h9, if_false, Option.bind_eq_some_iff, Option.map_eq_some_iff] at h
  obtain ⟨r, hr, o, -, hmake⟩ := h
  have henc := rowsOf_encodes (mem_rowsOf_of_rowOf hr) o
  rw [hmake] at henc
  cases henc

/-- Of the words with OPC 0x9F, VSTOP is the one whose other fields are 0 (R41). -/
theorem decodeClass9_of_opc {f : BFields} (ho : f.opc = 0x9F) :
    decodeClass9 f = if f = BFields.unpack 0x9F then some .vstop else none := by
  have hstop : BFields.unpack 0x9F = { BFields.unpack 0 with opc := 0x9F } := by decide
  rw [hstop]
  simp [decodeClass9, ho]

/-- No other word of class 0x9 is VSTOP. -/
theorem decodeClass9_ne_vstop {f : BFields} (ho : f.opc ≠ 0x9F) : decodeClass9 f ≠ some .vstop := by
  simp only [decodeClass9, ho, if_false]
  split_ifs <;> nofun

theorem decodeClass9_eq_vstop {f : BFields} : decodeClass9 f = some .vstop ↔ f = BFields.unpack 0x9F := by
  by_cases ho : f.opc = 0x9F
  · simp [decodeClass9_of_opc ho]
  · refine iff_of_false (decodeClass9_ne_vstop ho) ?_
    rintro rfl
    exact ho (by decide)

/-- The word 0x9F is VSTOP and no other word is (R41). -/
theorem decodeBlock_eq_vstop (w : BitVec 64) : decodeBlock w = some .vstop ↔ w = 0x9F := by
  have hclass : decodeBFields (BFields.unpack w) = some .vstop ↔ w = 0x9F := by
    rw [← BFields.unpack_inj, ← decodeClass9_eq_vstop]
    by_cases h9 : (BFields.unpack w).opc.extractLsb' 4 4 = 9
    · simp [decodeBFields, h9]
    · refine iff_of_false (decodeBFields_ne_vstop h9) fun h => h9 ?_
      rw [decodeClass9_eq_vstop.mp h]
      decide
  rw [← hclass, decodeBlock, Option.filter_eq_some_iff]
  exact and_iff_left rfl

/-- OPC 0x00 and 0xFF decode to nothing, whatever the word's other fields hold (R41). -/
theorem decodeBlock_of_opc_unassigned {w : BitVec 64} (h : w.toNat % 256 = 0x00 ∨ w.toNat % 256 = 0xFF) :
    decodeBlock w = none := by
  have hnone : decodeBFields (BFields.unpack w) = none := by
    rcases h with h | h
    · have ho := BFields.opc_unpack h
      exact decodeBFields_of_no_row (by rw [ho]; decide) (by rw [ho]; exact rowOf_zero _)
    · have ho := BFields.opc_unpack h
      exact decodeBFields_of_no_row (by rw [ho]; decide) (by rw [ho]; exact rowOf_ones _)
  rw [decodeBlock, hnone]
  rfl

/-- A word with VSTOP's OPC that is not VSTOP decodes to nothing (R41). -/
theorem decodeBlock_of_opc_vstop {w : BitVec 64} (h : w.toNat % 256 = 0x9F) (hw : w ≠ 0x9F) :
    decodeBlock w = none := by
  have ho : (BFields.unpack w).opc = 0x9F := BFields.opc_unpack h
  have hnone : decodeBFields (BFields.unpack w) = none := by
    rw [decodeBFields, if_pos (by rw [ho]; decide), decodeClass9_of_opc ho, if_neg (mt BFields.unpack_inj.mp hw)]
  rw [decodeBlock, hnone]
  rfl

end Sys2Proof

namespace Sys2Proof.Machine

/-- Settles O19: none of these words decodes, so a ready vector unit that fetches one takes illegal-instruction. -/
theorem illegalBlockOpcodes : Obligations.IllegalBlockOpcodes := by
  refine ⟨fun _ => decodeBlock_of_opc_unassigned, decodeBlock_eq_vstop, fun _ => decodeBlock_of_opc_vstop, ?_⟩
  intro s c rest b bs pa nc w hpow hag hc hr hb ha hp hw hop
  have hcc : c = s.turned rest := hc
  have hnone : decodeBlock w = none := by
    rcases hop with h | h | ⟨h, hne⟩
    · exact decodeBlock_of_opc_unassigned (.inl h)
    · exact decodeBlock_of_opc_unassigned (.inr h)
    · exact decodeBlock_of_opc_vstop h hne
  subst hw
  rw [step_of_agenda hpow hag, ← hcc]
  rw [hcc] at ha hp hr ⊢
  exact vectorStep_of_illegal hr (fetchBlock_of_mem hb ha hp) hnone

end Sys2Proof.Machine
end

section
/-! PROOFS of the family 02_encodings_and_assembly.md: what a scalar access of memory leaves (02 R31, 03 Table
3.7), from one rule for each operation of the memory side. -/

namespace Sys2Proof.Machine

/-! ## Registers of a hart -/

/-- Of hart `h` nothing but x registers differs in `k`. -/
def Hart.OnlyXRegs (h k : Hart) : Prop := k = { h with s := { h.s with x := k.s.x } }

theorem Hart.onlyXRegs_setX (h : Hart) (r : Reg) (v : Word) : h.OnlyXRegs (h.setX r v) := by
  unfold Hart.OnlyXRegs Hart.setX
  split <;> rfl

theorem Hart.OnlyXRegs.trans {h k l : Hart} (hk : h.OnlyXRegs k) (hl : k.OnlyXRegs l) : h.OnlyXRegs l := by
  unfold Hart.OnlyXRegs at *
  rw [hl, hk]

theorem Hart.onlyXRegs_setPair (h : Hart) (r : Reg) (v : Nat) : h.OnlyXRegs (h.setPair r v) := by
  unfold Hart.setPair
  split
  · rfl
  · exact (h.onlyXRegs_setX r _).trans (Hart.onlyXRegs_setX _ _ _)

theorem Hart.OnlyXRegs.setResv {h k : Hart} (hk : h.OnlyXRegs k) (r : Option Resv) :
    (h.setResv r).OnlyXRegs (k.setResv r) :=
  congrArg (Hart.setResv · r) hk

@[simp] theorem Hart.setResv_id (h : Hart) (q : Option Resv) : (h.setResv q).id = h.id := rfl

@[simp] theorem Hart.xr_setResv (h : Hart) (q : Option Resv) (r : Reg) : (h.setResv q).xr r = h.xr r := rfl

/-- Reading a register after writing the pair at an even number. -/
theorem Hart.xr_setPair (h : Hart) {q : Reg} (hq : q.toNat % 2 = 0) (r : Reg) (v : Nat) :
    (h.setPair q v).xr r = if r = q ∧ q ≠ 0 then BitVec.ofNat 64 v
      else if r = q + 1 ∧ q ≠ 0 then BitVec.ofNat 64 (v / 2 ^ 64) else h.xr r := by
  have hne : q ≠ q + 1 := by bv_omega
  have hodd : q + 1 ≠ 0 := by bv_omega
  unfold Hart.setPair
  by_cases h0 : q = 0
  · simp [h0]
  · rw [if_neg h0, Hart.xr_setX, Hart.xr_setX]
    by_cases hr : r = q
    · rw [if_neg (fun e => hne (hr.symm.trans e.1)), if_pos ⟨hr, h0⟩, if_pos ⟨hr, h0⟩]
    · simp only [hr, hodd, h0, if_false, ne_eq, not_false_eq_true, and_true]

/-! ## Acquires -/

/-- An acquire wider than hart scope drops the core's L1 copies and the hart's texels, and nothing else (16
R343). -/
theorem State.acquire_eq (s : State) (sc : Scope) : s.acquire sc = { s with
    h := { s.h with texels := if decide (sc ≠ .hart) then [] else s.h.texels }
    mem := { s.mem with
      l1 := if sc = .hart then s.mem.l1 else s.mem.l1.filter (fun e => decide (e.1 ≠ s.h.id.coreNo)) } } := by
  cases sc <;> rfl

/-- An acquire of the standard instructions is at system scope, and none is one at hart scope. -/
theorem acquireIf_eq_acquire (aq : Bool) (s : State) :
    acquireIf aq s = s.acquire (if aq then .system else .hart) := by
  cases aq <;> rfl

@[simp] theorem State.acquire_mem_mem (s : State) (sc : Scope) : (s.acquire sc).mem.mem = s.mem.mem := by
  rw [State.acquire_eq]

@[simp] theorem State.acquire_mem_pois (s : State) (sc : Scope) : (s.acquire sc).mem.pois = s.mem.pois := by
  rw [State.acquire_eq]

@[simp] theorem State.acquire_others (s : State) (sc : Scope) : (s.acquire sc).others = s.others := by
  rw [State.acquire_eq]

@[simp] theorem State.xr_acquire (s : State) (sc : Scope) (r : Reg) : (s.acquire sc).h.xr r = s.h.xr r := by
  rw [State.acquire_eq]
  rfl

@[simp] theorem acquireIf_mem_mem (aq : Bool) (s : State) : (acquireIf aq s).mem.mem = s.mem.mem := by
  simp [acquireIf_eq_acquire]

@[simp] theorem acquireIf_mem_pois (aq : Bool) (s : State) : (acquireIf aq s).mem.pois = s.mem.pois := by
  simp [acquireIf_eq_acquire]

@[simp] theorem acquireIf_others (aq : Bool) (s : State) : (acquireIf aq s).others = s.others := by
  simp [acquireIf_eq_acquire]

@[simp] theorem xr_acquireIf (aq : Bool) (s : State) (r : Reg) : (acquireIf aq s).h.xr r = s.h.xr r := by
  simp [acquireIf_eq_acquire]

/-- An instruction that wrote x registers, left reservation `r` and acquires as it completes. -/
theorem hartX_acquire {s u : State} {sc : Scope} {r : Option Resv} (hu : (s.h.setResv r).OnlyXRegs u.h) :
    Claims.HartX s (u.acquire sc).advance (decide (sc ≠ .hart)) r := by
  unfold Claims.HartX
  rw [State.acquire_eq]
  unfold Hart.OnlyXRegs at hu
  simp only [State.advance_h]
  rw [hu]
  rfl

theorem hartX_acquireIf {s u : State} {aq : Bool} {r : Option Resv} (hu : (s.h.setResv r).OnlyXRegs u.h) :
    Claims.HartX s (acquireIf aq u).advance aq r := by
  rw [acquireIf_eq_acquire]
  cases aq
  · exact hartX_acquire (sc := .hart) hu
  · exact hartX_acquire (sc := .system) hu

/-- What an instruction that changes registers of its hart, acquires and completes leaves of the rest. -/
theorem State.acquire_advance_frame {s : State} {k : Hart} (hid : k.id = s.h.id) (sc : Scope) :
    ((s.setH k).acquire sc).advance = { s with
      h := ((s.setH k).acquire sc).advance.h
      mem := { s.mem with
        l1 := if sc = .hart then s.mem.l1 else s.mem.l1.filter (fun e => decide (e.1 ≠ s.h.id.coreNo)) } } := by
  rw [State.acquire_eq, State.setH_h, hid]
  rfl

theorem acquireIf_advance_frame {s : State} {k : Hart} (hid : k.id = s.h.id) (aq : Bool) :
    (acquireIf aq (s.setH k)).advance = { s with
      h := (acquireIf aq (s.setH k)).advance.h
      mem := { s.mem with
        l1 := if aq then s.mem.l1.filter (fun e => decide (e.1 ≠ s.h.id.coreNo)) else s.mem.l1 } } := by
  rw [acquireIf_eq_acquire]
  cases aq
  · exact State.acquire_advance_frame hid .hart
  · exact State.acquire_advance_frame hid .system

/-! ## The frame of a store -/

theorem OnlyStore.refl (s : State) : OnlyStore s s := ⟨rfl, rfl⟩

theorem OnlyStore.setH {s t : State} (h : OnlyStore s t) (k : Hart) : OnlyStore s (t.setH k) :=
  ⟨congrArg (State.setH · k) h.1, h.2⟩

theorem OnlyStore.dropL1 {s t : State} (h : OnlyStore s t) (c : Nat) : OnlyStore s (t.dropL1 c) :=
  ⟨congrArg (State.dropL1 · c) h.1, h.2⟩

theorem OnlyStore.advance {s t : State} (h : OnlyStore s t) : OnlyStore s t.advance := h.setH _

theorem OnlyStore.acquire {s t : State} (h : OnlyStore s t) (sc : Scope) : OnlyStore s (t.acquire sc) := by
  unfold State.acquire
  split
  · exact h
  · exact (h.dropL1 _).setH _

theorem OnlyStore.acquireIf {s t : State} (h : OnlyStore s t) (aq : Bool) : OnlyStore s (acquireIf aq t) := by
  rw [acquireIf_eq_acquire]
  exact h.acquire _

/-- A store is judged by the bytes of memory alone. -/
theorem storedAt_congr {s t u : State} {a n v : Nat} (hm : t.mem.mem = u.mem.mem) :
    Claims.StoredAt s t a n v ↔ Claims.StoredAt s u a n v := by
  unfold Claims.StoredAt MemElsewhere
  rw [hm]

/-- Only the low `n` bytes of a value are stored. -/
theorem storedAt_mod {s t : State} {a n v : Nat} :
    Claims.StoredAt s t a n (v % 2 ^ (8 * n)) ↔ Claims.StoredAt s t a n v := by
  have hpow : 2 ^ (8 * n) = 256 ^ n := by rw [Nat.pow_mul]
  unfold Claims.StoredAt
  rw [hpow, Nat.mod_mod]

/-! ## Writing memory -/

/-- A write to memory behind a port that is up (04 R90; 05 R98). -/
theorem writeLoc_mem {s : State} {pa : Nat} (hport : farPortDown s pa = false) (core : Nat) (nc : Bool)
    (n v : Nat) (p : Bool) : writeLoc s core (.mem pa nc) n v p =
      (s.setMem { s.mem with
        mem := writeLe s.mem.mem pa n v, pois := poisonAfter s.mem.pois pa n p,
        locked := s.mem.locked.filter (fun g => decide (g ∈ poisonAfter s.mem.pois pa n p)),
        l1 := l1Write s.mem.l1 core pa n v }).dropResv (.mem pa nc) := by
  simp [writeLoc, hport]

/-- Reservations dropped or kept, the other harts are the same but for them. -/
theorem State.dropResv_others_resv (s : State) (l : Loc) :
    (s.dropResv l).others.map (fun k => { k with s := { k.s with resv := none } }) =
      s.others.map (fun k => { k with s := { k.s with resv := none } }) := by
  simp only [State.dropResv, List.map_map]
  refine List.map_congr_left fun k _ => ?_
  simp only [Function.comp_apply]
  split <;> rfl

section
variable {s : State} {pa : Nat} (hport : farPortDown s pa = false) (core : Nat) (nc : Bool) (n v : Nat) (p : Bool)
include hport

theorem writeLoc_mem_h : (writeLoc s core (.mem pa nc) n v p).h = s.h := by
  rw [writeLoc_mem hport]
  rfl

theorem onlyStore_writeLoc : OnlyStore s (writeLoc s core (.mem pa nc) n v p) := by
  rw [writeLoc_mem hport]
  exact ⟨rfl, State.dropResv_others_resv _ _⟩

theorem storedAt_writeLoc : Claims.StoredAt s (writeLoc s core (.mem pa nc) n v p) pa n v := by
  rw [writeLoc_mem hport]
  refine ⟨fun hwf => ?_, fun b hb => mapGet_writeLe_out n s.mem.mem pa v b hb⟩
  have ⟨hmem, _⟩ := (wf_iff s.mem).mp hwf
  exact readLe_writeLe n s.mem.mem pa v hmem

end

/-! ## The place of an access, and reading and writing there -/

section
variable {s : State} {k : AKind} {va : Word} {n pa : Nat} {nc : Bool} (hal : va.toNat % n = 0)
  (hloc : addrOf s s.h k va = .ok (.mem pa nc))

include hal hloc in
/-- An aligned address that goes to memory is the place of its access. -/
theorem scalarLoc_of_mem (mis : BitVec 8) : scalarLoc s k mis va n = .ok (.mem pa nc) := by
  simp [scalarLoc, hal, hloc]

include hal hloc in
theorem atomicLoc_of_mem (mis : BitVec 8) : atomicLoc s k mis va n = .ok (.mem pa nc) := by
  simp [atomicLoc, scalarLoc_of_mem hal hloc, noDev]

/-- An LR or AMO reads memory at its home. -/
theorem readAt_home (hp : poisonedLoc s (.mem pa nc) n = false) (acc : DevAcc) :
    readAt s k acc true va n (.mem pa nc) = .ok (readLe s.mem.mem pa n) := by
  simp [readAt, hp, loadLoc]

/-- A load of which the core's L1 holds no copy reads memory (05 R98). -/
theorem readAt_pastL1 (hp : poisonedLoc s (.mem pa nc) n = false) (hl1 : Claims.PastL1 s pa nc) (acc : DevAcc) :
    readAt s k acc false va n (.mem pa nc) = .ok (readLe s.mem.mem pa n) := by
  rcases hl1 with rfl | hl1 <;> simp_all [readAt, loadLoc]

end

/-- A load's bytes are those of memory. -/
theorem scalarLoadBytes_of_mem {s : State} {va : Word} {n pa : Nat} {nc : Bool} (hal : va.toNat % n = 0)
    (hloc : addrOf s s.h .load va = .ok (.mem pa nc)) (hp : poisonedLoc s (.mem pa nc) n = false)
    (hl1 : Claims.PastL1 s pa nc) (acc : DevAcc) :
    scalarLoadBytes s acc va n = .ok (readLe s.mem.mem pa n) := by
  rw [scalarLoadBytes, scalarLoc_of_mem hal hloc]
  exact readAt_pastL1 hp hl1 acc

/-- A store writes its bytes at the place of its address. -/
theorem scalarStoreBytes_of_mem {s : State} {va : Word} {n pa : Nat} {nc : Bool} (hal : va.toNat % n = 0)
    (hloc : addrOf s s.h .store va = .ok (.mem pa nc)) (v : Nat) :
    scalarStoreBytes s va n v = .ok (writeLoc s s.h.id.coreNo (.mem pa nc) n v false) := by
  rw [scalarStoreBytes, scalarLoc_of_mem hal hloc]
  rfl

/-! ## The claims' sizes and values, and the model's -/

theorem loadBytes_eq (k : LoadKind) : loadBytes k = Claims.loadSize k := by cases k <;> rfl

theorem storeBytes_eq (k : StoreKind) : storeBytes k = Claims.storeSize k := by cases k <;> rfl

theorem accBytes_eq (wd : AccW) : accBytes wd = Claims.accSize wd := by cases wd <;> rfl

theorem storeValue_eq (k : StoreKind) (rs2 : Reg) (h : Hart) : storeValue k rs2 h = Claims.stored k rs2 h := by
  cases k <;> rfl

theorem sextBytes_eq (n v : Nat) : sextBytes n v = Claims.signed n v := by
  rcases n with _ | _ | _ | _ | _ | n <;> rfl

theorem amoResult_eq {w : Nat} (op : AmoOp) (m r : BitVec w) : amoResult op m r = Claims.amo op m r := by
  cases op <;> simp [amoResult, Claims.amo, BitVec.slt_eq_decide, BitVec.ult_eq_decide]

/-- A single-precision value boxed with ones. -/
theorem nanBox_ofNat {v : Nat} (hv : v < 2 ^ 32) :
    nanBox (BitVec.ofNat 32 v) = BitVec.ofNat 64 (v + (2 ^ 32 - 1) * 2 ^ 32) := by
  apply BitVec.eq_of_toNat_eq
  have hlow : (BitVec.ofNat 32 v).toNat < 2 ^ 32 := BitVec.isLt _
  rw [nanBox, BitVec.toNat_append, ← Nat.shiftLeft_add_eq_or_of_lt hlow]
  simp [Nat.shiftLeft_eq]
  omega

end Sys2Proof.Machine
end

section
/-! PROOFS of the family 02_encodings_and_assembly.md: the results of scalar loads, stores and atomics (02 R31, 03
Table 3.7, 16 R343 and R355), from the rules of the memory side. -/

namespace Sys2Proof.Machine

/-! ## Loads -/

/-- A load changes x or f registers alone. -/
theorem loadInto_frame (k : LoadKind) (rd : Reg) (v : Nat) (h : Hart) :
    loadInto k rd v h = { h with
      s := { h.s with x := (loadInto k rd v h).s.x, f := (loadInto k rd v h).s.f } } := by
  have hx (w : Word) : h.setX rd w = { h with s := { h.s with x := (h.setX rd w).s.x, f := (h.setX rd w).s.f } } := by
    rw [Hart.setX_s_f]
    exact h.onlyXRegs_setX rd w
  cases k
  case flw | fld => rfl
  all_goals exact hx _

/-- The destination of a load takes the bytes read, extended or boxed as the load has it. -/
theorem loaded_loadInto (k : LoadKind) (rd : Reg) {v : Nat} (s : State) (hv : v < 256 ^ Claims.loadSize k) :
    Claims.Loaded k rd v s (s.setH (loadInto k rd v s.h)).advance := by
  have hx (w : Word) : XAfter s (s.setH (s.h.setX rd w)).advance rd w ∧ (s.h.setX rd w).s.f = s.h.s.f :=
    ⟨fun r => s.h.xr_setX rd r w, s.h.setX_s_f rd w⟩
  have hf (w : Word) : FAfter s (s.setH (s.h.setF rd w)).advance rd w := fun r => s.h.fr_setF rd r w
  cases k
  case lb | lh | lw | ld =>
    rw [Claims.Loaded, ← sextBytes_eq]
    exact hx _
  case lbu | lhu | lwu => exact hx _
  case flw => exact ⟨nanBox_ofNat hv ▸ hf _, rfl⟩
  case fld => exact ⟨hf _, rfl⟩

section
variable {s : State} {pa : Nat} {nc : Bool}

theorem exec_scalarLoad_of_mem {k : LoadKind} (rd : Reg) {rs1 : Reg} {imm : BitVec 12}
    (hal : (s.h.xr rs1 + imm.signExtend 64).toNat % Claims.loadSize k = 0)
    (hloc : addrOf s s.h .load (s.h.xr rs1 + imm.signExtend 64) = .ok (.mem pa nc))
    (hp : poisonedLoc s (.mem pa nc) (Claims.loadSize k) = false) (hl1 : Claims.PastL1 s pa nc) :
    exec (.scalarLoad k rd rs1 imm) s =
      .next (s.setH (loadInto k rd (readLe s.mem.mem pa (Claims.loadSize k)) s.h)).advance := by
  have hexec : exec (.scalarLoad k rd rs1 imm) s = finish (scalarLoadRun k rd rs1 imm s) s := rfl
  rw [hexec, scalarLoadRun, memAddr, loadBytes_eq, scalarLoadBytes_of_mem hal hloc hp hl1]
  rfl

theorem exec_xlda_of_mem (sc : Scope) {wd : AccW} (rd : Reg) {rs1 : Reg}
    (hal : (s.h.xr rs1).toNat % Claims.accSize wd = 0) (hloc : addrOf s s.h .load (s.h.xr rs1) = .ok (.mem pa nc))
    (hp : poisonedLoc s (.mem pa nc) (Claims.accSize wd) = false) (hl1 : Claims.PastL1 s pa nc) :
    exec (.xlda sc wd rd rs1) s = .next ((s.setX rd (Claims.signed (Claims.accSize wd)
      (readLe s.mem.mem pa (Claims.accSize wd)))).acquire sc).advance := by
  have hexec : exec (.xlda sc wd rd rs1) s = finish (xldaRun sc wd rd rs1 s) s := rfl
  rw [hexec, xldaRun, accBytes_eq, scalarLoadBytes_of_mem hal hloc hp hl1, ← sextBytes_eq]
  rfl

theorem exec_lr_of_mem (dbl aq rl : Bool) (rd : Reg) {rs1 : Reg}
    (hal : (s.h.xr rs1).toNat % amoBytes dbl = 0) (hloc : addrOf s s.h .load (s.h.xr rs1) = .ok (.mem pa nc))
    (hp : poisonedLoc s (.mem pa nc) (amoBytes dbl) = false) :
    exec (.lr dbl aq rl rd rs1) s = .next (acquireIf aq (s.setH ((s.h.setX rd (Claims.signed (amoBytes dbl)
      (readLe s.mem.mem pa (amoBytes dbl)))).setResv (some (.mem (pa / 128)))))).advance := by
  have hexec : exec (.lr dbl aq rl rd rs1) s = finish (lrRun dbl aq rd rs1 s) s := rfl
  rw [hexec, lrRun, atomicLoc_of_mem hal hloc, ← sextBytes_eq]
  simp only [readAt_home hp]
  rfl

end

/-- Settles O10: each load reads the bytes of memory at its place, and what it then writes and drops is said by
the rules for registers and acquires. -/
theorem scalarLoadResults : Obligations.ScalarLoadResults := by
  refine ⟨?load, ?xlda, ?lr⟩
  case load =>
    intro k rd rs1 imm s pa nc hal hloc hp hl1
    have hframe := loadInto_frame k rd (readLe s.mem.mem pa (Claims.loadSize k)) s.h
    refine ⟨_, exec_scalarLoad_of_mem rd hal hloc hp hl1, loaded_loadInto k rd s (readLe_lt _ _ _), ?_, ?_⟩
    · unfold OnlyXF
      simp only [State.advance, State.setH]
      rw [hframe]
      rfl
    · simp only [State.advance_h, State.setH_h]
      rw [hframe]
      rfl
  case xlda =>
    rintro sc wd rd rs1 _ s pa nc rfl hal hloc hp hl1
    refine ⟨_, exec_xlda_of_mem sc rd hal hloc hp hl1, ?_, hartX_acquire (s.h.onlyXRegs_setX rd _), ?_⟩
    · intro r
      simp [Hart.xr_setX]
    · exact State.acquire_advance_frame (Hart.setX_id ..) sc
  case lr =>
    intro dbl aq rl rd rs1 n s pa nc hn hal hloc hp
    obtain rfl : n = amoBytes dbl := hn
    refine ⟨_, exec_lr_of_mem dbl aq rl rd hal hloc hp, ?_,
      hartX_acquireIf ((s.h.onlyXRegs_setX rd _).setResv _), ?_⟩
    · intro r
      simp [Hart.xr_setX]
    · exact acquireIf_advance_frame (by simp) aq

/-! ## Stores -/

section
variable {s : State} {pa : Nat} {nc : Bool}

theorem exec_scalarStore_of_mem {k : StoreKind} {rs1 : Reg} (rs2 : Reg) {imm : BitVec 12}
    (hal : (s.h.xr rs1 + imm.signExtend 64).toNat % Claims.storeSize k = 0)
    (hloc : addrOf s s.h .store (s.h.xr rs1 + imm.signExtend 64) = .ok (.mem pa nc)) :
    exec (.scalarStore k rs1 rs2 imm) s = .next (writeLoc s s.h.id.coreNo (.mem pa nc) (Claims.storeSize k)
      (Claims.stored k rs2 s.h % 2 ^ (8 * Claims.storeSize k)) false).advance := by
  have hexec : exec (.scalarStore k rs1 rs2 imm) s = finish (scalarStoreRun k rs1 rs2 imm s) s := rfl
  rw [hexec, scalarStoreRun, memAddr, storeBytes_eq, storeValue_eq, scalarStoreBytes_of_mem hal hloc]
  rfl

theorem exec_xstl_of_mem (sc : Scope) {wd : AccW} {rs1 : Reg} (rs2 : Reg)
    (hal : (s.h.xr rs1).toNat % Claims.accSize wd = 0) (hloc : addrOf s s.h .store (s.h.xr rs1) = .ok (.mem pa nc)) :
    exec (.xstl sc wd rs1 rs2) s = .next (writeLoc s s.h.id.coreNo (.mem pa nc) (Claims.accSize wd)
      ((s.h.xr rs2).toNat % 2 ^ (8 * Claims.accSize wd)) false).advance := by
  have hexec : exec (.xstl sc wd rs1 rs2) s = finish (xstlRun wd rs1 rs2 s) s := rfl
  rw [hexec, xstlRun, accBytes_eq, scalarStoreBytes_of_mem hal hloc]
  rfl

/-- A store that completes: its bytes, its frame, and the hart that moves on. -/
theorem store_completes (hport : farPortDown s pa = false) (core n v : Nat) :
    Claims.StoredAt s (writeLoc s core (.mem pa nc) n (v % 2 ^ (8 * n)) false).advance pa n v ∧
    OnlyStore s (writeLoc s core (.mem pa nc) n (v % 2 ^ (8 * n)) false).advance ∧
    (writeLoc s core (.mem pa nc) n (v % 2 ^ (8 * n)) false).advance.h =
      { s.h with s := { s.h.s with pc := s.h.s.pc + 4, instret := s.h.s.instret + 1 } } := by
  refine ⟨?_, (onlyStore_writeLoc hport core nc n _ false).advance, ?_⟩
  · rw [← storedAt_mod]
    exact storedAt_writeLoc hport core nc n _ false
  · rw [State.advance_h, writeLoc_mem_h hport]
    rfl

/-! ## SC -/

/-- The hart's reservation has ended. -/
def State.unreserved (s : State) : State := s.setH (s.h.setResv none)

theorem exec_sc_reserved (dbl aq rl : Bool) (rd : Reg) {rs1 : Reg} (rs2 : Reg)
    (hal : (s.h.xr rs1).toNat % amoBytes dbl = 0) (hloc : addrOf s s.h .store (s.h.xr rs1) = .ok (.mem pa nc))
    (hr : s.h.s.resv = some (.mem (pa / 128))) :
    exec (.sc dbl aq rl rd rs1 rs2) s = .next (acquireIf aq ((writeLoc s.unreserved s.h.id.coreNo (.mem pa nc)
      (amoBytes dbl) ((s.h.xr rs2).toNat % 2 ^ (8 * amoBytes dbl)) false).setX rd 0)).advance := by
  have hexec : exec (.sc dbl aq rl rd rs1 rs2) s = finish (scRun dbl aq rd rs1 rs2 s) s := rfl
  rw [hexec, scRun, atomicLoc_of_mem hal hloc]
  simp only [hr, Loc.line]
  rfl

theorem exec_sc_unreserved (dbl aq rl : Bool) (rd : Reg) {rs1 : Reg} (rs2 : Reg)
    (hal : (s.h.xr rs1).toNat % amoBytes dbl = 0) (hloc : addrOf s s.h .store (s.h.xr rs1) = .ok (.mem pa nc))
    (hr : s.h.s.resv ≠ some (.mem (pa / 128))) :
    exec (.sc dbl aq rl rd rs1 rs2) s = .next (acquireIf aq (s.unreserved.setX rd 1)).advance := by
  have hexec : exec (.sc dbl aq rl rd rs1 rs2) s = finish (scRun dbl aq rd rs1 rs2 s) s := rfl
  rw [hexec, scRun, atomicLoc_of_mem hal hloc]
  simp only [hr, Loc.line, false_and, if_false]
  rfl

/-- What an SC that writes `v` to rd leaves, once its store is done or not done. -/
theorem sc_completes {u : State} (hu : OnlyStore s u) (hh : u.h = s.unreserved.h) (aq : Bool) (rd : Reg) (v : Word) :
    OnlyStore s (acquireIf aq (u.setX rd v)).advance ∧ Claims.HartX s (acquireIf aq (u.setX rd v)).advance aq none ∧
    XAfter s (acquireIf aq (u.setX rd v)).advance rd v := by
  refine ⟨((hu.setH _).acquireIf aq).advance, hartX_acquireIf ?_, fun r => ?_⟩
  · rw [State.setX_h, hh]
    exact Hart.onlyXRegs_setX _ rd v
  · simp [hh, State.unreserved, Hart.xr_setX]

end

/-- Settles O11: a store and an SC that holds its reservation write at the place of their address; an SC without
one leaves memory alone. -/
theorem scalarStoreResults : Obligations.ScalarStoreResults := by
  refine ⟨?store, ?xstl, ?sc⟩
  case store =>
    intro k rs1 rs2 imm s pa nc hal hloc hport
    exact ⟨_, exec_scalarStore_of_mem rs2 hal hloc, store_completes hport _ _ _⟩
  case xstl =>
    rintro sc wd rs1 rs2 _ s pa nc rfl hal hloc hport
    exact ⟨_, exec_xstl_of_mem sc rs2 hal hloc, store_completes hport _ _ _⟩
  case sc =>
    intro dbl aq rl rd rs1 rs2 n s pa nc hn hal hloc hport
    obtain rfl : n = amoBytes dbl := hn
    by_cases hr : s.h.s.resv = some (.mem (pa / 128))
    · have hport' : farPortDown s.unreserved pa = false := hport
      obtain ⟨honly, hhart, hx⟩ := sc_completes (s := s) (onlyStore_writeLoc hport' s.h.id.coreNo nc (amoBytes dbl)
        ((s.h.xr rs2).toNat % 2 ^ (8 * amoBytes dbl)) false) (writeLoc_mem_h hport' ..) aq rd 0
      refine ⟨_, exec_sc_reserved dbl aq rl rd rs2 hal hloc hr, honly, hhart, fun _ => ⟨?_, hx⟩,
        fun h => absurd hr h⟩
      refine storedAt_mod.mp ((storedAt_congr ?_).mp (storedAt_writeLoc hport' s.h.id.coreNo nc (amoBytes dbl) _ false))
      simp
    · obtain ⟨honly, hhart, hx⟩ := sc_completes (s := s) (u := s.unreserved)
        ((OnlyStore.refl s).setH _) rfl aq rd 1
      refine ⟨_, exec_sc_unreserved dbl aq rl rd rs2 hal hloc hr, honly, hhart, fun h => absurd h hr, fun _ => ?_⟩
      refine ⟨?_, ?_, ?_, hx⟩
      all_goals
        simp
        rfl

/-! ## Atomic read-modify-writes -/

/-- Memory once a read-modify-write has stored its new value, if it has one. -/
def storeNew (s : State) (core pa n : Nat) (nc : Bool) (new : Option Nat) : State :=
  match new with
  | none => s
  | some x => writeLoc s core (.mem pa nc) n x false

section
variable {s : State} {core pa n : Nat} {nc : Bool}

theorem onlyStore_storeNew (hport : farPortDown s pa = false) (new : Option Nat) :
    OnlyStore s (storeNew s core pa n nc new) := by
  cases new
  · exact .refl s
  · exact onlyStore_writeLoc hport ..

/-- A read-modify-write of memory: what it reads, stores and leaves in its registers. -/
theorem rmwRun_of_mem {va : Word} (hal : va.toNat % n = 0) (hloc : addrOf s s.h .amo va = .ok (.mem pa nc))
    (hp : poisonedLoc s (.mem pa nc) n = false) (hport : farPortDown s pa = false) (aq : Bool)
    (new : Nat → Option Nat) (regs : Nat → Hart → Hart) :
    rmwRun s va n aq new regs = .ok (acquireIf aq ((storeNew s s.h.id.coreNo pa n nc (new (readLe s.mem.mem pa n))).setH
      (regs (readLe s.mem.mem pa n) s.h))).advance := by
  rw [rmwRun, atomicLoc_of_mem hal hloc]
  simp only [readAt_home hp]
  cases new (readLe s.mem.mem pa n) with
  | none => rfl
  | some x => simp only [writeLoc_mem_h hport, storeNew]

/-- What a read-modify-write that completes leaves. -/
theorem rmw_completes {va : Word} (hal : va.toNat % n = 0) (hloc : addrOf s s.h .amo va = .ok (.mem pa nc))
    (hp : poisonedLoc s (.mem pa nc) n = false) (hport : farPortDown s pa = false) (aq : Bool)
    (new : Nat → Option Nat) (regs : Nat → Hart → Hart) (hregs : ∀ v, s.h.OnlyXRegs (regs v s.h)) :
    ∃ t, finish (rmwRun s va n aq new regs) s = .next t ∧ OnlyStore s t ∧ Claims.HartX s t aq s.h.s.resv ∧
      (∀ r, t.h.xr r = (regs (readLe s.mem.mem pa n) s.h).xr r) ∧
      (∀ x, new (readLe s.mem.mem pa n) = some x → Claims.StoredAt s t pa n x) ∧
      (new (readLe s.mem.mem pa n) = none → t.mem.mem = s.mem.mem) := by
  rw [rmwRun_of_mem hal hloc hp hport]
  refine ⟨_, rfl, (((onlyStore_storeNew hport _).setH _).acquireIf aq).advance,
    hartX_acquireIf (hregs _), ?_, ?_, ?_⟩
  · intro r
    simp
  · intro x hx
    rw [hx]
    refine (storedAt_congr ?_).mp (storedAt_writeLoc hport s.h.id.coreNo nc n x false)
    simp [storeNew]
  · intro hx
    rw [hx]
    simp [storeNew]

/-- A compare-and-swap on one register stores only where the old bytes are `old`, rd's own. -/
theorem amocas_completes {rd rs1 rs2 : Reg} {old x : Nat} (hal : (s.h.xr rs1).toNat % n = 0)
    (hloc : addrOf s s.h .amo (s.h.xr rs1) = .ok (.mem pa nc)) (hp : poisonedLoc s (.mem pa nc) n = false)
    (hport : farPortDown s pa = false) (aq : Bool) (hold : old = (s.h.xr rd).toNat % 256 ^ n)
    (hx : x = (s.h.xr rs2).toNat % 2 ^ (8 * n)) :
    ∃ t, finish (rmwRun s (s.h.xr rs1) n aq (fun v => if v = old then some x else none)
        (fun v h => h.setX rd (sextBytes n v))) s = .next t ∧ OnlyStore s t ∧ Claims.HartX s t aq s.h.s.resv ∧
      XAfter s t rd (Claims.signed n (readLe s.mem.mem pa n)) ∧
      (if readLe s.mem.mem pa n = (s.h.xr rd).toNat % 256 ^ n then Claims.StoredAt s t pa n (s.h.xr rs2).toNat
       else t.mem.mem = s.mem.mem) := by
  obtain ⟨t, hrun, honly, hhart, hregs, hstore, hkeep⟩ := rmw_completes hal hloc hp hport aq
    (fun v => if v = old then some x else none) (fun v h => h.setX rd (sextBytes n v))
    (fun v => s.h.onlyXRegs_setX rd _)
  refine ⟨t, hrun, honly, hhart, fun r => ?_, ?_⟩
  · rw [hregs, Hart.xr_setX, sextBytes_eq]
  · rw [← hold]
    by_cases heq : readLe s.mem.mem pa n = old
    · rw [if_pos heq, ← storedAt_mod, ← hx]
      exact hstore x (if_pos heq)
    · rw [if_neg heq]
      exact hkeep (if_neg heq)

end

/-- Settles O12: each atomic is a read-modify-write of memory, with its own new value and destination. -/
theorem atomicResults : Obligations.AtomicResults := by
  intro s rs1 n pa nc aq rl hal hloc hp hport
  refine ⟨?amo, ?cas, ?casQ⟩
  case amo =>
    rintro op dbl rd rs2 rfl
    obtain ⟨t, hrun, honly, hhart, hx, hnew, -⟩ := rmw_completes hal hloc hp hport aq
      (fun v => some (amoNew op dbl v (s.h.xr rs2).toNat)) (fun v h => h.setX rd (sextBytes (amoBytes dbl) v))
      (fun v => s.h.onlyXRegs_setX rd _)
    refine ⟨t, hrun, honly, hhart, fun r => ?_, ?_⟩
    · rw [hx, Hart.xr_setX, sextBytes_eq]
      rfl
    · have hst := hnew _ rfl
      cases dbl <;> simpa [amoNew, amoResult_eq] using hst
  case cas =>
    rintro i rd rs2 (⟨rfl, rfl⟩ | ⟨rfl, rfl⟩)
    · exact amocas_completes hal hloc hp hport aq rfl rfl
    · exact amocas_completes hal hloc hp hport aq (Nat.mod_eq_of_lt (s.h.xr rd).isLt).symm
        (Nat.mod_eq_of_lt (s.h.xr rs2).isLt).symm
  case casQ =>
    rintro rd rs2 rfl hrd -
    obtain ⟨t, hrun, honly, hhart, hx, hnew, hold⟩ := rmw_completes hal hloc hp hport aq
      (fun v => if v = s.h.pair rd then some (s.h.pair rs2) else none)
      (fun v h => h.setPair rd v) (fun v => s.h.onlyXRegs_setPair rd v)
    refine ⟨t, hrun, honly, hhart, fun r => ?_, fun heq => hnew _ (if_pos heq), fun hne => hold (if_neg hne)⟩
    rw [hx, Hart.xr_setPair _ hrd]

end Sys2Proof.Machine
end

section
/-! PROOFS of the family 02_encodings_and_assembly.md: integer computation and control transfer (02 R31, R32; 03
Table 3.7). The model's value of every form is the RISC-V specification's. -/

namespace Sys2Proof.Machine

/-! ## Arithmetic of words -/

/-- The high half of a product taken at 128 bits. -/
theorem hi128_ofInt (x y : Int) :
    Claims.hi128 (BitVec.ofInt 128 x) (BitVec.ofInt 128 y) = BitVec.ofInt 64 (x * y / 2 ^ 64) := by
  rw [Claims.hi128, ← BitVec.ofInt_mul]
  generalize x * y = z
  apply BitVec.eq_of_toNat_eq
  simp only [BitVec.extractLsb'_toNat, BitVec.toNat_ofInt, Nat.shiftRight_eq_div_pow]
  omega

theorem setWidth_eq_ofInt {v w : Nat} (a : BitVec w) : a.setWidth v = BitVec.ofInt v a.toNat := by
  rw [BitVec.ofInt_natCast]
  exact (BitVec.ofNat_toNat ..).symm

theorem divS_eq_sdiv {w : Nat} (a b : BitVec w) : divS a b = if b = 0 then -1 else a.sdiv b := by
  have h : BitVec.ofInt w (a.toInt.tdiv b.toInt) = a.sdiv b := by
    apply BitVec.eq_of_toInt_eq
    rw [BitVec.toInt_ofInt, BitVec.toInt_sdiv]
  rw [divS, h, ← BitVec.neg_one_eq_allOnes]
  rfl

theorem remS_eq_srem {w : Nat} (a b : BitVec w) : remS a b = if b = 0 then a else a.srem b := by
  rw [remS, ← BitVec.toInt_srem, BitVec.ofInt_toInt]

theorem divU_eq_udiv {w : Nat} (a b : BitVec w) : divU a b = if b = 0 then -1 else a / b := by
  rw [divU, ← BitVec.toNat_udiv, BitVec.ofNat_toNat, BitVec.setWidth_eq, ← BitVec.neg_one_eq_allOnes]
  rfl

theorem remU_eq_umod {w : Nat} (a b : BitVec w) : remU a b = if b = 0 then a else a % b := by
  rw [remU, ← BitVec.toNat_umod, BitVec.ofNat_toNat, BitVec.setWidth_eq]

/-- The quotient of a division by zero, extended from 32 bits. -/
theorem sext64_neg_one : sext64 (-1 : BitVec 32) = -1 := by decide

/-- An immediate with zero bits below it is the immediate times a power of 2. -/
theorem sext64_append_zero {n m : Nat} (x : BitVec n) :
    sext64 (x ++ (0 : BitVec m)) = (x.signExtend 64 : Word) * BitVec.ofInt 64 (2 ^ m) := by
  have hint : (x ++ (0 : BitVec m)).toInt = 2 ^ m * x.toInt := BitVec.toInt_append_zero
  rw [sext64, BitVec.signExtend, hint, mul_comm, BitVec.ofInt_mul]
  rfl

theorem not_xor_eq (a b : Word) : ~~~(a ^^^ b) = a ^^^ ~~~b := by
  ext i
  simp

/-- Clearing bit 0 takes the remainder by 2 away. -/
theorem and_not_one (a : Word) : a &&& ~~~(1 : Word) = a - a % 2 := by
  have hmod : a % 2 = a &&& 1 := by
    apply BitVec.eq_of_toNat_eq
    simp [Nat.and_one_is_mod]
  have hdisjoint (m : Word) : (a &&& ~~~m) &&& (a &&& m) = 0 := by
    ext i hi
    cases hm : m[i] <;> simp [hm]
  have hjoin (m : Word) : (a &&& ~~~m) ||| (a &&& m) = a := by
    ext i hi
    cases hm : m[i] <;> simp [hm]
  rw [hmod, eq_sub_iff_add_eq, BitVec.add_eq_or_of_and_eq_zero _ _ (hdisjoint 1), hjoin]

/-! ## The values of integer instructions -/

/-- Every register-register value is the specification's. -/
theorem rrResult_eq (op : RrOp) (a b : Word) : rrResult op a b = Claims.rr op a b := by
  cases op
  case slt | max | min => simp [rrResult, Claims.rr, boolWord, BitVec.slt_eq_decide]
  case sltu | maxu | minu => simp [rrResult, Claims.rr, boolWord, BitVec.ult_eq_decide]
  case mulh => exact (hi128_ofInt a.toInt b.toInt).symm
  case mulhsu => rw [rrResult, Claims.rr, setWidth_eq_ofInt]; exact (hi128_ofInt a.toInt b.toNat).symm
  case mulhu =>
    rw [rrResult, Claims.rr, setWidth_eq_ofInt, setWidth_eq_ofInt, hi128_ofInt, ← BitVec.ofInt_natCast]
    simp
  case div => exact divS_eq_sdiv a b
  case divu => exact divU_eq_udiv a b
  case rem => exact remS_eq_srem a b
  case remu => exact remU_eq_umod a b
  case divw => rw [rrResult, divS_eq_sdiv, apply_ite sext64, sext64_neg_one]; rfl
  case divuw => rw [rrResult, divU_eq_udiv, apply_ite sext64, sext64_neg_one]; rfl
  case remw => rw [rrResult, remS_eq_srem, apply_ite sext64]; rfl
  case remuw => rw [rrResult, remU_eq_umod, apply_ite sext64]; rfl
  case sh1add | sh2add | sh3add | sh1addUw | sh2addUw | sh3addUw =>
    rw [rrResult, BitVec.shiftLeft_eq_mul_twoPow]
    rfl
  case xnor => exact not_xor_eq a b
  all_goals rfl

theorem int_ri (op : RiOp) (rd rs1 : Reg) (imm : BitVec 12) (h : Hart) :
    Claims.int (.ri op rd rs1 imm) h = some (rd, riResult op (h.xr rs1) imm) := by
  cases op
  case slti => simp [Claims.int, riResult, boolWord, BitVec.slt_eq_decide]
  case sltiu => simp [Claims.int, riResult, boolWord, BitVec.ult_eq_decide]
  all_goals rfl

/-- A shift amount of an immediate is in range. -/
theorem shamt_setWidth (n : BitVec 6) : shamt (n.setWidth 64) = n.toNat := by
  simp [shamt]
  omega

theorem shamt32_setWidth (n : BitVec 5) : shamt32 (n.setWidth 64) = n.toNat := by
  simp [shamt32]
  omega

theorem int_sh (op : ShOp) (rd rs1 : Reg) (n : BitVec 6) (h : Hart) :
    Claims.int (.sh op rd rs1 n) h = some (rd, shResult op (h.xr rs1) n.toNat) := by
  cases op
  case slliUw => rfl
  all_goals
    rw [← shamt_setWidth n]
    rfl

theorem int_shw (op : ShwOp) (rd rs1 : Reg) (n : BitVec 5) (h : Hart) :
    Claims.int (.shw op rd rs1 n) h = some (rd, shwResult op (h.xr rs1) n.toNat) := by
  rw [← shamt32_setWidth n]
  cases op <;> rfl

/-- An integer instruction whose value is one expression has that value and destination. -/
theorem intResult_eq {f : IntForm} {h : Hart} {rd : Reg} {v : Word} (hv : Claims.int f h = some (rd, v)) :
    intResult f h = (rd, v) := by
  cases f with
  | rr op d rs1 rs2 =>
      rw [intResult, rrResult_eq]
      exact Option.some.inj hv
  | ri op d rs1 imm =>
      rw [int_ri] at hv
      exact Option.some.inj hv
  | sh op d rs1 n =>
      rw [int_sh] at hv
      exact Option.some.inj hv
  | shw op d rs1 n =>
      rw [int_shw] at hv
      exact Option.some.inj hv
  | un op d rs1 =>
      cases op
      case sextb | sexth | zexth => exact Option.some.inj hv
      all_goals cases hv
  | lui d imm =>
      rw [intResult, sext64_append_zero]
      exact Option.some.inj hv
  | auipc d imm =>
      rw [intResult, sext64_append_zero]
      exact Option.some.inj hv

/-! ## Completing with one register written -/

/-- Only x registers, the pc and instret change where a hart that wrote x registers moves on. -/
theorem onlyX_retireTo {s : State} {k : Hart} (hk : s.h.OnlyXRegs k) (pc : Word) :
    OnlyX s (s.setH (k.retireTo pc)) pc :=
  congrArg (fun k : Hart => s.setH (k.retireTo pc)) hk

theorem xAfter_retireTo (s : State) (rd : Reg) (v pc : Word) : XAfter s (s.setH ((s.h.setX rd v).retireTo pc)) rd v :=
  fun r => s.h.xr_setX rd r v

theorem setX_advance (s : State) (rd : Reg) (v : Word) :
    (s.setX rd v).advance = s.setH ((s.h.setX rd v).retireTo (s.h.s.pc + 4)) := by
  rw [← Hart.setX_s_pc s.h rd v]
  rfl

theorem exec_integerOp (f : IntForm) (s : State) : exec (.integerOp f) s =
    .next (s.setH ((s.h.setX (intResult f s.h).1 (intResult f s.h).2).retireTo (s.h.s.pc + 4))) := by
  rw [← setX_advance]
  rfl

/-- Settles O7: the value is the specification's, form by form, and the instruction writes it and moves on. -/
theorem integerInstructionResults : Obligations.IntegerInstructionResults := by
  intro f s rd v hv
  refine ⟨_, exec_integerOp f s, ?_, onlyX_retireTo (s.h.onlyXRegs_setX _ _) _⟩
  rw [intResult_eq hv]
  exact xAfter_retireTo s rd v _

/-! ## Counting bits -/

/-- Of two bit vectors the low `n` bits are the same. -/
def SameLow {v w : Nat} (a : BitVec v) (b : BitVec w) (n : Nat) : Prop := ∀ i, i < n → b.getLsbD i = a.getLsbD i

theorem sameLow_lo32 (a : Word) : SameLow a (lo32 a) 32 := fun i hi => by simp [hi]

theorem leading_clzFrom {w : Nat} (a : Word) (b : BitVec w) (n : Nat) (hb : SameLow a b n) :
    Claims.Leading a n (clzFrom b n) := by
  induction n with
  | zero => exact ⟨le_refl 0, fun i _ hi => absurd hi (by omega), fun h => absurd h (by simp [clzFrom])⟩
  | succ n ih =>
      obtain ⟨hle, hzero, hone⟩ := ih fun i hi => hb i (by omega)
      have htop := hb n (by omega)
      rw [clzFrom]
      split
      case isTrue h => exact ⟨by omega, fun i hi hlt => absurd hlt (by omega), fun _ => htop ▸ h⟩
      case isFalse h =>
        refine ⟨by omega, fun i hi hlt => ?_, fun hlt => ?_⟩
        · by_cases he : i = n
          · rw [he, ← htop]
            exact Bool.eq_false_iff.mpr h
          · exact hzero i (by omega) (by omega)
        · rw [show n + 1 - 1 - (1 + clzFrom b n) = n - 1 - clzFrom b n by omega]
          exact hone (by omega)

/-- The bits below the count from bit `i` are 0, and the one there is 1 where it is among the `n` counted. -/
theorem getLsbD_ctzFrom {w : Nat} (b : BitVec w) (n i : Nat) : ctzFrom b i n ≤ n ∧
    (∀ j, j < ctzFrom b i n → b.getLsbD (i + j) = false) ∧
    (ctzFrom b i n < n → b.getLsbD (i + ctzFrom b i n) = true) := by
  induction n generalizing i with
  | zero => exact ⟨le_refl 0, fun j hj => absurd hj (by simp [ctzFrom]), fun h => absurd h (by simp [ctzFrom])⟩
  | succ n ih =>
      obtain ⟨hle, hzero, hone⟩ := ih (i + 1)
      rw [ctzFrom]
      split
      case isTrue h => exact ⟨by omega, fun j hj => absurd hj (by omega), fun _ => h⟩
      case isFalse h =>
        refine ⟨by omega, fun j hj => ?_, fun hlt => ?_⟩
        · cases j with
          | zero => exact Bool.eq_false_iff.mpr h
          | succ j =>
              rw [show i + (j + 1) = i + 1 + j by omega]
              exact hzero j (by omega)
        · rw [show i + (1 + ctzFrom b (i + 1) n) = i + 1 + ctzFrom b (i + 1) n by omega]
          exact hone (by omega)

theorem trailing_ctzFrom {w : Nat} (a : Word) (b : BitVec w) (n : Nat) (hb : SameLow a b n) :
    Claims.Trailing a n (ctzFrom b 0 n) := by
  obtain ⟨hle, hzero, hone⟩ := getLsbD_ctzFrom b n 0
  simp only [Nat.zero_add] at hzero hone
  exact ⟨hle, fun i hi => hb i (by omega) ▸ hzero i hi, fun hlt => hb _ hlt ▸ hone hlt⟩

theorem popFrom_eq_countP {w : Nat} (a : Word) (b : BitVec w) (n : Nat) (hb : SameLow a b n) :
    popFrom b n = (List.range n).countP (fun i => a.getLsbD i) := by
  induction n with
  | zero => rfl
  | succ n ih =>
      rw [popFrom, ih fun i hi => hb i (by omega), hb n (by omega), List.range_succ, List.countP_append,
        List.countP_singleton, Nat.add_comm]

/-! ## A count as a word -/

theorem toNat_ofNat_of_le {n : Nat} (h : n ≤ 64) : (BitVec.ofNat 64 n).toNat = n := by
  simp
  omega

theorem leading_ofNat {a : Word} {w n : Nat} (h : Claims.Leading a w n) (hw : w ≤ 64) :
    Claims.Leading a w (BitVec.ofNat 64 n).toNat := by
  rwa [toNat_ofNat_of_le (h.1.trans hw)]

theorem trailing_ofNat {a : Word} {w n : Nat} (h : Claims.Trailing a w n) (hw : w ≤ 64) :
    Claims.Trailing a w (BitVec.ofNat 64 n).toNat := by
  rwa [toNat_ofNat_of_le (h.1.trans hw)]

theorem toNat_ofNat_popFrom {w n : Nat} {a : Word} {b : BitVec w} (hb : SameLow a b n) (hn : n ≤ 64) :
    (BitVec.ofNat 64 (popFrom b n)).toNat = (List.range n).countP (fun i => a.getLsbD i) := by
  have hle : (List.range n).countP (fun i => a.getLsbD i) ≤ n := by
    simpa using List.countP_le_length (p := fun i => a.getLsbD i) (l := List.range n)
  rw [popFrom_eq_countP a b n hb, toNat_ofNat_of_le (hle.trans hn)]

/-! ## Bytes -/

/-- A number added up from terms in turn is their sum. -/
theorem foldl_range_add (g : Nat → Nat) (n : Nat) :
    (List.range n).foldl (fun acc j => acc + g j) 0 = ∑ j ∈ Finset.range n, g j := by
  induction n with
  | zero => rfl
  | succ n ih => rw [List.range_succ, List.foldl_append, ih, Finset.sum_range_succ, List.foldl_cons, List.foldl_nil]

/-- The number with bytes `f 0` to `f (n - 1)`, lowest first. -/
def bytesTo (f : Nat → Nat) (n : Nat) : Nat := ∑ j ∈ Finset.range n, f j * 256 ^ j

theorem bytesTo_succ (f : Nat → Nat) (n : Nat) : bytesTo f (n + 1) = bytesTo f n + f n * 256 ^ n :=
  Finset.sum_range_succ _ n

section
variable {f : Nat → Nat} (hf : ∀ j, f j < 256)
include hf

theorem bytesTo_lt (n : Nat) : bytesTo f n < 256 ^ n := by
  induction n with
  | zero => exact Nat.one_pos
  | succ n ih =>
      have htop : f n * 256 ^ n ≤ 255 * 256 ^ n := Nat.mul_le_mul_right _ (by have := hf n; omega)
      rw [bytesTo_succ, Nat.pow_succ]
      omega

/-- Each byte is at its place. -/
theorem bytesTo_byte {n i : Nat} (hi : i < n) : bytesTo f n / 256 ^ i % 256 = f i := by
  induction n with
  | zero => omega
  | succ n ih =>
      rw [bytesTo_succ]
      by_cases he : i = n
      · rw [he, Nat.add_mul_div_right _ _ (by positivity), Nat.div_eq_of_lt (bytesTo_lt hf n), Nat.zero_add]
        exact Nat.mod_eq_of_lt (hf n)
      · obtain ⟨k, rfl⟩ : ∃ k, n = i + k + 1 := ⟨n - i - 1, by omega⟩
        have hpow : f (i + k + 1) * 256 ^ (i + k + 1) = f (i + k + 1) * 256 ^ k * 256 * 256 ^ i := by ring
        rw [hpow, Nat.add_mul_div_right _ _ (by positivity), Nat.add_mul_mod_self_right]
        exact ih (by omega)

theorem byteAt_bytesTo {i : Nat} (hi : i < 8) : Claims.byteAt (BitVec.ofNat 64 (bytesTo f 8)) i = f i := by
  have hlt : bytesTo f 8 < 2 ^ 64 := bytesTo_lt hf 8
  rw [Claims.byteAt, BitVec.toNat_ofNat, Nat.mod_eq_of_lt hlt]
  exact bytesTo_byte hf hi

end

theorem byteAt_lt (a : Word) (i : Nat) : Claims.byteAt a i < 256 := Nat.mod_lt _ (by decide)

/-- Bytes replaced one at a time stand where they stood. -/
theorem mapBytes_eq (g : Nat → Nat) (a : Word) :
    mapBytes g a = BitVec.ofNat 64 (bytesTo (fun j => g (Claims.byteAt a j)) 8) :=
  congrArg (BitVec.ofNat 64) (foldl_range_add (fun j => g (Claims.byteAt a j) * 256 ^ j) 8)

/-- Reversed bytes are those of the word, counted from the top. -/
theorem revBytes_eq (a : Word) : revBytes a = BitVec.ofNat 64 (bytesTo (fun j => Claims.byteAt a (7 - j)) 8) := by
  have hsum : bytesTo (fun j => Claims.byteAt a (7 - j)) 8 =
      ∑ j ∈ Finset.range 8, Claims.byteAt a j * 256 ^ (7 - j) := by
    rw [← Finset.sum_range_reflect]
    refine Finset.sum_congr rfl fun j hj => ?_
    have hlt := Finset.mem_range.mp hj
    rw [show 7 - (8 - 1 - j) = j by omega]
  rw [hsum]
  exact congrArg (BitVec.ofNat 64) (foldl_range_add (fun j => Claims.byteAt a j * 256 ^ (7 - j)) 8)

/-! ## One-source instructions of Zbb -/

/-- Every one-source result is the count or the bytes that Zbb defines. -/
theorem counts_unResult (op : UnOp) (a : Word) : Claims.Counts op a (unResult op a) := by
  have hself : SameLow a a 64 := fun _ _ => rfl
  cases op
  case clz => exact leading_ofNat (leading_clzFrom a a 64 hself) (le_refl 64)
  case clzw => exact leading_ofNat (leading_clzFrom a (lo32 a) 32 (sameLow_lo32 a)) (by decide)
  case ctz => exact trailing_ofNat (trailing_ctzFrom a a 64 hself) (le_refl 64)
  case ctzw => exact trailing_ofNat (trailing_ctzFrom a (lo32 a) 32 (sameLow_lo32 a)) (by decide)
  case cpop => exact toNat_ofNat_popFrom hself (le_refl 64)
  case cpopw => exact toNat_ofNat_popFrom (sameLow_lo32 a) (by decide)
  case orcb =>
    rw [Claims.Counts, unResult, mapBytes_eq]
    exact fun i hi => byteAt_bytesTo (fun j => by split <;> decide) hi
  case rev8 =>
    rw [Claims.Counts, unResult, revBytes_eq]
    exact fun i hi => byteAt_bytesTo (fun j => byteAt_lt a _) hi
  case sextb | sexth | zexth => rfl

/-- Settles O8: the instruction writes the count, or the bytes, and moves on. -/
theorem countingInstructionResults : Obligations.CountingInstructionResults := by
  intro op rd rs1 s
  exact ⟨_, _, exec_integerOp _ s, counts_unResult op (s.h.xr rs1), xAfter_retireTo s rd _ _,
    onlyX_retireTo (s.h.onlyXRegs_setX _ _) _⟩

/-! ## Control transfer -/

theorem jumpResult_eq (f : JumpForm) (h : Hart) : jumpResult f h = Claims.jump f h := by
  cases f with
  | br op rs1 rs2 off =>
      rw [jumpResult, sext64_append_zero]
      cases op
      all_goals simp [Claims.jump, brTaken, BitVec.slt_eq_decide, BitVec.ult_eq_decide]
  | jal rd off =>
      rw [jumpResult, sext64_append_zero]
      rfl
  | jalr rd rs1 off =>
      rw [jumpResult, and_not_one]
      rfl

/-- Settles O9: the target is the specification's, and the guard on it decides between the jump and the trap. -/
theorem controlTransferResults : Obligations.ControlTransferResults := by
  intro f s
  have hexec : exec (.branchJump f) s = guarded (jumpGuard f s.h) s (jumpEffect f s) := rfl
  rw [hexec, ← jumpResult_eq, jumpGuard]
  refine ⟨fun hal => ?_, fun hmis => ?_⟩
  · rw [if_pos hal]
    exact ⟨_, rfl, xAfter_retireTo s _ _ _, onlyX_retireTo (s.h.onlyXRegs_setX _ _) _⟩
  · rw [if_neg hmis]
    rfl

end Sys2Proof.Machine
end

section
/-! PROOFS of the family 04_memory_tiers_and_translation.md: why a scalar access stops (04 R79, R83, R89; 03 Table
3.7), said once for the place and the data of an access and then of every instruction that makes one. -/

namespace Sys2Proof.Machine

/-! ## Why an access stops -/

/-- Why an access of `n` bytes at `va` stops at memory, `rd` saying whether it reads data (03 Table 3.7; 04 R79,
R89). -/
inductive AccessStops (s : State) (k : AKind) (va : Word) (n : Nat) (rd : Bool) : Stop → Prop
  | misaligned (hmis : va.toNat % n ≠ 0) : AccessStops s k va n rd (Stop.of (if k = .load then 4 else 6) va)
  | addr {e : Stop} (hal : va.toNat % n = 0) (haddr : addrOf s s.h k va = .error e) : AccessStops s k va n rd e
  | poison {pa : Nat} {nc : Bool} (hal : va.toNat % n = 0) (haddr : addrOf s s.h k va = .ok (.mem pa nc))
      (hp : poisonedLoc s (.mem pa nc) n = true) (hrd : rd = true) : AccessStops s k va n rd (Stop.of 19 va)

/-- The place `l` found for an access is why it stops: there is none, or it holds poison that would be read. -/
def StopsAt (s : State) (va : Word) (n : Nat) (rd : Bool) (l : Except Stop Loc) (e : Stop) : Prop :=
  l = .error e ∨
    ∃ pa nc, l = .ok (.mem pa nc) ∧ poisonedLoc s (.mem pa nc) n = true ∧ rd = true ∧ e = Stop.of 19 va

section
variable {s : State} {k : AKind} {va : Word} {n : Nat} {rd : Bool} {e : Stop} {l : Except Stop Loc} {mis : BitVec 8}

/-- An access that reads no data stops for want of a place only (04 R89). -/
theorem StopsAt.eq_error (h : StopsAt s va n false l e) : l = .error e := by
  obtain h | ⟨_, _, _, _, hrd, _⟩ := h
  · exact h
  · cases hrd

theorem AccessStops.stopsAt_scalarLoc (h : AccessStops s k va n rd e) (hmis : mis = if k = .load then 4 else 6) :
    StopsAt s va n rd (scalarLoc s k mis va n) e := by
  subst hmis
  cases h with
  | misaligned hmis => exact .inl (if_pos hmis)
  | addr hal haddr => exact .inl (by simp [scalarLoc, hal, haddr])
  | poison hal haddr hp hrd => exact .inr ⟨_, _, scalarLoc_of_mem hal haddr _, hp, hrd, rfl⟩

/-- An LR, SC or AMO has the place of a plain access, where that has none or lies in memory. -/
theorem AccessStops.stopsAt_atomicLoc (h : AccessStops s k va n rd e) (hmis : mis = if k = .load then 4 else 6) :
    StopsAt s va n rd (atomicLoc s k mis va n) e := by
  obtain hloc | ⟨pa, nc, hloc, hread⟩ := h.stopsAt_scalarLoc hmis
  · exact .inl (by simp [atomicLoc, hloc])
  · exact .inr ⟨pa, nc, by simp [atomicLoc, hloc, noDev], hread⟩

/-- Data at a poisoned place of memory is not read, past the L1 or not (04 R89). -/
theorem readAt_poisoned {pa : Nat} {nc : Bool} (hp : poisonedLoc s (.mem pa nc) n = true) (acc : DevAcc) (home : Bool) :
    readAt s k acc home va n (.mem pa nc) = .error (Stop.of 19 va) := by
  simp [readAt, hp]

/-! ## What each operation of the scalar side does with an access that stops -/

theorem scalarLoadBytes_of_stops (h : AccessStops s .load va n rd e) (acc : DevAcc) :
    scalarLoadBytes s acc va n = .error e := by
  rw [scalarLoadBytes]
  obtain hloc | ⟨pa, nc, hloc, hp, -, rfl⟩ := h.stopsAt_scalarLoc (mis := 4) rfl
  · rw [hloc]
  · simp only [hloc, readAt_poisoned hp]

theorem scalarStoreBytes_of_stops (h : AccessStops s .store va n false e) (v : Nat) :
    scalarStoreBytes s va n v = .error e := by
  rw [scalarStoreBytes, (h.stopsAt_scalarLoc (mis := 6) rfl).eq_error]

theorem lrRun_of_stops {dbl : Bool} {rs1 : Reg} (h : AccessStops s .load (s.h.xr rs1) (amoBytes dbl) rd e)
    (aq : Bool) (d : Reg) : lrRun dbl aq d rs1 s = .error e := by
  rw [lrRun]
  obtain hloc | ⟨pa, nc, hloc, hp, -, rfl⟩ := h.stopsAt_atomicLoc (mis := 4) rfl
  · rw [hloc]
  · simp only [hloc, readAt_poisoned hp]

theorem scRun_of_stops {dbl : Bool} {rs1 : Reg} (h : AccessStops s .store (s.h.xr rs1) (amoBytes dbl) false e)
    (aq : Bool) (d rs2 : Reg) : scRun dbl aq d rs1 rs2 s = .error e := by
  rw [scRun, (h.stopsAt_atomicLoc (mis := 6) rfl).eq_error]

theorem rmwRun_of_stops (h : AccessStops s .amo va n rd e) (aq : Bool) (new : Nat → Option Nat)
    (regs : Nat → Hart → Hart) : rmwRun s va n aq new regs = .error e := by
  rw [rmwRun]
  obtain hloc | ⟨pa, nc, hloc, hp, -, rfl⟩ := h.stopsAt_atomicLoc (mis := 6) rfl
  · rw [hloc]
  · simp only [hloc, readAt_poisoned hp]

end

/-! ## The instructions -/

section
variable {k : AKind} {rs1 : Reg} {imm : BitVec 12} {n : Nat} {rd : Bool} {s : State} {e : Stop}

theorem exec_scalarLoad_of_stops {w : LoadKind} (d : Reg)
    (h : AccessStops s .load (s.h.xr rs1 + imm.signExtend 64) (Claims.loadSize w) rd e) :
    exec (.scalarLoad w d rs1 imm) s = .next (raise e s) := by
  have hrun : scalarLoadRun w d rs1 imm s = .error e := by
    rw [scalarLoadRun, memAddr, loadBytes_eq, scalarLoadBytes_of_stops h]
  exact congrArg (finish · s) hrun

theorem exec_scalarStore_of_stops {w : StoreKind} (rs2 : Reg)
    (h : AccessStops s .store (s.h.xr rs1 + imm.signExtend 64) (Claims.storeSize w) false e) :
    exec (.scalarStore w rs1 rs2 imm) s = .next (raise e s) := by
  have hrun : scalarStoreRun w rs1 rs2 imm s = .error e := by
    rw [scalarStoreRun, memAddr, storeBytes_eq, scalarStoreBytes_of_stops h]
  exact congrArg (finish · s) hrun

theorem exec_xlda_of_stops (sc : Scope) {wd : AccW} (d : Reg)
    (h : AccessStops s .load (s.h.xr rs1) (Claims.accSize wd) rd e) :
    exec (.xlda sc wd d rs1) s = .next (raise e s) := by
  have hrun : xldaRun sc wd d rs1 s = .error e := by
    rw [xldaRun, accBytes_eq, scalarLoadBytes_of_stops h]
  exact congrArg (finish · s) hrun

theorem exec_xstl_of_stops (sc : Scope) {wd : AccW} (rs2 : Reg)
    (h : AccessStops s .store (s.h.xr rs1) (Claims.accSize wd) false e) :
    exec (.xstl sc wd rs1 rs2) s = .next (raise e s) := by
  have hrun : xstlRun wd rs1 rs2 s = .error e := by
    rw [xstlRun, accBytes_eq, scalarStoreBytes_of_stops h]
  exact congrArg (finish · s) hrun

/-- Every access of the scalar side that stops raises why, in the state it began in. The cases are those of
`Claims.accessOf`, in its order; the AMO and the three AMOCAS are one read-modify-write. -/
theorem exec_of_accessStops {i : Instr} (ha : Claims.accessOf i = some (k, rs1, imm, n, rd))
    (hst : AccessStops s k (s.h.xr rs1 + imm.signExtend 64) n rd e) : exec i s = .next (raise e s) := by
  have hzero (a : Word) : a + (0 : BitVec 12).signExtend 64 = a := by simp
  unfold Claims.accessOf at ha
  split at ha
  all_goals cases ha
  case h_1 _ d => exact exec_scalarLoad_of_stops d hst
  case h_2 _ rs2 => exact exec_scalarStore_of_stops rs2 hst
  all_goals rw [hzero] at hst
  case h_3 _ aq _ d => exact congrArg (finish · s) (lrRun_of_stops hst aq d)
  case h_4 _ aq _ d rs2 => exact congrArg (finish · s) (scRun_of_stops hst aq d rs2)
  case h_5 | h_6 | h_7 | h_8 => exact congrArg (finish · s) (rmwRun_of_stops hst _ _ _)
  case h_9 sc _ d => exact exec_xlda_of_stops sc d hst
  case h_10 sc _ rs2 => exact exec_xstl_of_stops sc rs2 hst

end

/-- Settles O13: each clause gives one reason why the access stops, and an access that stops raises it. -/
theorem scalarAccessTraps : Obligations.ScalarAccessTraps := by
  rintro i k rs1 imm n rd s _ ha rfl
  refine ⟨fun hmis => ?misaligned, fun e hal haddr => ?addr, fun pa nc hal hrd haddr hp => ?poison⟩
  case misaligned => exact exec_of_accessStops ha (.misaligned hmis)
  case addr => exact exec_of_accessStops ha (.addr hal haddr)
  case poison => exact exec_of_accessStops ha (.poison hal haddr hp hrd)

end Sys2Proof.Machine
end

section
/-! PROOFS of the family 04_memory_tiers_and_translation.md: the privileged instructions (03 Table 3.7; 04 R80; 19
R404, R405), from the guard of each, the bits that MRET and SRET leave in mstatus, and the words that an
illegal-instruction names. -/

namespace Sys2Proof

/-! ## Words as numbers -/

theorem toNat_append_eq_add {m n : Nat} (a : BitVec m) (b : BitVec n) :
    (a ++ b).toNat = a.toNat * 2 ^ n + b.toNat := by
  rw [BitVec.toNat_append, ← Nat.shiftLeft_add_eq_or_of_lt b.isLt, Nat.shiftLeft_eq]

/-- A scalar word as a number: each field at its place (02 R32). -/
theorem Fields.toNat_pack (f : Fields) : f.pack.toNat = f.opc.toNat + f.rd.toNat * 2 ^ 7 + f.f3.toNat * 2 ^ 12 +
    f.rs1.toNat * 2 ^ 15 + f.rs2.toNat * 2 ^ 20 + f.f7.toNat * 2 ^ 25 := by
  simp only [Fields.pack, toNat_append_eq_add]
  omega

theorem word_wfi : Instr.wfi.word = 0x10500073 := by decide

theorem word_sret : Instr.sret.word = 0x10200073 := by decide

theorem word_mret : Instr.mret.word = 0x30200073 := by decide

theorem word_sfenceVma (rs1 rs2 : Reg) : (Instr.sfenceVma rs1 rs2).word =
    0x12000073 + rs1.setWidth 64 * 2 ^ 15 + rs2.setWidth 64 * 2 ^ 20 := by
  have hpack := (rType 0x73 0 0x09 0 rs1 rs2).toNat_pack
  have h15 : (2 : Word) ^ 15 = 0x8000 := by norm_num
  have h20 : (2 : Word) ^ 20 = 0x100000 := by norm_num
  change (rType 0x73 0 0x09 0 rs1 rs2).pack.setWidth 64 = _
  rw [h15, h20]
  bv_omega

end Sys2Proof

namespace Sys2Proof.Machine

/-! ## Bits of mstatus after MRET and SRET -/

/-- Setting one bit of a word leaves the others. -/
theorem getLsbD_setField_bit {w : Nat} (b : BitVec w) (j x i : Nat) :
    (setField b j j x).getLsbD i = if i = j then decide (i < w) && x.testBit 0 else b.getLsbD i := by
  rw [getLsbD_setField b le_rfl]
  by_cases hij : i = j
  · simp [hij]
  · rw [if_neg (by omega), if_neg hij]

theorem testBit_zero_fieldOf {w : Nat} (b : BitVec w) (j : Nat) : (fieldOf b j j).testBit 0 = b.getLsbD j := by
  rw [BitVec.testBit_toNat, BitVec.getLsbD_extractLsb']
  simp

/-- mstatus after MRET: MIE is MPIE, MPIE is 1, MPP is U, and MPRV ends unless MPP was M. -/
def mretStatus (ms : Word) : Word :=
  let ms1 := setField (setField (setField ms 3 3 (fieldOf ms 7 7)) 7 7 1) 12 11 0
  if fieldOf ms 12 11 = 3 then ms1 else setField ms1 17 17 0

theorem mretStd_mstatus (s : State) : (mretStd s).countInstret.h.mc.mstatus = mretStatus s.h.mc.mstatus := rfl

theorem getLsbD_mretStatus (ms : Word) {i : Nat} (hi : i ≠ 17) : (mretStatus ms).getLsbD i =
    if 11 ≤ i ∧ i ≤ 12 then false else if i = 7 then true else if i = 3 then ms.getLsbD 7 else ms.getLsbD i := by
  have h17 (b : Word) : (setField b 17 17 0).getLsbD i = b.getLsbD i := by simp [getLsbD_setField_bit, hi]
  have hif : (mretStatus ms).getLsbD i =
      (setField (setField (setField ms 3 3 (fieldOf ms 7 7)) 7 7 1) 12 11 0).getLsbD i := by
    unfold mretStatus
    split
    · rfl
    · exact h17 _
  rw [hif, getLsbD_setField _ (by decide), getLsbD_setField_bit, getLsbD_setField_bit, testBit_zero_fieldOf]
  simp +contextual

theorem fieldOf_mretStatus_mpp (ms : Word) : fieldOf (mretStatus ms) 12 11 = 0 := by
  unfold mretStatus
  split
  · exact fieldOf_setField_same _ (by decide) (by decide) 0
  · rw [fieldOf_setField_disjoint _ (by decide) (by decide) (by decide)]
    exact fieldOf_setField_same _ (by decide) (by decide) 0

/-- mstatus after an SRET that ends MPRV: SIE is SPIE, SPIE is 1 and SPP is U. -/
theorem getLsbD_sretStatus (st : Word) {i : Nat} (hi : i ≠ 17) : (setField (sretStatus st) 17 17 0).getLsbD i =
    if i = 8 then false else if i = 5 then true else if i = 1 then st.getLsbD 5 else st.getLsbD i := by
  simp only [sretStatus, getLsbD_setField_bit, testBit_zero_fieldOf, if_neg hi]
  simp +contextual

/-! ## What MRET and SRET leave -/

/-- The hart's scalar state after MRET: the mode of MPP, and mepc as the pc. -/
theorem mretStd_scalar (s : State) : (mretStd s).countInstret.h.s = { (Claims.moved s.h s.h.mc.mepc).s with
    priv := match fieldOf s.h.mc.mstatus 12 11 with | 3 => .m | 1 => .s | _ => .u } := by
  have hpriv (n : Nat) : (if n = 3 then Priv.m else if n = 1 then .s else .u) =
      match n with | 3 => .m | 1 => .s | _ => .u := by
    split_ifs with h3 h1
    · subst h3
      rfl
    · subst h1
      rfl
    · split
      · contradiction
      · contradiction
      · rfl
  exact congrArg (fun p => { (Claims.moved s.h s.h.mc.mepc).s with priv := p }) (hpriv _)

/-- SRET of a hart that is no vector hart works on mstatus. -/
theorem sretStd_eq {s : State} (hv : s.h.id.isVector = false) : sretStd s = s.setH { s.h with
    s := { s.h.s with priv := if s.h.mc.mstatus.getLsbD 8 then .s else .u, pc := s.h.sc.sepc }
    mc := { s.h.mc with mstatus := setField (sretStatus s.h.mc.mstatus) 17 17 0 } } := by
  have hst : s.h.status = s.h.mc.mstatus := by simp [Hart.status, hv]
  rw [sretStd, hst, Hart.setStatus, hv]
  rfl

/-! ## Where the instructions may run -/

theorem guarded_illegal (w : Word) (s eff : State) :
    guarded (some (illegal w)) s eff = .next (takeTrap s { cause := 2, tval := w, sub := 0 } none) := rfl

/-- Hart `h` may run an instruction that bit `b` of mstatus traps at S: at M, or at S where the bit is clear or the
hart has no mstatus (19 R404). -/
def MayRun (h : Hart) (b : Nat) : Prop :=
  h.s.priv = .m ∨ (h.s.priv = .s ∧ (h.id.isVector = true ∨ h.mc.mstatus.getLsbD b = false))

theorem MayRun.not_trapped {h : Hart} {b : Nat} (hmay : MayRun h b) :
    ¬ (h.s.priv = .u ∨ (h.s.priv = .s ∧ !h.id.isVector ∧ h.mc.mstatus.getLsbD b)) := by
  rcases hmay with hm | ⟨hs, hv | hb⟩
  all_goals simp [*]

/-! Each of the four runs where its guard lets it. -/

theorem exec_wfi_eq (s : State) : exec .wfi s = guarded (wfiGuard s.h) s s.advance := rfl

theorem exec_sfenceVma_eq (rs1 rs2 : Reg) (s : State) :
    exec (.sfenceVma rs1 rs2) s = guarded (sfenceGuard (.sfenceVma rs1 rs2) s.h) s (sfenceEffect s) := rfl

theorem exec_mret_eq (s : State) : exec .mret s =
    guarded (if s.h.s.priv = .m then none else some (illegal Instr.mret.word)) s (mretStd s).countInstret := rfl

theorem exec_sret_eq (s : State) : exec .sret s = guarded (sretGuard s) s (sretEffect s) := rfl

section
variable {s : State}

theorem exec_wfi (hmay : MayRun s.h 21) : exec .wfi s = .next s.advance := by
  rw [exec_wfi_eq, wfiGuard, if_neg hmay.not_trapped]
  rfl

theorem exec_wfi_of_u (hu : s.h.s.priv = .u) :
    exec .wfi s = .next (takeTrap s { cause := 2, tval := 0x10500073, sub := 0 } none) := by
  rw [exec_wfi_eq, wfiGuard, if_pos (.inl hu), guarded_illegal, word_wfi]

theorem exec_sfenceVma (hmay : MayRun s.h 20) (rs1 rs2 : Reg) :
    exec (.sfenceVma rs1 rs2) s = .next (sfenceEffect s) := by
  rw [exec_sfenceVma_eq, sfenceGuard, if_neg hmay.not_trapped]
  rfl

theorem exec_sfenceVma_of_u (hu : s.h.s.priv = .u) (rs1 rs2 : Reg) :
    exec (.sfenceVma rs1 rs2) s = .next (takeTrap s
      { cause := 2, tval := 0x12000073 + rs1.setWidth 64 * 2 ^ 15 + rs2.setWidth 64 * 2 ^ 20, sub := 0 } none) := by
  rw [exec_sfenceVma_eq, sfenceGuard, if_pos (.inl hu), guarded_illegal, word_sfenceVma]

theorem exec_mret (hm : s.h.s.priv = .m) : exec .mret s = .next (mretStd s).countInstret := by
  rw [exec_mret_eq, if_pos hm]
  rfl

theorem exec_mret_of_not_m (hm : s.h.s.priv ≠ .m) :
    exec .mret s = .next (takeTrap s { cause := 2, tval := 0x30200073, sub := 0 } none) := by
  rw [exec_mret_eq, if_neg hm, guarded_illegal, word_mret]

/-- SRET of a hart that is no vector hart, where TSR lets it run. -/
theorem exec_sret_std (hv : s.h.id.isVector = false)
    (hmay : s.h.s.priv = .m ∨ (s.h.s.priv = .s ∧ s.h.mc.mstatus.getLsbD 22 = false)) :
    exec .sret s = .next (sretStd s).countInstret := by
  have hmay' : MayRun s.h 22 := hmay.imp_right fun ⟨hs, hb⟩ => ⟨hs, .inr hb⟩
  have hguard : sretGuard s = none := by simpa [sretGuard, hv] using hmay'.not_trapped
  rw [exec_sret_eq, hguard, sretEffect, hv]
  rfl

/-- SRET is illegal at U, and on a vector hart that is in no trap (19 R405). -/
theorem exec_sret_illegal (h : s.h.s.priv = .u ∨ (s.h.id.isVector = true ∧ s.h.s.depth = 0)) :
    exec .sret s = .next (takeTrap s { cause := 2, tval := 0x10200073, sub := 0 } none) := by
  have hguard : sretGuard s = some (illegal Instr.sret.word) := by
    by_cases hv : s.h.id.isVector = true
    · have hstop : s.h.s.priv ≠ .s ∨ s.h.s.depth = 0 := by
        rcases h with hu | ⟨_, hd⟩
        · simp [hu]
        · exact .inr hd
      simp [sretGuard, hv, sretGuardV, hstop]
    · have hu : s.h.s.priv = .u := h.resolve_right fun hvd => hv hvd.1
      simp [sretGuard, hv, hu]
  rw [exec_sret_eq, hguard, guarded_illegal, word_sret]

end

/-- Settles O17: each guard decides, and the bits of mstatus are those that MRET and SRET set. -/
theorem privilegedInstructions : Obligations.PrivilegedInstructions := by
  intro s rs1 rs2
  refine ⟨fun hmay => ?wfi, fun hmay => ?sfence, fun hm => ?mret, fun hv hmay => ?sret, fun i w hiw hu => ?atU,
    fun hu => ?sfenceU, fun hs => ?mretS, fun hv hd => ?sretV⟩
  case wfi => exact exec_wfi hmay
  case sfence => exact exec_sfenceVma hmay rs1 rs2
  case mret =>
    refine ⟨_, exec_mret hm, rfl, mretStd_scalar s, ?_⟩
    rw [mretStd_mstatus]
    refine ⟨getLsbD_mretStatus _ (by decide), getLsbD_mretStatus _ (by decide), fieldOf_mretStatus_mpp _,
      fun i hi => ?_⟩
    simp only [List.mem_cons, List.not_mem_nil, or_false, not_or] at hi
    obtain ⟨h3, h7, h11, h12, h17⟩ := hi
    rw [getLsbD_mretStatus _ h17, if_neg (by omega), if_neg h7, if_neg h3]
  case sret =>
    rw [exec_sret_std hv hmay, sretStd_eq hv]
    refine ⟨_, rfl, rfl, rfl, getLsbD_sretStatus _ (by decide), getLsbD_sretStatus _ (by decide),
      getLsbD_sretStatus _ (by decide), fun i hi => ?_⟩
    simp only [List.mem_cons, List.not_mem_nil, or_false, not_or] at hi
    obtain ⟨h1, h5, h8, h17⟩ := hi
    refine (getLsbD_sretStatus _ h17).trans ?_
    rw [if_neg h8, if_neg h5, if_neg h1]
  case atU =>
    simp only [List.mem_cons, Prod.mk.injEq, List.not_mem_nil, or_false] at hiw
    rcases hiw with ⟨rfl, rfl⟩ | ⟨rfl, rfl⟩ | ⟨rfl, rfl⟩
    · exact exec_wfi_of_u hu
    · exact exec_sret_illegal (.inl hu)
    · exact exec_mret_of_not_m (by simp [hu])
  case sfenceU => exact exec_sfenceVma_of_u hu rs1 rs2
  case mretS => exact exec_mret_of_not_m (by simp [hs])
  case sretV => exact exec_sret_illegal (.inr ⟨hv, hd⟩)

end Sys2Proof.Machine
end

section
/-! PROOFS of the family 13_matrix_engine.md: ECALL and EBREAK (03 Table 3.7; 13 R281, R292, R294; 19 Table 19.1),
from what a matrix-synchronising point does for each state of the queue. -/

namespace Sys2Proof.Machine

/-! ## Matrix-synchronising points -/

section
variable {s : State}

theorem matrixSync_of_empty (hf : s.h.mat.fault = none) (hq : s.h.mat.queue = []) : matrixSync s = none := by
  simp [matrixSync, hf, hq]

theorem matrixSync_of_busy (hf : s.h.mat.fault = none) (hq : s.h.mat.queue ≠ []) : matrixSync s = some s := by
  simp [matrixSync, hf, hq]

theorem matrixSync_of_fault {f : Stop} (hf : s.h.mat.fault = some f) :
    matrixSync s = some (takeMatrixFault s f) := by
  simp [matrixSync, hf]

/-- A queue that stopped at an exception gives the trap the pc of its oldest entry, and keeps the entries. -/
theorem takeMatrixFault_exc {e : MqEntry} {q : List MqEntry} (x : Exc) (hq : s.h.mat.queue = e :: q) :
    takeMatrixFault s (.exc x) = takeTrap (s.setMatFault (some .retry)) x (some e.pc) := by
  simp [takeMatrixFault, hq]

end

/-! ## ECALL and EBREAK -/

theorem ecallCause_eq (p : Priv) : ecallCause p = Claims.ecallCause p := by cases p <;> rfl

theorem exec_ebreak (s : State) :
    exec .ebreak s = .next (takeTrap s { cause := 3, tval := s.h.s.pc, sub := 0 } none) := rfl

section
variable {s : State}

/-- ECALL does what its matrix-synchronising point does, if anything. -/
theorem exec_ecall_of_sync {t : State} (hsync : matrixSync s = some t) : exec .ecall s = .next t := by
  have hexec : exec .ecall s = execEcall s := rfl
  rw [hexec, execEcall, hsync]

/-- ECALL with nothing to wait for traps with the cause of its mode. -/
theorem exec_ecall_of_no_sync (hsync : matrixSync s = none) : exec .ecall s =
    .next (takeTrap s { cause := Claims.ecallCause s.h.s.priv, tval := 0, sub := 0 } none) := by
  have hexec : exec .ecall s = execEcall s := rfl
  rw [hexec, execEcall, hsync, ecallCause_eq]
  rfl

end

/-- Settles O16: the queue's state decides what ECALL's matrix-synchronising point does; EBREAK has none. -/
theorem environmentCallsTrap : Obligations.EnvironmentCallsTrap := by
  intro s
  refine ⟨exec_ebreak s, fun hf hq => ?empty, fun hf hq => ?busy, fun x e q hf hq => ?stopped⟩
  case empty => exact exec_ecall_of_no_sync (matrixSync_of_empty hf hq)
  case busy => exact exec_ecall_of_sync (matrixSync_of_busy hf hq)
  case stopped =>
    have htrap := exec_ecall_of_sync (matrixSync_of_fault hf)
    rwa [takeMatrixFault_exc x hq] at htrap

end Sys2Proof.Machine
end

section
/-! PROOFS of the family 13_matrix_engine.md: the instruction words that the spec prints (13 R275, R283 to R286, R289
to R291; 02 R41), from the law that the decoder reads back what the encoder writes. -/

namespace Sys2Proof

/-- A scalar word's fields come apart as they were put together (02 Table 2.2). -/
theorem Fields.unpack_pack (f : Fields) : Fields.unpack f.pack = f := by
  obtain ⟨f7, rs2, rs1, f3, rd, opc⟩ := f
  have hpack := Fields.toNat_pack ⟨f7, rs2, rs1, f3, rd, opc⟩
  simp only [Fields.unpack, Fields.mk.injEq]
  refine ⟨?_, ?_, ?_, ?_, ?_, ?_⟩
  all_goals
    apply BitVec.eq_of_toNat_eq
    rw [BitVec.extractLsb'_toNat, Nat.shiftRight_eq_div_pow, hpack]
    dsimp only
    omega

/-- The scalar word that the encoder writes for an instruction decodes to it. -/
theorem decodeScalar_of_encode {i : Instr} {w : BitVec 32} (hback : Laws.DecodesBack.Statement i)
    (hwf : i.wf = true) (hw : encode i = some (.scalar w)) : decodeScalar w = some i := by
  obtain ⟨hscalar, -⟩ := hback hwf
  unfold encode at hw
  split at hw
  next f hf =>
    cases hw
    rw [decodeScalar, Fields.unpack_pack, hscalar f hf, Option.filter_some, if_pos hwf]
  next => simp at hw

end Sys2Proof

namespace Sys2Proof.Machine

/-- Settles O6: the matrix words are those that the encoder writes for the instructions named, and the block words
are VSTOP's own and words of opcodes that decode to nothing. -/
theorem specWordsDecode : Obligations.SpecWordsDecode := by
  refine ⟨?mcfg, ?mzero, ?mvtile, ?maccv, ?mcvt, ?mma64, ?mmas, ?mmal, ?vstop, ?opc00, ?opcFF, ?vstopBit⟩
  case mcfg => exact decodeScalar_of_encode (Laws.DecodesBack.mcfg 10 11) rfl (by decide)
  case mzero => exact decodeScalar_of_encode (Laws.DecodesBack.mzero 5) rfl (by decide)
  case mvtile => exact decodeScalar_of_encode (Laws.DecodesBack.mvtile 2 4) rfl (by decide)
  case maccv => exact decodeScalar_of_encode (Laws.DecodesBack.maccv 8 1 5) rfl (by decide)
  case mcvt => exact decodeScalar_of_encode (Laws.DecodesBack.mcvt 3 .rne 1 2) rfl (by decide)
  case mma64 => exact decodeScalar_of_encode (Laws.DecodesBack.mma64 4 0 1) rfl (by decide)
  case mmas => exact decodeScalar_of_encode (Laws.DecodesBack.mmas 0 2 3) rfl (by decide)
  case mmal => exact decodeScalar_of_encode (Laws.DecodesBack.mmal 0 0 12) rfl (by decide)
  case vstop => exact (decodeBlock_eq_vstop _).mpr rfl
  case opc00 => exact decodeBlock_of_opc_unassigned (.inl rfl)
  case opcFF => exact decodeBlock_of_opc_unassigned (.inr rfl)
  case vstopBit => exact decodeBlock_of_opc_vstop rfl (by decide)

end Sys2Proof.Machine
end

section
/-! PROOFS of the family 16_consistency_model.md: what a fence discards and what a fence or wait waits for (16 R343,
R351 to R354; 17 R370; 13 R281; 06 R122; 12 R266; 02 R44), from the laws of acquires and of matrix-synchronising
points. -/

namespace Sys2Proof.Machine

/-! ## Acquires -/

/-- The scopes wider than hart scope all acquire alike (16 R343). -/
theorem State.acquire_of_ne_hart {sc : Scope} (hsc : sc ≠ .hart) (s : State) : s.acquire sc = s.acquire .system := by
  rw [State.acquire, if_neg hsc, State.acquire, if_neg (by decide)]

/-! ## Fences of the scalar stream (16 R353, R354; 02 R44) -/

theorem exec_xfence (sc : Scope) (s : State) :
    exec (.xfence sc) s = .next (if sc = .hart then s.advance else (s.acquire .system).advance) := by
  have hexec : exec (.xfence sc) s = .next (s.acquire sc).advance := rfl
  by_cases hsc : sc = .hart
  · rw [hexec, hsc, if_pos rfl, State.acquire, if_pos rfl]
  · rw [hexec, if_neg hsc, State.acquire_of_ne_hart hsc]

theorem exec_fence (fm pred succ : BitVec 4) (rs1 rd : Reg) (s : State) : exec (.fence fm pred succ rs1 rd) s =
    .next (if pred.getLsbD 1 then (s.acquire .system).advance else s.advance) := by
  have hexec : exec (.fence fm pred succ rs1 rd) s =
      .next (if pred.getLsbD 1 then s.acquire .system else s).advance := rfl
  rw [hexec, apply_ite State.advance]

theorem exec_fenceTso (rs1 rd : Reg) (s : State) : exec (.fenceTso rs1 rd) s = .next (s.acquire .system).advance := rfl

theorem exec_fenceI (imm : BitVec 12) (rs1 rd : Reg) (s : State) : exec (.fenceI imm rs1 rd) s = .next s.advance := rfl

/-! ## Waits for block instructions (16 R352; 17 R370) -/

/-- Blocks run while one is held and the vector unit has not halted. -/
theorem Hart.vecBusy_iff (h : Hart) : h.vecBusy = true ↔ h.vu.blocks ≠ [] ∧ h.vu.halt = 0 := by
  simp [Hart.vecBusy]

theorem exec_vwait (s : State) : exec .vwait s = .next (if s.h.vecBusy then s else s.advance) := rfl

theorem exec_vfenceSv (s : State) : exec .vfenceSv s = .next s.advance := rfl

/-! ## Matrix-synchronising fences (16 R351, R352; 13 R281): each does what its synchronising point does, and its own
effect where that has nothing to do. -/

theorem exec_vfenceVs (s : State) :
    exec .vfenceVs s = .next ((matrixSync s).getD (if s.h.vu.blocks = [] then s.advance else s)) := by
  have hexec : exec .vfenceVs s = execVfenceVs s := rfl
  rw [hexec, execVfenceVs]
  cases matrixSync s <;> rfl

theorem exec_msync (s : State) : exec .msync s = .next ((matrixSync s).getD s.advance) := by
  have hexec : exec .msync s = execMsync s := rfl
  rw [hexec, execMsync]
  cases matrixSync s <;> rfl

theorem exec_vfenceVv (s : State) :
    exec .vfenceVv s = .next ((matrixSync s).getD (s.setH { s.h with texels := [] }).advance) := by
  have hexec : exec .vfenceVv s = execVfenceVv s := rfl
  rw [hexec, execVfenceVv]
  cases matrixSync s <;> rfl

/-- Settles O14: a fence that discards is a system-scope acquire, VWAIT turns on whether blocks run, and the other three
waits on their matrix-synchronising point. -/
theorem fencesAndWaits : Obligations.FencesAndWaits := by
  intro s d v hd hv
  obtain rfl : d = s.advance := hd
  obtain rfl : v = (s.acquire .system).advance := hv
  refine ⟨fun sc => exec_xfence sc s, fun fm pred succ rs1 rd => exec_fence fm pred succ rs1 rd s,
    fun rs1 rd => exec_fenceTso rs1 rd s, fun imm rs1 rd => exec_fenceI imm rs1 rd s, exec_vfenceSv s,
    ?idle, ?running, ?empty, ?busy⟩
  case idle =>
    intro hidle
    have hbusy : ¬ s.h.vecBusy = true := by
      rw [Hart.vecBusy_iff]
      rintro ⟨hblocks, hhalt⟩
      exact hidle.elim hblocks (· hhalt)
    rw [exec_vwait, if_neg hbusy]
  case running =>
    intro hblocks hhalt
    rw [exec_vwait, if_pos (s.h.vecBusy_iff.mpr ⟨hblocks, hhalt⟩)]
  case empty =>
    intro hf hq
    rw [exec_vfenceVs, exec_msync, exec_vfenceVv, matrixSync_of_empty hf hq]
    exact ⟨rfl, rfl, rfl⟩
  case busy =>
    intro hf hq
    rw [exec_vfenceVs, exec_msync, exec_vfenceVv, matrixSync_of_busy hf hq]
    exact ⟨rfl, rfl, rfl⟩

end Sys2Proof.Machine
end

section
/-! PROOFS of the family 19_traps_and_preemption.md: what a trap of a vector hart leaves (19 R405, R407, R410; 19
Tables 19.2, 19.8), from the laws of a record written in pieces through the partition's windows. -/

namespace Sys2Proof.Machine

/-! ## Little-endian writes in pieces -/

/-- A write of `j + k` bytes is a write of the first `j` and then of the others. -/
theorem writeLe_add (j k : Nat) (m : SMap 8) (a v : Nat) :
    writeLe m a (j + k) v = writeLe (writeLe m a j v) (a + j) k (v / 256 ^ j) := by
  induction j generalizing m a v with
  | zero => simp [writeLe]
  | succ j ih =>
    rw [show j + 1 + k = j + k + 1 by omega, writeLe, ih, writeLe, Nat.div_div_eq_div_mul, ← Nat.pow_succ',
      show a + 1 + j = a + (j + 1) by omega]

/-- A write stores no more of a value than fits its bytes. -/
theorem writeLe_mod (n : Nat) (m : SMap 8) (a v : Nat) : writeLe m a n (v % 256 ^ n) = writeLe m a n v := by
  induction n generalizing m a v with
  | zero => rfl
  | succ n ih =>
    have hlow : BitVec.ofNat 8 (v % 256 ^ (n + 1)) = BitVec.ofNat 8 v := by
      apply BitVec.eq_of_toNat_eq
      rw [Nat.pow_succ', BitVec.toNat_ofNat, BitVec.toNat_ofNat]
      exact Nat.mod_mul_right_mod v 256 _
    rw [writeLe, writeLe, hlow, Nat.pow_succ', Nat.mod_mul_right_div_self, ih]

/-- `k` bytes read from among the `n` that a write stored are those bytes of the value. -/
theorem readLe_writeLe_within {m : SMap 8} (hm : mapWf m = true) {o k n : Nat} (hn : o + k ≤ n) (a v : Nat) :
    readLe (writeLe m a n v) (a + o) k = v / 256 ^ o % 256 ^ k := by
  obtain ⟨r, rfl⟩ := Nat.exists_eq_add_of_le hn
  rw [writeLe_add, writeLe_add, readLe_writeLe_out _ _ _ _ _ _ (by omega), readLe_writeLe _ _ _ _ (writeLe_wf _ _ _ hm)]

/-! ## The machine's own writes of memory -/

section
variable (s : State) (pa n v : Nat)

@[simp] theorem farPortDown_writePa (a : Nat) : farPortDown (s.writePa pa n v) a = farPortDown s a := by
  unfold State.writePa
  split <;> rfl

@[simp] theorem partLoc_writePa (p a : Nat) (k : AKind) :
    partLoc (s.writePa pa n v).mem p a k = partLoc s.mem p a k := by
  unfold State.writePa
  split <;> rfl

theorem memElsewhere_writePa : MemElsewhere s (s.writePa pa n v) pa n := by
  intro b hb
  unfold State.writePa
  split
  · rfl
  · exact mapGet_writeLe_out n s.mem.mem pa v b hb

variable {s pa} in
theorem State.writePa_mem_mem (hport : farPortDown s pa = false) :
    (s.writePa pa n v).mem.mem = writeLe s.mem.mem pa n v := by
  rw [State.writePa, if_neg (by simp [hport])]
  rfl

end

/-! ## A range written in 64-byte pieces -/

/-- Where the windows take the pieces of a range to one range of memory, the write succeeds; it reaches no byte outside,
and where no port on the way is down it leaves the bytes of the whole value. -/
theorem State.writePartLong_of_windows {part : Nat} (n : Nat) {s : State} {a pa : Nat} (v : Nat)
    (hwin : ∀ i < n, ∃ nc, partLoc s.mem part (a + 64 * i) .store = some (.mem (pa + 64 * i) nc)) :
    ∃ u, s.writePartLong part a n v = some u ∧ MemElsewhere s u pa (64 * n) ∧
      ((∀ i < n, farPortDown s (pa + 64 * i) = false) → u.mem.mem = writeLe s.mem.mem pa (64 * n) v) := by
  induction n generalizing s a pa v with
  | zero => exact ⟨s, rfl, fun _ _ => rfl, fun _ => rfl⟩
  | succ n ih =>
    have hnext (b i : Nat) : b + 64 + 64 * i = b + 64 * (i + 1) := by omega
    obtain ⟨nc, hfirst⟩ := hwin 0 (by omega)
    have hpiece : s.writePart part a 64 (v % 2 ^ 512) = some (s.writePa pa 64 (v % 2 ^ 512)) := by
      rw [State.writePart, show partLoc s.mem part a .store = _ from hfirst]
      rfl
    obtain ⟨u, hrun, helse, hbytes⟩ := ih (s := s.writePa pa 64 (v % 2 ^ 512)) (a := a + 64) (pa := pa + 64)
      (v / 2 ^ 512) fun i hi => by rw [partLoc_writePa, hnext, hnext]; exact hwin (i + 1) (by omega)
    refine ⟨u, ?run, ?elsewhere, ?bytes⟩
    case run =>
      rw [State.writePartLong, hpiece]
      exact hrun
    case elsewhere =>
      exact fun b hb => (helse b (by omega)).trans (memElsewhere_writePa s pa 64 _ b (by omega))
    case bytes =>
      intro hport
      have hport0 : farPortDown s pa = false := hport 0 (by omega)
      have hpow : 2 ^ 512 = 256 ^ 64 := by rw [show 512 = 8 * 64 from rfl, Nat.pow_mul]
      rw [hbytes fun i hi => by rw [farPortDown_writePa, hnext]; exact hport (i + 1) (by omega),
        State.writePa_mem_mem _ _ hport0, hpow, writeLe_mod, ← writeLe_add, Nat.mul_succ, Nat.add_comm]

/-! ## The record's first fields (19 Table 19.2) -/

/-- A record of 512 bytes that begins with a pc and an exception's cause, trap value and subcode. -/
structure RecordHead (r : Nat) (epc : Word) (x : Exc) : Prop where
  epc : r % 2 ^ 64 = epc.toNat
  cause : r / 2 ^ 64 % 2 ^ 64 = x.cause.toNat
  tval : r / 2 ^ 128 % 2 ^ 64 = x.tval.toNat
  sub : r / 2 ^ 192 % 2 ^ 16 = x.sub.toNat

theorem recordHead_recordNat (h : Hart) (epc : Word) (x : Exc) (level : Nat) (vec mq : Bool)
    (entries : List (List Nat)) (sstat : Nat) (base : Word) (wix : Nat) (mpc : Word) (lcnt : BitVec 48) :
    RecordHead (recordNat h epc x level vec mq entries sstat base wix mpc lcnt) epc x := by
  have hepc := epc.isLt
  have hcause := x.cause.isLt
  have htval := x.tval.isLt
  have hsub := x.sub.isLt
  constructor
  all_goals
    dsimp only [recordNat]
    omega

/-! ## The hart after a trap to S -/

/-- S-level status after a trap: SPP is the mode that it came from, SPIE is SIE, and SIE is 0 (19 Table 19.8). -/
def trapStatus (st : Word) (p : Priv) : Word :=
  setField (setField (setField st 8 8 (if p = .s then 1 else 0)) 5 5 (fieldOf st 1 1)) 1 1 0

theorem getLsbD_trapStatus (st : Word) (p : Priv) (i : Nat) : (trapStatus st p).getLsbD i =
    if i = 1 then false else if i = 5 then st.getLsbD 1 else if i = 8 then decide (p = .s) else st.getLsbD i := by
  have hspp : (if p = .s then 1 else 0 : Nat).testBit 0 = decide (p = .s) := by cases p <;> rfl
  simp only [trapStatus, getLsbD_setField_bit, testBit_zero_fieldOf, hspp]
  simp +contextual

/-- A word less its bits under a mask. -/
theorem and_not_eq_sub (a m : Word) : a &&& ~~~m = a - (a &&& m) := by
  have hdisjoint : (a &&& ~~~m) &&& (a &&& m) = 0 := by
    ext i hi
    cases hm : m[i] <;> simp [hm]
  have hjoin : (a &&& ~~~m) ||| (a &&& m) = a := by
    ext i hi
    cases hm : m[i] <;> simp [hm]
  rw [eq_sub_iff_add_eq, BitVec.add_eq_or_of_and_eq_zero _ _ hdisjoint, hjoin]

theorem and_three (a : Word) : a &&& 3 = a % 4 := by
  apply BitVec.eq_of_toNat_eq
  exact Nat.and_two_pow_sub_one_eq_mod a.toNat 2

/-- A trap of a vector hart changes the scalar side's mode, depth, pc and reservation, the S-level CSRs, and what the
vector unit and the matrix queue have left to do. -/
theorem sTrapHart_of_vector {h : Hart} (hv : h.id.isVector = true) (x : Exc) (level : Nat) (bs : List Block)
    (wix : Nat) (es : List (List Nat)) : sTrapHart h x level bs wix es = { h with
      s := { h.s with priv := .s, depth := level, pc := h.sc.stvec - h.sc.stvec % 4, resv := none }
      sc := { h.sc with sepc := h.s.pc, scause := x.cause.setWidth 64, stval := x.tval,
                        sstatus := trapStatus h.sc.sstatus h.s.priv }
      vu := { h.vu with blocks := bs, wix := wix, prog := es, ringWait := false,
                        halt := if h.vu.halt = 0 ∧ es ≠ [] then level else h.vu.halt }
      mat := (h.setBlocks bs wix).mat } := by
  have hst : h.status = h.sc.sstatus := by simp [Hart.status, hv]
  have hset (k : Hart) (hk : k.id.isVector = true) (v : Word) :
      k.setStatus v = { k with sc := { k.sc with sstatus := v } } := if_pos hk
  rw [← and_three, ← and_not_eq_sub, sTrapHart, hset (h.setBlocks bs wix) hv, hst]
  rfl

/-! ## Taking the trap -/

section
variable {s : State} (hv : s.h.id.isVector = true) {x : Exc} (mpc : Option Word)
include hv

/-- A trap that cannot nest holds the hart (19 R407). -/
theorem takeTrap_held (hdepth : s.h.s.depth = 2 ∨ (s.h.s.depth = 1 ∧ x.cause = 2)) :
    takeTrap s x mpc = holdHart s := by
  rw [takeTrap, if_pos hv, takeSTrap, if_pos hdepth]

/-- A trap whose record passes the windows writes the record and enters the handler one level deeper (19 R405, R410). -/
theorem takeTrap_enters (hdepth : s.h.s.depth = 0 ∨ (s.h.s.depth = 1 ∧ x.cause ≠ 2)) {pa : Nat}
    (hwin : ∀ i < 8, ∃ nc, partLoc s.mem s.h.id.part (s.h.c.vtrec.toNat + 512 * s.h.s.depth + 64 * i) .store =
      some (.mem (pa + 64 * i) nc)) :
    ∃ u r bs wix es, takeTrap s x mpc = u.setH (sTrapHart s.h x (s.h.s.depth + 1) bs wix es) ∧
      RecordHead r s.h.s.pc x ∧ MemElsewhere s u pa 512 ∧
      ((∀ i < 8, farPortDown s (pa + 64 * i) = false) → u.mem.mem = writeLe s.mem.mem pa 512 r) := by
  have hnest : ¬ (s.h.s.depth = 2 ∨ (s.h.s.depth = 1 ∧ x.cause = 2)) := by
    rcases hdepth with h0 | ⟨h1, hx⟩
    · simp [h0]
    · rw [h1]
      exact fun hheld => hheld.elim (by decide) fun h2 => hx h2.2
  rw [takeTrap, if_pos hv, takeSTrap, if_neg hnest]
  dsimp only
  rw [Nat.add_sub_cancel]
  obtain ⟨u, hrun, hu⟩ := State.writePartLong_of_windows 8 _ hwin
  rw [hrun]
  exact ⟨u, _, _, _, _, rfl, recordHead_recordNat .., hu⟩

end

/-- A held hart has stopped, and a REPORT of cause 10 names it and its pc. -/
theorem holdHart_reports (s : State) : ∃ r, holdHart s =
      { s with h := { s.h with run := .held }, sched := { s.sched with reports := s.sched.reports ++ [r] } } ∧
    r.cause = 10 ∧ r.part = s.h.id.part ∧ r.d0 = s.h.id.cont.setWidth 64 ∧ r.d1 = s.h.s.pc :=
  ⟨_, rfl, rfl, rfl, rfl, rfl⟩

/-- Settles O15: the depth and the cause decide whether the trap enters or holds; on entry memory is that of a
512-byte write of the record, and the hart is the one of `sTrapHart`. -/
theorem trapEntryOfVectorHart : Obligations.TrapEntryOfVectorHart := by
  intro s x mpc hv
  refine ⟨fun pa hdepth hwin => ?enters, fun hdepth => ?held⟩
  case enters =>
    obtain ⟨u, r, bs, wix, es, htrap, hhead, helse, hbytes⟩ := takeTrap_enters hv mpc hdepth hwin
    rw [sTrapHart_of_vector hv] at htrap
    refine ⟨_, htrap, helse, fun hwf hport => ?record, rfl, rfl, ⟨?spp, ?spie, ?sie, ?rest⟩,
      rfl, rfl, rfl, rfl, rfl, rfl, rfl, rfl, rfl⟩
    case record =>
      obtain ⟨hmem, -⟩ := (wf_iff s.mem).mp hwf
      have hfield (o k : Nat) (hok : o + k ≤ 512) : readLe u.mem.mem (pa + o) k = r / 256 ^ o % 256 ^ k := by
        rw [hbytes hport, readLe_writeLe_within hmem hok]
      refine ⟨(hfield 0 8 (by decide)).trans ?_, (hfield 8 8 (by decide)).trans hhead.cause,
        (hfield 16 8 (by decide)).trans hhead.tval, (hfield 24 2 (by decide)).trans hhead.sub⟩
      rw [Nat.pow_zero, Nat.div_one]
      exact hhead.epc
    case spp => exact getLsbD_trapStatus _ _ 8
    case spie => exact getLsbD_trapStatus _ _ 5
    case sie => exact getLsbD_trapStatus _ _ 1
    case rest =>
      intro b h1 h5 h8
      refine (getLsbD_trapStatus _ _ b).trans ?_
      rw [if_neg h1, if_neg h5, if_neg h8]
  case held =>
    obtain ⟨r, hheld, hreport⟩ := holdHart_reports s
    exact ⟨_, r, takeTrap_held hv mpc hdepth, hheld, hreport⟩

end Sys2Proof.Machine
end

section
/-! PROOFS of the family 19_traps_and_preemption.md: what SRET of a vector hart does at each depth (19 R405, R406, R411;
19 Table 19.2), from why it stops and the bits of the status that it leaves. -/

namespace Sys2Proof.Machine

/-! ## Bits of sstatus after SRET -/

/-- sstatus after a return to U: SPIE is 1 and SPP is U. -/
theorem getLsbD_sretStatusV (st : Word) (i : Nat) :
    (sretStatusV st).getLsbD i = if i = 8 then false else if i = 5 then true else st.getLsbD i := by
  simp only [sretStatusV, getLsbD_setField_bit]
  simp +contextual

/-- sstatus after a return to the level-1 handler: SPP and SPIE are the record's SSTAT (19 Table 19.2). -/
def sstatStatus (st : Word) (sstat : Nat) : Word := setField (setField st 8 8 (sstat % 2)) 5 5 (sstat / 2 % 2)

theorem getLsbD_sstatStatus (st : Word) (sstat i : Nat) : (sstatStatus st sstat).getLsbD i =
    if i = 5 then sstat.testBit 1 else if i = 8 then sstat.testBit 0 else st.getLsbD i := by
  have hspie : (sstat / 2 % 2).testBit 0 = sstat.testBit 1 := by simp [Nat.testBit_succ]
  have hspp : (sstat % 2).testBit 0 = sstat.testBit 0 := by simp
  simp only [sstatStatus, getLsbD_setField_bit, hspie, hspp]
  simp +contextual

/-- A status word that differs from another in SPIE and SPP alone. -/
theorem sameBits_spie_spp {a b : Word} (h : ∀ i, i ≠ 5 → i ≠ 8 → a.getLsbD i = b.getLsbD i) :
    Claims.SameBits a b [5, 8] := by
  intro i hi
  simp only [List.mem_cons, List.not_mem_nil, or_false, not_or] at hi
  obtain ⟨h5, h8⟩ := hi
  exact h i h5 h8

theorem sameBits_sretStatusV (st : Word) : Claims.SameBits (sretStatusV st) st [5, 8] :=
  sameBits_spie_spp fun i h5 h8 => by rw [getLsbD_sretStatusV, if_neg h8, if_neg h5]

theorem sameBits_sstatStatus (st : Word) (sstat : Nat) : Claims.SameBits (sstatStatus st sstat) st [5, 8] :=
  sameBits_spie_spp fun i h5 h8 => by rw [getLsbD_sstatStatus, if_neg h5, if_neg h8]

/-! ## Why SRET of a vector hart stops, and what it does where it does not -/

theorem guarded_none (s eff : State) : guarded none s eff = .next eff := rfl

section
variable {s : State} (hv : s.h.id.isVector = true) (hpriv : s.h.s.priv = .s)
include hv

theorem exec_sret_of_vector : exec .sret s = guarded (sretGuardV s 0x10200073) s
    (if s.h.s.depth = 2 then sretToLevel1 s else sretToU s).countInstret := by
  rw [exec_sret_eq, sretGuard, sretEffect, if_pos hv, if_pos hv, word_sret]

include hpriv

/-- A record that does not pass the windows stops the return with a load access fault. -/
theorem exec_sret_of_unreadable (hrec : recReadable s = false) (hdepth : s.h.s.depth ≠ 0) : exec .sret s =
    .next (takeTrap s { cause := 5, tval := BitVec.ofNat 64 (recAddr s.h), sub := 0 } none) := by
  have hguard : sretGuardV s 0x10200073 = some (Stop.of 5 (BitVec.ofNat 64 (recAddr s.h))) := by
    simp [sretGuardV, hpriv, hdepth, hrec]
  rw [exec_sret_of_vector hv, hguard]
  rfl

section
variable (hrec : recReadable s = true)
include hrec

/-- At depth 1 the entries decide whether SRET returns to U (19 R411). -/
theorem exec_sret_of_depth1 (hdepth : s.h.s.depth = 1) {new : List (List Nat)} (hnew : recEntries s = some new) :
    exec .sret s = guarded (if entriesOk s new then none else some (illegal 0x10200073)) s (sretToU s).countInstret := by
  have hguard : sretGuardV s 0x10200073 = if entriesOk s new then none else some (illegal 0x10200073) := by
    simp [sretGuardV, hpriv, hdepth, hrec, hnew]
  have hlevel : ¬ s.h.s.depth = 2 := by omega
  rw [exec_sret_of_vector hv, hguard, if_neg hlevel]

/-- At depth 2 SRET returns to the level-1 handler (19 R406). -/
theorem exec_sret_of_depth2 (hdepth : s.h.s.depth = 2) : exec .sret s = .next (sretToLevel1 s).countInstret := by
  have hguard : sretGuardV s 0x10200073 = none := by
    simp [sretGuardV, hpriv, hdepth, hrec]
  rw [exec_sret_of_vector hv, hguard, if_pos hdepth, guarded_none]

end

end

/-- The hart after a return to the level-1 handler has the CSRs of the record's fields. -/
theorem sretToLevel1_of_record {s : State} {epc cause tval sst : Nat}
    (hepc : s.readPart s.h.id.part (recAddr s.h + 0) 8 = some epc)
    (hcause : s.readPart s.h.id.part (recAddr s.h + 8) 8 = some cause)
    (htval : s.readPart s.h.id.part (recAddr s.h + 16) 8 = some tval)
    (hsst : s.readPart s.h.id.part (recAddr s.h + 30) 1 = some sst) : sretToLevel1 s = s.setH { s.h with
      s := { s.h.s with priv := .s, depth := 1, pc := s.h.sc.sepc }
      sc := { s.h.sc with sepc := BitVec.ofNat 64 epc, scause := BitVec.ofNat 64 cause, stval := BitVec.ofNat 64 tval,
                          sstatus := sstatStatus s.h.sc.sstatus sst }
      vu := { s.h.vu with halt := if s.h.vu.halt = 2 then 0 else s.h.vu.halt } } := by
  rw [sretToLevel1]
  dsimp only
  rw [hepc, hcause, htval, hsst]
  rfl

/-- Settles O18: the record, the depth and the entries decide which return runs, and each leaves the status named. -/
theorem returnFromVectorTrap : Obligations.ReturnFromVectorTrap := by
  intro s hv hpriv
  refine ⟨fun hrec hdepth new hnew => ⟨fun hok => ?toU, fun hbad => ?altered⟩,
    fun hrec hdepth epc cause tval sst hepc hcause htval hsst => ?toLevel1, fun hrec hdepth => ?unreadable⟩
  case toU =>
    rw [exec_sret_of_depth1 hv hpriv hrec hdepth hnew, if_pos hok, guarded_none]
    exact ⟨_, rfl, rfl, rfl, rfl, getLsbD_sretStatusV _ 5, getLsbD_sretStatusV _ 8, sameBits_sretStatusV _, rfl, rfl,
      rfl⟩
  case altered =>
    rw [exec_sret_of_depth1 hv hpriv hrec hdepth hnew, if_neg (by simp [hbad]), guarded_illegal]
  case toLevel1 =>
    rw [exec_sret_of_depth2 hv hpriv hrec hdepth, sretToLevel1_of_record hepc hcause htval hsst]
    exact ⟨_, rfl, rfl, rfl, rfl, getLsbD_sstatStatus _ _ 8, getLsbD_sstatStatus _ _ 5, sameBits_sstatStatus _ _, rfl, rfl,
      rfl⟩
  case unreadable => exact ⟨_, exec_sret_of_unreadable hv hpriv hrec hdepth⟩

end Sys2Proof.Machine
end

section
/-! PROOFS of the family 'other': the decoder reads back the encoder's word (02 Tables 2.2, 2.3; 03 Tables 3.1 to
3.7), from the law of each instruction and the fields of a word. -/

namespace Sys2Proof.Laws.DecodesBack

/-- The law of each instruction, in the order of Syntax, is the law of all. -/
theorem statement_of_instr : ∀ i : Instr, Statement i :=
  @Instr.rec Statement
    vsetl vsetli vfetchPcrel vfetchReg vget vwait vfenceSv vfenceVs vfenceVv xfence xlda xstl xlook psetvl gbar
    gbara gbarw gbarx hcont hsend hsendb hwait uiret park mcfg msync mldt mstt mlda msta mzero mma mmas mma64 mmal
    mcvt maccv mvtile mpin munpin mgdr mgdrq mqry mspill mfill matrixEntryExecute ecpy ecpys egath escat ered egcm
    ewaitk ctxsave ctxload pwflush scalarLoad scalarStore fence fenceTso fenceI lr sc amo amocasW amocasD amocasQ
    integerOp fpOp branchJump ecall ebreak sret mret wfi sfenceVma csrInstruction fcsrAccess vlutAccess vle vse vlse
    vsse vlxe vsxe vlseg vsseg vlff vlwr vswr vpref vamo faultReply vadd vsub vrsub vmul vmulh vmulhu vmulhsu vmacc
    vnmsac vmadd vdiv vdivu vrem vremu vmin vmax vminu vmaxu vand vor vxor vandn vsll vsrl vsra vsadd vsaddu vssub
    vssubu vavg vavgu vabsd vwadd vwaddu vwsub vwmul vwmulu vwmacc vnsrl vnclip vnclipu vsext vzext vcmp vmerge vmv
    vclz vctz vpopc vdot vlut4 vfadd vfsub vfmul vfdiv vfsqrt vfmadd vfmsub vfnmadd vfnmsub vfmin vfmax vfminmax
    vfcmp vfclass vfsgnj vfsgnjn vfsgnjx vfcvt vfrcp vfrsqrt vfdot2 vfwma vfrnd vslideup vslidedn vslide1up
    vslide1dn vperm vcompress viota vid vred vfredsum vfredosum vfredmin vfredmax vxget vmlog vmpopc vmfirst vmsbf
    vmsif vmsof vmspush vmselse vmspop vmsbrk vmsany vtexs vtexl vtexd vtexf vtexg4 vtexq vrqbox vrqtri vexport
    vbind vunbind vlsync vstop channelRingTransfer trapEntry uiPost uiEntry shapeChangeNotice noticeWindowExpiry
    messageDelivery messageDivert inboxDelivery hartRetire pinnedRefill pinnedEvict scratchpadEvict
    scratchpadStreamIn apertureRetry corePowerGate shadowEntryWrite swap swapBroadcastArrival dieAcknowledge
    routedRequestArrival windowTableWrite circuitSetUp circuitTearDown circuitUp circuitDown kick kickRecordFill
    microcodeLoad registerWrite queueCreate notify reportQueueNotify dispatch streamjob waitsig setsig indirect copy
    copyComplete drainMode0 drainMode1 drainMode2 drainComplete destroyMode0 destroyMode1 destroyComplete resetpart
    timerset reportWrite jobPick gangPlace jobComplete energyWindowStart watchdogExpiry clockChange beginpass state
    draw drawmesh drawind endpass geometryGangLaunch batchClose primitiveLand fragmentEmit fragmentGangLaunch
    fragmentStreamEnd blendApply renderContextSave renderContextRestore patrolScrub poisonListFree cxlPortDown
    peerFrameReceive peerLinkFail coldReset recoveryImageWrite dieTraining getMeasurements setkey tdispStateChange
    tdiError flitReplay kSetStop thermalThrottle thermalTrip hostPortAccess corePowerRestore

end Sys2Proof.Laws.DecodesBack

namespace Sys2Proof

/-- A block word's fields come apart as they were put together (02 Table 2.3): each lies wholly in one part of every
append of the word. -/
theorem BFields.unpack_pack (f : BFields) : BFields.unpack f.pack = f := by
  simp (disch := decide) only [BFields.unpack, BFields.pack, Laws.DecodesBack.app0, Laws.DecodesBack.app1,
    Nat.reduceSub, BitVec.extractLsb'_eq_self]

/-- The block word that the encoder writes for an instruction decodes to it. -/
theorem decodeBlock_of_encode {i : Instr} {w : BitVec 64} (hback : Laws.DecodesBack.Statement i)
    (hwf : i.wf = true) (hw : encode i = some (.block w)) : decodeBlock w = some i := by
  obtain ⟨-, hblock⟩ := hback hwf
  unfold encode at hw
  split at hw
  next => simp at hw
  next =>
    obtain ⟨f, hf, hpack⟩ := Option.map_eq_some_iff.mp hw
    cases hpack
    rw [decodeBlock, BFields.unpack_pack, hblock f hf, Option.filter_some, if_pos hwf]

end Sys2Proof

namespace Sys2Proof.Machine

/-- Settles O1: in either stream the fields come apart as they were put together, and they decode to the instruction
by its own law. -/
theorem encodedWordDecodesBack : Obligations.EncodedWordDecodesBack := by
  intro i w hwf hw
  have hback := Laws.DecodesBack.statement_of_instr i
  cases w with
  | scalar w => exact decodeScalar_of_encode hback hwf hw
  | block w => exact decodeBlock_of_encode hback hwf hw

end Sys2Proof.Machine
end

section
/-! PROOFS of the family 'other': every step keeps the canonical form of memory (04 Table 4.1; 00 Table 0.2), from what
each stream's step and each turn keep. -/

namespace Sys2Proof.Machine

/-- The current hart's own step keeps the form, whichever of its streams moves. -/
theorem defaultStep_keeps_wf {s t : State} (h : defaultStep s = .next t) (hs : Memory.wf s.mem = true) :
    Memory.wf t.mem = true := by
  unfold defaultStep at h
  split_ifs at h with hvector hmatrix
  · exact k_vectorStep h hs
  · exact k_exec h hs
  · exact k_scalarStep h hs

/-- A package that is powered off does a cold reset or leaves memory alone (21 R450). -/
theorem offStep_keeps_wf {s t : State} (h : offStep s = .next t) (hs : Memory.wf s.mem = true) :
    Memory.wf t.mem = true := by
  unfold offStep at h
  split at h
  next => exact k_exec h hs
  next => cases h; exact hs
  next => cases h; exact hs

/-- The step of a package that is powered off. -/
theorem step_of_unpowered {s : State} (hpow : s.pkg.powered = false) : step s = offStep s := by
  simp [step, stepOnce, hpow]

/-- The state in which a turn runs has the memory of the state before the step. -/
@[simp] theorem State.turned_mem (s : State) (rest : List Turn) : (s.turned rest).mem = s.mem := rfl

/-- Settles O2: a step is that of a package without power, the current hart's own, or the turn at the agenda's head,
and each of them keeps the form. -/
theorem everyStepKeepsMemoryForm : Obligations.EveryStepKeepsMemoryForm := by
  intro s t hs h
  have hturned : ∀ rest, Memory.wf (s.turned rest).mem = true := by simpa using hs
  cases hpow : s.pkg.powered with
  | false => exact offStep_keeps_wf (step_of_unpowered hpow ▸ h) hs
  | true =>
    cases hag : s.agenda with
    | nil => exact defaultStep_keeps_wf (step_of_no_agenda hpow hag ▸ h) (hturned _)
    | cons turn rest => exact k_runTurn (step_of_agenda hpow hag ▸ h) (hturned _)

end Sys2Proof.Machine
end

section
/-! PROOFS of the family 'other': what reset leaves (02 Table 2.8; 18 Table 18.10; 19 Table 19.8). -/

namespace Sys2Proof.Machine

/-- vcfg at reset has bit 63, VILL, alone (02 Table 2.8). -/
theorem reset_vcfg : State.reset.h.c.vcfg.getLsbD 63 = true ∧ State.reset.h.c.vcfg.toNat % 2 ^ 63 = 0 := by decide

/-- FS, UXL and SD of sstatus at reset (19 Table 19.8). -/
theorem reset_sstatus : fieldOf State.reset.h.sc.sstatus 14 13 = 3 ∧ fieldOf State.reset.h.sc.sstatus 33 32 = 2 ∧
    State.reset.h.sc.sstatus.getLsbD 63 = true := by decide

/-- MHZ of each die's power registers at reset (18 Table 18.10). -/
theorem reset_mhz (d : Fin 8) : State.reset.devGet (0xF000000001018 + 0x100 * d.val) = 1300 := by
  revert d
  decide

/-- Settles O3, register by register. That no byte of memory is listed and no reservation is held are the model's own
choices (assumptions 1 and 7). -/
theorem resetValuesOfTheSpec : Obligations.ResetValuesOfTheSpec := by
  obtain ⟨hvill, hvcfg⟩ := reset_vcfg
  obtain ⟨hfs, huxl, hsd⟩ := reset_sstatus
  exact ⟨reset_memory_wf, rfl, hvill, hvcfg, hfs, huxl, hsd, reset_mhz, rfl⟩

end Sys2Proof.Machine
end
